-- ==== Sys2Proof/Word.lean ====
section
/-! DEFINITION. Ports, tags, bytes and blocks: the plain data every other file speaks of. -/

namespace Sys2Proof

/-- A byte of the link or of a block. -/
abbrev Byte := BitVec 8

/-- The 512 bytes of one block, in wire order (00_scope.md: a block is 512 bytes). -/
abbrev BlockData := Vector Byte 512

/-- A tag, 0 to 15 (R47). -/
abbrev Tag := Fin 16

/-- The four ports P0 to P3. -/
inductive Port where
  | p0 | p1 | p2 | p3
deriving DecidableEq, Repr

/-- The port's number. -/
def Port.toNat : Port → Nat
  | .p0 => 0 | .p1 => 1 | .p2 => 2 | .p3 => 3

/-- The port with a number, where there is one. -/
def Port.ofNat? : Nat → Option Port
  | 0 => some .p0 | 1 => some .p1 | 2 => some .p2 | 3 => some .p3
  | _ => none

/-- All ports in port order. -/
def Port.all : List Port := [.p0, .p1, .p2, .p3]

/-- One value for each port. -/
structure PerPort (α : Type) where
  p0 : α
  p1 : α
  p2 : α
  p3 : α
deriving DecidableEq, Repr

/-- The value of port `p`. -/
def PerPort.get {α : Type} (v : PerPort α) : Port → α
  | .p0 => v.p0 | .p1 => v.p1 | .p2 => v.p2 | .p3 => v.p3

/-- `v` with port `p`'s value replaced. -/
def PerPort.set {α : Type} (v : PerPort α) (p : Port) (x : α) : PerPort α :=
  match p with
  | .p0 => { v with p0 := x }
  | .p1 => { v with p1 := x }
  | .p2 => { v with p2 := x }
  | .p3 => { v with p3 := x }

/-- The same value at every port. -/
def PerPort.all {α : Type} (x : α) : PerPort α := ⟨x, x, x, x⟩

end Sys2Proof
end

