-- ==== Sys2Proof/Syntax.lean ====
section
/-! DEFINITION. The events the part takes: one constructor of `Instr` for each row of spec/opcode_table.json. A request's
operands are the fields of its REQUEST frame with their wire widths (R187), so that every code a master can send, in
range or not, is an operand. -/

namespace Sys2Proof

/-- The two supply inputs that hold the part (R158). -/
inductive Pin where
  | resetN
  | pwrGood
deriving DecidableEq, Repr

/-- The integrity outcome of a media read (R107). -/
inductive Integrity where
  | good
  | corrected
  | uncorrectable
deriving DecidableEq, Repr

/-- A window of the settings block on the wire (R187). -/
structure RawWindow where
  enabled : BitVec 8
  first : BitVec 32
  last : BitVec 32
deriving DecidableEq, Repr

/-- The settings block on the wire (R187). -/
structure RawSettings where
  threshold : BitVec 16
  period : BitVec 16
  w0 : RawWindow
  w1 : RawWindow
  w2 : RawWindow
  w3 : RawWindow
deriving DecidableEq, Repr

/-- The events of the part. -/
inductive Instr where
  -- requests: a REQUEST frame that passes R180, on a port, with a tag
  | openReq (p : Port) (tag : Tag) (token : BitVec 32) (silence : BitVec 16) (quota : BitVec 8) (reqLease : BitVec 8)
  | closeReq (p : Port) (tag : Tag)
  | fence (p : Port) (tag : Tag) (target : BitVec 8)
  | unfence (p : Port) (tag : Tag) (target : BitVec 8)
  | read (p : Port) (tag : Tag) (start : BitVec 32) (count : BitVec 8)
  | write (p : Port) (tag : Tag) (start : BitVec 32) (count : BitVec 8) (flags : BitVec 8)
  | mark (p : Port) (tag : Tag) (start : BitVec 32) (count : BitVec 8) (kind : BitVec 8)
  | flush (p : Port) (tag : Tag) (scope : BitVec 8)
  | abort (p : Port) (tag : Tag) (target : BitVec 8)
  | leaseAcquire (p : Port) (tag : Tag) (start : BitVec 32) (len : BitVec 32) (mode : BitVec 8) (duration : BitVec 16) (waitLimit : BitVec 16)
  | leaseRenew (p : Port) (tag : Tag) (id : BitVec 16) (duration : BitVec 16)
  | leaseRelease (p : Port) (tag : Tag) (id : BitVec 16)
  | leaseQuery (p : Port) (tag : Tag) (start : BitVec 32) (len : BitVec 32)
  | scrubStart (p : Port) (tag : Tag)
  | scrubStop (p : Port) (tag : Tag)
  | settingsRead (p : Port) (tag : Tag)
  | settingsWrite (p : Port) (tag : Tag) (raw : RawSettings)
  | metadataReset (p : Port) (tag : Tag)
  | status (p : Port) (tag : Tag)
  | info (p : Port) (tag : Tag)
  | faultRead (p : Port) (tag : Tag) (startAge : BitVec 8) (maxCount : BitVec 8)
  | undefinedKind (p : Port) (tag : Tag) (code : BitVec 8)
  -- the other frames, and the link
  | dataIn (p : Port) (tag : Tag) (index : BitVec 8) (data : BlockData)
  | keepalive (p : Port)
  | badFrame (p : Port) (bytes : List Byte)
  | characterError (p : Port)
  | linkReset (p : Port)
  | breakEnd (p : Port)
  | pnrdyRise (p : Port)
  | finishSending (p : Port)
  | heldFrameEntry (p : Port)
  -- deadlines
  | silenceExpiry (p : Port)
  | dataDeadlineExpiry (p : Port) (tag : Tag)
  | leaseDeadlineExpiry (id : BitVec 16)
  | waitDeadlineExpiry (p : Port) (tag : Tag)
  -- steps of the blocks
  | waitListGrant
  | admission
  | heldReadRelease
  | closeDrainEnd (p : Port)
  | drainingEnd (p : Port)
  | mediaGrant
  | portReadEnd (outcome : Integrity)
  | refreshReadEnd (outcome : Integrity)
  | scrubReadEnd (outcome : Integrity)
  | scrubRoomRetry
  | scrubPassBegin
  | autoScrubStart
  | refreshStart
  | programFirstAttemptEnd (success : Bool)
  | programSecondAttemptEnd (success : Bool)
  | commitEnd (success : Bool)
  | commitWaitRelease
  | waitSetComplete
  | markComplete
  | settingsWriteComplete
  | lifetimeHoursIncrement
  -- power, reset and start-up
  | powerOn
  | reset
  | partHeld (pin : Pin)
  | copyAReadEnd (outcome : Integrity)
  | copyBReadEnd (outcome : Integrity)
  | resetCopyWriteEnd (success : Bool)
  -- remaining link and pin events
  | pnrdyFall (p : Port)
  | pnrxdReturns (p : Port)
  | delimiterReceived (p : Port)
  | heldInputChange (pin : Pin)
deriving DecidableEq, Repr

end Sys2Proof
end

