-- ==== Sys2Proof/Decode.lean ====
section
/-! DEFINITION. The command a word of spec/opcode_table.json spells. The table gives no row any bits, so no word spells one.
The frames of the links are decoded in Machine/Wire.lean from the layouts of R187. -/

namespace Sys2Proof

/-- No row of the table has bits: no word spells a command. -/
def decodeTableWord (_nbits _w : Nat) : Option Instr := none

end Sys2Proof
end

