-- ==== Sys2Proof/Config.lean ====
section
/-! DEFINITION. The capacities that 00_scope.md and R177 fix, and the free values that the spec leaves open. -/

namespace Sys2Proof.Config

/-- User blocks, addresses 0 to 262,143. -/
def userBlocks : Nat := 262144
/-- Staging frames. -/
def stagingFrames : Nat := 128
/-- Largest quota of a port. -/
def maxQuota : Nat := 96
/-- Quota in force when OPEN gives 0. -/
def defaultQuota : Nat := 32
/-- REFRESH frames at once. -/
def maxRefreshFrames : Nat := 8
/-- Lease records. -/
def maxLeases : Nat := 32
/-- Wait list entries. -/
def maxWaits : Nat := 16
/-- Largest lease duration, in units of 10 ms. -/
def maxDuration : Nat := 60000
/-- Largest wait limit, in ms. -/
def maxWaitLimit : Nat := 10000
/-- Smallest silence interval, in ms. -/
def minSilence : Nat := 20
/-- Largest silence interval, in ms. -/
def maxSilence : Nat := 10000
/-- Data deadline, in ms. -/
def dataDeadline : Nat := 250
/-- Poison map entries. -/
def maxPoison : Nat := 512
/-- Remap table entries and spares. -/
def spareBlocks : Nat := 256
/-- Refresh list entries. -/
def maxRefresh : Nat := 8
/-- Largest auto-scrub period, in hours. -/
def maxPeriod : Nat := 168
/-- Largest spare-low threshold. -/
def maxThreshold : Nat := 255
/-- Default spare-low threshold. -/
def defaultThreshold : Nat := 16
/-- Records of the fault ring. -/
def maxFaults : Nat := 32
/-- Ceiling of the fault total count. -/
def maxFaultTotal : Nat := 4294967295
/-- Notice slots of a port. -/
def maxNotices : Nat := 8
/-- Ceiling of the lost-notice count. -/
def maxLost : Nat := 65535
/-- Response frames at which a port's queue holds back (R182, R183). -/
def maxResponses : Nat := 32
/-- Port reads in a row before a waiting program is served (R110). -/
def maxReadRun : Nat := 8
/-- Consecutive commit failures before SAFE (R157). -/
def maxCommitFailures : Nat := 3
/-- Milliseconds of an hour (R154). -/
def msPerHour : Nat := 3600000

/-- FREE VALUE (log 5): what the media location `loc` held before anything was written to it. -/
opaque unwrittenBlock : Nat → BlockData

/-- FREE VALUE (log 6): the undefined contents that a failed program leaves (R107); its argument is the
number of the free value. -/
opaque failedProgram : Nat → BlockData

/-- FREE VALUE (log 6): whether a program cut off by power-on or RESET leaves the new contents (R107). -/
opaque interruptedKeepsNew : Nat → Bool

end Sys2Proof.Config
end

