-- ==== Sys2Proof/Machine/State.lean ====
section
/-! DEFINITION. The state of the part, block by block as 00_scope.md lists the blocks, and its values after reset. Times and
deadlines are values of the power-on ms count (R154). -/

namespace Sys2Proof.Machine

/-- Completion statuses (R187, status codes). -/
inductive Status where
  | ok | aborted | tagInUse | invalid | outOfRange | quotaExceeded | leaseConflict | notLeased | leaseTableFull
  | waitListFull | leaseWaitExpired | noSuchLease | overlapSelf | dataTimeout | dataSequence | poisoned | unreadable
  | dataLost | flushIncomplete | poisonMapFull | noSession | alreadyOpen | closing | busy | fenced | already | notFenced
  | notRunning | noSuchTag | tooLate | notReady | safeMode | notSafe | metadataFailed
deriving DecidableEq, Repr

/-! ### Records shared by several blocks -/

/-- Lease mode (R25). -/
inductive LeaseMode where
  | shared
  | exclusive
deriving DecidableEq, Repr

/-- The kinds a MARK can give (R47). -/
inductive MarkKind where
  | reported
  | quiet
deriving DecidableEq, Repr

/-- The kinds of a poison map entry (R126). -/
inductive PoisonKind where
  | reported
  | quiet
  | media
deriving DecidableEq, Repr

/-- Who started a scrub pass (R141). -/
inductive Starter where
  | port (p : Port)
  | auto
deriving DecidableEq, Repr

/-- How a scrub pass ended (R141); `none` before any end. -/
inductive EndReason where
  | none
  | completed
  | stopped
deriving DecidableEq, Repr

/-- The five counts of a scrub pass (R141). -/
structure ScrubCounts where
  checked : Nat := 0
  corrected : Nat := 0
  poisoned : Nat := 0
  skipped : Nat := 0
  unrecorded : Nat := 0
deriving DecidableEq, Repr

/-- End reason, starter and counts, as a SCRUB_PASS record and a SCRUB_ENDED notice carry them (R149). -/
structure ScrubSummary where
  reason : EndReason
  startedBy : Option Starter
  counts : ScrubCounts
deriving DecidableEq, Repr

/-- The two metadata copies (R153). -/
inductive CopyId where
  | a
  | b
deriving DecidableEq, Repr

/-- Kinds of fault record (R167). -/
inductive FaultKind where
  | mediaUncorrectable | programFailedRemapped | programFailedLost | poisonReadReported | poisonMapFull | sparesLow
  | scrubPass | scrubInterrupted | metadataCopyBad | metadataCommitFailed | metadataReset | portLapsed | portFenced
deriving DecidableEq, Repr

/-- The operation that found a failure (R167). -/
inductive FaultSource where
  | portRead
  | refreshRead
  | scrubRead
  | program
deriving DecidableEq, Repr

/-- The kind and the optional fields of a fault record (R167); a producer fills the fields its kind carries. -/
structure FaultInfo where
  kind : FaultKind
  block : Option Nat := none
  port : Option Port := none
  otherPort : Option Port := none
  session : Option (BitVec 16) := none
  frameSeq : Option (BitVec 32) := none
  source : Option FaultSource := none
  copy : Option CopyId := none
  generation : Option (BitVec 32) := none
  spareCounts : Option (Nat × Nat) := none
  scrub : Option ScrubSummary := none
deriving DecidableEq, Repr

/-- A fault record: the common fields and the producer's (R167, R168). -/
structure FaultRec where
  seq : Nat
  ms : Nat
  hours : Nat
  info : FaultInfo
deriving DecidableEq, Repr

/-- A scrub window (R140). -/
structure Window where
  enabled : Bool
  first : Nat
  last : Nat
deriving DecidableEq, Repr

/-- The settings (R164): spare-low threshold, windows 0 to 3, auto-scrub period in hours. -/
structure Settings where
  threshold : Nat
  period : Nat
  w0 : Window
  w1 : Window
  w2 : Window
  w3 : Window
deriving DecidableEq, Repr

/-- The default window (R140). -/
def Window.default : Window := { enabled := false, first := 0, last := 262143 }

/-- The default settings (R140, R164). -/
def Settings.default : Settings :=
  { threshold := 16, period := 0, w0 := .default, w1 := .default, w2 := .default, w3 := .default }

/-! ### Link frames the part sends, and the link controller (chapter 11) -/

/-- A lease as LEASE QUERY returns it (R40). -/
structure LeaseReport where
  id : BitVec 16
  holder : Port
  session : BitVec 16
  token : BitVec 32
  start : Nat
  len : Nat
  mode : LeaseMode
  granted : Nat
  deadline : Nat
deriving DecidableEq, Repr

/-- Device state (R162). -/
inductive Device where
  | starting
  | ready
  | safe
deriving DecidableEq, Repr

/-- Scrub engine state (R141). -/
inductive ScrubState where
  | idle
  | running
  | stopping
deriving DecidableEq, Repr

/-- Check phase (R141). -/
inductive CheckPhase where
  | absent
  | requested
  | reading
  | waitingRoom
deriving DecidableEq, Repr

/-- The status record (R176). -/
structure StatusRec where
  device : Device
  scrubState : ScrubState
  ms : Nat
  hours : Nat
  free : Nat
  filling : Nat
  dirty : Nat
  programming : Nat
  clean : Nat
  refresh : Nat
  attributed : Nat
  quota : Nat
  session : BitVec 16
  leases : Nat
  waits : Nat
  poison : Nat
  remaps : Nat
  freeSpares : Nat
  refreshList : Nat
  scrubPending : Bool
  startedBy : Option Starter
  windowIndex : Nat
  nextBlock : Nat
  blockInCheck : Option Nat
  phase : CheckPhase
  lastEnd : EndReason
  counts : ScrubCounts
  faultTotal : Nat
  generation : BitVec 32
  pendingChanges : Nat
  linkErrors : BitVec 32
  notices : Nat
  lost : Nat
deriving DecidableEq, Repr

/-- The result fields of a completion (R187, completion result fields). -/
inductive Result where
  | none
  | opened (number : BitVec 16) (quota silence attributed : Nat)
  | read (delivered : Nat) (kind : Option MarkKind)
  | write (blocks lost : Nat)
  | mark (blocks superseded : Nat)
  | flush (entries lost : Nat)
  | leaseAcquire (id : BitVec 16) (granted deadline : Nat)
  | leaseRenew (deadline : Nat)
  | leaseQuery (leases : List LeaseReport)
  | settings (x : Settings)
  | status (x : StatusRec)
  | info
  | faultRead (total held : Nat) (recs : List FaultRec)
deriving DecidableEq, Repr

/-- The body of a notice (R171). -/
inductive Notice where
  | leaseLapsed (id : BitVec 16) (start len : Nat) (mode : LeaseMode) (deadline : Nat)
  | fenced (port : Port) (session : BitVec 16) (token : BitVec 32)
  | poisonRead (block : Nat) (reader : Port) (origin : Option Port) (time : Option (Nat × Nat))
  | dataLost (block : Nat) (seq : BitVec 32)
  | sparesLow (free threshold : Nat)
  | scrubEnded (summary : ScrubSummary)
deriving DecidableEq, Repr

/-- A link frame the part sends (R187). -/
inductive TxFrame where
  | completion (tag : Tag) (status : Status) (code : BitVec 8) (result : Result)
  | go (tag : Tag) (count : Nat)
  | dataOut (tag : Tag) (index : Nat) (data : BlockData)
  | notice (lost ms : Nat) (body : Notice)
deriving DecidableEq, Repr

/-- Receive framing (R179). HEADER and BODY hold the bytes of the frame in progress after its delimiter, in order of
arrival; BODY knows the length. -/
inductive Framing where
  | hunt
  | header (bytes : List Byte)
  | body (length : Nat) (bytes : List Byte)
deriving DecidableEq, Repr

/-- A GO or DATA-OUT frame the link controller holds, with the completion of the same command that waits behind it (R183). -/
structure HeldFrame where
  frame : TxFrame
  behind : Option TxFrame := none
deriving DecidableEq, Repr

/-- A link controller (R178 to R186) with the levels of its input pins. -/
structure Lc where
  /-- receive framing (R179) -/
  framing : Framing := .hunt
  /-- a character error whose low level has not yet returned or become a break, and whether it hit a frame (R178) -/
  charErr : Option Bool := none
  /-- a break has been detected and PnRXD is still at 0 (R185) -/
  breakHeld : Bool := false
  /-- level of PnRDY (R178) -/
  rdy : Bool := false
  /-- link error count (R181) -/
  errors : BitVec 32 := 0
  /-- transmit queue, the frame being sent first (R183) -/
  txq : List TxFrame := []
  /-- the head of the queue has been begun and not finished (R184) -/
  sending : Bool := false
  /-- held frames, oldest first (R183) -/
  held : List HeldFrame := []
  /-- lost-notice count (R173) -/
  lost : Nat := 0
deriving DecidableEq, Repr

/-! ### Session Unit (chapter 5) -/

/-- Session states (R89). -/
inductive SessState where
  | closed
  | opened
  | closing
  | draining
deriving DecidableEq, Repr

/-- A port's session record and fence flag (R89, R101). -/
structure Session where
  state : SessState := .closed
  number : BitVec 16 := 0
  token : BitVec 32 := 0
  silence : Nat := 0
  quota : Nat := 0
  reqLease : Bool := false
  deadline : Option Nat := none
  fenced : Bool := false
deriving DecidableEq, Repr

/-! ### Command Table (chapter 3) -/

/-- Port and tag: the name of a command (R47). -/
structure Key where
  port : Port
  tag : Tag
deriving DecidableEq, Repr

/-- Command states (R48). -/
inductive CmdState where
  | queued
  | held
  | waiting
  | filling
  | reading
  | settling
  | sending
deriving DecidableEq, Repr

/-- Resolution of a wait set entry (R19). -/
inductive Resolution where
  | pending
  | ok
  | lost
deriving DecidableEq, Repr

/-- A wait set entry (R19). -/
structure SetEntry where
  block : Nat
  seq : BitVec 32
  res : Resolution := .pending
deriving DecidableEq, Repr

/-- Parameters of a LEASE ACQUIRE (R47). -/
structure LeaseParams where
  start : Nat
  len : Nat
  mode : LeaseMode
  duration : Nat
  waitLimit : Nat
deriving DecidableEq, Repr

/-- A command record (R47). A field that R47 gives to other kinds keeps its default. -/
structure Cmd where
  key : Key
  /-- the request-kind code -/
  code : BitVec 8
  state : CmdState
  /-- place in the single order of receipt (R52) -/
  receipt : Nat
  start : Nat := 0
  /-- blocks of the command; an ABORT cuts a READ's (R66) -/
  count : Nat := 0
  /-- DURABLE (WRITE) -/
  durable : Bool := false
  /-- scope ALL (FLUSH) -/
  scopeAll : Bool := false
  /-- kind (MARK) -/
  kind : MarkKind := .reported
  /-- next expected data index (WRITE), next index (READ, R69) -/
  next : Nat := 0
  /-- index of the block in progress (READ, R69) -/
  inProgress : Option Nat := none
  /-- index of the pending DATA-OUT (READ, R69) -/
  dataPending : Option Nat := none
  /-- an ABORT has been taken while a block was in progress (R66) -/
  aborted : Bool := false
  /-- receipt places of the commands a HELD READ waits on (R59) -/
  holdSet : List Nat := []
  /-- the wait set the Staging Buffer keeps for the command (R19) -/
  waitSet : List SetEntry := []
  lease : Option LeaseParams := none
  /-- data deadline (R76) -/
  deadline : Option Nat := none
  /-- number of the change a SCRUB START or SETTINGS WRITE waits on (R155) -/
  change : Nat := 0
  /-- a result that is decided and not yet handed to the link controller (R48, R49) -/
  result : Option (Status × Result) := none
deriving DecidableEq, Repr

/-- The Command Table: the records of the four tag tables in order of receipt, the admission queue, and the entry at which
the last admission scan stopped for frames (R47, R53, R57). -/
structure CommandTable where
  recs : List Cmd := []
  queue : List Key := []
  /-- the next place in the order of receipt (R52) -/
  nextReceipt : Nat := 0
  stop : Option Key := none
deriving DecidableEq, Repr

/-! ### Staging Buffer (chapter 1) -/

/-- States of a listed staging frame; a frame that is not listed is FREE (R1, R2). -/
inductive FrameState where
  | filling
  | dirty
  | programming
  | clean
deriving DecidableEq, Repr

/-- Writer of a frame (R2). -/
inductive Writer where
  | port (p : Port)
  | refresh
deriving DecidableEq, Repr

/-- Content of a frame (R2). -/
inductive Content where
  | data
  | mark (k : MarkKind)
deriving DecidableEq, Repr

/-- A staging frame that is not FREE (R2). -/
structure Frame where
  idx : Nat
  state : FrameState
  block : Nat
  writer : Option Writer
  cmd : Option Key
  content : Content
  seq : Option (BitVec 32)
  data : Option BlockData
deriving DecidableEq, Repr

/-- The Staging Buffer: the frames that are not FREE in rising index, the program queue, the clean list with the least
recently used frame first, and the device sequence counter (R1, R8, R12, R14). -/
structure Staging where
  frames : List Frame := []
  progQ : List Nat := []
  clean : List Nat := []
  seq : BitVec 32 := 0
deriving DecidableEq, Repr

/-! ### Lease Unit (chapter 2) -/

/-- A lease record (R24). -/
structure Lease where
  id : BitVec 16
  holder : Port
  session : BitVec 16
  start : Nat
  len : Nat
  mode : LeaseMode
  deadline : Nat
  granted : Nat
deriving DecidableEq, Repr

/-- A wait list entry (R28). -/
structure Wait where
  key : Key
  start : Nat
  len : Nat
  mode : LeaseMode
  duration : Nat
  deadline : Nat
deriving DecidableEq, Repr

/-- The Lease Unit (R24, R27, R28). -/
structure LeaseUnit where
  table : List Lease := []
  waits : List Wait := []
  nextId : BitVec 16 := 1
deriving DecidableEq, Repr

/-! ### Metadata set (chapter 9) -/

/-- A poison map entry (R126). -/
structure PoisonEntry where
  block : Nat
  kind : PoisonKind
  origin : Option Port
  hours : Nat
  ms : Nat
deriving DecidableEq, Repr

/-- A spare that is not FREE (R119). -/
inductive SpareUse where
  | inUse
  | retired
deriving DecidableEq, Repr

/-- A remap table entry (R119). -/
structure Remap where
  block : Nat
  spare : Nat
deriving DecidableEq, Repr

/-- A listed spare; a spare that is not listed is FREE. -/
structure Spare where
  idx : Nat
  use : SpareUse
deriving DecidableEq, Repr

/-- An image of the metadata set (R152). -/
structure MetaImage where
  poison : List PoisonEntry
  remap : List Remap
  spares : List Spare
  ring : List FaultRec
  total : Nat
  settings : Settings
  scrubMark : Bool
  hours : Nat
deriving DecidableEq, Repr

/-- A metadata copy on the media (R153). -/
structure MetaCopy where
  generation : BitVec 32
  image : MetaImage
  checksum : BitVec 8
deriving DecidableEq, Repr

/-! ### Media and Media Engine (chapter 6) -/

/-- What the media keeps without power: the written locations in rising order (home locations 0 to 262,143, then the
spares), and the two metadata copies; a copy that its last write left undefined fails every check and is absent (R107,
R153; log 8). -/
structure Disk where
  store : List (Nat × BlockData) := []
  copyA : Option MetaCopy
  copyB : Option MetaCopy
deriving DecidableEq, Repr

/-- A PORT_READ request: the READ's name and place in the order of receipt, the index and the block (R72, R109), and what the
media held for the block at the lookup, which is what the READ delivers (R70, R74; log 36). -/
structure PortReq where
  key : Key
  receipt : Nat
  index : Nat
  block : Nat
  seen : BlockData
deriving DecidableEq, Repr

/-- A waiting request of class COMMIT: a commit (R156), a start-up read (R159), a copy write of METADATA RESET (R166). -/
inductive CommitReq where
  | commit
  | readCopy (c : CopyId)
  | resetWrite (c : CopyId)
deriving DecidableEq, Repr

/-- The operation the media performs (R111). `program` holds the data the media has taken, and the spare of a second
attempt. -/
inductive MediaOp where
  | portRead (req : PortReq) (loc : Nat)
  | refreshRead (frame block loc : Nat)
  | scrubRead (block loc : Nat)
  | program (frame block loc : Nat) (data : BlockData) (spare : Option Nat)
  | copyRead (c : CopyId)
  | commit (c : CopyId) (generation : BitVec 32) (image : MetaImage)
  | resetWrite (c : CopyId)
deriving DecidableEq, Repr

/-- The current operation record; `discard` says that a METADATA RESET has cut it off from its requester (R125). -/
structure CurrentOp where
  op : MediaOp
  discard : Bool := false
deriving DecidableEq, Repr

/-- A program outcome (R13). -/
inductive ProgOutcome where
  | ok
  | lost
deriving DecidableEq, Repr

/-- A commit wait list entry (R117) with the number of the last change its program made (R155). -/
structure CommitWait where
  frame : Nat
  outcome : ProgOutcome
  change : Nat
deriving DecidableEq, Repr

/-- Origin of a refresh list entry (R121). -/
inductive Origin where
  | read
  | scrub
deriving DecidableEq, Repr

/-- A refresh list entry (R121). -/
structure RefreshEntry where
  block : Nat
  origin : Origin
  started : Option Nat := none
deriving DecidableEq, Repr

/-- A REFRESH_READ request: the refresh frame and its block (R122). -/
structure RefreshReq where
  frame : Nat
  block : Nat
deriving DecidableEq, Repr

/-- The Media Engine. -/
structure MediaEngine where
  current : Option CurrentOp := none
  portReads : List PortReq := []
  commitReq : Option CommitReq := none
  refreshReads : List RefreshReq := []
  scrubReq : Option Nat := none
  readRun : Nat := 0
  commitWait : List CommitWait := []
  remap : List Remap := []
  spares : List Spare := []
  refresh : List RefreshEntry := []
  spareLow : Bool := false
deriving DecidableEq, Repr

/-! ### Integrity Unit (chapters 7 and 8) -/

/-- A mark tally entry (R134); `blocks` is the MARK's count N. -/
structure Tally where
  key : Key
  blocks : Nat
  frames : List (Nat × BitVec 32)
  superseded : Nat
deriving DecidableEq, Repr

/-- Poison map and mark tally (R126, R134). -/
structure IntegrityUnit where
  poison : List PoisonEntry := []
  tally : List Tally := []
deriving DecidableEq, Repr

/-- The scrub engine (R141, R144), with the change its pending pass waits on (R155). -/
structure Scrub where
  state : ScrubState := .idle
  startedBy : Option Starter := none
  pending : Bool := false
  window : Nat := 0
  next : Nat := 0
  inCheck : Option Nat := none
  phase : CheckPhase := .absent
  counts : ScrubCounts := {}
  lastEnd : EndReason := .none
  change : Nat := 0
  autoRef : Nat := 0
deriving DecidableEq, Repr

/-! ### Metadata Unit, Fault List, Timebase (chapters 9 and 10) -/

/-- The Metadata Unit, with the settings and the scrub-running mark of the volatile metadata set. The snapshot number is absent
while no commit is in progress, at power-on, RESET and METADATA RESET too (R155; log 32). -/
structure MetaUnit where
  device : Device := .starting
  changes : Nat := 0
  committed : Nat := 0
  snapshot : Option Nat := none
  current : Option (CopyId × BitVec 32) := none
  failures : Nat := 0
  settings : Settings := .default
  scrubMark : Bool := false
  /-- the verdict on copy A between the two start-up reads (R159) -/
  verdictA : Option Bool := none
  /-- a start-up commit is due, with the change number READY waits on (R155, R161) -/
  startUp : Option Nat := none
  /-- the reset image while the copy writes of METADATA RESET run (R165, R166) -/
  resetImage : Option MetaImage := none
deriving DecidableEq, Repr

/-- The Fault List, oldest record first (R168). -/
structure FaultList where
  ring : List FaultRec := []
  total : Nat := 0
deriving DecidableEq, Repr

/-- The Timebase (R154), with the number of whole hours of this power-on period already counted. -/
structure Timebase where
  ms : Nat := 0
  hours : Nat := 0
  hourDone : Nat := 0
deriving DecidableEq, Repr

/-- Levels of the supply and reset inputs (R158). -/
structure Pins where
  resetN : Bool := true
  pwrGood : Bool := true
deriving DecidableEq, Repr

/-- The part without the queue of events: every block's state. -/
structure Part where
  pins : Pins
  links : PerPort Lc
  sess : PerPort Session
  cmds : CommandTable
  sb : Staging
  lease : LeaseUnit
  media : MediaEngine
  disk : Disk
  integ : IntegrityUnit
  scrub : Scrub
  md : MetaUnit
  faults : FaultList
  time : Timebase
  /-- number of free values taken so far (log 6) -/
  free : Nat
deriving DecidableEq, Repr

/-- The state of the model: the part, and the events that wait to be taken, first in, first out. -/
structure State where
  part : Part
  pending : List Instr
deriving DecidableEq, Repr

/-- No event of this part stops it: a failure is a completion status, a notice, a fault record or the device state SAFE
(R162, R167). No constructor is needed, and none is raised; this is safe. -/
inductive Fault where
deriving DecidableEq, Repr

/-- Why the model has no meaning for an event. -/
inductive Refusal where
  /-- An event whose meaning has not been written; raised only by an arm of `exec`, and by none now. Safe: nothing can be
  proved of an event that is refused. -/
  | notModelled (mnemonic : String)
deriving DecidableEq, Repr

/-! ### Updates of the part, one for each block -/

namespace Part

def withPins (s : Part) (x : Pins) : Part := { s with pins := x }
def withLinks (s : Part) (x : PerPort Lc) : Part := { s with links := x }
def withSess (s : Part) (x : PerPort Session) : Part := { s with sess := x }
def withCmds (s : Part) (x : CommandTable) : Part := { s with cmds := x }
def withSb (s : Part) (x : Staging) : Part := { s with sb := x }
def withLease (s : Part) (x : LeaseUnit) : Part := { s with lease := x }
def withMedia (s : Part) (x : MediaEngine) : Part := { s with media := x }
def withDisk (s : Part) (x : Disk) : Part := { s with disk := x }
def withInteg (s : Part) (x : IntegrityUnit) : Part := { s with integ := x }
def withScrub (s : Part) (x : Scrub) : Part := { s with scrub := x }
def withMd (s : Part) (x : MetaUnit) : Part := { s with md := x }
def withFaults (s : Part) (x : FaultList) : Part := { s with faults := x }
def withTime (s : Part) (x : Timebase) : Part := { s with time := x }
def withFree (s : Part) (x : Nat) : Part := { s with free := x }

end Part

/-- `s` with its part replaced; the queue of events stays. -/
def State.withPart (s : State) (x : Part) : State := { s with part := x }

/-! ### Reset -/

/-- The image of a metadata set with nothing in it (R160 without its fault records). -/
def MetaImage.blank : MetaImage :=
  { poison := [], remap := [], spares := [], ring := [], total := 0, settings := .default, scrubMark := false, hours := 0 }

/-- A copy with generation 1 and the blank image. Its checksum is the two's complement of the sum of its other bytes (R153):
the generation gives 1, the thresholds and the four windows' ends (each 0xFF, 0xFF, 0x03) give the rest. -/
def MetaCopy.factory : MetaCopy := { generation := 1, image := .blank, checksum := 0xEB }

/-- The part right after power-on or RESET (R158): every block at its reset values (R22, R46, R68, R106, R124, R139, R151,
R155, R170, R186), and the start-up read of copy A, whose request found the media idle, granted (R111, R159). What the
media holds and the levels of PnRDY are the model's choices (logs 5, 7, 9). -/
def Part.reset : Part :=
  { pins := {}
    links := .all {}
    sess := .all {}
    cmds := {}
    sb := {}
    lease := {}
    media := { current := some { op := .copyRead .a } }
    disk := { copyA := some .factory, copyB := some .factory }
    integ := {}
    scrub := {}
    md := {}
    faults := {}
    time := {}
    free := 0 }

/-- The machine right after reset, with no event waiting. -/
def State.reset : State := { part := .reset, pending := [] }

end Sys2Proof.Machine
end

