-- ==== Sys2Proof/WellFormed.lean ====
section
/-! DEFINITION. What an event's operands must satisfy to be that event at all. A value that the part itself refuses with a
status (a count of 0, an unknown mode) is well formed: the refusal is its meaning. -/

namespace Sys2Proof

/-- The request-kind codes of the table of R187. -/
def requestCodes : List (BitVec 8) :=
  [0x01#8, 0x02#8, 0x03#8, 0x04#8, 0x10#8, 0x11#8, 0x12#8, 0x13#8, 0x14#8, 0x20#8, 0x21#8, 0x22#8, 0x23#8,
   0x30#8, 0x31#8, 0x40#8, 0x41#8, 0x42#8, 0x50#8, 0x51#8, 0x52#8]

/-- The part defines the request-kind code (R50, check 2). -/
def definedCode (code : BitVec 8) : Bool := requestCodes.contains code

/-- An event is well formed: an undefined request kind carries a code outside the table of R187 (R50), bytes that a frame
was found bad in are at least one byte (R179), and an expiring lease has an id, 1 to 65,535 (R24). -/
def Instr.wellFormed : Instr → Bool
  | .undefinedKind _ _ code => !definedCode code
  | .badFrame _ bytes => !bytes.isEmpty
  | .leaseDeadlineExpiry id => id != 0#16
  | .openReq _ _ _ _ _ _ | .closeReq _ _ | .fence _ _ _ | .unfence _ _ _ | .read _ _ _ _ | .write _ _ _ _ _
  | .mark _ _ _ _ _ | .flush _ _ _ | .abort _ _ _ | .leaseAcquire _ _ _ _ _ _ _ | .leaseRenew _ _ _ _
  | .leaseRelease _ _ _ | .leaseQuery _ _ _ _ | .scrubStart _ _ | .scrubStop _ _ | .settingsRead _ _
  | .settingsWrite _ _ _ | .metadataReset _ _ | .status _ _ | .info _ _ | .faultRead _ _ _ _ | .dataIn _ _ _ _
  | .keepalive _ | .characterError _ | .linkReset _ | .breakEnd _ | .pnrdyRise _ | .finishSending _
  | .heldFrameEntry _ | .silenceExpiry _ | .dataDeadlineExpiry _ _ | .waitDeadlineExpiry _ _ | .waitListGrant
  | .admission | .heldReadRelease | .closeDrainEnd _ | .drainingEnd _ | .mediaGrant | .portReadEnd _
  | .refreshReadEnd _ | .scrubReadEnd _ | .scrubRoomRetry | .scrubPassBegin | .autoScrubStart | .refreshStart
  | .programFirstAttemptEnd _ | .programSecondAttemptEnd _ | .commitEnd _ | .commitWaitRelease | .waitSetComplete
  | .markComplete | .settingsWriteComplete | .lifetimeHoursIncrement | .powerOn | .reset | .partHeld _
  | .copyAReadEnd _ | .copyBReadEnd _ | .resetCopyWriteEnd _ | .pnrdyFall _ | .pnrxdReturns _ | .delimiterReceived _
  | .heldInputChange _ => true

end Sys2Proof
end

