-- ==== Sys2Proof/Machine/Wire.lean ====
section
/-! DEFINITION. The wire formats of chapter 11: byte order, CRC-32, the layouts of the frames the part sends and takes (R187),
receive framing (R179, R180), and the byte sum of a metadata copy (R153). -/

namespace Sys2Proof.Machine

/-! ### Bytes -/

/-- The `n` bytes of a number, least significant first (R187: little-endian). -/
def le (n x : Nat) : List Byte := (List.range n).map fun i => BitVec.ofNat 8 (x >>> (8 * i))

/-- The number that bytes spell, least significant first. -/
def ofLe : List Byte → Nat
  | [] => 0
  | b :: bs => b.toNat + 256 * ofLe bs

/-- One bit of the CRC-32 with polynomial 0x04C11DB7 taken least significant bit first (R187): the polynomial reflected. -/
def crcBit (c : BitVec 32) : BitVec 32 :=
  if c.getLsbD 0 then (c >>> 1) ^^^ 0xEDB88320#32 else c >>> 1

/-- One byte of the CRC-32. -/
def crcByte (c : BitVec 32) (b : Byte) : BitVec 32 :=
  crcBit (crcBit (crcBit (crcBit (crcBit (crcBit (crcBit (crcBit (c ^^^ b.setWidth 32))))))))

/-- CRC-32: initial value 0xFFFFFFFF, result complemented (R187). -/
def crc32 (bs : List Byte) : BitVec 32 := ~~~ (bs.foldl crcByte 0xFFFFFFFF#32)

/-! ### Codes (R187) -/

/-- Status codes. -/
def Status.code : Status → Byte
  | .ok => 0x00 | .aborted => 0x01 | .tagInUse => 0x02 | .invalid => 0x03 | .outOfRange => 0x04 | .quotaExceeded => 0x05
  | .leaseConflict => 0x06 | .notLeased => 0x07 | .leaseTableFull => 0x08 | .waitListFull => 0x09
  | .leaseWaitExpired => 0x0A | .noSuchLease => 0x0B | .overlapSelf => 0x0C | .dataTimeout => 0x0D | .dataSequence => 0x0E
  | .poisoned => 0x0F | .unreadable => 0x10 | .dataLost => 0x11 | .flushIncomplete => 0x12 | .poisonMapFull => 0x13
  | .noSession => 0x14 | .alreadyOpen => 0x15 | .closing => 0x16 | .busy => 0x17 | .fenced => 0x18 | .already => 0x19
  | .notFenced => 0x1A | .notRunning => 0x1B | .noSuchTag => 0x1C | .tooLate => 0x1D | .notReady => 0x1E
  | .safeMode => 0x1F | .notSafe => 0x20 | .metadataFailed => 0x21

def LeaseMode.code : LeaseMode → Nat
  | .shared => 1 | .exclusive => 2

def MarkKind.code : MarkKind → Nat
  | .reported => 1 | .quiet => 2

def Device.code : Device → Nat
  | .starting => 0 | .ready => 1 | .safe => 2

def ScrubState.code : ScrubState → Nat
  | .idle => 0 | .running => 1 | .stopping => 2

def CheckPhase.code : CheckPhase → Nat
  | .absent => 0 | .requested => 1 | .reading => 2 | .waitingRoom => 3

def EndReason.code : EndReason → Nat
  | .none => 0 | .completed => 1 | .stopped => 2

/-- Started by: 0 to 3 port, 4 AUTO, 0xFF absent. -/
def starterCode : Option Starter → Nat
  | some (.port p) => p.toNat | some .auto => 4 | none => 0xFF

/-- A port field, 0xFF when absent. -/
def portCode : Option Port → Nat
  | some p => p.toNat | none => 0xFF

def FaultSource.code : FaultSource → Nat
  | .portRead => 1 | .refreshRead => 2 | .scrubRead => 3 | .program => 4

def CopyId.code : CopyId → Nat
  | .a => 0 | .b => 1

def FaultKind.code : FaultKind → Nat
  | .mediaUncorrectable => 1 | .programFailedRemapped => 2 | .programFailedLost => 3 | .poisonReadReported => 4
  | .poisonMapFull => 5 | .sparesLow => 6 | .scrubPass => 7 | .scrubInterrupted => 8 | .metadataCopyBad => 9
  | .metadataCommitFailed => 10 | .metadataReset => 11 | .portLapsed => 12 | .portFenced => 13

/-- Request-kind codes (R187). -/
def codeOpen : Byte := 0x01
def codeClose : Byte := 0x02
def codeFence : Byte := 0x03
def codeUnfence : Byte := 0x04
def codeRead : Byte := 0x10
def codeWrite : Byte := 0x11
def codeMark : Byte := 0x12
def codeFlush : Byte := 0x13
def codeAbort : Byte := 0x14
def codeLeaseAcquire : Byte := 0x20
def codeLeaseRenew : Byte := 0x21
def codeLeaseRelease : Byte := 0x22
def codeLeaseQuery : Byte := 0x23
def codeScrubStart : Byte := 0x30
def codeScrubStop : Byte := 0x31
def codeSettingsRead : Byte := 0x40
def codeSettingsWrite : Byte := 0x41
def codeMetadataReset : Byte := 0x42
def codeStatus : Byte := 0x50
def codeInfo : Byte := 0x51
def codeFaultRead : Byte := 0x52

/-! ### Records (R187) -/

def bit (b : Bool) : Nat := if b then 1 else 0

def Window.bytes (w : Window) : List Byte := le 1 (bit w.enabled) ++ le 4 w.first ++ le 4 w.last

/-- The settings block, 40 bytes. -/
def Settings.bytes (x : Settings) : List Byte :=
  le 2 x.threshold ++ le 2 x.period ++ x.w0.bytes ++ x.w1.bytes ++ x.w2.bytes ++ x.w3.bytes

def ScrubCounts.bytes (c : ScrubCounts) : List Byte :=
  le 4 c.checked ++ le 4 c.corrected ++ le 4 c.poisoned ++ le 4 c.skipped ++ le 4 c.unrecorded

/-- Lease record, 30 bytes. -/
def LeaseReport.bytes (l : LeaseReport) : List Byte :=
  le 2 l.id.toNat ++ le 1 l.holder.toNat ++ le 2 l.session.toNat ++ le 4 l.token.toNat ++ le 4 l.start ++ le 4 l.len ++
    le 1 l.mode.code ++ le 6 l.granted ++ le 6 l.deadline

/-- The presence field of a fault record: bit k for the k-th optional field of R187. Bit 6, for copy and generation together, is
set where the copy is present, and so in METADATA_COPY_BAD too, which has no generation (log 40). -/
def FaultInfo.presence (i : FaultInfo) : Nat :=
  bit i.block.isSome + 2 * bit i.port.isSome + 4 * bit i.otherPort.isSome + 8 * bit i.session.isSome +
    16 * bit i.frameSeq.isSome + 32 * bit i.source.isSome + 64 * bit i.copy.isSome + 128 * bit i.spareCounts.isSome +
    256 * bit i.scrub.isSome

/-- Fault record, 64 bytes. An absent port or starter is 0xFF, another absent field 0. -/
def FaultRec.bytes (r : FaultRec) : List Byte :=
  let i := r.info
  le 4 r.seq ++ le 1 i.kind.code ++ le 1 0 ++ le 2 i.presence ++ le 6 r.ms ++ le 4 r.hours ++ le 4 (i.block.getD 0) ++
    le 1 (portCode i.port) ++ le 1 (portCode i.otherPort) ++ le 2 ((i.session.map (·.toNat)).getD 0) ++
    le 4 ((i.frameSeq.map (·.toNat)).getD 0) ++ le 1 ((i.source.map (·.code)).getD 0) ++
    le 1 ((i.copy.map (·.code)).getD 0) ++ le 4 ((i.generation.map (·.toNat)).getD 0) ++
    le 2 ((i.spareCounts.map (·.1)).getD 0) ++ le 1 ((i.spareCounts.map (·.2)).getD 0) ++
    le 1 ((i.scrub.map (·.reason.code)).getD 0) ++ le 1 (starterCode (i.scrub.bind (·.startedBy))) ++ le 3 0 ++
    (match i.scrub with | some x => x.counts | none => {}).bytes

/-- Status record, 84 bytes. An absent block in check is 0. -/
def StatusRec.bytes (x : StatusRec) : List Byte :=
  le 1 x.device.code ++ le 1 x.scrubState.code ++ le 6 x.ms ++ le 4 x.hours ++ le 1 x.free ++ le 1 x.filling ++
    le 1 x.dirty ++ le 1 x.programming ++ le 1 x.clean ++ le 1 x.refresh ++ le 1 x.attributed ++ le 1 x.quota ++
    le 2 x.session.toNat ++ le 1 x.leases ++ le 1 x.waits ++ le 2 x.poison ++ le 2 x.remaps ++ le 2 x.freeSpares ++
    le 1 x.refreshList ++ le 1 (bit x.scrubPending) ++ le 1 (starterCode x.startedBy) ++ le 1 x.windowIndex ++
    le 4 x.nextBlock ++ le 4 (x.blockInCheck.getD 0) ++ le 1 x.phase.code ++ le 1 x.lastEnd.code ++ x.counts.bytes ++
    le 4 x.faultTotal ++ le 4 x.generation.toNat ++ le 4 x.pendingChanges ++ le 4 x.linkErrors.toNat ++ le 1 x.notices ++
    le 1 0 ++ le 2 x.lost

/-- Info record, 40 bytes, with the values of R177. -/
def infoBytes : List Byte :=
  le 2 0x0B7E ++ le 2 0x0416 ++ le 1 1 ++ le 1 4 ++ le 1 16 ++ le 1 16 ++ le 4 Config.userBlocks ++ le 2 512 ++
    le 2 Config.stagingFrames ++ le 1 Config.maxQuota ++ le 1 Config.defaultQuota ++ le 1 Config.maxLeases ++
    le 1 Config.maxWaits ++ le 2 Config.maxPoison ++ le 2 Config.spareBlocks ++ le 2 Config.spareBlocks ++
    le 1 Config.maxRefresh ++ le 1 4 ++ le 1 Config.maxFaults ++ le 1 Config.maxNotices ++ le 2 Config.dataDeadline ++
    le 2 Config.minSilence ++ le 2 Config.maxSilence ++ le 2 Config.maxWaitLimit ++ le 2 Config.maxDuration

/-- The result fields of a completion. -/
def Result.bytes : Result → List Byte
  | .none => []
  | .opened n q si a => le 2 n.toNat ++ le 1 q ++ le 2 si ++ le 1 a
  | .read d k => le 1 d ++ le 1 ((k.map (·.code)).getD 0)
  | .write n l => le 1 n ++ le 1 l
  | .mark n l => le 1 n ++ le 1 l
  | .flush n l => le 1 n ++ le 1 l
  | .leaseAcquire id g d => le 2 id.toNat ++ le 6 g ++ le 6 d
  | .leaseRenew d => le 6 d
  | .leaseQuery ls => le 1 ls.length ++ ls.flatMap (·.bytes)
  | .settings x => x.bytes
  | .status x => x.bytes
  | .info => infoBytes
  | .faultRead t h rs => le 4 t ++ le 1 h ++ le 1 rs.length ++ rs.flatMap (·.bytes)

/-- Notice kind codes. -/
def Notice.code : Notice → Nat
  | .leaseLapsed .. => 1 | .fenced .. => 2 | .poisonRead .. => 3 | .dataLost .. => 4 | .sparesLow .. => 5
  | .scrubEnded .. => 6

/-- Notice bodies. -/
def Notice.bytes : Notice → List Byte
  | .leaseLapsed id s n m d => le 2 id.toNat ++ le 4 s ++ le 4 n ++ le 1 m.code ++ le 6 d
  | .fenced p n t => le 1 p.toNat ++ le 2 n.toNat ++ le 4 t.toNat
  | .poisonRead b r o t =>
    le 4 b ++ le 1 r.toNat ++ le 1 (portCode o) ++ le 1 (bit t.isSome) ++ le 4 ((t.map (·.1)).getD 0) ++
      le 6 ((t.map (·.2)).getD 0)
  | .dataLost b q => le 4 b ++ le 4 q.toNat
  | .sparesLow f t => le 2 f ++ le 1 t
  | .scrubEnded x => le 1 x.reason.code ++ le 1 (starterCode x.startedBy) ++ x.counts.bytes

/-- A link frame: delimiter, length, kind, tag where there is one, payload, CRC-32 over all but the delimiter (R187). -/
def linkFrame (kind : Byte) (tag : Option Tag) (payload : List Byte) : List Byte :=
  let inner := kind :: ((tag.map fun t => [BitVec.ofNat 8 t.val]).getD []) ++ payload
  let body := le 2 inner.length ++ inner
  0xA5#8 :: body ++ le 4 (crc32 body).toNat

/-- The bytes of a frame the part sends (R187). -/
def TxFrame.bytes : TxFrame → List Byte
  | .completion t st code r => linkFrame 0x81 (some t) (st.code :: code :: r.bytes)
  | .go t n => linkFrame 0x82 (some t) (le 1 n)
  | .dataOut t i d => linkFrame 0x83 (some t) (le 1 i ++ d.toList)
  | .notice lost ms b => linkFrame 0x84 none (le 1 b.code ++ le 2 lost ++ le 6 ms ++ b.bytes)

/-- What PnTXD carries: the bytes of the frame being sent, or nothing while the line rests at 1 (R184, R186). -/
def Lc.txd (l : Lc) : List Byte :=
  match l.sending, l.txq with
  | true, f :: _ => f.bytes
  | _, _ => []

/-! ### Frames the part takes (R180, R187) -/

/-- The payload size of a defined request kind, after the code (R187). -/
def requestSize (code : Byte) : Option Nat :=
  if code = codeOpen then some 8
  else if code = codeFence ∨ code = codeUnfence ∨ code = codeFlush ∨ code = codeAbort then some 1
  else if code = codeRead then some 5
  else if code = codeWrite ∨ code = codeMark then some 6
  else if code = codeLeaseAcquire then some 13
  else if code = codeLeaseRenew then some 4
  else if code = codeLeaseRelease ∨ code = codeFaultRead then some 2
  else if code = codeLeaseQuery then some 8
  else if code = codeSettingsWrite then some 40
  else if definedCode code then some 0
  else none

/-- The unsigned number of `n` bytes at offset `o`. -/
def fieldAt (bs : List Byte) (o n : Nat) : Nat := ofLe ((bs.drop o).take n)

/-- A field of one, two or four bytes as it stands on the wire. -/
def u8At (bs : List Byte) (o : Nat) : BitVec 8 := BitVec.ofNat 8 (fieldAt bs o 1)
def u16At (bs : List Byte) (o : Nat) : BitVec 16 := BitVec.ofNat 16 (fieldAt bs o 2)
def u32At (bs : List Byte) (o : Nat) : BitVec 32 := BitVec.ofNat 32 (fieldAt bs o 4)

def windowAt (bs : List Byte) (o : Nat) : RawWindow :=
  { enabled := u8At bs o, first := u32At bs (o + 1), last := u32At bs (o + 5) }

def settingsOfBytes (bs : List Byte) : RawSettings :=
  { threshold := u16At bs 0, period := u16At bs 2, w0 := windowAt bs 4, w1 := windowAt bs 13, w2 := windowAt bs 22,
    w3 := windowAt bs 31 }

/-- The request that a code and its fields spell, on port `p` with tag `t` (R187). -/
def requestOf (p : Port) (t : Tag) (code : Byte) (f : List Byte) : Instr :=
  if code = codeOpen then .openReq p t (u32At f 0) (u16At f 4) (u8At f 6) (u8At f 7)
  else if code = codeClose then .closeReq p t
  else if code = codeFence then .fence p t (u8At f 0)
  else if code = codeUnfence then .unfence p t (u8At f 0)
  else if code = codeRead then .read p t (u32At f 0) (u8At f 4)
  else if code = codeWrite then .write p t (u32At f 0) (u8At f 4) (u8At f 5)
  else if code = codeMark then .mark p t (u32At f 0) (u8At f 4) (u8At f 5)
  else if code = codeFlush then .flush p t (u8At f 0)
  else if code = codeAbort then .abort p t (u8At f 0)
  else if code = codeLeaseAcquire then
    .leaseAcquire p t (u32At f 0) (u32At f 4) (u8At f 8) (u16At f 9) (u16At f 11)
  else if code = codeLeaseRenew then .leaseRenew p t (u16At f 0) (u16At f 2)
  else if code = codeLeaseRelease then .leaseRelease p t (u16At f 0)
  else if code = codeLeaseQuery then .leaseQuery p t (u32At f 0) (u32At f 4)
  else if code = codeScrubStart then .scrubStart p t
  else if code = codeScrubStop then .scrubStop p t
  else if code = codeSettingsRead then .settingsRead p t
  else if code = codeSettingsWrite then .settingsWrite p t (settingsOfBytes f)
  else if code = codeMetadataReset then .metadataReset p t
  else if code = codeStatus then .status p t
  else if code = codeInfo then .info p t
  else if code = codeFaultRead then .faultRead p t (u8At f 0) (u8At f 1)
  else .undefinedKind p t code

/-- A tag byte, where it is 0 to 15. -/
def tagOf (b : Byte) : Option Tag := if h : b.toNat < 16 then some ⟨b.toNat, h⟩ else none

/-- What a complete frame comes to (R180): a bad CRC, another failed check, or a valid frame as the event it is. -/
inductive RxCheck where
  | badCrc
  | bad
  | valid (i : Instr)
deriving DecidableEq, Repr

/-- R180: the checks of a complete frame on port `p`, in their order, on the bytes after its delimiter: two length bytes,
`length` bytes of kind, tag and payload, four CRC bytes. -/
def checkFrame (p : Port) (length : Nat) (bs : List Byte) : RxCheck :=
  let covered := bs.take (2 + length)
  if ofLe (bs.drop (2 + length)) ≠ (crc32 covered).toNat then .badCrc
  else
    match covered.drop 2 with
    | kind :: rest =>
      if kind = 0x03#8 then (if length = 1 then .valid (.keepalive p) else .bad)
      else if kind = 0x02#8 then
        (match rest with
         | tag :: index :: data =>
           if h : data.toArray.size = 512 then
             (match tagOf tag with
              | some t => .valid (.dataIn p t index ⟨data.toArray, h⟩)
              | none => .bad)
           else .bad
         | _ => .bad)
      else if kind = 0x01#8 then
        (match rest with
         | tag :: code :: fields =>
           if (requestSize code).all (· = fields.length) then
             (match tagOf tag with
              | some t => .valid (requestOf p t code fields)
              | none => .bad)
           else .bad
         | _ => .bad)
      else .bad
    | [] => .bad

/-- What the receiver finds in a run of bytes: a frame it discards and counts, or a valid frame. -/
inductive RxItem where
  | bad
  | valid (i : Instr)
deriving DecidableEq, Repr

/-- R179: the receiver takes the bytes of `input` one after the other. A bad length is hunted again from its first length
byte, a bad CRC from the byte after the delimiter, any other bad frame from the byte after its CRC. The first argument
bounds the bytes examined, those examined again included. -/
def receive (p : Port) : Nat → Framing → List Byte → List RxItem × Framing
  | 0, fr, _ => ([], fr)
  | _ + 1, fr, [] => ([], fr)
  | n + 1, .hunt, b :: input => receive p n (if b = 0xA5#8 then .header [] else .hunt) input
  | n + 1, .header held, b :: input =>
    let bytes := held ++ [b]
    if bytes.length < 2 then receive p n (.header bytes) input
    else
      let length := ofLe bytes
      if length = 0 ∨ 515 < length then
        let r := receive p n .hunt (bytes ++ input)
        (.bad :: r.1, r.2)
      else receive p n (.body length bytes) input
  | n + 1, .body length held, b :: input =>
    let bytes := held ++ [b]
    if bytes.length < 2 + length + 4 then receive p n (.body length bytes) input
    else
      match checkFrame p length bytes with
      | .badCrc => let r := receive p n .hunt (bytes ++ input); (.bad :: r.1, r.2)
      | .bad => let r := receive p n .hunt input; (.bad :: r.1, r.2)
      | .valid i => let r := receive p n .hunt input; (.valid i :: r.1, r.2)

/-- The bytes a framing state holds. -/
def Framing.bytes : Framing → List Byte
  | .hunt => []
  | .header bs => bs
  | .body _ bs => bs

/-- A bound on the bytes the receiver examines: each discarded delimiter lets every byte be examined once more. -/
def receiveBound (fr : Framing) (input : List Byte) : Nat :=
  (fr.bytes.length + input.length + 2) * (fr.bytes.length + input.length + 2)

/-! ### Frames as a master sends them (R187) -/

def RawWindow.bytes (w : RawWindow) : List Byte := le 1 w.enabled.toNat ++ le 4 w.first.toNat ++ le 4 w.last.toNat

def RawSettings.bytes (x : RawSettings) : List Byte :=
  le 2 x.threshold.toNat ++ le 2 x.period.toNat ++ RawWindow.bytes x.w0 ++ RawWindow.bytes x.w1 ++ RawWindow.bytes x.w2 ++
    RawWindow.bytes x.w3

/-- The port, tag, request-kind code and fields of a REQUEST frame (R187). -/
def requestFields : Instr → Option (Port × Tag × Byte × List Byte)
  | .openReq p t token silence quota reqLease =>
    some (p, t, codeOpen, le 4 token.toNat ++ le 2 silence.toNat ++ le 1 quota.toNat ++ le 1 reqLease.toNat)
  | .closeReq p t => some (p, t, codeClose, [])
  | .fence p t x => some (p, t, codeFence, [x])
  | .unfence p t x => some (p, t, codeUnfence, [x])
  | .read p t b n => some (p, t, codeRead, le 4 b.toNat ++ [n])
  | .write p t b n f => some (p, t, codeWrite, le 4 b.toNat ++ [n, f])
  | .mark p t b n k => some (p, t, codeMark, le 4 b.toNat ++ [n, k])
  | .flush p t x => some (p, t, codeFlush, [x])
  | .abort p t x => some (p, t, codeAbort, [x])
  | .leaseAcquire p t b n m d w =>
    some (p, t, codeLeaseAcquire, le 4 b.toNat ++ le 4 n.toNat ++ [m] ++ le 2 d.toNat ++ le 2 w.toNat)
  | .leaseRenew p t id d => some (p, t, codeLeaseRenew, le 2 id.toNat ++ le 2 d.toNat)
  | .leaseRelease p t id => some (p, t, codeLeaseRelease, le 2 id.toNat)
  | .leaseQuery p t b n => some (p, t, codeLeaseQuery, le 4 b.toNat ++ le 4 n.toNat)
  | .scrubStart p t => some (p, t, codeScrubStart, [])
  | .scrubStop p t => some (p, t, codeScrubStop, [])
  | .settingsRead p t => some (p, t, codeSettingsRead, [])
  | .settingsWrite p t x => some (p, t, codeSettingsWrite, RawSettings.bytes x)
  | .metadataReset p t => some (p, t, codeMetadataReset, [])
  | .status p t => some (p, t, codeStatus, [])
  | .info p t => some (p, t, codeInfo, [])
  | .faultRead p t a n => some (p, t, codeFaultRead, [a, n])
  | .undefinedKind p t x => some (p, t, x, [])
  | _ => none

/-- The port and the bytes of the frame that spells an event on the link, for the events that one frame spells (R187). -/
def frameOf : Instr → Option (Port × List Byte)
  | .dataIn p t i d => some (p, linkFrame 0x02 (some t) (i :: d.toList))
  | .keepalive p => some (p, linkFrame 0x03 none [])
  | i => (requestFields i).map fun x => (x.1, linkFrame 0x01 (some x.2.1) (x.2.2.1 :: x.2.2.2))

/-! ### The byte sum of a metadata copy (R153)

The layout of a copy is not visible at the ports; this one is the model's (log 8). -/

def PoisonKind.code : PoisonKind → Nat
  | .reported => 1 | .quiet => 2 | .media => 3

def PoisonEntry.bytes (e : PoisonEntry) : List Byte :=
  le 4 e.block ++ le 1 e.kind.code ++ le 1 (portCode e.origin) ++ le 4 e.hours ++ le 6 e.ms

def Spare.bytes (x : Spare) : List Byte := le 1 x.idx ++ le 1 (match x.use with | .inUse => 1 | .retired => 2)

/-- Every byte of a copy but the checksum. -/
def copyBytes (generation : BitVec 32) (m : MetaImage) : List Byte :=
  le 4 generation.toNat ++ m.settings.bytes ++ le 1 (bit m.scrubMark) ++ le 4 m.hours ++ le 4 m.total ++
    m.poison.flatMap (·.bytes) ++ m.remap.flatMap (fun r => le 4 r.block ++ le 1 r.spare) ++ m.spares.flatMap (·.bytes) ++
    m.ring.flatMap (·.bytes)

/-- The sum of bytes modulo 256. -/
def byteSum : List Byte → BitVec 8
  | [] => 0
  | b :: bs => b + byteSum bs

/-- R153: the copy that a successful write leaves, with the two's complement of the sum of its other bytes. -/
def MetaCopy.write (generation : BitVec 32) (m : MetaImage) : MetaCopy :=
  { generation := generation, image := m, checksum := - byteSum (copyBytes generation m) }

end Sys2Proof.Machine
end

