-- ==== Sys2Proof/Machine/Operands.lean ====
section
/-! DEFINITION. The operands of requests: enumerated codes, ranges, and the checks that decide them (R30, R50, R93, R140,
R169). -/

namespace Sys2Proof.Machine

/-- Two block ranges have a block in common (00_scope.md, Numbers). -/
def overlaps (s₁ n₁ s₂ n₂ : Nat) : Bool := decide (s₁ < s₂ + n₂) && decide (s₂ < s₁ + n₁)

/-- A block lies in a range. -/
def inRange (b s n : Nat) : Bool := decide (s ≤ b) && decide (b < s + n)

/-- Lease mode codes (R187). -/
def leaseModeOf (x : BitVec 8) : Option LeaseMode :=
  if x = 1 then some .shared else if x = 2 then some .exclusive else none

/-- MARK kind codes (R187). -/
def markKindOf (x : BitVec 8) : Option MarkKind :=
  if x = 1 then some .reported else if x = 2 then some .quiet else none

/-- FLUSH scope codes (R187): whether the scope is ALL. -/
def flushScopeOf (x : BitVec 8) : Option Bool :=
  if x = 1 then some false else if x = 2 then some true else none

/-- A field that is 0 or 1: REQUIRE_LEASE, a window's enabled field (R187). -/
def flagOf (x : BitVec 8) : Option Bool :=
  if x = 0 then some false else if x = 1 then some true else none

/-- DURABLE, bit 0 of the WRITE flags; the other bits are ignored (R187). -/
def durableOf (flags : BitVec 8) : Bool := flags.getLsbD 0

/-- R50, check 4 for READ and WRITE: the count is 1 to 16. -/
def countOk (count : BitVec 8) : Bool := decide (1 ≤ count.toNat) && decide (count.toNat ≤ 16)

/-- start + length stays inside the block space (R30, R50 check 5). -/
def rangeOk (start len : Nat) : Bool := decide (start + len ≤ Config.userBlocks)

/-- R50, checks 4 to 6, for READ, WRITE and MARK: `form` is check 4, `quota` the session's quota where check 6 applies. -/
def blocksCheck (form : Bool) (start : BitVec 32) (count : BitVec 8) (quota : Option Nat) : Option Status :=
  if !form then some .invalid
  else if !rangeOk start.toNat count.toNat then some .outOfRange
  else if quota.any (fun q => decide (q < count.toNat)) then some .quotaExceeded
  else none

/-- The quota in force for an OPEN: 32 in place of 0 (R94). -/
def quotaOf (quota : BitVec 8) : Nat := if quota = 0 then Config.defaultQuota else quota.toNat

/-- R93, condition 5: the OPEN's parameters are in range. -/
def openParamsOk (silence : BitVec 16) (quota reqLease : BitVec 8) : Bool :=
  decide (Config.minSilence ≤ silence.toNat) && decide (silence.toNat ≤ Config.maxSilence) &&
    decide (quota.toNat ≤ Config.maxQuota) && (flagOf reqLease).isSome

/-- Duration 1 to 60,000 units (R30, R38). -/
def durationOk (d : BitVec 16) : Bool := decide (1 ≤ d.toNat) && decide (d.toNat ≤ Config.maxDuration)

/-- R30: the parameters of a LEASE ACQUIRE, or the status that refuses them. INVALID comes before OUT_OF_RANGE. -/
def leaseParamsOf (start len : BitVec 32) (mode : BitVec 8) (duration waitLimit : BitVec 16) : Except Status LeaseParams :=
  match leaseModeOf mode with
  | none => .error .invalid
  | some m =>
    if len.toNat = 0 ∨ !durationOk duration ∨ Config.maxWaitLimit < waitLimit.toNat then .error .invalid
    else if !rangeOk start.toNat len.toNat then .error .outOfRange
    else .ok { start := start.toNat, len := len.toNat, mode := m, duration := duration.toNat, waitLimit := waitLimit.toNat }

/-- R140: a window of the settings block, where its values are in range. -/
def windowOf (w : RawWindow) : Option Window :=
  match flagOf w.enabled with
  | none => none
  | some e =>
    if w.first.toNat < Config.userBlocks ∧ w.last.toNat < Config.userBlocks ∧ w.first.toNat ≤ w.last.toNat then
      some { enabled := e, first := w.first.toNat, last := w.last.toNat }
    else none

/-- R140, R164: the settings of a SETTINGS WRITE, where every value is in range. -/
def settingsOf (r : RawSettings) : Option Settings :=
  match windowOf r.w0, windowOf r.w1, windowOf r.w2, windowOf r.w3 with
  | some a, some b, some c, some d =>
    if r.threshold.toNat ≤ Config.maxThreshold ∧ r.period.toNat ≤ Config.maxPeriod then
      some { threshold := r.threshold.toNat, period := r.period.toNat, w0 := a, w1 := b, w2 := c, w3 := d }
    else none
  | _, _, _, _ => none

/-- The two settings give every window the same values (R140). -/
def Settings.sameWindows (x y : Settings) : Bool :=
  decide (x.w0 = y.w0) && decide (x.w1 = y.w1) && decide (x.w2 = y.w2) && decide (x.w3 = y.w3)

/-- Window `i`, 0 to 3. -/
def Settings.window (x : Settings) : Nat → Option Window
  | 0 => some x.w0 | 1 => some x.w1 | 2 => some x.w2 | 3 => some x.w3
  | _ => none

/-- The lowest window index from `i` on whose window is enabled (R145). -/
def Settings.enabledFrom (x : Settings) (i : Nat) : Option Nat :=
  [0, 1, 2, 3].find? fun j => decide (i ≤ j) && (x.window j).any (·.enabled)

/-- R169: start age 0 to 31 and maximum count 1 to 32. -/
def faultReadOk (startAge maxCount : BitVec 8) : Bool :=
  decide (startAge.toNat ≤ 31) && decide (1 ≤ maxCount.toNat) && decide (maxCount.toNat ≤ 32)

/-- Requests served while the device is SAFE (R50, check 3). -/
def servedInSafe (code : BitVec 8) : Bool :=
  [codeInfo, codeStatus, codeFaultRead, codeOpen, codeClose, codeMetadataReset].contains code

end Sys2Proof.Machine
end

