-- ==== Sys2Proof/Machine/Flags.lean ====
section
/-! DEFINITION. The counts and conditions that the spec computes from the state: frame counts and attribution (R1, R17),
which frame a block has (R10), sequence order (R8), the spare counts and spare-low condition (R119, R120), the notice and
response counts (R172, R183), and which follow-ups an event has brought about (R18, R26, R35, R54). -/

namespace Sys2Proof.Machine

/-! ### Link controller -/

def TxFrame.isNotice : TxFrame → Bool
  | .notice .. => true
  | _ => false

def TxFrame.tag : TxFrame → Option Tag
  | .completion t .. => some t
  | .go t _ => some t
  | .dataOut t .. => some t
  | .notice .. => none

def TxFrame.isGo : TxFrame → Bool
  | .go .. => true
  | _ => false

/-- The notice count (R172). -/
def Lc.notices (l : Lc) : Nat := l.txq.countP (·.isNotice)

/-- The response count (R183): COMPLETION, GO and DATA-OUT frames of the queue. -/
def Lc.responses (l : Lc) : Nat := l.txq.countP (fun f => !f.isNotice)

/-- PnRXD is at 0: an open character error or a break (R178, R185). No byte arrives. -/
def Lc.low (l : Lc) : Bool := l.breakHeld || l.charErr.isSome

/-- The link controller still holds a frame of the tag's command. -/
def Lc.holds (l : Lc) (t : Tag) : Bool := l.held.any fun h => decide (h.frame.tag = some t)

/-! ### Sequence numbers (R8) -/

/-- `a` is at least `b` on the circle of 32-bit numbers. -/
def seqGe (a b : BitVec 32) : Bool := decide ((a - b).toNat < 2147483648)

/-- `a` is greater than `b` on the circle. -/
def seqGt (a b : BitVec 32) : Bool := seqGe a b && decide (a ≠ b)

/-- The number after `c`; after 4,294,967,295 comes 1, and 0 is never assigned. -/
def nextSeq (c : BitVec 32) : BitVec 32 := if c = 0xFFFFFFFF#32 then 1 else c + 1

/-! ### Staging frames -/

/-- The frame is FILLING, DIRTY or PROGRAMMING. -/
def Frame.staged (f : Frame) : Bool := decide (f.state ≠ .clean)

def Frame.isMark (f : Frame) : Bool :=
  match f.content with
  | .mark _ => true
  | .data => false

def Frame.ofPort (f : Frame) : Bool :=
  match f.writer with
  | some (.port _) => true
  | _ => false

namespace Staging

/-- Frames in a state other than FREE (R1). -/
def count (b : Staging) (st : FrameState) : Nat := b.frames.countP fun f => decide (f.state = st)

/-- FREE frames (R1). -/
def freeCount (b : Staging) : Nat := Config.stagingFrames - b.frames.length

/-- Available frames: FREE and CLEAN (R3). -/
def available (b : Staging) : Nat := b.freeCount + b.count .clean

/-- The attribution count of a writer (R17). -/
def attr (b : Staging) (w : Writer) : Nat := b.frames.countP fun f => f.staged && decide (f.writer = some w)

/-- MARK frames in DIRTY or PROGRAMMING (R18, R56). -/
def markFrames (b : Staging) : Nat :=
  b.frames.countP fun f => f.isMark && (decide (f.state = .dirty) || decide (f.state = .programming))

/-- The frame with an index. -/
def at? (b : Staging) (i : Nat) : Option Frame := b.frames.find? fun f => decide (f.idx = i)

/-- The frame of a block in a state (R10). -/
def inState (b : Staging) (st : FrameState) (blk : Nat) : Option Frame :=
  b.frames.find? fun f => decide (f.state = st) && decide (f.block = blk)

/-- A FILLING, DIRTY or PROGRAMMING frame exists for the block (R18, scrub query). -/
def hasStaged (b : Staging) (blk : Nat) : Bool := b.frames.any fun f => f.staged && decide (f.block = blk)

/-- The same for frames whose writer is a port (R18, refresh query). -/
def hasPortFrame (b : Staging) (blk : Nat) : Bool :=
  b.frames.any fun f => f.staged && f.ofPort && decide (f.block = blk)

/-- FREE frame indices, lowest first (R3). -/
def freeIdx (b : Staging) : List Nat :=
  (List.range Config.stagingFrames).filter fun i => !b.frames.any fun f => decide (f.idx = i)

/-- The program head: the first frame in queue order whose block has no PROGRAMMING frame (R12). -/
def head (b : Staging) : Option Frame :=
  b.progQ.findSome? fun i => (b.at? i).bind fun f => if (b.inState .programming f.block).isSome then none else some f

end Staging

/-! ### Command records -/

/-- The record is a WRITE or MARK that is QUEUED or FILLING (R59). -/
def Cmd.holdsReads (c : Cmd) : Bool := decide (c.state = .queued) || decide (c.state = .filling)

/-- Every entry of a non-empty wait set is resolved (R21). -/
def Cmd.setDone (c : Cmd) : Bool := !c.waitSet.isEmpty && c.waitSet.all fun e => decide (e.res ≠ .pending)

/-- Entries resolved LOST (R82, R86). -/
def Cmd.setLost (c : Cmd) : Nat := c.waitSet.countP fun e => decide (e.res = .lost)

namespace CommandTable

/-- The record at a port's tag place (R47). -/
def at? (t : CommandTable) (k : Key) : Option Cmd := t.recs.find? fun c => decide (c.key = k)

/-- The record with a place in the order of receipt. -/
def byReceipt (t : CommandTable) (r : Nat) : Option Cmd := t.recs.find? fun c => decide (c.receipt = r)

/-- The records of a port. -/
def ofPort (t : CommandTable) (p : Port) : List Cmd := t.recs.filter fun c => decide (c.key.port = p)

end CommandTable

/-! ### Spares (R119, R120) -/

namespace MediaEngine

/-- Free spares. -/
def freeSpares (m : MediaEngine) : Nat := Config.spareBlocks - m.spares.length

/-- The free spare with the lowest index (R114). -/
def lowestFree (m : MediaEngine) : Option Nat :=
  (List.range Config.spareBlocks).find? fun i => !m.spares.any fun x => decide (x.idx = i)

/-- The spare-low condition for a threshold (R120). -/
def isSpareLow (m : MediaEngine) (threshold : Nat) : Bool := decide (m.freeSpares ≤ threshold)

/-- The media location of a user block (R108): its spare, numbered after the home locations, or its home location. -/
def locate (m : MediaEngine) (blk : Nat) : Nat :=
  match m.remap.find? fun r => decide (r.block = blk) with
  | some r => Config.userBlocks + r.spare
  | none => blk

end MediaEngine

/-! ### The part -/

namespace Part

/-- RESET_N or PWRGOOD is at 0: the part is held (R158). -/
def isHeld (s : Part) : Bool := !(s.pins.resetN && s.pins.pwrGood)

/-- The power-on ms count (R154). -/
def now (s : Part) : Nat := s.time.ms

def lc (s : Part) (p : Port) : Lc := s.links.get p

def session (s : Part) (p : Port) : Session := s.sess.get p

/-- The port's session is OPEN: notices are produced for it (R171). -/
def isOpen (s : Part) (p : Port) : Bool := decide ((s.session p).state = .opened)

/-- The poison map entry of a block (R126). -/
def poisonOf (s : Part) (blk : Nat) : Option PoisonEntry := s.integ.poison.find? fun e => decide (e.block = blk)

/-- A PROGRAM request exists: a program head exists and the device is not SAFE (R109). -/
def programWaits (s : Part) : Bool := s.sb.head.isSome && decide (s.md.device ≠ .safe)

end Part

/-! ### What an event has brought about

The spec gives follow-ups of an event by what the event changed, taken over the whole event. These compare the part before
an event's changes, `a`, with the part after them, `b`. -/

/-- R18, frames available: the event raised the available count. -/
def framesFreed (a b : Part) : Bool := decide (a.sb.available < b.sb.available)

/-- R18, attribution reduced: the event lowered a port's attribution count. -/
def attrFell (a b : Part) : Bool := Port.all.any fun p => decide (b.sb.attr (.port p) < a.sb.attr (.port p))

/-- The two are one lease record: they differ at most in the deadline, which a RENEW sets (R26, R38). A record that takes
over the id of one that has gone is another record. -/
def Lease.same (l m : Lease) : Bool := decide ({ l with deadline := 0 } = { m with deadline := 0 })

/-- A lease of `a` is not held in `b` (R35). -/
def leaseRemoved (a b : Part) : Bool := a.lease.table.any fun l => !b.lease.table.any fun m => m.same l

/-- R26, lease change: a lease record was created or removed. -/
def leaseChanged (a b : Part) : Bool := leaseRemoved a b || leaseRemoved b a

/-- R18, FILLING write ended: a WRITE that was FILLING is not. -/
def fillingEnded (a b : Part) : Bool :=
  a.cmds.recs.any fun c => decide (c.state = .filling) &&
    !b.cmds.recs.any fun d => decide (d.receipt = c.receipt) && decide (d.state = .filling)

/-- A wait list entry of `a` is gone (R35); grants are made by the scan itself and are not looked at here. -/
def waitGone (a b : Part) : Bool := a.lease.waits.any fun w => !b.lease.waits.contains w

/-- R35: the events after which the wait list is scanned. -/
def waitScanDue (a b : Part) : Bool := leaseRemoved a b || fillingEnded a b || waitGone a b

/-- R54: the events after which the admission queue is scanned. -/
def admissionDue (a b : Part) : Bool :=
  decide (a.cmds.queue ≠ b.cmds.queue) || framesFreed a b || attrFell a b || leaseChanged a b ||
    decide (a.integ.poison.length ≠ b.integ.poison.length)

end Sys2Proof.Machine
end

