-- ==== Sys2Proof/Machine/Ops.lean ====
section
/-! DEFINITION. The operations the blocks share: what a link controller does with a frame (R172, R173, R183, R184), fault
records and metadata changes (R155, R168), notices (R171), completions (R49, R61), the media's store, and the mark tally
(R134). Raising a notice or a fault record is this part's nearest thing to taking an exception: there is no handler. -/

namespace Sys2Proof.Machine

/-! ### Link controller -/

namespace Lc

/-- R183, R184: a frame enters the transmit queue; the link controller begins it at once if nothing is being sent, PnRDY is
at 1 and no break is held. -/
def push (l : Lc) (f : TxFrame) : Lc :=
  { l with txq := l.txq ++ [f], sending := l.sending || (l.rdy && !l.breakHeld) }

/-- R184: a waiting head is begun if the link controller may send. -/
def begin (l : Lc) : Lc :=
  { l with sending := l.sending || (l.rdy && !l.breakHeld && !l.txq.isEmpty) }

/-- R172, R173: a notice enters with the lost-notice count, or is discarded and counted. -/
def takeNotice (l : Lc) (ms : Nat) (b : Notice) : Lc :=
  if l.notices < Config.maxNotices then { l.push (.notice l.lost ms b) with lost := 0 }
  else { l with lost := min Config.maxLost (l.lost + 1) }

/-- R181: the link error count rises by 1 and wraps. -/
def countError (l : Lc) : Lc := { l with errors := l.errors + 1 }

/-- R76: a held GO of a tag is discarded with its WRITE. -/
def dropGo (l : Lc) (t : Tag) : Lc :=
  { l with held := l.held.filter fun h => !(h.frame.isGo && decide (h.frame.tag = some t)) }

/-- R183: a completion of a command of which a frame is held waits behind that frame. -/
def putBehind (l : Lc) (t : Tag) (f : TxFrame) : Lc :=
  { l with held := l.held.map fun h => if h.frame.tag = some t then { h with behind := some f } else h }

end Lc

/-! ### Order of receipt (R61) -/

/-- The frame is a completion of a command received after place `r`: `rc` gives the places of the commands held at the start
of the event, and a command without one is the request of the event itself, the newest. -/
def TxFrame.later (rc : Tag → Option Nat) (r : Nat) : TxFrame → Bool
  | .completion t .. => (rc t).all fun x => decide (r < x)
  | _ => false

/-- The frame keeps its place before a completion of tag `t`, received at place `r`, that is queued after it: a GO of a command
received no later (R54: the queue of a scan stands in order of receipt), or a DATA-OUT of the tag's command (R49). -/
def TxFrame.precedes (rc : Tag → Option Nat) (t : Tag) (r : Nat) : TxFrame → Bool
  | .go u _ => (rc u).any fun x => decide (x ≤ r)
  | .dataOut u _ _ => decide (u = t)
  | _ => false

/-- R61, R49, R54: the completion `f` of tag `t`, received at place `r`, goes before the first completion of a later command,
and takes along the frames behind that one that precede it. -/
def placeCompletion (rc : Tag → Option Nat) (t : Tag) (r : Nat) (f : TxFrame) : List TxFrame → List TxFrame
  | [] => [f]
  | g :: gs =>
    if g.later rc r then (g :: gs).filter (·.precedes rc t r) ++ f :: (g :: gs).filter fun h => !h.precedes rc t r
    else g :: placeCompletion rc t r f gs

/-- R61: a frame joins those that the event has queued before it. -/
def placeFrame (rc : Tag → Option Nat) (placed : List TxFrame) (f : TxFrame) : List TxFrame :=
  match f with
  | .completion t .. =>
    match rc t with
    | some r => placeCompletion rc t r f placed
    | none => placed ++ [f]
  | _ => placed ++ [f]

/-- R61: the frames that one event has queued for a port, with their completions in the order of receipt. Notices keep the
order in which they were queued. The GOs of a scan and the completions of the entries it fails stand in queue order (R54); how
GO and DATA-OUT frames stand to the other completions is log 23. -/
def arrange (rc : Tag → Option Nat) (fs : List TxFrame) : List TxFrame := fs.foldl (placeFrame rc) []

namespace Part

def setLc (s : Part) (p : Port) (l : Lc) : Part := s.withLinks (s.links.set p l)

def setSession (s : Part) (p : Port) (x : Session) : Part := s.withSess (s.sess.set p x)

/-- R181: the port's link error count rises. -/
def countError (s : Part) (p : Port) : Part := s.setLc p (s.lc p).countError

/-! ### Changes, fault records, notices -/

/-- R155: one metadata change. -/
def change (s : Part) : Part := s.withMd { s.md with changes := s.md.changes + 1 }

/-- R168: a fault record is appended and is one change. -/
def appendFault (s : Part) (i : FaultInfo) : Part :=
  let total := if s.faults.total < Config.maxFaultTotal then s.faults.total + 1 else s.faults.total
  let r : FaultRec := { seq := total, ms := s.now, hours := s.time.hours, info := i }
  let kept := if s.faults.ring.length < Config.maxFaults then s.faults.ring else s.faults.ring.drop 1
  (s.withFaults { ring := kept ++ [r], total := total }).change

/-- R171: a notice is produced for a port and reaches its link controller. -/
def putNotice (s : Part) (p : Port) (b : Notice) : Part := s.setLc p ((s.lc p).takeNotice s.now b)

/-- R171: a notice is offered: it is produced while the port's session is OPEN. -/
def offerNotice (s : Part) (p : Port) (b : Notice) : Part := if s.isOpen p then s.putNotice p b else s

/-- A notice for every port with an OPEN session. -/
def noticeAll (s : Part) (b : Notice) : Part :=
  (((s.offerNotice .p0 b).offerNotice .p1 b).offerNotice .p2 b).offerNotice .p3 b

/-! ### Command records and completions -/

def setRecs (s : Part) (rs : List Cmd) : Part := s.withCmds { s.cmds with recs := rs }

/-- The record with a receipt place is changed. -/
def updCmd (s : Part) (r : Nat) (f : Cmd → Cmd) : Part :=
  s.setRecs (s.cmds.recs.map fun c => if c.receipt = r then f c else c)

/-- The record with a receipt place is removed. -/
def dropCmd (s : Part) (r : Nat) : Part := s.setRecs (s.cmds.recs.filter fun c => decide (c.receipt ≠ r))

/-- A completion for a tag of which nothing is held enters the port's queue (R183). -/
def sendCompletion (s : Part) (p : Port) (t : Tag) (code : BitVec 8) (st : Status) (r : Result) : Part :=
  s.setLc p ((s.lc p).push (.completion t st code r))

/-- R49: the completion of a record is handed to its link controller. It enters the queue, and the record is removed; or
it waits behind a held frame of the command, and the record stays in SENDING (R183). -/
def finish (s : Part) (c : Cmd) (st : Status) (r : Result) : Part :=
  let l := s.lc c.key.port
  if l.holds c.key.tag then
    (s.setLc c.key.port (l.putBehind c.key.tag (.completion c.key.tag st c.code r))).updCmd c.receipt fun d =>
      { d with state := .sending, result := none, deadline := none }
  else
    (s.sendCompletion c.key.port c.key.tag c.code st r).dropCmd c.receipt

/-- The completion of the record, if it still exists (R61 discards it otherwise). -/
def finishAt (s : Part) (r : Nat) (st : Status) (res : Result) : Part :=
  match s.cmds.byReceipt r with
  | some c => s.finish c st res
  | none => s

/-- The records whose result is decided and not yet handed on, as receipt places in order of receipt. -/
def decided (s : Part) : List (Nat × Status × Result) :=
  s.cmds.recs.filterMap fun c => c.result.map fun x => (c.receipt, x.1, x.2)

/-- R61: the results an event has decided are handed on in order of receipt. -/
def emitDecided (s : Part) : Part := s.decided.foldl (fun s x => s.finishAt x.1 x.2.1 x.2.2) s

/-! ### Admission queue, frames, tally -/

/-- The entry leaves the admission queue (R53). -/
def dequeue (s : Part) (k : Key) : Part :=
  s.withCmds { s.cmds with queue := s.cmds.queue.filter fun e => decide (e ≠ k) }

/-- R134: the tally entry of a MARK whose frame list is empty is removed, and the MARK's result is decided. -/
def tallyDone (s : Part) : Part :=
  let done := s.integ.tally.filter fun t => t.frames.isEmpty
  let s := s.withInteg { s.integ with tally := s.integ.tally.filter fun t => !t.frames.isEmpty }
  s.setRecs (s.cmds.recs.map fun c =>
    match done.find? fun t => decide (t.key = c.key) with
    | some t =>
      if c.code = codeMark ∧ c.state = .settling then
        { c with state := .sending, result := some (.ok, .mark t.blocks t.superseded) }
      else c
    | none => c)

/-- R134: a MARK frame has gone to FREE, superseded or after its OK outcome; a matching tally entry takes the report. -/
def tallyReport (s : Part) (f : Frame) (superseded : Bool) : Part :=
  match f.content, f.cmd, f.seq with
  | .mark _, some k, some q =>
    (s.withInteg { s.integ with
      tally := s.integ.tally.map fun t =>
        if t.key = k ∧ t.frames.contains (f.block, q) then
          { t with frames := t.frames.filter fun x => decide (x ≠ (f.block, q)),
                   superseded := if superseded then t.superseded + 1 else t.superseded }
        else t }).tallyDone
  | _, _, _ => s

/-! ### The media's store (R107) -/

end Part

/-- The contents of a location, where something has been written to it. -/
def storeGet (st : List (Nat × BlockData)) (loc : Nat) : Option BlockData :=
  (st.find? fun x => decide (x.1 = loc)).map (·.2)

/-- A location is written; the list stays in rising order of location. -/
def storePut (loc : Nat) (d : BlockData) : List (Nat × BlockData) → List (Nat × BlockData)
  | [] => [(loc, d)]
  | x :: xs =>
    if loc < x.1 then (loc, d) :: x :: xs
    else if loc = x.1 then (loc, d) :: xs
    else x :: storePut loc d xs

/-- The canonical form of the store: locations strictly rising. An unlisted location has no written contents, so no entry can
equal what an unlisted one holds. -/
def Disk.wf (d : Disk) : Bool := decide (d.store.Pairwise fun x y => x.1 < y.1)

namespace Part

/-- What a read of a location returns: what was written there, or the free value of a location never written (log 5). -/
def mediaRead (s : Part) (loc : Nat) : BlockData :=
  match storeGet s.disk.store loc with
  | some d => d
  | none => Config.unwrittenBlock loc

/-- A program succeeds: the location holds the data (R107). -/
def mediaWrite (s : Part) (loc : Nat) (d : BlockData) : Part :=
  s.withDisk { s.disk with store := storePut loc d s.disk.store }

/-- A program fails: the location's contents are undefined (R107; log 6). -/
def mediaSpoil (s : Part) (loc : Nat) : Part :=
  (s.mediaWrite loc (Config.failedProgram s.free)).withFree (s.free + 1)

/-- A metadata copy is written, or left undefined and failing its checks (R153, R157). -/
def setCopy (s : Part) (c : CopyId) (x : Option MetaCopy) : Part :=
  match c with
  | .a => s.withDisk { s.disk with copyA := x }
  | .b => s.withDisk { s.disk with copyB := x }

/-- The media becomes idle (R111). -/
def idle (s : Part) : Part := s.withMedia { s.media with current := none }

end Part

end Sys2Proof.Machine
end

