-- ==== Sys2Proof/Machine/Staging.lean ====
section
/-! DEFINITION. The Staging Buffer (chapter 1): allocation, becoming DIRTY with supersession, lookup, program outcomes, wait
sets and read caching. -/

namespace Sys2Proof.Machine

/-- A frame is listed at its index; the list stays in rising index. -/
def insertFrame (f : Frame) : List Frame → List Frame
  | [] => [f]
  | g :: gs =>
    if f.idx < g.idx then f :: g :: gs
    else if f.idx = g.idx then f :: gs
    else g :: insertFrame f gs

namespace Part

def setSb (s : Part) (b : Staging) : Part := s.withSb b

def setFrames (s : Part) (fs : List Frame) : Part := s.withSb { s.sb with frames := fs }

/-- R3: the indices an allocation of `n` frames takes: FREE frames lowest index first, then CLEAN frames oldest first. -/
def allocIdx (s : Part) (n : Nat) : List Nat := (s.sb.freeIdx ++ s.sb.clean).take n

/-- R3: the CLEAN frames among the taken indices return to FREE and leave the clean list. -/
def reclaim (s : Part) (ids : List Nat) : Part :=
  s.withSb { s.sb with
    frames := s.sb.frames.filter fun f => !(decide (f.state = .clean) && ids.contains f.idx)
    clean := s.sb.clean.filter fun i => !ids.contains i }

/-- A frame leaves FREE with the fields given. -/
def listFrame (s : Part) (f : Frame) : Part := s.setFrames (insertFrame f s.sb.frames)

/-- A frame returns to FREE. -/
def freeFrame (s : Part) (i : Nat) : Part := s.setFrames (s.sb.frames.filter fun f => decide (f.idx ≠ i))

/-- R4: the frames of an admitted WRITE of `k`, for blocks `blk` on, become FILLING. -/
def fillFrames (s : Part) (k : Key) (blk : Nat) : List Nat → Part
  | [] => s
  | i :: is =>
    (s.listFrame { idx := i, state := .filling, block := blk, writer := some (.port k.port), cmd := some k,
                   content := .data, seq := none, data := none }).fillFrames k (blk + 1) is

/-- R9: frame `x` becomes DIRTY for its block. It takes the next sequence number; an older DIRTY frame of the block is
superseded and gives up its place in the program queue, else `x` joins the tail; a CLEAN frame of the block goes to FREE. A
superseded MARK frame is reported to the mark tally (R18). -/
def stageDirty (s : Part) (x : Frame) : Part :=
  let q := nextSeq s.sb.seq
  let old := s.sb.inState .dirty x.block
  let cl := s.sb.inState .clean x.block
  let frames := s.sb.frames.filter fun f => decide (old.map (·.idx) ≠ some f.idx) && decide (cl.map (·.idx) ≠ some f.idx)
  let progQ :=
    match old with
    | some y => s.sb.progQ.map fun i => if i = y.idx then x.idx else i
    | none => s.sb.progQ ++ [x.idx]
  let clean := s.sb.clean.filter fun i => decide (cl.map (·.idx) ≠ some i)
  let s := s.withSb { frames := insertFrame { x with state := .dirty, seq := some q } frames, progQ := progQ,
                      clean := clean, seq := q }
  match old with
  | some y => s.tallyReport y true
  | none => s

/-- R4: the frames of an admitted MARK of `k` become DIRTY one after the other, in ascending block order. -/
def markFrames (s : Part) (k : Key) (m : MarkKind) (blk : Nat) : List Nat → Part
  | [] => s
  | i :: is =>
    (s.stageDirty { idx := i, state := .dirty, block := blk, writer := some (.port k.port), cmd := some k,
                    content := .mark m, seq := none, data := none }).markFrames k m (blk + 1) is

/-- The FILLING frame of a command for a block (R5). -/
def fillingFrame (s : Part) (k : Key) (blk : Nat) : Option Frame :=
  s.sb.frames.find? fun f => decide (f.state = .filling) && decide (f.cmd = some k) && decide (f.block = blk)

/-- R5: the data of a DATA-IN frame is written into the command's frame for a block. -/
def fillData (s : Part) (k : Key) (blk : Nat) (d : BlockData) : Part :=
  s.setFrames (s.sb.frames.map fun f =>
    if f.state = .filling ∧ f.cmd = some k ∧ f.block = blk then { f with data := some d } else f)

/-- R6: the `n` FILLING frames of a WRITE become DIRTY in ascending block order. -/
def dirtyFilled (s : Part) (k : Key) (blk : Nat) : Nat → Part
  | 0 => s
  | n + 1 =>
    (match s.fillingFrame k blk with
     | some f => s.stageDirty f
     | none => s).dirtyFilled k (blk + 1) n

/-- R7: the FILLING frames of a WRITE go to FREE. -/
def freeFilling (s : Part) (k : Key) : Part :=
  s.setFrames (s.sb.frames.filter fun f => !(decide (f.state = .filling) && decide (f.cmd = some k)))

end Part

/-! ### Lookup (R11) -/

/-- The Staging Buffer's answer for a block (R11): the data of a staging frame, a MARK frame's kind and writer, a poison map
entry, or the media. -/
inductive Look where
  | data (d : BlockData)
  | mark (k : MarkKind) (writer : Option Port)
  | poison (e : PoisonEntry)
  | media
deriving DecidableEq, Repr

/-- The port that wrote a frame. -/
def Frame.port? (f : Frame) : Option Port :=
  match f.writer with
  | some (.port p) => some p
  | _ => none

/-- What a visible frame answers. -/
def Frame.look (f : Frame) : Look :=
  match f.content with
  | .mark k => .mark k f.port?
  | .data =>
    match f.data with
    | some d => .data d
    | none => .media

namespace Part

/-- R11: the visible copy of a block: DIRTY, else PROGRAMMING, else CLEAN, else the poison map, else the media. -/
def lookup (s : Part) (blk : Nat) : Look :=
  match s.sb.inState .dirty blk, s.sb.inState .programming blk, s.sb.inState .clean blk with
  | some f, _, _ => f.look
  | none, some f, _ => f.look
  | none, none, some f => f.look
  | none, none, none =>
    match s.poisonOf blk with
    | some e => .poison e
    | none => .media

/-- R11, R14: a lookup that a CLEAN frame answers moves that frame to the tail of the clean list. -/
def touch (s : Part) (blk : Nat) : Part :=
  match s.sb.inState .dirty blk, s.sb.inState .programming blk, s.sb.inState .clean blk with
  | none, none, some f =>
    s.withSb { s.sb with clean := (s.sb.clean.filter fun i => decide (i ≠ f.idx)) ++ [f.idx] }
  | _, _, _ => s

/-! ### Wait sets and program outcomes -/

/-- R19: the wait set entries of a FLUSH: the DIRTY and PROGRAMMING frames in scope in ascending index. -/
def flushSet (s : Part) (p : Port) (all : Bool) : List SetEntry :=
  (s.sb.frames.filter fun f =>
      (decide (f.state = .dirty) || decide (f.state = .programming)) && (all || decide (f.writer = some (.port p)))).map
    fun f => { block := f.block, seq := f.seq.getD 0 }

/-- R19: the wait set of a DURABLE WRITE whose frames have just become DIRTY: one entry per block. -/
def writeSet (s : Part) (k : Key) (blk : Nat) : Nat → List SetEntry
  | 0 => []
  | n + 1 =>
    (match (s.sb.inState .dirty blk).bind (·.seq) with
     | some q => [{ block := blk, seq := q }]
     | none => []) ++ s.writeSet k (blk + 1) n

end Part

/-- R20: an outcome for a block and a sequence number is applied to a wait set entry. -/
def SetEntry.resolve (e : SetEntry) (blk : Nat) (q : BitVec 32) (o : ProgOutcome) : SetEntry :=
  if e.res = .pending ∧ e.block = blk ∧ seqGe q e.seq then
    { e with res := match o with | .ok => .ok | .lost => .lost }
  else e

/-- R21, R82, R86: the result of a wait set with no PENDING entry. -/
def Cmd.setResult (c : Cmd) : Status × Result :=
  if c.code = codeFlush then
    (if c.setLost = 0 then .ok else .flushIncomplete, .flush c.waitSet.length c.setLost)
  else (if c.setLost = 0 then .ok else .dataLost, .write c.count c.setLost)

namespace Part

/-- R21: the wait sets with no PENDING entry report their results; the record of a DRAINING port ends without a
completion (R99). -/
def setsDone (s : Part) : Part :=
  s.setRecs (s.cmds.recs.filterMap fun c =>
    if c.state = .settling ∧ c.setDone then
      if (s.session c.key.port).state = .draining then none
      else some { c with state := .sending, result := some c.setResult }
    else some c)

/-- R13, R20, R21: the outcome of a PROGRAMMING frame; a frame in another state has none. The frame goes to CLEAN or FREE, a
MARK frame's OK is reported to the tally, the wait sets take the outcome, and the results this decides are handed on in order
of receipt. -/
def outcome (s : Part) (i : Nat) (o : ProgOutcome) : Part :=
  match (s.sb.at? i).filter fun f => decide (f.state = .programming) with
  | none => s
  | some f =>
    let moved :=
      if o = .ok ∧ f.content = .data ∧ (s.sb.inState .dirty f.block).isNone then
        s.withSb { s.sb with
          frames := insertFrame { f with state := .clean, writer := none, cmd := none } s.sb.frames
          clean := s.sb.clean ++ [i] }
      else s.freeFrame i
    let told := if o = .ok then moved.tallyReport f false else moved
    let resolved := told.setRecs (told.cmds.recs.map fun c =>
      { c with waitSet := c.waitSet.map fun e => e.resolve f.block (f.seq.getD 0) o })
    resolved.setsDone.emitDecided

/-- R15: the data of a port's media read is offered for caching. -/
def cacheRead (s : Part) (blk : Nat) (d : BlockData) : Part :=
  if (s.sb.inState .dirty blk).isSome || (s.sb.inState .programming blk).isSome || (s.sb.inState .clean blk).isSome then s
  else
    match s.allocIdx 1 with
    | i :: _ =>
      let s := s.reclaim [i]
      let s := s.listFrame { idx := i, state := .clean, block := blk, writer := none, cmd := none, content := .data,
                             seq := some 0, data := some d }
      s.withSb { s.sb with clean := s.sb.clean ++ [i] }
    | [] => s

end Part

end Sys2Proof.Machine
end

