-- ==== Sys2Proof/Machine/Poison.lean ====
section
/-! DEFINITION. The poison map (chapter 7): entries, the program of a MARK frame, media failures and removal, and the notices
of a failing read. -/

namespace Sys2Proof.Machine

/-- The poison kind of a MARK (R133). -/
def MarkKind.poison : MarkKind → PoisonKind
  | .reported => .reported
  | .quiet => .quiet

namespace Part

def setPoison (s : Part) (es : List PoisonEntry) : Part := s.withInteg { s.integ with poison := es }

/-- R127: the entry of a block gets a kind, an origin and the present time; it keeps its place, or is added. One change. -/
def setEntry (s : Part) (blk : Nat) (k : PoisonKind) (origin : Option Port) : Part :=
  let e : PoisonEntry := { block := blk, kind := k, origin := origin, hours := s.time.hours, ms := s.now }
  (if (s.poisonOf blk).isSome then s.setPoison (s.integ.poison.map fun x => if x.block = blk then e else x)
   else s.setPoison (s.integ.poison ++ [e])).change

/-- R138: the entry of a block, if it has one, is removed. One change. -/
def removeEntry (s : Part) (blk : Nat) : Part :=
  if (s.poisonOf blk).isSome then (s.setPoison (s.integ.poison.filter fun x => decide (x.block ≠ blk))).change else s

/-- R128: the room test for a MEDIA entry. -/
def roomForMedia (s : Part) : Bool := decide (s.integ.poison.length + s.sb.markFrames < Config.maxPoison)

/-- R136, R137: the fault record of a recorded media failure; a lost program has its own (R116). -/
def failureRecord (s : Part) (blk : Nat) (src : FaultSource) : Part :=
  if src = .program then s
  else s.appendFault { kind := .mediaUncorrectable, block := some blk, source := some src }

/-- R136, R137: a media-failure request for a block. -/
def mediaFailure (s : Part) (blk : Nat) (src : FaultSource) : Part :=
  match s.poisonOf blk with
  | some e => (if e.kind = .media then s else s.setEntry blk .media none).failureRecord blk src
  | none =>
    if s.roomForMedia then (s.setEntry blk .media none).failureRecord blk src
    else if src = .scrubRead then s
    else s.appendFault { kind := .poisonMapFull, block := some blk, source := some src }

/-- R136: whether a media-failure request for the block is recorded in the map. -/
def failureRecorded (s : Part) (blk : Nat) : Bool := (s.poisonOf blk).isSome || s.roomForMedia

/-- R130: the notices and the fault record of a READ that fails on kind REPORTED. -/
def poisonReadReported (s : Part) (blk : Nat) (reader : Port) (origin : Option Port) (time : Option (Nat × Nat)) : Part :=
  (s.noticeAll (.poisonRead blk reader origin time)).appendFault
    { kind := .poisonReadReported, block := some blk, port := some reader }

end Part

end Sys2Proof.Machine
end

