-- ==== Sys2Proof/Machine/ReadPath.lean ====
section
/-! DEFINITION. The read path (chapter 4): taking blocks, delivering them, failing, the hold of READs behind their port's own
commands (R59, R60), and the frames that wait to enter a transmit queue (R183). -/

namespace Sys2Proof.Machine

namespace Part

/-- R73, R129: a READ fails at its next index with a status and a poison kind; the record's result is handed on, and then
kind REPORTED brings its notices and record (R130). -/
def failRead (s : Part) (c : Cmd) (st : Status) (k : Option MarkKind) : Part := s.finish c st (.read c.next k)

/-- R71, R66: block `c.next` of READ `c` is delivered: its DATA-OUT is produced and enters the queue or is held (R183); at
the last index the result is decided, OK or, after an ABORT, ABORTED. -/
def deliver (s : Part) (c : Cmd) (d : BlockData) : Part :=
  let l := s.lc c.key.port
  let f := TxFrame.dataOut c.key.tag c.next d
  let enters := decide (l.responses < Config.maxResponses)
  let c' := { c with next := c.next + 1, inProgress := none, dataPending := if enters then none else some c.next }
  let s := s.setLc c.key.port (if enters then l.push f else { l with held := l.held ++ [{ frame := f }] })
  let s := s.updCmd c.receipt fun _ => c'
  if c.next + 1 < c.count then s
  else s.finish c' (if c.aborted then .aborted else .ok) (.read (c.next + 1) none)

/-- R69, R70: a READING record with no block in progress and no pending DATA-OUT takes blocks until one must be read from
the media, a DATA-OUT is held, or it ends. The first argument bounds the blocks taken, at most 16. -/
def takeBlocks : Nat → Nat → Part → Part
  | 0, _, s => s
  | n + 1, r, s =>
    match s.cmds.byReceipt r with
    | none => s
    | some c =>
      if c.state = .reading ∧ c.inProgress = none ∧ c.dataPending = none then
        let blk := c.start + c.next
        match s.lookup blk with
        | .data d => takeBlocks n r ((s.touch blk).deliver c d)
        | .mark k w =>
          let s' := s.failRead c .poisoned (some k)
          if k = .reported then s'.poisonReadReported blk c.key.port w none else s'
        | .poison e =>
          match e.kind with
          | .media => s.failRead c .unreadable none
          | .quiet => s.failRead c .poisoned (some .quiet)
          | .reported =>
            (s.failRead c .poisoned (some .reported)).poisonReadReported blk c.key.port e.origin (some (e.hours, e.ms))
        | .media =>
          let req : PortReq :=
            { key := c.key, receipt := r, index := c.next, block := blk, seen := s.mediaRead (s.media.locate blk) }
          let s := s.withMedia { s.media with portReads := s.media.portReads ++ [req] }
          s.updCmd r fun c => { c with inProgress := some c.next }
      else s

/-- R69: the READ takes its next blocks; it has at most 16. -/
def runRead (s : Part) (r : Nat) : Part := takeBlocks 17 r s

/-- R59: the hold set of a READ: receipt places of the port's QUEUED or FILLING WRITEs and MARKs that overlap it. -/
def holdSetOf (s : Part) (p : Port) (start count : Nat) : List Nat :=
  ((s.cmds.ofPort p).filter fun c =>
      (decide (c.code = codeWrite) || decide (c.code = codeMark)) && c.holdsReads && overlaps c.start c.count start count).map
    (·.receipt)

/-- R60: a command in a hold set still holds the READ. -/
def stillHolds (s : Part) (r : Nat) : Bool := (s.cmds.byReceipt r).any (·.holdsReads)

/-- R60: a HELD READ whose hold set has emptied goes to READING and takes its first block. -/
def releaseOne (s : Part) (r : Nat) : Part :=
  match s.cmds.byReceipt r with
  | none => s
  | some c =>
    if c.state = .held then
      let hs := c.holdSet.filter s.stillHolds
      if hs.isEmpty then (s.updCmd r fun c => { c with state := .reading, holdSet := [] }).runRead r
      else s.updCmd r fun c => { c with holdSet := hs }
    else s

/-- R60: the READ is HELD. -/
def isHeldRead (s : Part) (r : Nat) : Bool := (s.cmds.byReceipt r).any fun c => decide (c.state = .held)

/-- R60: the READ is HELD, and nothing in its hold set holds it any more. -/
def isFreeRead (s : Part) (r : Nat) : Bool :=
  (s.cmds.byReceipt r).any fun c => decide (c.state = .held) && c.holdSet.all fun x => !s.stillHolds x

/-- R60: the READ is released in its turn: not while one of `wait` that was received before it is HELD. -/
def releaseInTurn (wait : List Nat) (s : Part) (r : Nat) : Part :=
  if wait.any fun x => decide (x < r) && s.isHeldRead x then s else s.releaseOne r

/-- R60: commands that have stopped being QUEUED or FILLING leave the hold sets; several READs are released in order of
receipt, each in its turn with those of `wait`. -/
def releaseHeld (wait : List Nat) (s : Part) : Part := (s.cmds.recs.map (·.receipt)).foldl (releaseInTurn wait) s

/-- R60: the READs HELD in `b` that have been released on the way from it to `f`. -/
def released (b f : Part) : List Nat :=
  (b.cmds.recs.map (·.receipt)).filter fun r => b.isHeldRead r && !f.isHeldRead r

/-- R76: the GO of an admitted WRITE is produced. It enters the queue, and the data deadline is armed; or it is held. -/
def sendGo (s : Part) (c : Cmd) : Part :=
  let l := s.lc c.key.port
  let f := TxFrame.go c.key.tag c.count
  if l.responses < Config.maxResponses then
    (s.setLc c.key.port (l.push f)).updCmd c.receipt fun c => { c with deadline := some (s.now + Config.dataDeadline) }
  else s.setLc c.key.port { l with held := l.held ++ [{ frame := f }] }

/-- R76: a held GO has entered: the data deadline of its WRITE is armed. -/
def goEntered (s : Part) (k : Key) : Part :=
  match s.cmds.at? k with
  | some c =>
    if c.state = .filling then
      s.updCmd c.receipt fun c => { c with deadline := some (s.now + Config.dataDeadline) }
    else s
  | none => s

/-- R69: a held DATA-OUT has entered: its READ takes its next block. -/
def dataEntered (s : Part) (k : Key) : Part :=
  match s.cmds.at? k with
  | some c => (s.updCmd c.receipt fun c => { c with dataPending := none }).runRead c.receipt
  | none => s

/-- R49: the completion behind a held frame has entered: its record is removed. -/
def behindEntered (s : Part) (k : Key) : Part :=
  match s.cmds.at? k with
  | some c => if c.state = .sending then s.dropCmd c.receipt else s
  | none => s

/-- What the entry of a held frame brings about. -/
def heldEntered (s : Part) (p : Port) (h : HeldFrame) : Part :=
  match h.behind, h.frame with
  | some f, .dataOut t _ _ => (s.setLc p ((s.lc p).push f)).behindEntered ⟨p, t⟩
  | some f, .go t _ => (s.setLc p ((s.lc p).push f)).behindEntered ⟨p, t⟩
  | none, .dataOut t _ _ => s.dataEntered ⟨p, t⟩
  | none, .go t _ => s.goEntered ⟨p, t⟩
  | _, _ => s

/-- R183: held frames enter from the oldest while the queue holds fewer than 32 response frames. -/
def enterHeld : Nat → Port → Part → Part
  | 0, _, s => s
  | n + 1, p, s =>
    let l := s.lc p
    match l.held with
    | [] => s
    | h :: hs =>
      if l.responses < Config.maxResponses then
        enterHeld n p ((s.setLc p { l.push h.frame with held := hs }).heldEntered p h)
      else s

/-- R183: each entry adds a response frame, so at most 32 enter. -/
def enterAll (s : Part) (p : Port) : Part := enterHeld (Config.maxResponses + 1) p s

end Part

end Sys2Proof.Machine
end

