-- ==== Sys2Proof/Machine/Leases.lean ====
section
/-! DEFINITION. The Lease Unit (chapter 2): the rights query, conflicts, grants, the wait list scan and the lease requests. -/

namespace Sys2Proof.Machine

/-- R27: the id after `c`; 65,535 is followed by 1. -/
def nextLeaseId (c : BitVec 16) : BitVec 16 := if c = 0xFFFF#16 then 1 else c + 1

/-- R27: the first id from `c` on that no lease of the table has; the first argument bounds the ids passed over. -/
def freeLeaseId (table : List Lease) : Nat → BitVec 16 → BitVec 16
  | 0, c => c
  | n + 1, c => if table.any (fun l => decide (l.id = c)) then freeLeaseId table n (nextLeaseId c) else c

/-- R29, first two cases: a held lease stands against a request of port `p`. -/
def Lease.against (l : Lease) (p : Port) (start len : Nat) (mode : LeaseMode) : Bool :=
  overlaps l.start l.len start len &&
    (decide (l.holder = p) || decide (l.mode = .exclusive) || decide (mode = .exclusive))

/-- R29: a wait list entry and a request conflict. -/
def Wait.against (w : Wait) (start len : Nat) (mode : LeaseMode) : Bool :=
  overlaps w.start w.len start len && (decide (w.mode = .exclusive) || decide (mode = .exclusive))

/-- R29, third case: a frame of a FILLING WRITE stands against a request of port `p`. -/
def Frame.against (f : Frame) (p : Port) (start len : Nat) (mode : LeaseMode) : Bool :=
  decide (f.state = .filling) && f.ofPort && inRange f.block start len &&
    (decide (mode = .shared) || decide (f.port? ≠ some p))

/-- R40: the place of a lease report: start block, then id. -/
def LeaseReport.before (a b : LeaseReport) : Bool :=
  decide (a.start < b.start) || (decide (a.start = b.start) && decide (a.id.toNat < b.id.toNat))

/-- R40: a report enters a list of reports in order. -/
def insertReport (x : LeaseReport) : List LeaseReport → List LeaseReport
  | [] => [x]
  | y :: ys => if x.before y then x :: y :: ys else y :: insertReport x ys

namespace Part

def setLeases (s : Part) (ls : List Lease) : Part := s.withLease { s.lease with table := ls }

def setWaits (s : Part) (ws : List Wait) : Part := s.withLease { s.lease with waits := ws }

/-- R26: the rights query of port `p` for a command's blocks; `none` is Permitted. -/
def rightsQuery (s : Part) (p : Port) (start count : Nat) : Option Status :=
  if s.lease.table.any (fun l => overlaps l.start l.len start count &&
      (decide (l.mode = .shared) || (decide (l.mode = .exclusive) && decide (l.holder ≠ p)))) then some .leaseConflict
  else if (s.session p).reqLease && !(List.range count).all (fun i => s.lease.table.any fun l =>
      decide (l.holder = p) && decide (l.mode = .exclusive) && inRange (start + i) l.start l.len) then some .notLeased
  else none

/-- R29: a held lease or a FILLING WRITE stands against a request. -/
def leaseBlocked (s : Part) (p : Port) (start len : Nat) (mode : LeaseMode) : Bool :=
  s.lease.table.any (fun l => l.against p start len mode) || s.sb.frames.any (fun f => f.against p start len mode)

/-- R32, R35: the request of port `p` can be granted in front of the entries `ahead`. -/
def grantable (s : Part) (ahead : List Wait) (p : Port) (start len : Nat) (mode : LeaseMode) : Bool :=
  !s.leaseBlocked p start len mode && !ahead.any (fun w => w.against start len mode) &&
    decide (s.lease.table.length < Config.maxLeases)

/-- R32: the record that a grant makes. -/
def newLease (s : Part) (p : Port) (start len : Nat) (mode : LeaseMode) (duration : Nat) : Lease :=
  { id := freeLeaseId s.lease.table (Config.maxLeases + 1) s.lease.nextId
    holder := p
    session := (s.session p).number
    start := start
    len := len
    mode := mode
    deadline := s.now + 10 * duration
    granted := s.now }

/-- R27, R32: a lease enters the table, and the counter takes the id after it. -/
def addLease (s : Part) (l : Lease) : Part :=
  s.withLease { s.lease with table := s.lease.table ++ [l], nextId := nextLeaseId l.id }

/-- R35: an entry is granted: it leaves the list, and its lease is made. -/
def moveWait (s : Part) (w : Wait) (l : Lease) : Part :=
  (s.setWaits (s.lease.waits.filter fun x => decide (x ≠ w))).addLease l

/-- R35: the grant of an entry completes its command OK. -/
def grantWait (s : Part) (w : Wait) : Part :=
  let l := s.newLease w.key.port w.start w.len w.mode w.duration
  match s.cmds.at? w.key with
  | some c => (s.moveWait w l).finish c .ok (.leaseAcquire l.id l.granted l.deadline)
  | none => s.moveWait w l

/-- R35: one pass over the entries, in list order; `ahead` are the entries passed over. -/
def scanWaits (ahead : List Wait) : List Wait → Part → Part
  | [], s => s
  | w :: ws, s =>
    if s.grantable ahead w.key.port w.start w.len w.mode then scanWaits ahead ws (s.grantWait w)
    else scanWaits (ahead ++ [w]) ws s

/-- R35: the wait list scan; none is made while the device is not READY. -/
def waitScan (s : Part) : Part := if s.md.device = .ready then scanWaits [] s.lease.waits s else s

/-! ### Requests -/

/-- A request that is served in its acceptance event answers with a completion; its record does not outlast the event
(R49, R50; log 19). -/
def reply (s : Part) (c : Cmd) (st : Status) (r : Result) : Part :=
  s.sendCompletion c.key.port c.key.tag c.code st r

/-- A record that outlasts its acceptance event enters its tag table and takes its place in the order of receipt (R47, R50,
R52). -/
def record (s : Part) (c : Cmd) : Part :=
  s.withCmds { s.cmds with recs := s.cmds.recs ++ [c], nextReceipt := s.cmds.nextReceipt + 1 }

/-- R31: the range overlaps a held lease or a wait list entry of the port. -/
def overlapsOwn (s : Part) (p : Port) (start len : Nat) : Bool :=
  s.lease.table.any (fun l => decide (l.holder = p) && overlaps l.start l.len start len) ||
    s.lease.waits.any (fun w => decide (w.key.port = p) && overlaps w.start w.len start len)

/-- R32 to R34: a LEASE ACQUIRE that has passed R30 and R31. -/
def acquire (s : Part) (c : Cmd) (x : LeaseParams) : Part :=
  let p := c.key.port
  if s.grantable s.lease.waits p x.start x.len x.mode then
    let l := s.newLease p x.start x.len x.mode x.duration
    (s.addLease l).reply c .ok (.leaseAcquire l.id l.granted l.deadline)
  else if x.waitLimit = 0 then
    s.reply c
      (if s.leaseBlocked p x.start x.len x.mode || s.lease.waits.any (fun w => w.against x.start x.len x.mode) then
        .leaseConflict else .leaseTableFull) .none
  else if s.lease.waits.length < Config.maxWaits then
    (s.setWaits (s.lease.waits ++ [{ key := c.key, start := x.start, len := x.len, mode := x.mode,
                                     duration := x.duration, deadline := s.now + x.waitLimit }])).record
      { c with state := .waiting, lease := some x }
  else s.reply c .waitListFull .none

/-- R30, R31: LEASE ACQUIRE. -/
def serveAcquire (s : Part) (c : Cmd) (params : Except Status LeaseParams) : Part :=
  match params with
  | .error st => s.reply c st .none
  | .ok x => if s.overlapsOwn c.key.port x.start x.len then s.reply c .overlapSelf .none else s.acquire c x

/-- The held lease with an id, where port `p` holds it (R38, R39). -/
def ownLease (s : Part) (p : Port) (id : BitVec 16) : Option Lease :=
  s.lease.table.find? fun l => decide (l.id = id) && decide (l.holder = p)

/-- R38: LEASE RENEW. -/
def serveRenew (s : Part) (c : Cmd) (id duration : BitVec 16) : Part :=
  if !durationOk duration then s.reply c .invalid .none
  else
    match s.ownLease c.key.port id with
    | none => s.reply c .noSuchLease .none
    | some _ =>
      let d := s.now + 10 * duration.toNat
      (s.setLeases (s.lease.table.map fun l => if l.id = id then { l with deadline := d } else l)).reply c .ok (.leaseRenew d)

/-- The lease with an id leaves the table. -/
def removeLease (s : Part) (id : BitVec 16) : Part :=
  s.setLeases (s.lease.table.filter fun l => decide (l.id ≠ id))

/-- R39: LEASE RELEASE. -/
def serveRelease (s : Part) (c : Cmd) (id : BitVec 16) : Part :=
  match s.ownLease c.key.port id with
  | none => s.reply c .noSuchLease .none
  | some _ => (s.removeLease id).reply c .ok .none

/-- R40: what LEASE QUERY returns for a held lease. -/
def reportLease (s : Part) (l : Lease) : LeaseReport :=
  { id := l.id, holder := l.holder, session := l.session, token := (s.session l.holder).token, start := l.start,
    len := l.len, mode := l.mode, granted := l.granted, deadline := l.deadline }

/-- R40: the reports for a range, in ascending order of start block and id. -/
def leasesIn (s : Part) (start len : Nat) : List LeaseReport :=
  ((s.lease.table.filter fun l => overlaps l.start l.len start len).map s.reportLease).foldr insertReport []

/-- R40: LEASE QUERY. -/
def serveQuery (s : Part) (c : Cmd) (start len : BitVec 32) : Part :=
  if len.toNat = 0 then s.reply c .invalid .none
  else if !rangeOk start.toNat len.toNat then s.reply c .outOfRange .none
  else s.reply c .ok (.leaseQuery (s.leasesIn start.toNat len.toNat))

/-! ### Deadlines -/

/-- R37: the deadline of a held lease expires. -/
def lapse (s : Part) (l : Lease) : Part :=
  (s.removeLease l.id).offerNotice l.holder (.leaseLapsed l.id l.start l.len l.mode l.deadline)

/-- R36, R41, R42: a wait list entry leaves without a grant, and its command completes with a status. -/
def endWait (s : Part) (k : Key) (st : Status) : Part :=
  let s := s.setWaits (s.lease.waits.filter fun w => decide (w.key ≠ k))
  match s.cmds.at? k with
  | some c => s.finish c st .none
  | none => s

end Part

end Sys2Proof.Machine
end

