-- ==== Sys2Proof/Machine/Admission.lean ====
section
/-! DEFINITION. The Admission Unit (chapter 3, section 3.3): the scan of the admission queue. -/

namespace Sys2Proof.Machine.Part

/-- R58, WRITE: frames are allocated FILLING, the command goes to FILLING, and its GO is produced. -/
def admitWrite (s : Part) (c : Cmd) : Part :=
  let ids := s.allocIdx c.count
  let s := ((s.dequeue c.key).reclaim ids).fillFrames c.key c.start ids
  (s.updCmd c.receipt fun c => { c with state := .filling, next := 0 }).sendGo c

/-- R134: the frames of a MARK that has just been admitted, as block and sequence number. -/
def markList (s : Part) (blk : Nat) : Nat → List (Nat × BitVec 32)
  | 0 => []
  | n + 1 =>
    (match (s.sb.inState .dirty blk).bind (·.seq) with
     | some q => [(blk, q)]
     | none => []) ++ s.markList (blk + 1) n

/-- R58, MARK: its frames become DIRTY, its tally entry is made (R134), and it goes to SETTLING. A MARK of another command
that this completes by supersession is answered here. -/
def admitMark (s : Part) (c : Cmd) : Part :=
  let ids := s.allocIdx c.count
  let s := ((s.dequeue c.key).reclaim ids).markFrames c.key c.kind c.start ids
  let s := s.withInteg { s.integ with
    tally := s.integ.tally ++ [{ key := c.key, blocks := c.count, frames := s.markList c.start c.count, superseded := 0 }] }
  (s.updCmd c.receipt fun c => { c with state := .settling }).emitDecided

/-- R56: an entry fails and is answered. -/
def admitFail (s : Part) (c : Cmd) (st : Status) : Part :=
  (s.dequeue c.key).finish c st .none

/-- R55: the entry is skipped, for quota or for an overlapping skipped entry of its port. -/
def skips (s : Part) (skipped : List Cmd) (c : Cmd) : Bool :=
  decide ((s.session c.key.port).quota < s.sb.attr (.port c.key.port) + c.count) ||
    skipped.any (fun d => decide (d.key.port = c.key.port) && overlaps d.start d.count c.start c.count)

/-- R56: the status an entry fails with, if it fails. -/
def admissionFailure (s : Part) (c : Cmd) : Option Status :=
  match s.rightsQuery c.key.port c.start c.count with
  | some st => some st
  | none =>
    if c.code = codeMark ∧ Config.maxPoison < s.integ.poison.length + s.sb.markFrames + c.count then some .poisonMapFull
    else none

/-- R54 to R58: the entries are tested from the head. `skipped` are the entries skipped so far; the answer says whether a
MARK admission has lowered another port's attribution. -/
def scanQueue (skipped : List Cmd) (lowered : Bool) : List Key → Part → Part × Bool
  | [], s => (s, lowered)
  | k :: ks, s =>
    match s.cmds.at? k with
    | none => scanQueue skipped lowered ks s
    | some c =>
      if s.skips skipped c then scanQueue (skipped ++ [c]) lowered ks s
      else
        match s.admissionFailure c with
        | some st => scanQueue skipped lowered ks (s.admitFail c st)
        | none =>
          if s.sb.available < c.count then (s.withCmds { s.cmds with stop := some k }, lowered)
          else if c.code = codeMark then scanQueue skipped (lowered || attrFell s (s.admitMark c)) ks (s.admitMark c)
          else scanQueue skipped lowered ks (s.admitWrite c)

/-- R58: a scan, and one more after each scan in which a MARK lowered another port's attribution. -/
def admitScans : Nat → Part → Part
  | 0, s => s
  | n + 1, s =>
    let r := scanQueue [] false s.cmds.queue (s.withCmds { s.cmds with stop := none })
    if r.2 then admitScans n r.1 else r.1

/-- R54: the admission scan; none is made while the device is not READY. Each further scan follows an admission, so there
are at most as many as entries. -/
def admission (s : Part) : Part :=
  if s.md.device = .ready then admitScans (s.cmds.queue.length + 1) s else s

/-- R57, R122: an entry that stopped the last scan for frames is still queued. -/
def stopped (s : Part) : Bool := s.cmds.stop.any fun k => s.cmds.queue.contains k

end Sys2Proof.Machine.Part
end

