-- ==== Sys2Proof/Machine/Scrubbing.lean ====
section
/-! DEFINITION. The refresh list (R121) and the scrub engine (chapter 8): requesting, beginning, taking blocks, stopping and
ending a pass. -/

namespace Sys2Proof.Machine

/-- R149: the starter that a SCRUB_PASS record carries: a port; AUTO is absent there (log 24). -/
def recordStarter : Option Starter → Option Starter
  | some (.port p) => some (.port p)
  | _ => none

/-- R145: the engine moves on from block `b`: to the next block of the window, or to the start of the next enabled window;
after the last block of the last enabled window no block remains (log 15). -/
def Scrub.advance (x : Scrub) (st : Settings) (b : Nat) : Scrub :=
  if (st.window x.window).any (fun w => decide (b < w.last)) then { x with next := b + 1 }
  else
    match st.enabledFrom (x.window + 1) with
    | some j => { x with window := j, next := ((st.window j).map (·.first)).getD 0 }
    | none => { x with next := b + 1 }

/-- R145: a block remains to be taken. -/
def Scrub.remains (x : Scrub) (st : Settings) : Bool := (st.window x.window).any fun w => decide (x.next ≤ w.last)

/-- R141: the check is over. -/
def Scrub.closeCheck (x : Scrub) : Scrub := { x with inCheck := none, phase := .absent }

namespace Part

def setScrub (s : Part) (x : Scrub) : Part := s.withScrub x

/-- The refresh list takes an offer of the block or already holds it (R121). -/
def refreshTakes (s : Part) (blk : Nat) : Bool :=
  s.media.refresh.any (fun e => decide (e.block = blk)) || decide (s.media.refresh.length < Config.maxRefresh)

/-- R121: a block is offered to the refresh list. -/
def offerRefresh (s : Part) (blk : Nat) (o : Origin) : Part :=
  if s.media.refresh.any (fun e => decide (e.block = blk)) then s
  else if s.media.refresh.length < Config.maxRefresh then
    s.withMedia { s.media with refresh := s.media.refresh ++ [{ block := blk, origin := o }] }
  else s

/-- R140, R152: the scrub-running mark is set or cleared, as one change. -/
def setMark (s : Part) (x : Bool) : Part := (s.withMd { s.md with scrubMark := x }).change

/-- R141, R142: a pass is requested, where a window is enabled. -/
def requestPass (s : Part) (who : Starter) : Part :=
  match s.md.settings.enabledFrom 0 with
  | none => s
  | some j =>
    let s := s.setMark true
    s.setScrub { s.scrub with
      state := .running, startedBy := some who, pending := true, window := j
      next := ((s.md.settings.window j).map (·.first)).getD 0
      inCheck := none, phase := .absent, counts := {}, lastEnd := .none, change := s.md.changes }

/-- R149: the pass ends with a reason. -/
def endPass (s : Part) (reason : EndReason) : Part :=
  let c := s.scrub.counts
  let who := s.scrub.startedBy
  let s := s.appendFault
    { kind := .scrubPass, scrub := some { reason := reason, startedBy := recordStarter who, counts := c } }
  let s := (s.setMark false).noticeAll (.scrubEnded { reason := reason, startedBy := who, counts := c })
  s.setScrub { s.scrub.closeCheck with state := .idle, pending := false, lastEnd := reason, autoRef := s.time.hours }

/-- R145: the engine takes blocks until one needs a check or none remains. The first argument bounds the blocks skipped. -/
def takeScrub : Nat → Part → Part
  | 0, s => s
  | n + 1, s =>
    if s.scrub.remains s.md.settings then
      let b := s.scrub.next
      let x := s.scrub.advance s.md.settings b
      if s.sb.hasStaged b || (s.poisonOf b).isSome then
        takeScrub n (s.setScrub { x with counts := { x.counts with skipped := x.counts.skipped + 1 } })
      else
        (s.setScrub { x with inCheck := some b, phase := .requested }).withMedia { s.media with scrubReq := some b }
    else s.endPass .completed

/-- A skipped block has a frame or an entry, and a window is passed once, so this many are enough. -/
def scrubNext (s : Part) : Part := takeScrub (4 * (s.sb.frames.length + s.integ.poison.length) + 5) s

/-- R148: a running pass is stopped. -/
def stopPass (s : Part) : Part :=
  if s.scrub.state = .running then
    match s.scrub.phase with
    | .absent => s.endPass .stopped
    | .requested => (s.withMedia { s.media with scrubReq := none }).endPass .stopped
    | .reading => s.setScrub { s.scrub with state := .stopping }
    | .waitingRoom => s.endPass .stopped
  else s

/-- R146, R148: a check has ended: the engine takes the next block, or a stopping pass ends. -/
def checkEnded (s : Part) : Part :=
  let s := s.setScrub s.scrub.closeCheck
  if s.scrub.state = .stopping then s.endPass .stopped else s.scrubNext

/-- The counts of the pass change. -/
def countScrub (s : Part) (f : ScrubCounts → ScrubCounts) : Part :=
  s.setScrub { s.scrub with counts := f s.scrub.counts }

/-- R146: the SCRUB_READ of block `b` ends. -/
def scrubEnded (s : Part) (b : Nat) (o : Integrity) : Part :=
  let s := s.countScrub fun c => { c with checked := c.checked + 1 }
  match o with
  | .good => s.checkEnded
  | .corrected =>
    let s := s.countScrub fun c => { c with corrected := c.corrected + 1 }
    if s.refreshTakes b then (s.offerRefresh b .scrub).checkEnded
    else if s.scrub.state = .stopping then s.checkEnded
    else s.setScrub { s.scrub with phase := .waitingRoom }
  | .uncorrectable =>
    let made := s.failureRecorded b
    ((s.mediaFailure b .scrubRead).countScrub fun c =>
      if made then { c with poisoned := c.poisoned + 1 } else { c with unrecorded := c.unrecorded + 1 }).checkEnded

/-- R146: a check that waits for room offers its block again when the list has room. -/
def scrubRetry (s : Part) : Part :=
  match s.scrub.phase, s.scrub.inCheck with
  | .waitingRoom, some b => if s.refreshTakes b then (s.offerRefresh b .scrub).checkEnded else s
  | _, _ => s

/-- R144: the auto-scrub test. -/
def autoScrub (s : Part) : Part :=
  if s.md.device = .ready ∧ s.md.settings.period ≠ 0 ∧ s.scrub.autoRef + s.md.settings.period ≤ s.time.hours ∧
      s.scrub.state = .idle then s.requestPass .auto
  else s

/-- R142, R164: the commands of a kind that wait on a change up to `n` are decided OK. -/
def decideCommit (s : Part) (code : BitVec 8) (n : Nat) : Part :=
  s.setRecs (s.cmds.recs.map fun c =>
    if c.code = code ∧ c.state = .settling ∧ c.change ≤ n then { c with state := .sending, result := some (.ok, .none) }
    else c)

/-- The commands of a kind that wait on a change up to `n` complete OK, in order of receipt. -/
def commitDone (s : Part) (code : BitVec 8) (n : Nat) : Part := (s.decideCommit code n).emitDecided

/-- R143: the pending pass begins, once a commit has carried its change. -/
def beginPass (s : Part) (n : Nat) : Part :=
  if s.scrub.state = .running ∧ s.scrub.pending ∧ s.scrub.change ≤ n then
    (s.setScrub { s.scrub with pending := false }).scrubNext
  else s

/-- R142: SCRUB START. -/
def serveScrubStart (s : Part) (c : Cmd) : Part :=
  if s.scrub.state ≠ .idle then s.reply c .busy .none
  else if (s.md.settings.enabledFrom 0).isNone then s.reply c .invalid .none
  else
    let s := s.requestPass (.port c.key.port)
    s.record { c with state := .settling, change := s.scrub.change }

/-- R148: SCRUB STOP; its completion comes before the notices of the pass it ends. -/
def serveScrubStop (s : Part) (c : Cmd) : Part :=
  if s.scrub.state = .idle then s.reply c .notRunning .none else (s.reply c .ok .none).stopPass

end Part

end Sys2Proof.Machine
end

