-- ==== Sys2Proof/Machine/Media.lean ====
section
/-! DEFINITION. The Media Engine (chapter 6): the refresh service, the ends of media reads and programs, and the arbiter. -/

namespace Sys2Proof.Machine

/-- The other metadata copy. -/
def CopyId.other : CopyId → CopyId
  | .a => .b
  | .b => .a

/-- R153: the generation after `g`; after 4,294,967,295 comes 1, and 0 is never written. -/
def nextGeneration (g : BitVec 32) : BitVec 32 := if g = 0xFFFFFFFF#32 then 1 else g + 1

/-- The classes of the media arbiter (R109). -/
inductive Grant where
  | portRead
  | commit
  | program
  | refreshRead
  | scrubRead
deriving DecidableEq, Repr

namespace Part

/-! ### Spares -/

/-- R120: the spare-low test. -/
def spareLowTest (s : Part) : Part :=
  let low := s.media.isSpareLow s.md.settings.threshold
  let crossed := low && !s.media.spareLow
  let s := s.withMedia { s.media with spareLow := low }
  if crossed then
    (s.noticeAll (.sparesLow s.media.freeSpares s.md.settings.threshold)).appendFault
      { kind := .sparesLow, spareCounts := some (s.media.freeSpares, s.md.settings.threshold) }
  else s

/-- R115: the spare of a failed second attempt is retired. One change. -/
def retireSpare (s : Part) (sp : Nat) : Part :=
  (s.withMedia { s.media with spares := s.media.spares ++ [{ idx := sp, use := .retired }] }).change

/-- R115: the block is remapped to a spare; the spare it had before is retired. One change. -/
def remapBlock (s : Part) (blk sp : Nat) : Part :=
  let old := (s.media.remap.find? fun r => decide (r.block = blk)).map (·.spare)
  let spares := s.media.spares.map fun x => if some x.idx = old then { x with use := .retired } else x
  let remap :=
    if old.isSome then s.media.remap.map fun r => if r.block = blk then { r with spare := sp } else r
    else s.media.remap ++ [{ block := blk, spare := sp }]
  (s.withMedia { s.media with remap := remap, spares := spares ++ [{ idx := sp, use := .inUse }] }).change

/-! ### Refresh service -/

/-- R122: the entry the refresh service takes next: the oldest READ-origin entry that is not started, else the oldest
SCRUB-origin one. -/
def nextRefresh (s : Part) : Option RefreshEntry :=
  (s.media.refresh.find? fun e => e.started.isNone && decide (e.origin = .read)).orElse fun _ =>
    s.media.refresh.find? fun e => e.started.isNone

/-- R122: a refresh may start. -/
def mayRefresh (s : Part) : Bool :=
  decide (s.md.device = .ready) && decide (s.sb.attr .refresh < Config.maxRefreshFrames) &&
    decide (1 ≤ s.sb.available) && !s.stopped

/-- R121: the entry of a block leaves the refresh list. -/
def dropRefresh (s : Part) (blk : Nat) : Part :=
  s.withMedia { s.media with refresh := s.media.refresh.filter fun e => decide (e.block ≠ blk) }

/-- R122, R123: a port's staged copy or a poison entry settles the block in place of a refresh. -/
def settledOtherwise (s : Part) (blk : Nat) : Bool := s.sb.hasPortFrame blk || (s.poisonOf blk).isSome

/-- R122, R16: the refresh of a block starts in the first frame an allocation gives. -/
def beginRefresh (s : Part) (blk : Nat) : Part :=
  match s.allocIdx 1 with
  | [] => s
  | i :: _ =>
    let s := (s.reclaim [i]).listFrame
      { idx := i, state := .filling, block := blk, writer := some .refresh, cmd := none, content := .data, seq := none,
        data := none }
    s.withMedia { s.media with
      refresh := s.media.refresh.map fun e => if e.block = blk then { e with started := some i } else e
      refreshReads := s.media.refreshReads ++ [{ frame := i, block := blk }] }

/-- R122: entries are started one after another while the conditions hold; the first argument bounds them. -/
def startRefreshes : Nat → Part → Part
  | 0, s => s
  | n + 1, s =>
    match s.nextRefresh with
    | none => s
    | some e =>
      if s.mayRefresh then
        startRefreshes n (if s.settledOtherwise e.block then s.dropRefresh e.block else s.beginRefresh e.block)
      else s

/-- R122: a try of the refresh service. -/
def refreshTry (s : Part) : Part := startRefreshes (s.media.refresh.length + 1) s

/-- R123: the refresh read of a block into a FILLING frame ends. A frame that has no entry in the refresh list any more was
dropped (R124). -/
def refreshEnded (s : Part) (i blk loc : Nat) (o : Integrity) : Part :=
  match (s.sb.at? i).filter fun f => decide (f.state = .filling) with
  | none => s
  | some f =>
    if s.media.refresh.any (fun e => decide (e.started = some i)) then
      let gone := (s.freeFrame i).dropRefresh blk
      if o = .uncorrectable then gone.mediaFailure blk .refreshRead
      else if s.settledOtherwise blk then gone
      else ((s.stageDirty { f with data := some (s.mediaRead loc) }).dropRefresh blk).emitDecided
    else s

/-! ### Reads -/

/-- R72, R112: a PORT_READ ends. What the read has found is offered for caching; the READ that still has this block in
progress delivers what the media held at its lookup (R70, R74; log 36). -/
def portReadEnded (s : Part) (r : PortReq) (loc : Nat) (o : Integrity) : Part :=
  let mine := (s.cmds.byReceipt r.receipt).filter fun c => decide (c.state = .reading) && decide (c.inProgress = some r.index)
  if o = .uncorrectable then
    let s := s.mediaFailure r.block .portRead
    match mine with
    | some c => if c.aborted then s.finish c .aborted (.read c.next none) else s.failRead c .unreadable none
    | none => s
  else
    let s := s.cacheRead r.block (s.mediaRead loc)
    let s := if o = .corrected then s.offerRefresh r.block .read else s
    match mine with
    | some c => (s.deliver c r.seen).runRead c.receipt
    | none => s

/-! ### Programs -/

/-- R117: a frame joins the commit wait list with the number of its program's last change. -/
def joinCommit (s : Part) (i : Nat) (o : ProgOutcome) : Part :=
  s.withMedia { s.media with commitWait := s.media.commitWait ++ [{ frame := i, outcome := o, change := s.md.changes }] }

/-- R116: a program has failed finally. -/
def failFinally (s : Part) (f : Frame) : Part :=
  let s := s.appendFault { kind := .programFailedLost, block := some f.block, port := f.port?, frameSeq := f.seq }
  let s :=
    match f.port? with
    | some p => s.offerNotice p (.dataLost f.block (f.seq.getD 0))
    | none => s
  let s := if (s.sb.inState .dirty f.block).isNone then s.mediaFailure f.block .program else s
  s.joinCommit f.idx .lost

/-- R114, R115, R138: a successful program of a port's frame removes the block's poison entry. -/
def unpoison (s : Part) (f : Frame) : Part := if f.ofPort then s.removeEntry f.block else s

/-- R114: the first attempt of frame `f` to location `loc` has succeeded. -/
def firstSucceeded (s : Part) (f : Frame) (loc : Nat) (d : BlockData) : Part :=
  let s := s.idle.mediaWrite loc d
  if f.ofPort && (s.poisonOf f.block).isSome then (s.unpoison f).joinCommit f.idx .ok else s.outcome f.idx .ok

/-- R114: the first attempt has failed: the second is made at once on the lowest free spare, or the program has failed. -/
def firstFailed (s : Part) (f : Frame) (loc : Nat) (d : BlockData) : Part :=
  let s := s.mediaSpoil loc
  match s.media.lowestFree with
  | some sp =>
    s.withMedia { s.media with
      current := some { op := .program f.idx f.block (Config.userBlocks + sp) d (some sp) } }
  | none => s.idle.failFinally f

/-- R115: the second attempt, on spare `sp`, has succeeded. -/
def secondSucceeded (s : Part) (f : Frame) (sp loc : Nat) (d : BlockData) : Part :=
  let s := (s.idle.mediaWrite loc d).remapBlock f.block sp
  let s := s.appendFault { kind := .programFailedRemapped, block := some f.block, port := f.port? }
  ((s.unpoison f).joinCommit f.idx .ok).spareLowTest

/-- R115: the second attempt has failed. -/
def secondFailed (s : Part) (f : Frame) (sp loc : Nat) : Part :=
  (((s.idle.mediaSpoil loc).retireSpare sp).failFinally f).spareLowTest

/-! ### The arbiter -/

/-- The volatile metadata set (R152). -/
def image (s : Part) : MetaImage :=
  { poison := s.integ.poison, remap := s.media.remap, spares := s.media.spares, ring := s.faults.ring,
    total := s.faults.total, settings := s.md.settings, scrubMark := s.md.scrubMark, hours := s.time.hours }

/-- A commit is in progress (R156). -/
def committing (s : Part) : Bool :=
  match s.media.current with
  | some { op := .commit _ _ _, .. } => true
  | _ => false

/-- R156: the COMMIT request is made when its conditions hold. -/
def requestCommit (s : Part) : Part :=
  if (s.md.device = .ready ∨ (s.md.device = .starting ∧ s.md.startUp.isSome)) ∧ !s.committing ∧ s.media.commitReq.isNone ∧
      s.md.committed < s.md.changes then
    s.withMedia { s.media with commitReq := some .commit }
  else s

/-- R110: the class the arbiter takes. -/
def choose (s : Part) : Option Grant :=
  if s.programWaits && decide (Config.maxReadRun ≤ s.media.readRun) then some .program
  else if !s.media.portReads.isEmpty then some .portRead
  else if s.media.commitReq.isSome then some .commit
  else if s.programWaits then some .program
  else if !s.media.refreshReads.isEmpty then some .refreshRead
  else if s.media.scrubReq.isSome then some .scrubRead
  else none

/-- The media becomes busy with an operation (R111). -/
def occupy (s : Part) (op : MediaOp) : Part := s.withMedia { s.media with current := some { op := op } }

/-- R110, R111: the grant of a PORT_READ. -/
def grantPortRead (s : Part) : Part :=
  match s.media.portReads with
  | [] => s
  | r :: rs =>
    (s.withMedia { s.media with
      portReads := rs, readRun := if s.programWaits then s.media.readRun + 1 else 0 }).occupy
        (.portRead r (s.media.locate r.block))

/-- R156: the copy and the generation that a commit writes. -/
def commitTarget (s : Part) : CopyId × BitVec 32 :=
  match s.md.current with
  | some (c, g) => (c.other, nextGeneration g)
  | none => (.a, 1)

/-- R111, R156: the grant of a request of class COMMIT; a commit takes its snapshot here. -/
def grantCommit (s : Part) : Part :=
  let t := s.withMedia { s.media with commitReq := none, readRun := 0 }
  match s.media.commitReq with
  | none => s
  | some .commit =>
    (t.withMd { t.md with snapshot := some t.md.changes }).occupy (.commit t.commitTarget.1 t.commitTarget.2 t.image)
  | some (.readCopy c) => t.occupy (.copyRead c)
  | some (.resetWrite c) => t.occupy (.resetWrite c)

/-- R113, R133: the grant of the program head. The frame goes to PROGRAMMING; a MARK frame's program ends at once. -/
def grantProgram (s : Part) : Part :=
  match s.sb.head with
  | none => s
  | some f =>
    let t := s.withMedia { s.media with readRun := 0 }
    let t := t.withSb { t.sb with
      frames := insertFrame { f with state := .programming } t.sb.frames
      progQ := t.sb.progQ.filter fun i => decide (i ≠ f.idx) }
    match f.content, f.data with
    | .mark k, _ => (t.setEntry f.block k.poison f.port?).joinCommit f.idx .ok
    | .data, some d => t.occupy (.program f.idx f.block (t.media.locate f.block) d none)
    | .data, none => t

/-- R111: the grant of a REFRESH_READ. -/
def grantRefreshRead (s : Part) : Part :=
  match s.media.refreshReads with
  | [] => s
  | r :: rs =>
    (s.withMedia { s.media with refreshReads := rs, readRun := 0 }).occupy
      (.refreshRead r.frame r.block (s.media.locate r.block))

/-- R111, R145: the grant of a SCRUB_READ. -/
def grantScrubRead (s : Part) : Part :=
  match s.media.scrubReq with
  | none => s
  | some b =>
    ((s.withMedia { s.media with scrubReq := none, readRun := 0 }).occupy (.scrubRead b (s.media.locate b))).setScrub
      { s.scrub with phase := .reading }

/-- A grant to a class. -/
def grant (s : Part) : Grant → Part
  | .portRead => s.grantPortRead
  | .commit => s.grantCommit
  | .program => s.grantProgram
  | .refreshRead => s.grantRefreshRead
  | .scrubRead => s.grantScrubRead

/-- The next grant goes to a MARK frame, which needs no media operation (R113). -/
def markNext (s : Part) : Bool := decide (s.choose = some .program) && s.sb.head.any (·.isMark)

/-- R113: a run of MARK frames at the program head is granted, one after another, in one event (log 11). -/
def grantMarks : Nat → Part → Part
  | 0, s => s
  | n + 1, s => if s.markNext then grantMarks n s.grantProgram else s

/-- R111, R156: the COMMIT request that a change calls for is made, and while the media is idle, grants are made. The request
that the changes of a run of MARK grants call for is made after the run (log 11). -/
def grants (s : Part) : Part :=
  let s := s.requestCommit
  if s.media.current.isSome then s
  else
    let s := (grantMarks (s.sb.progQ.length + 1) s).requestCommit
    match s.choose with
    | some g => s.grant g
    | none => s

end Part

end Sys2Proof.Machine
end

