-- ==== Sys2Proof/Machine/Sessions.lean ====
section
/-! DEFINITION. Sessions (chapter 5): the silence deadline, OPEN, CLOSE, the abrupt end, the drains, and the follow-ups that
the spec puts into the event that causes them (R35, R54, R60, R96, R99, R111, R122, R146). -/

namespace Sys2Proof.Machine.Part

/-- R91: the port's state arms a silence deadline. -/
def armsSilence (s : Part) (p : Port) : Bool :=
  decide ((s.session p).state = .opened) || decide ((s.session p).state = .closing)

/-- R91: the arrival of a valid frame re-arms the silence deadline of an OPEN or CLOSING port. -/
def rearm (s : Part) (p : Port) : Part :=
  if s.armsSilence p then
    s.setSession p { s.session p with deadline := some (s.now + (s.session p).silence) }
  else s

/-- R62: the record survives an abrupt end of its port's session: a DURABLE WRITE in SETTLING. -/
def survives (c : Cmd) : Bool := decide (c.code = codeWrite) && c.durable && decide (c.state = .settling)

/-- R98, R44, R62: the session of `p`, OPEN or CLOSING, ends abruptly. The scans follow (R44, R62). Everything the link
controller holds for the port goes, the GO of a DURABLE WRITE that survives in SETTLING included (log 34). -/
def abruptEnd (s : Part) (p : Port) (kind : FaultKind) (other : Option Port) : Part :=
  let s := s.withLease { s.lease with
    table := s.lease.table.filter fun l => decide (l.holder ≠ p)
    waits := s.lease.waits.filter fun w => decide (w.key.port ≠ p) }
  let s := s.setFrames (s.sb.frames.filter fun f =>
    !(decide (f.state = .filling) && decide (f.writer = some (.port p))))
  let s := s.withCmds { s.cmds with
    recs := s.cmds.recs.filter fun c => decide (c.key.port ≠ p) || survives c
    queue := s.cmds.queue.filter fun k => decide (k.port ≠ p) }
  let s := s.withInteg { s.integ with tally := s.integ.tally.filter fun t => decide (t.key.port ≠ p) }
  let s := s.setLc p { s.lc p with held := [] }
  let s := s.setSession p { s.session p with
    state := if (s.cmds.ofPort p).isEmpty then .closed else .draining, deadline := none }
  s.appendFault { kind := kind, port := some p, otherPort := other, session := some (s.session p).number }

/-! ### Drains -/

/-- R96: a port is CLOSING and has no record but its CLOSE; the CLOSE. A record whose completion waits behind a held DATA-OUT
is still there, in SAFE too, so the drain goes on until that completion has entered the transmit queue (R49; log 30). -/
def drained (s : Part) (p : Port) : Option Cmd :=
  if (s.session p).state = .closing then
    match s.cmds.ofPort p with
    | [c] => if c.code = codeClose then some c else none
    | _ => none
  else none

/-- R97, R43: the drain of a CLOSING port ends: its leases go, the port becomes CLOSED, and the CLOSE completes. The wait list
scan that the removal calls for is the event's one scan (R35). It reads nothing of the port's session, and its grants go to
other ports, so its place against these changes does not show. -/
def drainEnd (s : Part) (p : Port) : Part :=
  match s.drained p with
  | none => s
  | some c =>
    let s := s.setLeases (s.lease.table.filter fun l => decide (l.holder ≠ p))
    (s.setSession p { s.session p with state := .closed, deadline := none }).finish c .ok .none

/-- R99: a DRAINING port whose last record has ended becomes CLOSED. -/
def drainingEnd (s : Part) (p : Port) : Part :=
  if (s.session p).state = .draining ∧ (s.cmds.ofPort p).isEmpty then
    s.setSession p { s.session p with state := .closed }
  else s

/-- R96, R99: every port whose drain has ended. -/
def drains (s : Part) : Part := Port.all.foldl (fun s p => (s.drainEnd p).drainingEnd p) s

/-! ### Follow-ups -/

/-- R35, R54: a scan of either kind is due. -/
def scanDue (a b : Part) : Bool := waitScanDue a b || admissionDue a b

/-- R60, R96, R99: the READs that nothing holds any more take their first blocks, each in its turn with those of `wait`, and
the drains that have ended end. -/
def settle (wait : List Nat) (s : Part) : Part := (s.releaseHeld wait).drains

/-- R35: the wait list scan, where what the event has done, from `a` to `c`, calls for it. -/
def waitScanAfter (a c : Part) : Part := if waitScanDue a c then c.waitScan else c

/-- R54: the admission scan, where what the event has done, from `a` to `d`, or the wait list scan in it, from `c` to `d`,
calls for it. -/
def admissionAfter (a c d : Part) : Part := if admissionDue a d || leaseChanged c d then d.admission else d

/-- R35, R54: each scan that the event's changes, from `a` to `c`, call for, once; the wait list's first (R44, R62). -/
def scanOnce (a c : Part) : Part := admissionAfter a c (waitScanAfter a c)

/-- R35, R54, R60, R96: after an event has taken the part from `a` to `b`, what it settles: the READs that it releases look
their blocks up before a scan admits anything, and the drains that it ends give up their leases (R97). Then all its changes have
been made, and the scans are made. What these release or end is settled after them, and only a change that this makes brings
another round (log 10). -/
def scans (settled : Part → Part) : Nat → Part → Part → Part
  | 0, _, b => b
  | n + 1, a, b =>
    let e := scanOnce a (settled b)
    let f := settled e
    if scanDue e f then scans settled n e f else f

/-- A bound on the rounds of follow-ups: each round after the first ends a record, a frame or an entry. -/
def rounds (s : Part) : Nat :=
  s.cmds.recs.length + s.sb.frames.length + s.cmds.queue.length + s.lease.waits.length + s.media.refresh.length + 16

/-- The scans of an event. -/
def scanAll (settled : Part → Part) (a b : Part) : Part := scans settled b.rounds a b

/-- All follow-ups of an event: the scans, the refresh service, the scrub engine's wait for room, and the media's grants
(log 10). A READ that nothing holds any more, and that has waited in vain for one of `wait`, is released in the end. -/
def followUps : Nat → List Nat → Part → Part → Part
  | 0, _, _, b => b
  | n + 1, wait, a, b =>
    let c := scanAll (settle wait) a b
    let d := c.refreshTry.scrubRetry.refreshTry.grants
    if scanDue c d then followUps n wait c d
    else if d.cmds.recs.any fun x => d.isFreeRead x.receipt then followUps n [] d d
    else d

/-- R60: one event releases its READs in order of receipt. Where the READs that the follow-ups release are not all among
`wait`, the follow-ups are taken anew, with each of these READs waiting for those received before it (log 10). -/
def inTurn : Nat → List Nat → Part → Part → Part
  | 0, wait, a, b => followUps b.rounds wait a b
  | n + 1, wait, a, b =>
    let f := followUps b.rounds wait a b
    if (released b f).all fun r => wait.contains r then f else inTurn n (wait ++ released b f) a b

/-! ### Order of receipt (R52, R61) -/

/-- R52: the place in the order of receipt of the command with a port and tag, where the part holds its record. -/
def receiptOf (s : Part) (p : Port) (t : Tag) : Option Nat := (s.cmds.at? ⟨p, t⟩).map (·.receipt)

/-- R61: each port's completions that have entered its transmit queue since `a` are put into the order of receipt of their
commands; the queue of `a` keeps its place. -/
def inReceiptOrder (a s : Part) : Part :=
  let put := fun p =>
    let n := (a.lc p).txq.length
    { s.lc p with txq := (s.lc p).txq.take n ++ arrange (a.receiptOf p) ((s.lc p).txq.drop n) }
  s.withLinks ⟨put .p0, put .p1, put .p2, put .p3⟩

/-- The part after an event that took it from `a` to `b`, with all that follows in the event. -/
def follow (a b : Part) : Part := inReceiptOrder a (inTurn b.cmds.recs.length [] a b)

/-! ### Requests -/

/-- R93: the status that refuses an OPEN, by the first condition that holds. -/
def openRefusal (s : Part) (p : Port) (silence : BitVec 16) (quota reqLease : BitVec 8) : Option Status :=
  if s.md.device = .starting then some .notReady
  else if (s.session p).fenced then some .fenced
  else if (s.session p).state = .opened then some .alreadyOpen
  else if (s.session p).state = .closing ∨ (s.session p).state = .draining then some .busy
  else if !openParamsOk silence quota reqLease then some .invalid
  else if quotaOf quota < s.sb.attr (.port p) then some .busy
  else none

/-- R94: the session that an OPEN makes. -/
def openedSession (s : Part) (p : Port) (token : BitVec 32) (silence : BitVec 16) (quota reqLease : BitVec 8) : Session :=
  { s.session p with
    state := .opened, number := (s.session p).number + 1, token := token, silence := silence.toNat,
    quota := quotaOf quota, reqLease := (flagOf reqLease).getD false, deadline := some (s.now + silence.toNat) }

/-- R93, R94: OPEN. -/
def serveOpen (s : Part) (c : Cmd) (token : BitVec 32) (silence : BitVec 16) (quota reqLease : BitVec 8) : Part :=
  let p := c.key.port
  match s.openRefusal p silence quota reqLease with
  | some st => s.reply c st .none
  | none =>
    let x := s.openedSession p token silence quota reqLease
    (s.setSession p x).reply c .ok (.opened x.number x.quota x.silence (s.sb.attr (.port p)))

/-- R42, R95: CLOSE: the port's wait list entries end ABORTED in list order, the port is CLOSING, and the CLOSE is
SETTLING. The entries' ends read nothing of the session. -/
def serveClose (s : Part) (c : Cmd) : Part :=
  let p := c.key.port
  let mine := (s.lease.waits.filter fun w => decide (w.key.port = p)).map (·.key)
  let s := mine.foldl (fun s k => s.endWait k .aborted) s
  (s.setSession p { s.session p with state := .closing }).record { c with state := .settling }

/-- R102: FENCE of port `t` takes effect: the abrupt end with its scans, the flag, the FENCED notice. The abrupt end reads
nothing of the flag, so its place against the flag does not show. The READs that the scans free are released with the others of
the event, in order of receipt (R60). -/
def fencePort (s : Part) (p t : Port) : Part :=
  let x := s.session p
  let b := if s.armsSilence t then scanAll drains s (s.abruptEnd t .portFenced (some p)) else s
  (b.setSession t { b.session t with fenced := true }).putNotice t (.fenced p x.number x.token)

/-- R102: FENCE. -/
def serveFence (s : Part) (c : Cmd) (target : BitVec 8) : Part :=
  match Port.ofNat? target.toNat with
  | none => s.reply c .invalid .none
  | some t =>
    if t = c.key.port then s.reply c .invalid .none
    else if (s.session t).fenced then s.reply c .already .none
    else (s.fencePort c.key.port t).reply c .ok .none

/-- R104: UNFENCE. -/
def serveUnfence (s : Part) (c : Cmd) (target : BitVec 8) : Part :=
  match Port.ofNat? target.toNat with
  | none => s.reply c .invalid .none
  | some t =>
    if (s.session t).fenced then (s.setSession t { s.session t with fenced := false }).reply c .ok .none
    else s.reply c .notFenced .none

/-- R7, R76: a FILLING WRITE ends: its frames go to FREE, and a GO of it that is still held is discarded, by whatever the
WRITE ends (log 33). -/
def endFilling (s : Part) (c : Cmd) : Part :=
  let s := s.freeFilling c.key
  s.setLc c.key.port ((s.lc c.key.port).dropGo c.key.tag)

/-- R65 to R67: an ABORT finds its target `d`; the answer is the part and the ABORT's status. -/
def abortTarget (s : Part) (d : Cmd) : Part × Status :=
  match d.state with
  | .queued => ((s.dequeue d.key).finish d .aborted .none, .ok)
  | .held => (s.finish d .aborted (.read d.next none), .ok)
  | .waiting => (s.endWait d.key .aborted, .ok)
  | .filling => ((s.endFilling d).finish d .aborted .none, .ok)
  | .reading =>
    match d.inProgress with
    | none => (s.finish d .aborted (.read d.next none), .ok)
    | some _ => (s.updCmd d.receipt fun d => { d with count := d.next + 1, aborted := true }, .ok)
  | .settling => (s, .tooLate)
  | .sending => (s, .tooLate)

/-- R64: ABORT. -/
def serveAbort (s : Part) (c : Cmd) (target : Tag) : Part :=
  match s.cmds.at? ⟨c.key.port, target⟩ with
  | none => s.reply c .noSuchTag .none
  | some d => (s.abortTarget d).1.reply c (s.abortTarget d).2 .none

end Sys2Proof.Machine.Part
end

