-- ==== Sys2Proof/Machine/Persist.lean ====
section
/-! DEFINITION. The Metadata Unit (chapter 9): commits, SAFE entry, start-up, settings and METADATA RESET. -/

namespace Sys2Proof.Machine

/-! ### Validity of a copy (R153) -/

/-- The windows of a settings block are in range (R140). -/
def Window.ok (w : Window) : Bool := decide (w.first ≤ w.last) && decide (w.last < Config.userBlocks)

/-- R153, R164: every setting is in range. -/
def Settings.ok (x : Settings) : Bool :=
  decide (x.threshold ≤ Config.maxThreshold) && decide (x.period ≤ Config.maxPeriod) && x.w0.ok && x.w1.ok && x.w2.ok &&
    x.w3.ok

/-- R153, check 4: the contents are within the limits of the part. -/
def MetaImage.ok (m : MetaImage) : Bool :=
  decide (m.poison.length ≤ Config.maxPoison) && decide (m.poison.map (·.block)).Nodup &&
    decide (m.remap.length ≤ Config.spareBlocks) && decide (m.remap.map (·.block)).Nodup &&
    decide (m.remap.map (·.spare)).Nodup &&
    m.remap.all (fun r => m.spares.any fun x => decide (x.idx = r.spare) && decide (x.use = .inUse)) &&
    decide (m.spares.countP (fun x => decide (x.use = .inUse)) = m.remap.length) &&
    decide (m.ring.length ≤ Config.maxFaults) && decide (m.ring.length ≤ m.total) && m.settings.ok

/-- R153: a copy whose read ended with outcome `o` is valid. -/
def copyValid (o : Integrity) : Option MetaCopy → Bool
  | none => false
  | some c =>
    decide (o ≠ .uncorrectable) && decide (byteSum (copyBytes c.generation c.image) + c.checksum = 0) &&
      decide (c.generation ≠ 0) && c.image.ok

/-- A metadata copy on the media. -/
def Disk.copy (d : Disk) : CopyId → Option MetaCopy
  | .a => d.copyA
  | .b => d.copyB

/-- R125: an operation on a block that a METADATA RESET cuts off from its requester (log 14). -/
def MediaOp.ofBlock : MediaOp → Bool
  | .portRead .. => true
  | .refreshRead .. => true
  | .scrubRead .. => true
  | .program .. => true
  | .copyRead .. => false
  | .commit .. => false
  | .resetWrite .. => false

namespace Part

/-! ### SAFE entry (R163) -/

/-- R163: a frame on the commit wait list satisfies a predicate. -/
def waitsCommit (s : Part) (f : Frame → Bool) : Bool := s.media.commitWait.any fun w => (s.sb.at? w.frame).any f

/-- R163, R135: a command in SETTLING waits on a commit. -/
def awaitsCommit (s : Part) (c : Cmd) : Bool :=
  if c.code = codeScrubStart ∨ c.code = codeSettingsWrite then true
  else if c.code = codeMark then
    s.integ.tally.any fun t => decide (t.key = c.key) && t.frames.any fun x =>
      s.waitsCommit fun f => decide (f.cmd = some c.key) && decide (f.block = x.1) && decide (f.seq = some x.2)
  else
    c.waitSet.any fun e => decide (e.res = .pending) &&
      s.waitsCommit fun f => decide (f.block = e.block) && f.seq.any fun q => seqGe q e.seq

/-- R63: what SAFE entry makes of a record: `none` ends it without a frame (R99). -/
def safeRecord (s : Part) (byCommit : Bool) (c : Cmd) : Option Cmd :=
  match c.state with
  | .sending => some c
  | .settling =>
    if c.code = codeClose then some c
    else if (s.session c.key.port).state = .draining then none
    else some { c with
      state := .sending, result := some (if byCommit && s.awaitsCommit c then .metadataFailed else .safeMode, .none) }
  | _ => some { c with state := .sending, result := some (.safeMode, .none) }

/-- R76: a GO that is still held is discarded with the WRITE that SAFE entry ends, in FILLING or, DURABLE, in SETTLING. A
WRITE in SENDING has ended already and sends what it still has to send (R63). -/
def dropGos (s : Part) : Part :=
  (s.cmds.recs.filter fun c => decide (c.state ≠ .sending)).foldl
    (fun s c => s.setLc c.key.port ((s.lc c.key.port).dropGo c.key.tag)) s

/-- R163: the device enters SAFE. `byCommit` says that the third consecutive commit failure is the cause. The drains that
this ends follow (R96, R99). The completions enter before the SCRUB_ENDED notice of the pass that ends (log 31). A check in
WAITING_ROOM is given up and its block not offered again, though started refreshes leave the list (log 37). -/
def safeEntry (s : Part) (byCommit : Bool) : Part :=
  let recs := s.cmds.recs.filterMap (s.safeRecord byCommit)
  let s := (s.dropGos.withMd { s.md with device := .safe, startUp := none }).withCmds
    { s.cmds with recs := recs, queue := [], stop := none }
  let s := s.setFrames (s.sb.frames.filter fun f => decide (f.state ≠ .filling))
  let s := (s.setLeases []).setWaits []
  let s := s.withInteg { s.integ with tally := [] }
  let s := s.withMedia { s.media with
    refresh := s.media.refresh.filter (fun e => e.started.isNone), refreshReads := [] }
  s.emitDecided.stopPass

/-! ### Commits (R156, R157) -/

/-- R117: the entries of the commit wait list that a commit up to change `n` carries report their outcomes in list order. -/
def releaseCommitWait (s : Part) (n : Nat) : Part :=
  let go := s.media.commitWait.filter fun w => decide (w.change ≤ n)
  let s := s.withMedia { s.media with commitWait := s.media.commitWait.filter fun w => !decide (w.change ≤ n) }
  go.foldl (fun s w => s.outcome w.frame w.outcome) s

/-- R161: the device enters READY from start-up (R144). -/
def readyFromStartUp (s : Part) : Part :=
  (s.withMd { s.md with device := .ready, startUp := none }).setScrub { s.scrub with autoRef := s.time.hours }

/-- R161: the start-up commit has completed. -/
def startUpDone (s : Part) (n : Nat) : Part :=
  if s.md.device = .starting ∧ s.md.startUp.any (fun k => decide (k ≤ n)) then s.readyFromStartUp else s

/-- R156: a commit's write has succeeded. The outcomes are reported in list order (R117), the SCRUB STARTs and SETTINGS WRITEs
complete, and the pending pass begins. The completions of all of these enter in order of receipt (R61; log 23), and before the
SCRUB_ENDED notice of a pass that ends as it begins (log 38). The frames of the commit wait list have left PROGRAMMING when the pass
that begins tests its first block (log 39). -/
def commitSucceeded (s : Part) (c : CopyId) (g : BitVec 32) (m : MetaImage) : Part :=
  let n := s.md.snapshot.getD s.md.committed
  let s := s.idle.setCopy c (some (MetaCopy.write g m))
  let s := s.withMd { s.md with current := some (c, g), committed := n, snapshot := none, failures := 0 }
  let s := (((s.releaseCommitWait n).decideCommit codeScrubStart n).decideCommit codeSettingsWrite n).emitDecided
  (s.beginPass n).startUpDone n

/-- R157: a commit's write has failed; the third failure in a row enters SAFE. -/
def commitFailed (s : Part) (c : CopyId) (g : BitVec 32) : Part :=
  let s := s.idle.setCopy c none
  let s := s.withMd { s.md with snapshot := none, failures := s.md.failures + 1 }
  let s := s.appendFault { kind := .metadataCommitFailed, copy := some c, generation := some g }
  if Config.maxCommitFailures ≤ s.md.failures then s.safeEntry true else s

/-! ### Start-up (R158 to R161) -/

/-- R159: the volatile metadata set takes the values of the loaded copy. -/
def load (s : Part) (c : CopyId) (x : MetaCopy) : Part :=
  let m := x.image
  let s := s.setPoison m.poison
  let s := (s.withFaults { ring := m.ring, total := m.total }).withTime { s.time with hours := m.hours }
  let s := s.withMd { s.md with settings := m.settings, scrubMark := m.scrubMark, current := some (c, x.generation) }
  let s := s.withMedia { s.media with remap := m.remap, spares := m.spares }
  s.withMedia { s.media with spareLow := s.media.isSpareLow m.settings.threshold }

/-- R160: no copy is valid. -/
def loadNone (s : Part) : Part :=
  let s := (s.setPoison []).withFaults { ring := [], total := 0 }
  let s := (s.withTime { s.time with hours := 0 }).withMd { s.md with settings := .default, scrubMark := false, current := none }
  let s := s.withMedia { s.media with remap := [], spares := [], spareLow := false }
  let s := s.appendFault { kind := .metadataCopyBad, copy := some .a }
  let s := s.appendFault { kind := .metadataCopyBad, copy := some .b }
  s.safeEntry false

/-- R161: the start-up changes of a loaded copy; `bad` is the copy that was invalid, if one was. -/
def startUpChanges (s : Part) (bad : Option CopyId) : Part :=
  let mark := s.md.scrubMark
  let s := if bad.isSome then s.appendFault { kind := .metadataCopyBad, copy := bad } else s
  let s := if mark then (s.appendFault { kind := .scrubInterrupted }).setMark false else s
  if bad.isSome || mark then s.withMd { s.md with startUp := some s.md.changes } else s.readyFromStartUp

/-- R159: the copy to load is selected; `a` and `b` say which copies are valid. -/
def selectCopy (s : Part) (a b : Bool) : Part :=
  match a, b, s.disk.copyA, s.disk.copyB with
  | true, true, some x, some y =>
    if seqGt y.generation x.generation then
      (s.load .b y).startUpChanges none
    else (s.load .a x).startUpChanges none
  | true, false, some x, _ => (s.load .a x).startUpChanges (some .b)
  | false, true, _, some y => (s.load .b y).startUpChanges (some .a)
  | _, _, _, _ => s.loadNone

/-- R159: the read of copy A has ended: copy A is judged, and the read of copy B is requested. -/
def copyARead (s : Part) (o : Integrity) : Part :=
  let s := s.idle.withMd { s.md with verdictA := some (copyValid o s.disk.copyA) }
  s.withMedia { s.media with commitReq := some (.readCopy .b) }

/-- R159: the read of copy B has ended. -/
def copyBRead (s : Part) (o : Integrity) : Part :=
  let a := s.md.verdictA.getD false
  let b := copyValid o s.disk.copyB
  (s.idle.withMd { s.md with verdictA := none }).selectCopy a b

/-! ### Requests of chapter 9 -/

/-- R140, R164: SETTINGS WRITE. -/
def serveSettingsWrite (s : Part) (c : Cmd) (raw : RawSettings) : Part :=
  match settingsOf raw with
  | none => s.reply c .invalid .none
  | some x =>
    if !x.sameWindows s.md.settings ∧ s.scrub.state ≠ .idle then s.reply c .busy .none
    else
      let s := (s.withMd { s.md with settings := x }).change
      let n := s.md.changes
      s.spareLowTest.autoScrub.record { c with state := .settling, change := n }

/-- R125, R23, R139, R150, R164, R165: the part in the acceptance event of METADATA RESET, before the reset image is taken. -/
def resetSet (s : Part) : Part :=
  let s := s.withSb { s.sb with frames := [], progQ := [], clean := [] }
  let spares := s.media.spares.filter fun x => decide (x.use = .retired)
  let s := s.withMedia { s.media with
    current := s.media.current.map fun o => { o with discard := o.discard || MediaOp.ofBlock o.op }
    portReads := [], refreshReads := [], scrubReq := none, readRun := 0, commitWait := [], remap := [], spares := spares,
    refresh := [] }
  let s := s.withMedia { s.media with spareLow := s.media.isSpareLow Config.defaultThreshold }
  let s := s.withInteg { poison := [], tally := [] }
  let s := s.setScrub (if s.scrub.state = .idle then { s.scrub with autoRef := s.time.hours }
    else { s.scrub.closeCheck with state := .idle, pending := false, lastEnd := .stopped, autoRef := s.time.hours })
  let s := s.withMd { s.md with settings := .default, scrubMark := false }
  (s.withFaults { ring := [], total := 0 }).appendFault { kind := .metadataReset }

/-- R165, R166: METADATA RESET takes effect: the reset image is taken, and the write of copy A is requested. -/
def metadataResetEffect (s : Part) : Part :=
  let s := s.resetSet
  let s := s.withMd { s.md with
    changes := 0, committed := 0, snapshot := none, failures := 0, current := none, resetImage := some s.image }
  s.withMedia { s.media with commitReq := some (.resetWrite .a) }

/-- R165: METADATA RESET. -/
def serveMetadataReset (s : Part) (c : Cmd) : Part :=
  if s.md.device ≠ .safe then s.reply c .notSafe .none
  else if s.md.resetImage.isSome then s.reply c .busy .none
  else s.metadataResetEffect.reply c .ok .none

/-- R166: a copy write of METADATA RESET has succeeded. -/
def resetWriteSucceeded (s : Part) (c : CopyId) (m : MetaImage) : Part :=
  let s := (s.idle.setCopy c (some (MetaCopy.write 1 m))).withMd { s.md with failures := 0 }
  match c with
  | .a => s.withMedia { s.media with commitReq := some (.resetWrite .b) }
  | .b => s.withMd { s.md with resetImage := none, current := some (.b, 1), device := .ready }

/-- R166: a copy write of METADATA RESET has failed: it is made again, or the third failure ends the writes. -/
def resetWriteFailed (s : Part) (c : CopyId) : Part :=
  let s := (s.idle.setCopy c none).withMd { s.md with failures := s.md.failures + 1 }
  let s := s.appendFault { kind := .metadataCommitFailed, copy := some c, generation := some 1 }
  if Config.maxCommitFailures ≤ s.md.failures then s.withMd { s.md with resetImage := none }
  else s.withMedia { s.media with commitReq := some (.resetWrite c) }

/-! ### Power and reset (R158) -/

/-- What the media keeps of an operation that power-on or RESET cuts off (R107, R153, R157, R166): a program leaves the old
or the new contents (log 6), a copy write a copy that fails its checks. -/
def cutOff (s : Part) : Part :=
  match s.media.current with
  | some { op := .program _ _ loc d _, .. } =>
    (if Config.interruptedKeepsNew s.free then s.mediaWrite loc d else s).withFree (s.free + 1)
  | some { op := .commit c _ _, .. } => s.setCopy c none
  | some { op := .resetWrite c, .. } => s.setCopy c none
  | _ => s

/-- Every block at its reset values, with what the media and the input pins hold; no operation has begun. A break or a low
level of PnRXD that lasts is forgotten, and PnRXD counts as 1 (log 35). -/
def cleared (s : Part) (pins : Pins) : Part :=
  let rdy := fun p => { rdy := (s.lc p).rdy : Lc }
  { Part.reset with
    pins := pins, links := ⟨rdy .p0, rdy .p1, rdy .p2, rdy .p3⟩, media := {}, disk := s.disk, free := s.free }

/-- R158, R159: power-on or RESET: the reset values, and the request to read copy A. -/
def startUp (s : Part) : Part :=
  let s := s.cleared {}
  (s.withMedia { s.media with commitReq := some (.readCopy .a) }).grants

end Part

end Sys2Proof.Machine
end

