-- ==== Sys2Proof/Machine/Requests.lean ====
section
/-! DEFINITION. REQUEST frames: the arrival (R90, R182), the receipt checks (R50), and the meaning of each request. -/

namespace Sys2Proof.Machine

namespace Part

/-! ### Events -/

/-- An event of a block: nothing while the part is held (R158; log 4), else its effect and all that follows in the event. -/
def event (s : Part) (f : Part → Part) : Part := if s.isHeld then s else follow s (f s)

/-- An event of the transmit queues themselves: what it puts there keeps the order that its own rule gives (R183), and only
what follows it is put into the order of receipt. -/
def eventInPlace (s : Part) (f : Part → Part) : Part :=
  if s.isHeld then s else follow (s.withLinks (f s).links) (f s)

/-- A frame that passes R180 has arrived at port `p` whole: none arrives while the line is held at 0 (log 17). The receive
framing is at HUNT after it (R179). -/
def arrival (s : Part) (p : Port) (f : Part → Part) : Part :=
  if (s.lc p).low then s else s.event fun s => f (s.setLc p { s.lc p with framing := .hunt })

/-- R90: the session check. -/
def sessionRefusal (s : Part) (p : Port) (code : BitVec 8) : Option Status :=
  if code = codeOpen then none
  else
    match (s.session p).state with
    | .opened => none
    | .closing => some .closing
    | .closed => some .noSession
    | .draining => some .noSession

/-- R50: the receipt checks; `form` is the verdict of checks 4 to 6. -/
def receiptRefusal (s : Part) (k : Key) (code : BitVec 8) (form : Option Status) : Option Status :=
  if (s.cmds.at? k).isSome then some .tagInUse
  else if !definedCode code then some .invalid
  else if s.md.device = .safe ∧ !servedInSafe code then some .safeMode
  else form

/-- R50, R52: an accepted request goes to the block that serves it, with the next place in the order of receipt. The place is
taken when its record is made; a request that is served in this event keeps none (log 19). -/
def accept (s : Part) (k : Key) (code : BitVec 8) (serve : Part → Cmd → Part) : Part :=
  serve s { key := k, code := code, state := .sending, receipt := s.cmds.nextReceipt }

/-- R182, R90, R50: a REQUEST frame at port `p`: overrun, the silence deadline, the session check, the receipt checks. -/
def takeRequest (s : Part) (k : Key) (code : BitVec 8) (form : Option Status) (serve : Part → Cmd → Part) : Part :=
  if Config.maxResponses ≤ (s.lc k.port).responses then s.countError k.port
  else
    let s := s.rearm k.port
    match s.sessionRefusal k.port code with
    | some st => s.sendCompletion k.port k.tag code st .none
    | none =>
      match s.receiptRefusal k code form with
      | some st => s.sendCompletion k.port k.tag code st .none
      | none => s.accept k code serve

/-- The event of a REQUEST frame. -/
def request (s : Part) (p : Port) (t : Tag) (code : BitVec 8) (form : Option Status) (serve : Part → Cmd → Part) : Part :=
  s.arrival p fun s => s.takeRequest ⟨p, t⟩ code form serve

/-! ### Serving -/

/-- R51, R53: a WRITE or MARK is QUEUED at the tail of the admission queue; the scan follows (R54). -/
def enqueue (s : Part) (c : Cmd) : Part :=
  let s := s.record { c with state := .queued }
  s.withCmds { s.cmds with queue := s.cmds.queue ++ [c.key] }

/-- R51, R59, R69: READ goes to HELD behind its port's earlier commands, or to READING and takes its first block. -/
def serveRead (s : Part) (c : Cmd) (start count : Nat) : Part :=
  let hs := s.holdSetOf c.key.port start count
  let c := { c with start := start, count := count, holdSet := hs }
  if hs.isEmpty then (s.record { c with state := .reading }).runRead c.receipt
  else s.record { c with state := .held }

/-- R85: FLUSH. -/
def serveFlush (s : Part) (c : Cmd) (all : Bool) : Part :=
  let es := s.flushSet c.key.port all
  if es.isEmpty then s.reply c .ok (.flush 0 0)
  else s.record { c with state := .settling, scopeAll := all, waitSet := es }

/-- R176: the status record for port `p`. -/
def statusOf (s : Part) (p : Port) : StatusRec :=
  { device := s.md.device, scrubState := s.scrub.state, ms := s.now, hours := s.time.hours
    free := s.sb.freeCount, filling := s.sb.count .filling, dirty := s.sb.count .dirty
    programming := s.sb.count .programming, clean := s.sb.count .clean
    refresh := s.sb.attr .refresh, attributed := s.sb.attr (.port p), quota := (s.session p).quota
    session := (s.session p).number, leases := s.lease.table.length, waits := s.lease.waits.length
    poison := s.integ.poison.length, remaps := s.media.remap.length, freeSpares := s.media.freeSpares
    refreshList := s.media.refresh.length, scrubPending := s.scrub.pending, startedBy := s.scrub.startedBy
    windowIndex := s.scrub.window, nextBlock := s.scrub.next, blockInCheck := s.scrub.inCheck, phase := s.scrub.phase
    lastEnd := s.scrub.lastEnd, counts := s.scrub.counts, faultTotal := s.faults.total
    generation := (s.md.current.map (·.2)).getD 0, pendingChanges := s.md.changes - s.md.committed
    linkErrors := (s.lc p).errors, notices := (s.lc p).notices, lost := (s.lc p).lost }

/-- R169: the records whose ages run from `age` up, newest first, at most `max` of them. -/
def faultsFrom (s : Part) (age max : Nat) : List FaultRec := (s.faults.ring.reverse.drop age).take max

/-- R169: FAULT READ. -/
def serveFaultRead (s : Part) (c : Cmd) (startAge maxCount : BitVec 8) : Part :=
  if faultReadOk startAge maxCount then
    s.reply c .ok (.faultRead s.faults.total s.faults.ring.length (s.faultsFrom startAge.toNat maxCount.toNat))
  else s.reply c .invalid .none

/-! ### The requests -/

/-- R93, R94 -/
def evOpen (p : Port) (t : Tag) (token : BitVec 32) (silence : BitVec 16) (quota reqLease : BitVec 8) (s : Part) : Part :=
  s.request p t codeOpen none fun s c => s.serveOpen c token silence quota reqLease

/-- R95 -/
def evClose (p : Port) (t : Tag) (s : Part) : Part := s.request p t codeClose none serveClose

/-- R102 -/
def evFence (p : Port) (t : Tag) (target : BitVec 8) (s : Part) : Part :=
  s.request p t codeFence none fun s c => s.serveFence c target

/-- R104 -/
def evUnfence (p : Port) (t : Tag) (target : BitVec 8) (s : Part) : Part :=
  s.request p t codeUnfence none fun s c => s.serveUnfence c target

/-- R69 -/
def evRead (p : Port) (t : Tag) (start : BitVec 32) (count : BitVec 8) (s : Part) : Part :=
  s.request p t codeRead (blocksCheck (countOk count) start count none) fun s c => s.serveRead c start.toNat count.toNat

/-- R76 -/
def evWrite (p : Port) (t : Tag) (start : BitVec 32) (count flags : BitVec 8) (s : Part) : Part :=
  s.request p t codeWrite (blocksCheck (countOk count) start count (some (s.session p).quota)) fun s c =>
    s.enqueue { c with start := start.toNat, count := count.toNat, durable := durableOf flags }

/-- R131 -/
def evMark (p : Port) (t : Tag) (start : BitVec 32) (count kind : BitVec 8) (s : Part) : Part :=
  s.request p t codeMark
    (blocksCheck (countOk count && (markKindOf kind).isSome) start count (some (s.session p).quota)) fun s c =>
      s.enqueue { c with start := start.toNat, count := count.toNat, kind := (markKindOf kind).getD .reported }

/-- R85 -/
def evFlush (p : Port) (t : Tag) (scope : BitVec 8) (s : Part) : Part :=
  s.request p t codeFlush (if (flushScopeOf scope).isSome then none else some .invalid) fun s c =>
    s.serveFlush c ((flushScopeOf scope).getD false)

/-- R64; check 4 of R50 has refused a target that is no tag or the ABORT's own. -/
def evAbort (p : Port) (t : Tag) (target : BitVec 8) (s : Part) : Part :=
  match tagOf target with
  | none => s.request p t codeAbort (some .invalid) fun s _ => s
  | some x => s.request p t codeAbort (if x = t then some .invalid else none) fun s c => s.serveAbort c x

/-- R30 to R34 -/
def evLeaseAcquire (p : Port) (t : Tag) (start len : BitVec 32) (mode : BitVec 8) (duration waitLimit : BitVec 16)
    (s : Part) : Part :=
  s.request p t codeLeaseAcquire none fun s c => s.serveAcquire c (leaseParamsOf start len mode duration waitLimit)

/-- R38 -/
def evLeaseRenew (p : Port) (t : Tag) (id duration : BitVec 16) (s : Part) : Part :=
  s.request p t codeLeaseRenew none fun s c => s.serveRenew c id duration

/-- R39 -/
def evLeaseRelease (p : Port) (t : Tag) (id : BitVec 16) (s : Part) : Part :=
  s.request p t codeLeaseRelease none fun s c => s.serveRelease c id

/-- R40 -/
def evLeaseQuery (p : Port) (t : Tag) (start len : BitVec 32) (s : Part) : Part :=
  s.request p t codeLeaseQuery none fun s c => s.serveQuery c start len

/-- R142 -/
def evScrubStart (p : Port) (t : Tag) (s : Part) : Part := s.request p t codeScrubStart none serveScrubStart

/-- R148 -/
def evScrubStop (p : Port) (t : Tag) (s : Part) : Part := s.request p t codeScrubStop none serveScrubStop

/-- R164 -/
def evSettingsRead (p : Port) (t : Tag) (s : Part) : Part :=
  s.request p t codeSettingsRead none fun s c => s.reply c .ok (.settings s.md.settings)

/-- R164, R140 -/
def evSettingsWrite (p : Port) (t : Tag) (raw : RawSettings) (s : Part) : Part :=
  s.request p t codeSettingsWrite none fun s c => s.serveSettingsWrite c raw

/-- R165 -/
def evMetadataReset (p : Port) (t : Tag) (s : Part) : Part := s.request p t codeMetadataReset none serveMetadataReset

/-- R176 -/
def evStatus (p : Port) (t : Tag) (s : Part) : Part :=
  s.request p t codeStatus none fun s c => s.reply c .ok (.status (s.statusOf c.key.port))

/-- R177 -/
def evInfo (p : Port) (t : Tag) (s : Part) : Part := s.request p t codeInfo none fun s c => s.reply c .ok .info

/-- R169 -/
def evFaultRead (p : Port) (t : Tag) (startAge maxCount : BitVec 8) (s : Part) : Part :=
  s.request p t codeFaultRead none fun s c => s.serveFaultRead c startAge maxCount

/-- R50, check 2; a code that the table of R187 defines is no such event (log 2). -/
def evUndefinedKind (p : Port) (t : Tag) (code : BitVec 8) (s : Part) : Part :=
  if definedCode code then s else s.request p t code none fun s _ => s

end Part

/-! ### The meanings -/

/-- OPEN (R93). -/
def execOpen (p : Port) (tag : Tag) (token : BitVec 32) (silence : BitVec 16) (quota : BitVec 8) (reqLease : BitVec 8)
    (s : State) : Host.Outcome State Fault Refusal :=
  .next (s.withPart (s.part.evOpen p tag token silence quota reqLease))

/-- CLOSE (R95). -/
def execClose (p : Port) (tag : Tag) (s : State) : Host.Outcome State Fault Refusal :=
  .next (s.withPart (s.part.evClose p tag))

/-- FENCE (R102). -/
def execFence (p : Port) (tag : Tag) (target : BitVec 8) (s : State) : Host.Outcome State Fault Refusal :=
  .next (s.withPart (s.part.evFence p tag target))

/-- UNFENCE (R104). -/
def execUnfence (p : Port) (tag : Tag) (target : BitVec 8) (s : State) : Host.Outcome State Fault Refusal :=
  .next (s.withPart (s.part.evUnfence p tag target))

/-- READ (R69). -/
def execRead (p : Port) (tag : Tag) (start : BitVec 32) (count : BitVec 8)
    (s : State) : Host.Outcome State Fault Refusal :=
  .next (s.withPart (s.part.evRead p tag start count))

/-- WRITE (R76). -/
def execWrite (p : Port) (tag : Tag) (start : BitVec 32) (count : BitVec 8) (flags : BitVec 8)
    (s : State) : Host.Outcome State Fault Refusal :=
  .next (s.withPart (s.part.evWrite p tag start count flags))

/-- MARK (R131). -/
def execMark (p : Port) (tag : Tag) (start : BitVec 32) (count : BitVec 8) (kind : BitVec 8)
    (s : State) : Host.Outcome State Fault Refusal :=
  .next (s.withPart (s.part.evMark p tag start count kind))

/-- FLUSH (R85). -/
def execFlush (p : Port) (tag : Tag) (scope : BitVec 8) (s : State) : Host.Outcome State Fault Refusal :=
  .next (s.withPart (s.part.evFlush p tag scope))

/-- ABORT (R64). -/
def execAbort (p : Port) (tag : Tag) (target : BitVec 8) (s : State) : Host.Outcome State Fault Refusal :=
  .next (s.withPart (s.part.evAbort p tag target))

/-- LEASE_ACQUIRE (R30). -/
def execLeaseAcquire (p : Port) (tag : Tag) (start : BitVec 32) (len : BitVec 32) (mode : BitVec 8) (duration : BitVec 16) (waitLimit : BitVec 16)
    (s : State) : Host.Outcome State Fault Refusal :=
  .next (s.withPart (s.part.evLeaseAcquire p tag start len mode duration waitLimit))

/-- LEASE_RENEW (R38). -/
def execLeaseRenew (p : Port) (tag : Tag) (id : BitVec 16) (duration : BitVec 16)
    (s : State) : Host.Outcome State Fault Refusal :=
  .next (s.withPart (s.part.evLeaseRenew p tag id duration))

/-- LEASE_RELEASE (R39). -/
def execLeaseRelease (p : Port) (tag : Tag) (id : BitVec 16) (s : State) : Host.Outcome State Fault Refusal :=
  .next (s.withPart (s.part.evLeaseRelease p tag id))

/-- LEASE_QUERY (R40). -/
def execLeaseQuery (p : Port) (tag : Tag) (start : BitVec 32) (len : BitVec 32)
    (s : State) : Host.Outcome State Fault Refusal :=
  .next (s.withPart (s.part.evLeaseQuery p tag start len))

/-- SCRUB_START (R142). -/
def execScrubStart (p : Port) (tag : Tag) (s : State) : Host.Outcome State Fault Refusal :=
  .next (s.withPart (s.part.evScrubStart p tag))

/-- SCRUB_STOP (R148). -/
def execScrubStop (p : Port) (tag : Tag) (s : State) : Host.Outcome State Fault Refusal :=
  .next (s.withPart (s.part.evScrubStop p tag))

/-- SETTINGS_READ (R164). -/
def execSettingsRead (p : Port) (tag : Tag) (s : State) : Host.Outcome State Fault Refusal :=
  .next (s.withPart (s.part.evSettingsRead p tag))

/-- SETTINGS_WRITE (R164). -/
def execSettingsWrite (p : Port) (tag : Tag) (raw : RawSettings) (s : State) : Host.Outcome State Fault Refusal :=
  .next (s.withPart (s.part.evSettingsWrite p tag raw))

/-- METADATA_RESET (R165). -/
def execMetadataReset (p : Port) (tag : Tag) (s : State) : Host.Outcome State Fault Refusal :=
  .next (s.withPart (s.part.evMetadataReset p tag))

/-- STATUS (R176). -/
def execStatus (p : Port) (tag : Tag) (s : State) : Host.Outcome State Fault Refusal :=
  .next (s.withPart (s.part.evStatus p tag))

/-- INFO (R177). -/
def execInfo (p : Port) (tag : Tag) (s : State) : Host.Outcome State Fault Refusal :=
  .next (s.withPart (s.part.evInfo p tag))

/-- FAULT_READ (R169). -/
def execFaultRead (p : Port) (tag : Tag) (startAge : BitVec 8) (maxCount : BitVec 8)
    (s : State) : Host.Outcome State Fault Refusal :=
  .next (s.withPart (s.part.evFaultRead p tag startAge maxCount))

/-- UNDEFINED_REQUEST_KIND (R50). -/
def execUndefinedKind (p : Port) (tag : Tag) (code : BitVec 8) (s : State) : Host.Outcome State Fault Refusal :=
  .next (s.withPart (s.part.evUndefinedKind p tag code))

end Sys2Proof.Machine
end

