-- ==== Sys2Proof/Machine/Frames.lean ====
section
/-! DEFINITION. DATA-IN and KEEPALIVE frames, bytes that hold a bad frame, and the events of the link's pins (chapter 11). -/

namespace Sys2Proof.Machine

namespace Part

/-! ### DATA-IN (R77 to R81) -/

/-- R78: a wrong index fails the WRITE. -/
def dataSequence (s : Part) (c : Cmd) : Part := (s.endFilling c).finish c .dataSequence .none

/-- R81: the last block of the WRITE has arrived: its frames become DIRTY, and it is decided or waits in SETTLING. -/
def lastBlock (s : Part) (c : Cmd) : Part :=
  let s := s.dirtyFilled c.key c.start c.count
  (if c.durable then
      s.updCmd c.receipt fun d =>
        { d with state := .settling, deadline := none, waitSet := s.writeSet c.key c.start c.count }
    else
      s.updCmd c.receipt fun d =>
        { d with state := .sending, deadline := none, result := some (.ok, .write c.count 0) }).emitDecided

/-- R79: the expected block is accepted. The data deadline is armed again; before the GO has entered none is armed (R76;
log 13). -/
def acceptBlock (s : Part) (c : Cmd) (d : BlockData) : Part :=
  let s := s.fillData c.key (c.start + c.next) d
  let s := s.updCmd c.receipt fun x =>
    { x with next := c.next + 1, deadline := c.deadline.map fun _ => s.now + Config.dataDeadline }
  if c.next + 1 < c.count then s else s.lastBlock c

/-- R77: a DATA-IN frame is matched against the WRITEs of its port that are FILLING, or discarded and counted. -/
def takeData (s : Part) (k : Key) (index : BitVec 8) (d : BlockData) : Part :=
  match s.cmds.at? k with
  | none => s.countError k.port
  | some c =>
    if c.code = codeWrite ∧ c.state = .filling then
      if index.toNat = c.next then s.acceptBlock c d else s.dataSequence c
    else s.countError k.port

/-- R77, R90, R91 -/
def evDataIn (p : Port) (t : Tag) (index : BitVec 8) (d : BlockData) (s : Part) : Part :=
  s.arrival p fun s => (s.rearm p).takeData ⟨p, t⟩ index d

/-- R91, R182 -/
def evKeepalive (p : Port) (s : Part) : Part := s.arrival p fun s => s.rearm p

/-! ### Received bytes (R179, R180) -/

/-- The event of a valid frame, as the receiver passes it on (R182). Nothing else comes out of the receiver. -/
def passOn (i : Instr) (s : Part) : Part :=
  match i with
  | .openReq p t k x q r => s.evOpen p t k x q r
  | .closeReq p t => s.evClose p t
  | .fence p t x => s.evFence p t x
  | .unfence p t x => s.evUnfence p t x
  | .read p t b n => s.evRead p t b n
  | .write p t b n f => s.evWrite p t b n f
  | .mark p t b n k => s.evMark p t b n k
  | .flush p t x => s.evFlush p t x
  | .abort p t x => s.evAbort p t x
  | .leaseAcquire p t b n m d w => s.evLeaseAcquire p t b n m d w
  | .leaseRenew p t id d => s.evLeaseRenew p t id d
  | .leaseRelease p t id => s.evLeaseRelease p t id
  | .leaseQuery p t b n => s.evLeaseQuery p t b n
  | .scrubStart p t => s.evScrubStart p t
  | .scrubStop p t => s.evScrubStop p t
  | .settingsRead p t => s.evSettingsRead p t
  | .settingsWrite p t x => s.evSettingsWrite p t x
  | .metadataReset p t => s.evMetadataReset p t
  | .status p t => s.evStatus p t
  | .info p t => s.evInfo p t
  | .faultRead p t a n => s.evFaultRead p t a n
  | .undefinedKind p t x => s.evUndefinedKind p t x
  | .dataIn p t i d => s.evDataIn p t i d
  | .keepalive p => s.evKeepalive p
  | .badFrame _ _ | .characterError _ | .linkReset _ | .breakEnd _ | .pnrdyRise _ | .finishSending _ | .heldFrameEntry _
  | .silenceExpiry _ | .dataDeadlineExpiry _ _ | .leaseDeadlineExpiry _ | .waitDeadlineExpiry _ _ | .waitListGrant
  | .admission | .heldReadRelease | .closeDrainEnd _ | .drainingEnd _ | .mediaGrant | .portReadEnd _ | .refreshReadEnd _
  | .scrubReadEnd _ | .scrubRoomRetry | .scrubPassBegin | .autoScrubStart | .refreshStart | .programFirstAttemptEnd _
  | .programSecondAttemptEnd _ | .commitEnd _ | .commitWaitRelease | .waitSetComplete | .markComplete
  | .settingsWriteComplete | .lifetimeHoursIncrement | .powerOn | .reset | .partHeld _ | .copyAReadEnd _
  | .copyBReadEnd _ | .resetCopyWriteEnd _ | .pnrdyFall _ | .pnrxdReturns _ | .delimiterReceived _
  | .heldInputChange _ => s

/-- R180, R181: what the receiver has found on a port is counted or passed on. -/
def takeItem (p : Port) (s : Part) : RxItem → Part
  | .bad => s.countError p
  | .valid i => s.passOn i

/-- R179, R180: bytes arrive on a port and are examined from the present framing on; a frame that fails its checks is
discarded and counted, and valid frames found in the bytes are taken in their order, each as an event of its own (logs 17,
18). -/
def evBadFrame (p : Port) (bytes : List Byte) (s : Part) : Part :=
  if s.isHeld || (s.lc p).low then s
  else
    let fr := (s.lc p).framing
    let r := receive p (receiveBound fr bytes) fr bytes
    let s := r.1.foldl (takeItem p) s
    s.setLc p { s.lc p with framing := r.2 }

/-- R178: a character error discards the frame in progress; whether there was one is kept until PnRXD returns or the low
level becomes a break. -/
def evCharacterError (p : Port) (s : Part) : Part :=
  if (s.lc p).low then s
  else s.event fun s =>
    s.setLc p { s.lc p with charErr := some (decide ((s.lc p).framing ≠ .hunt)), framing := .hunt }

/-- R178, R181: PnRXD has returned to 1 within 1 ms of a character error: a frame that was in progress counts. -/
def evPnrxdReturns (p : Port) (s : Part) : Part :=
  s.event fun s =>
    match (s.lc p).charErr with
    | none => s
    | some inside =>
      let s := s.setLc p { s.lc p with charErr := none }
      if inside then s.countError p else s

/-- R179: a delimiter in HUNT. -/
def evDelimiterReceived (p : Port) (s : Part) : Part :=
  if (s.lc p).low then s
  else s.event fun s =>
    if (s.lc p).framing = .hunt then s.setLc p { s.lc p with framing := .header [] } else s

/-! ### Break, PnRDY, sending -/

/-- R185, R100: what a break leaves of a link controller. -/
def brokenLc (l : Lc) : Lc :=
  { l with framing := .hunt, charErr := none, breakHeld := true, txq := [], sending := false, held := [], lost := 0 }

/-- R100, R185: a break has been held for 1 ms. While one is held no second one is detected. -/
def evLinkReset (p : Port) (s : Part) : Part :=
  s.eventInPlace fun s =>
    if (s.lc p).breakHeld then s
    else
      let s := s.setLc p (brokenLc (s.lc p))
      if s.armsSilence p then s.abruptEnd p .portLapsed none else s

/-- R185: PnRXD returns to 1 after a break: framing is HUNT, and sending resumes. -/
def evBreakEnd (p : Port) (s : Part) : Part :=
  s.event fun s =>
    if (s.lc p).breakHeld then s.setLc p { s.lc p with breakHeld := false, framing := .hunt }.begin else s

/-- R184: PnRDY goes to 1: a waiting frame is begun. While the part is held only the level changes (logs 4, 9). -/
def evPnrdyRise (p : Port) (s : Part) : Part :=
  let l := { s.lc p with rdy := true }
  s.setLc p (if s.isHeld then l else l.begin)

/-- R184: PnRDY goes to 0: no further frame is begun. -/
def evPnrdyFall (p : Port) (s : Part) : Part := s.setLc p { s.lc p with rdy := false }

/-- R184: the last stop bit of the frame being sent: it leaves the queue, held frames may enter, the next frame begins. -/
def evFinishSending (p : Port) (s : Part) : Part :=
  s.eventInPlace fun s =>
    if (s.lc p).sending then
      let s := (s.setLc p { s.lc p with txq := (s.lc p).txq.drop 1, sending := false }).enterAll p
      s.setLc p (s.lc p).begin
    else s

/-- R183 -/
def evHeldFrameEntry (p : Port) (s : Part) : Part := s.eventInPlace fun s => s.enterAll p

end Part

/-! ### The meanings -/

/-- DATA_IN (R77). -/
def execDataIn (p : Port) (tag : Tag) (index : BitVec 8) (data : BlockData)
    (s : State) : Host.Outcome State Fault Refusal :=
  .next (s.withPart (s.part.evDataIn p tag index data))

/-- KEEPALIVE (R91). -/
def execKeepalive (p : Port) (s : State) : Host.Outcome State Fault Refusal := .next (s.withPart (s.part.evKeepalive p))

/-- BAD_FRAME (R180). -/
def execBadFrame (p : Port) (bytes : List Byte) (s : State) : Host.Outcome State Fault Refusal :=
  .next (s.withPart (s.part.evBadFrame p bytes))

/-- CHARACTER_ERROR (R178). -/
def execCharacterError (p : Port) (s : State) : Host.Outcome State Fault Refusal :=
  .next (s.withPart (s.part.evCharacterError p))

/-- PNRXD_RETURNS_WITHIN_1_MS (R178). -/
def execPnrxdReturns (p : Port) (s : State) : Host.Outcome State Fault Refusal :=
  .next (s.withPart (s.part.evPnrxdReturns p))

/-- DELIMITER_RECEIVED (R179). -/
def execDelimiterReceived (p : Port) (s : State) : Host.Outcome State Fault Refusal :=
  .next (s.withPart (s.part.evDelimiterReceived p))

/-- LINK_RESET (R100). -/
def execLinkReset (p : Port) (s : State) : Host.Outcome State Fault Refusal := .next (s.withPart (s.part.evLinkReset p))

/-- BREAK_END (R185). -/
def execBreakEnd (p : Port) (s : State) : Host.Outcome State Fault Refusal := .next (s.withPart (s.part.evBreakEnd p))

/-- PNRDY_RISE (R184). -/
def execPnrdyRise (p : Port) (s : State) : Host.Outcome State Fault Refusal := .next (s.withPart (s.part.evPnrdyRise p))

/-- PNRDY_FALL (R184). -/
def execPnrdyFall (p : Port) (s : State) : Host.Outcome State Fault Refusal := .next (s.withPart (s.part.evPnrdyFall p))

/-- FINISH_SENDING (R184). -/
def execFinishSending (p : Port) (s : State) : Host.Outcome State Fault Refusal :=
  .next (s.withPart (s.part.evFinishSending p))

/-- HELD_FRAME_ENTRY (R183). -/
def execHeldFrameEntry (p : Port) (s : State) : Host.Outcome State Fault Refusal :=
  .next (s.withPart (s.part.evHeldFrameEntry p))

end Sys2Proof.Machine
end

