-- ==== Sys2Proof/Machine/Steps.lean ====
section
/-! DEFINITION. The steps of the blocks: the expiries of deadlines (R36, R37, R80, R92), the hour count (R154), and the steps
that the rules place inside the event that causes them (log 1). -/

namespace Sys2Proof.Machine

namespace Part

/-! ### Deadlines -/

/-- A deadline that is armed has been reached. -/
def reached (s : Part) (d : Option Nat) : Bool := d.any fun t => decide (t ≤ s.now)

/-- R92 -/
def evSilenceExpiry (p : Port) (s : Part) : Part :=
  s.event fun s =>
    if s.armsSilence p && s.reached (s.session p).deadline then s.abruptEnd p .portLapsed none else s

/-- R80 -/
def evDataDeadlineExpiry (p : Port) (t : Tag) (s : Part) : Part :=
  s.event fun s =>
    match s.cmds.at? ⟨p, t⟩ with
    | none => s
    | some c =>
      if c.state = .filling ∧ s.reached c.deadline then (s.endFilling c).finish c .dataTimeout .none else s

/-- R37 -/
def evLeaseDeadlineExpiry (id : BitVec 16) (s : Part) : Part :=
  s.event fun s =>
    match s.lease.table.find? fun l => decide (l.id = id) with
    | none => s
    | some l => if l.deadline ≤ s.now then s.lapse l else s

/-- R36 -/
def evWaitDeadlineExpiry (p : Port) (t : Tag) (s : Part) : Part :=
  s.event fun s =>
    match s.lease.waits.find? fun w => decide (w.key = ⟨p, t⟩) with
    | none => s
    | some w => if w.deadline ≤ s.now then s.endWait w.key .leaseWaitExpired else s

/-- R154, R144: a whole hour of power-on has been reached: the lifetime hours rise by 1 and the auto-scrub test is made. -/
def evLifetimeHoursIncrement (s : Part) : Part :=
  s.event fun s =>
    if s.time.hourDone < s.now / Config.msPerHour then
      ((s.withTime { s.time with
        hours := (s.time.hours + 1) % 4294967296, hourDone := s.time.hourDone + 1 }).change).autoScrub
    else s

/-! ### Steps inside other events -/

/-- R35 -/
def evWaitListGrant (s : Part) : Part := s.event waitScan

/-- R54 to R58 -/
def evAdmission (s : Part) : Part := s.event admission

/-- R60 -/
def evHeldReadRelease (s : Part) : Part := s.event (releaseHeld [])

/-- R97 -/
def evCloseDrainEnd (p : Port) (s : Part) : Part := s.event fun s => s.drainEnd p

/-- R99 -/
def evDrainingEnd (p : Port) (s : Part) : Part := s.event fun s => s.drainingEnd p

/-- R111 -/
def evMediaGrant (s : Part) : Part := s.event grants

/-- R146 -/
def evScrubRoomRetry (s : Part) : Part := s.event scrubRetry

/-- R143, R142: the pass that the last successful commit has carried begins, and its SCRUB START completes. -/
def evScrubPassBegin (s : Part) : Part :=
  s.event fun s => (s.commitDone codeScrubStart s.md.committed).beginPass s.md.committed

/-- R144 -/
def evAutoScrubStart (s : Part) : Part := s.event autoScrub

/-- R122 -/
def evRefreshStart (s : Part) : Part := s.event refreshTry

/-- R117 -/
def evCommitWaitRelease (s : Part) : Part := s.event fun s => s.releaseCommitWait s.md.committed

/-- R21 -/
def evWaitSetComplete (s : Part) : Part := s.event fun s => s.setsDone.emitDecided

/-- R134 -/
def evMarkComplete (s : Part) : Part := s.event fun s => s.tallyDone.emitDecided

/-- R164 -/
def evSettingsWriteComplete (s : Part) : Part := s.event fun s => s.commitDone codeSettingsWrite s.md.committed

end Part

/-! ### The meanings -/

/-- SILENCE_EXPIRY (R92). -/
def execSilenceExpiry (p : Port) (s : State) : Host.Outcome State Fault Refusal :=
  .next (s.withPart (s.part.evSilenceExpiry p))

/-- DATA_DEADLINE_EXPIRY (R80). -/
def execDataDeadlineExpiry (p : Port) (tag : Tag) (s : State) : Host.Outcome State Fault Refusal :=
  .next (s.withPart (s.part.evDataDeadlineExpiry p tag))

/-- LEASE_DEADLINE_EXPIRY (R37). -/
def execLeaseDeadlineExpiry (id : BitVec 16) (s : State) : Host.Outcome State Fault Refusal :=
  .next (s.withPart (s.part.evLeaseDeadlineExpiry id))

/-- WAIT_DEADLINE_EXPIRY (R36). -/
def execWaitDeadlineExpiry (p : Port) (tag : Tag) (s : State) : Host.Outcome State Fault Refusal :=
  .next (s.withPart (s.part.evWaitDeadlineExpiry p tag))

/-- LIFETIME_HOURS_INCREMENT (R154). -/
def execLifetimeHoursIncrement (s : State) : Host.Outcome State Fault Refusal :=
  .next (s.withPart (s.part.evLifetimeHoursIncrement))

/-- WAIT_LIST_GRANT (R35). -/
def execWaitListGrant (s : State) : Host.Outcome State Fault Refusal := .next (s.withPart (s.part.evWaitListGrant))

/-- ADMISSION (R58). -/
def execAdmission (s : State) : Host.Outcome State Fault Refusal := .next (s.withPart (s.part.evAdmission))

/-- HELD_READ_RELEASE (R60). -/
def execHeldReadRelease (s : State) : Host.Outcome State Fault Refusal := .next (s.withPart (s.part.evHeldReadRelease))

/-- CLOSE_DRAIN_END (R97). -/
def execCloseDrainEnd (p : Port) (s : State) : Host.Outcome State Fault Refusal :=
  .next (s.withPart (s.part.evCloseDrainEnd p))

/-- DRAINING_END (R99). -/
def execDrainingEnd (p : Port) (s : State) : Host.Outcome State Fault Refusal :=
  .next (s.withPart (s.part.evDrainingEnd p))

/-- MEDIA_GRANT (R111). -/
def execMediaGrant (s : State) : Host.Outcome State Fault Refusal := .next (s.withPart (s.part.evMediaGrant))

/-- SCRUB_ROOM_RETRY (R146). -/
def execScrubRoomRetry (s : State) : Host.Outcome State Fault Refusal := .next (s.withPart (s.part.evScrubRoomRetry))

/-- SCRUB_PASS_BEGIN (R143). -/
def execScrubPassBegin (s : State) : Host.Outcome State Fault Refusal := .next (s.withPart (s.part.evScrubPassBegin))

/-- AUTO_SCRUB_START (R144). -/
def execAutoScrubStart (s : State) : Host.Outcome State Fault Refusal := .next (s.withPart (s.part.evAutoScrubStart))

/-- REFRESH_START (R122). -/
def execRefreshStart (s : State) : Host.Outcome State Fault Refusal := .next (s.withPart (s.part.evRefreshStart))

/-- COMMIT_WAIT_RELEASE (R117). -/
def execCommitWaitRelease (s : State) : Host.Outcome State Fault Refusal :=
  .next (s.withPart (s.part.evCommitWaitRelease))

/-- WAIT_SET_COMPLETE (R21). -/
def execWaitSetComplete (s : State) : Host.Outcome State Fault Refusal := .next (s.withPart (s.part.evWaitSetComplete))

/-- MARK_COMPLETE (R134). -/
def execMarkComplete (s : State) : Host.Outcome State Fault Refusal := .next (s.withPart (s.part.evMarkComplete))

/-- SETTINGS_WRITE_COMPLETE (R164). -/
def execSettingsWriteComplete (s : State) : Host.Outcome State Fault Refusal :=
  .next (s.withPart (s.part.evSettingsWriteComplete))

end Sys2Proof.Machine
end

