-- ==== Sys2Proof/Machine/Operations.lean ====
section
/-! DEFINITION. The ends of media operations (chapters 6, 8, 9), power and reset (R158), and the passing of time (R154). -/

namespace Sys2Proof.Machine

namespace Part

/-! ### Ends of media operations

Each is the end of the operation that the media performs (R111); with another operation, or none, there is no such event
(log 2). What a METADATA RESET has cut off ends without effect on the part (R125; log 14). -/

/-- R72, R112 -/
def evPortReadEnd (o : Integrity) (s : Part) : Part :=
  s.event fun s =>
    match s.media.current with
    | some { op := .portRead r loc, discard := x } => if x then s.idle else s.idle.portReadEnded r loc o
    | _ => s

/-- R123 -/
def evRefreshReadEnd (o : Integrity) (s : Part) : Part :=
  s.event fun s =>
    match s.media.current with
    | some { op := .refreshRead i b loc, discard := x } => if x then s.idle else s.idle.refreshEnded i b loc o
    | _ => s

/-- R146 -/
def evScrubReadEnd (o : Integrity) (s : Part) : Part :=
  s.event fun s =>
    match s.media.current with
    | some { op := .scrubRead b _, discard := x } => if x then s.idle else s.idle.scrubEnded b o
    | _ => s

/-- R107: a program that was cut off from its frame ends: its location holds the data, or is undefined (log 14). -/
def discardedProgram (s : Part) (loc : Nat) (d : BlockData) (success : Bool) : Part :=
  if success then s.idle.mediaWrite loc d else s.idle.mediaSpoil loc

/-- R114 -/
def evProgramFirstAttemptEnd (success : Bool) (s : Part) : Part :=
  s.event fun s =>
    match s.media.current with
    | some { op := .program i _ loc d none, discard := x } =>
      if x then s.discardedProgram loc d success
      else
        match s.sb.at? i with
        | none => s
        | some f => if success then s.firstSucceeded f loc d else s.firstFailed f loc d
    | _ => s

/-- R115 -/
def evProgramSecondAttemptEnd (success : Bool) (s : Part) : Part :=
  s.event fun s =>
    match s.media.current with
    | some { op := .program i _ loc d (some sp), discard := x } =>
      if x then s.discardedProgram loc d success
      else
        match s.sb.at? i with
        | none => s
        | some f => if success then s.secondSucceeded f sp loc d else s.secondFailed f sp loc
    | _ => s

/-- R156, R157 -/
def evCommitEnd (success : Bool) (s : Part) : Part :=
  s.event fun s =>
    match s.media.current with
    | some { op := .commit c g m, .. } => if success then s.commitSucceeded c g m else s.commitFailed c g
    | _ => s

/-- R166 -/
def evResetCopyWriteEnd (success : Bool) (s : Part) : Part :=
  s.event fun s =>
    match s.media.current, s.md.resetImage with
    | some { op := .resetWrite c, .. }, some m => if success then s.resetWriteSucceeded c m else s.resetWriteFailed c
    | _, _ => s

/-- R159 -/
def evCopyAReadEnd (o : Integrity) (s : Part) : Part :=
  s.event fun s =>
    match s.media.current with
    | some { op := .copyRead .a, .. } => s.copyARead o
    | _ => s

/-- R159 to R161 -/
def evCopyBReadEnd (o : Integrity) (s : Part) : Part :=
  s.event fun s =>
    match s.media.current with
    | some { op := .copyRead .b, .. } => s.copyBRead o
    | _ => s

/-! ### Power and reset (R158) -/

def setPin (x : Pins) (pin : Pin) (level : Bool) : Pins :=
  match pin with
  | .resetN => { x with resetN := level }
  | .pwrGood => { x with pwrGood := level }

def pinLevel (x : Pins) : Pin → Bool
  | .resetN => x.resetN
  | .pwrGood => x.pwrGood

/-- R158: PWRGOOD is asserted while RESET_N is at 1. -/
def evPowerOn (s : Part) : Part := if s.pins.resetN && !s.pins.pwrGood then s.startUp else s

/-- R158: RESET_N is released while PWRGOOD is asserted. -/
def evReset (s : Part) : Part := if !s.pins.resetN && s.pins.pwrGood then s.startUp else s

/-- R158: a supply input goes to 0. The part is held from now on: an operation of the media is cut off, and the volatile
state is discarded; it is given its reset values here already. -/
def evPartHeld (pin : Pin) (s : Part) : Part :=
  let pins := setPin s.pins pin false
  if s.isHeld then s.withPins pins else s.cutOff.cleared pins

/-- R158: a supply input rises while the other is at 0: the part stays held. -/
def evHeldInputChange (pin : Pin) (s : Part) : Part :=
  let other := match pin with | .resetN => Pin.pwrGood | .pwrGood => Pin.resetN
  if !pinLevel s.pins pin && !pinLevel s.pins other then s.withPins (setPin s.pins pin true) else s

/-! ### Time (R154) -/

/-- R154: the power-on ms count after the next; 48 bits (log 16). -/
def nextMs (ms : Nat) : Nat := (ms + 1) % 281474976710656

/-- The expiries that are due, in a fixed order (log 3): the hour, silence deadlines by port, data deadlines by order of
receipt, lease and wait deadlines by place in the table and the list. -/
def due (s : Part) : List Instr :=
  (if s.time.hourDone < s.now / Config.msPerHour then [Instr.lifetimeHoursIncrement] else []) ++
    (Port.all.filter fun p => s.armsSilence p && s.reached (s.session p).deadline).map Instr.silenceExpiry ++
    (s.cmds.recs.filter fun c => decide (c.state = .filling) && s.reached c.deadline).map
      (fun c => Instr.dataDeadlineExpiry c.key.port c.key.tag) ++
    (s.lease.table.filter fun l => decide (l.deadline ≤ s.now)).map (fun l => Instr.leaseDeadlineExpiry l.id) ++
    (s.lease.waits.filter fun w => decide (w.deadline ≤ s.now)).map
      (fun w => Instr.waitDeadlineExpiry w.key.port w.key.tag)

/-- R154: one millisecond passes. -/
def passMs (s : Part) : Part :=
  let ms := nextMs s.now
  s.withTime { s.time with ms := ms, hourDone := if ms = 0 then 0 else s.time.hourDone }

end Part

/-- A step with no event waiting: one millisecond passes, and the expiries that are then due wait as events; while the part is
held no time passes (R158; log 3). -/
def State.tick (s : State) : State :=
  if s.part.isHeld then s
  else { part := s.part.passMs, pending := s.part.passMs.due }

/-! ### The meanings -/

/-- PORT_READ_END (R72). -/
def execPortReadEnd (outcome : Integrity) (s : State) : Host.Outcome State Fault Refusal :=
  .next (s.withPart (s.part.evPortReadEnd outcome))

/-- REFRESH_READ_END (R123). -/
def execRefreshReadEnd (outcome : Integrity) (s : State) : Host.Outcome State Fault Refusal :=
  .next (s.withPart (s.part.evRefreshReadEnd outcome))

/-- SCRUB_READ_END (R146). -/
def execScrubReadEnd (outcome : Integrity) (s : State) : Host.Outcome State Fault Refusal :=
  .next (s.withPart (s.part.evScrubReadEnd outcome))

/-- PROGRAM_FIRST_ATTEMPT_END (R114). -/
def execProgramFirstAttemptEnd (success : Bool) (s : State) : Host.Outcome State Fault Refusal :=
  .next (s.withPart (s.part.evProgramFirstAttemptEnd success))

/-- PROGRAM_SECOND_ATTEMPT_END (R115). -/
def execProgramSecondAttemptEnd (success : Bool) (s : State) : Host.Outcome State Fault Refusal :=
  .next (s.withPart (s.part.evProgramSecondAttemptEnd success))

/-- COMMIT_END (R156). -/
def execCommitEnd (success : Bool) (s : State) : Host.Outcome State Fault Refusal :=
  .next (s.withPart (s.part.evCommitEnd success))

/-- RESET_COPY_WRITE_END (R166). -/
def execResetCopyWriteEnd (success : Bool) (s : State) : Host.Outcome State Fault Refusal :=
  .next (s.withPart (s.part.evResetCopyWriteEnd success))

/-- COPY_A_READ_END (R159). -/
def execCopyAReadEnd (outcome : Integrity) (s : State) : Host.Outcome State Fault Refusal :=
  .next (s.withPart (s.part.evCopyAReadEnd outcome))

/-- COPY_B_READ_END (R159). -/
def execCopyBReadEnd (outcome : Integrity) (s : State) : Host.Outcome State Fault Refusal :=
  .next (s.withPart (s.part.evCopyBReadEnd outcome))

/-- POWER_ON (R158). -/
def execPowerOn (s : State) : Host.Outcome State Fault Refusal := .next (s.withPart (s.part.evPowerOn))

/-- RESET (R158). -/
def execReset (s : State) : Host.Outcome State Fault Refusal := .next (s.withPart (s.part.evReset))

/-- PART_HELD (R158). -/
def execPartHeld (pin : Pin) (s : State) : Host.Outcome State Fault Refusal :=
  .next (s.withPart (s.part.evPartHeld pin))

/-- HELD_INPUT_CHANGE (R158). -/
def execHeldInputChange (pin : Pin) (s : State) : Host.Outcome State Fault Refusal :=
  .next (s.withPart (s.part.evHeldInputChange pin))

end Sys2Proof.Machine
end

