-- ==== Sys2Proof/Machine/Dispatch.lean ====
section
/-! DEFINITION. One arm for each event of the opcode table: a direct call of its meaning. -/

namespace Sys2Proof.Machine

def exec (i : Instr) (s : State) : Host.Outcome State Fault Refusal :=
  match i with
  | .openReq p tag token silence quota reqLease => Sys2Proof.Machine.execOpen p tag token silence quota reqLease s
  | .closeReq p tag => Sys2Proof.Machine.execClose p tag s
  | .fence p tag target => Sys2Proof.Machine.execFence p tag target s
  | .unfence p tag target => Sys2Proof.Machine.execUnfence p tag target s
  | .read p tag start count => Sys2Proof.Machine.execRead p tag start count s
  | .write p tag start count flags => Sys2Proof.Machine.execWrite p tag start count flags s
  | .mark p tag start count kind => Sys2Proof.Machine.execMark p tag start count kind s
  | .flush p tag scope => Sys2Proof.Machine.execFlush p tag scope s
  | .abort p tag target => Sys2Proof.Machine.execAbort p tag target s
  | .leaseAcquire p tag start len mode duration waitLimit => Sys2Proof.Machine.execLeaseAcquire p tag start len mode duration waitLimit s
  | .leaseRenew p tag id duration => Sys2Proof.Machine.execLeaseRenew p tag id duration s
  | .leaseRelease p tag id => Sys2Proof.Machine.execLeaseRelease p tag id s
  | .leaseQuery p tag start len => Sys2Proof.Machine.execLeaseQuery p tag start len s
  | .scrubStart p tag => Sys2Proof.Machine.execScrubStart p tag s
  | .scrubStop p tag => Sys2Proof.Machine.execScrubStop p tag s
  | .settingsRead p tag => Sys2Proof.Machine.execSettingsRead p tag s
  | .settingsWrite p tag raw => Sys2Proof.Machine.execSettingsWrite p tag raw s
  | .metadataReset p tag => Sys2Proof.Machine.execMetadataReset p tag s
  | .status p tag => Sys2Proof.Machine.execStatus p tag s
  | .info p tag => Sys2Proof.Machine.execInfo p tag s
  | .faultRead p tag startAge maxCount => Sys2Proof.Machine.execFaultRead p tag startAge maxCount s
  | .undefinedKind p tag code => Sys2Proof.Machine.execUndefinedKind p tag code s
  | .dataIn p tag index data => Sys2Proof.Machine.execDataIn p tag index data s
  | .keepalive p => Sys2Proof.Machine.execKeepalive p s
  | .badFrame p bytes => Sys2Proof.Machine.execBadFrame p bytes s
  | .characterError p => Sys2Proof.Machine.execCharacterError p s
  | .linkReset p => Sys2Proof.Machine.execLinkReset p s
  | .breakEnd p => Sys2Proof.Machine.execBreakEnd p s
  | .pnrdyRise p => Sys2Proof.Machine.execPnrdyRise p s
  | .finishSending p => Sys2Proof.Machine.execFinishSending p s
  | .heldFrameEntry p => Sys2Proof.Machine.execHeldFrameEntry p s
  | .silenceExpiry p => Sys2Proof.Machine.execSilenceExpiry p s
  | .dataDeadlineExpiry p tag => Sys2Proof.Machine.execDataDeadlineExpiry p tag s
  | .leaseDeadlineExpiry id => Sys2Proof.Machine.execLeaseDeadlineExpiry id s
  | .waitDeadlineExpiry p tag => Sys2Proof.Machine.execWaitDeadlineExpiry p tag s
  | .waitListGrant => Sys2Proof.Machine.execWaitListGrant s
  | .admission => Sys2Proof.Machine.execAdmission s
  | .heldReadRelease => Sys2Proof.Machine.execHeldReadRelease s
  | .closeDrainEnd p => Sys2Proof.Machine.execCloseDrainEnd p s
  | .drainingEnd p => Sys2Proof.Machine.execDrainingEnd p s
  | .mediaGrant => Sys2Proof.Machine.execMediaGrant s
  | .portReadEnd outcome => Sys2Proof.Machine.execPortReadEnd outcome s
  | .refreshReadEnd outcome => Sys2Proof.Machine.execRefreshReadEnd outcome s
  | .scrubReadEnd outcome => Sys2Proof.Machine.execScrubReadEnd outcome s
  | .scrubRoomRetry => Sys2Proof.Machine.execScrubRoomRetry s
  | .scrubPassBegin => Sys2Proof.Machine.execScrubPassBegin s
  | .autoScrubStart => Sys2Proof.Machine.execAutoScrubStart s
  | .refreshStart => Sys2Proof.Machine.execRefreshStart s
  | .programFirstAttemptEnd success => Sys2Proof.Machine.execProgramFirstAttemptEnd success s
  | .programSecondAttemptEnd success => Sys2Proof.Machine.execProgramSecondAttemptEnd success s
  | .commitEnd success => Sys2Proof.Machine.execCommitEnd success s
  | .commitWaitRelease => Sys2Proof.Machine.execCommitWaitRelease s
  | .waitSetComplete => Sys2Proof.Machine.execWaitSetComplete s
  | .markComplete => Sys2Proof.Machine.execMarkComplete s
  | .settingsWriteComplete => Sys2Proof.Machine.execSettingsWriteComplete s
  | .lifetimeHoursIncrement => Sys2Proof.Machine.execLifetimeHoursIncrement s
  | .powerOn => Sys2Proof.Machine.execPowerOn s
  | .reset => Sys2Proof.Machine.execReset s
  | .partHeld pin => Sys2Proof.Machine.execPartHeld pin s
  | .copyAReadEnd outcome => Sys2Proof.Machine.execCopyAReadEnd outcome s
  | .copyBReadEnd outcome => Sys2Proof.Machine.execCopyBReadEnd outcome s
  | .resetCopyWriteEnd success => Sys2Proof.Machine.execResetCopyWriteEnd success s
  | .pnrdyFall p => Sys2Proof.Machine.execPnrdyFall p s
  | .pnrxdReturns p => Sys2Proof.Machine.execPnrxdReturns p s
  | .delimiterReceived p => Sys2Proof.Machine.execDelimiterReceived p s
  | .heldInputChange pin => Sys2Proof.Machine.execHeldInputChange pin s

end Sys2Proof.Machine
end

