-- ==== Sys2Proof/Machine/Step.lean ====
section
/-! DEFINITION. One step: the event at the front of the queue, or, with none waiting, one millisecond (log 3). -/

namespace Sys2Proof.Machine

/-- The event at the front of the queue is taken, with the queue's rest; with no event waiting, time passes. -/
def step (s : State) : Host.Outcome State Fault Refusal :=
  match s.pending with
  | [] => .next s.tick
  | c :: cs => exec c { s with pending := cs }

/-- `s` with the event that a word spells at the front of its queue. The opcode table gives no row any bits, so no word
spells one (log 26). -/
def State.withFetchWord (s : State) (nbits w : Nat) : State :=
  match decodeTableWord nbits w with
  | some c => { s with pending := c :: s.pending }
  | none => s

end Sys2Proof.Machine
end

