-- ==== Sys2Proof/Safety.lean ====
section
/-! DEFINITION. The laws of the part that hold between events, as predicates on its state, and the conditions under which an
event has its own effect. Each law is one that the spec calls a law of the part, or a limit it gives a table. -/

namespace Sys2Proof.Machine

/-! ### Laws -/

/-- R119: the remap table and the spares: a block once, a spare once, every spare of an entry IN USE, and as many spares IN
USE as there are entries, out of 256. -/
def remapLawful (remap : List Remap) (spares : List Spare) : Prop :=
  (remap.map (·.block)).Nodup ∧ (remap.map (·.spare)).Nodup ∧ (spares.map (·.idx)).Nodup ∧
    (∀ x ∈ spares, x.idx < Config.spareBlocks) ∧
    (∀ r ∈ remap, ∃ x ∈ spares, x.idx = r.spare ∧ x.use = .inUse) ∧
    spares.countP (fun x => decide (x.use = .inUse)) = remap.length

/-- R168: the Fault List: at most 32 records, and a total of at least as many, up to its ceiling. -/
def ringLawful (ring : List FaultRec) (total : Nat) : Prop :=
  ring.length ≤ Config.maxFaults ∧ ring.length ≤ total ∧ total ≤ Config.maxFaultTotal

/-- The laws of an image of the metadata set: R119, R126, R168, R140. -/
def MetaImage.lawful (m : MetaImage) : Prop :=
  (m.poison.map (·.block)).Nodup ∧ remapLawful m.remap m.spares ∧ ringLawful m.ring m.total ∧ m.settings.ok = true

/-- R183: what a link controller holds back is no notice. -/
def HeldFrame.lawful (h : HeldFrame) : Prop := h.frame.isNotice = false ∧ ∀ f, h.behind = some f → f.isNotice = false

/-- R172, R173, R183: a port's notice slots, its lost-notice count, and the frames it holds. -/
def Lc.lawful (l : Lc) : Prop :=
  l.notices ≤ Config.maxNotices ∧ l.lost ≤ Config.maxLost ∧ ∀ h ∈ l.held, h.lawful

/-- R10: what two frames of one block may be together: one of them FILLING, or one DIRTY and one PROGRAMMING. -/
def FrameState.together (x y : FrameState) : Prop :=
  x = .filling ∨ y = .filling ∨ (x = .dirty ∧ y = .programming) ∨ (x = .programming ∧ y = .dirty)

/-- R10, R12, R14, R4: no two frames of a block are DIRTY, PROGRAMMING or CLEAN together, but for a DIRTY and a PROGRAMMING
one; the program queue holds every DIRTY frame once and no other, and the clean list every CLEAN frame once and no other; a
FILLING frame is no MARK's. -/
def Staging.lawful (b : Staging) : Prop :=
  (∀ f ∈ b.frames, ∀ g ∈ b.frames, f.idx ≠ g.idx → f.block = g.block → f.state.together g.state) ∧
    b.progQ.Nodup ∧ (∀ i, i ∈ b.progQ ↔ ∃ f ∈ b.frames, f.idx = i ∧ f.state = .dirty) ∧
    b.clean.Nodup ∧ (∀ i, i ∈ b.clean ↔ ∃ f ∈ b.frames, f.idx = i ∧ f.state = .clean) ∧
    ∀ f ∈ b.frames, f.state = .filling → f.isMark = false

/-- R128: the number of MARK frames in DIRTY. -/
def Staging.dirtyMarks (b : Staging) : Nat := b.frames.countP fun f => f.isMark && decide (f.state = .dirty)

/-- R32: two held leases: they do not overlap, or they are SHARED leases of two ports. -/
def Lease.apart (l m : Lease) : Prop :=
  overlaps l.start l.len m.start m.len = true → l.holder ≠ m.holder ∧ l.mode = .shared ∧ m.mode = .shared

namespace Part

/-- The image that the current operation writes. -/
def writing (s : Part) : Option MetaImage :=
  match s.media.current with
  | some { op := .commit _ _ m, .. } => some m
  | _ => none

/-- The spare that a second attempt programs (R114). -/
def trialSpare (s : Part) : Option Nat :=
  match s.media.current with
  | some { op := .program _ _ _ _ sp, .. } => sp
  | _ => none

/-- R107: the media's store keeps its canonical form. -/
def storeLaw (s : Part) : Prop := s.disk.wf = true

/-- R119, R126, R168: the volatile metadata set, every image the media holds, the image that a commit writes and the reset
image keep the laws of the set; the spare of a second attempt is FREE. -/
def metaLaw (s : Part) : Prop :=
  s.image.lawful ∧ (∀ sp, s.trialSpare = some sp → sp < Config.spareBlocks ∧ ∀ x ∈ s.media.spares, x.idx ≠ sp) ∧
    (∀ x, s.disk.copyA = some x → x.image.lawful) ∧ (∀ x, s.disk.copyB = some x → x.image.lawful) ∧
    (∀ m, s.writing = some m → m.lawful) ∧ (∀ m, s.md.resetImage = some m → m.lawful)

/-- R172, R173: every link controller keeps its limits. -/
def linkLaw (s : Part) : Prop := ∀ p, (s.lc p).lawful

/-- R32, R24, R28: no two leases clash, and the lease table and the wait list keep their limits. -/
def leaseLaw (s : Part) : Prop :=
  s.lease.table.Pairwise Lease.apart ∧ s.lease.table.length ≤ Config.maxLeases ∧ s.lease.waits.length ≤ Config.maxWaits

/-- R43, R102: leases belong to ports whose session is OPEN or CLOSING, wait list entries to ports whose session is OPEN, and
a fenced port is CLOSED or DRAINING. -/
def sessionLaw (s : Part) : Prop :=
  (∀ l ∈ s.lease.table, (s.session l.holder).state = .opened ∨ (s.session l.holder).state = .closing) ∧
    (∀ w ∈ s.lease.waits, (s.session w.key.port).state = .opened) ∧
    ∀ p, (s.session p).fenced = true → (s.session p).state = .closed ∨ (s.session p).state = .draining

/-- R47, R52: a tag place of a port holds at most one command record, and the records stand in the order of receipt. -/
def tableLaw (s : Part) : Prop :=
  (s.cmds.recs.map (·.key)).Nodup ∧ s.cmds.recs.Pairwise (fun c d => c.receipt < d.receipt) ∧
    ∀ c ∈ s.cmds.recs, c.receipt < s.cmds.nextReceipt

/-- R1: the frames that are not FREE stand in strictly rising index below 128, and so do the indices of the clean list stay
below 128. -/
def frameLaw (s : Part) : Prop :=
  s.sb.frames.Pairwise (fun f g => f.idx < g.idx) ∧ (∀ f ∈ s.sb.frames, f.idx < Config.stagingFrames) ∧
    ∀ i ∈ s.sb.clean, i < Config.stagingFrames

/-- R1, R10, R12, R14: the frames, the program queue and the clean list agree. -/
def stagingLaw (s : Part) : Prop := s.frameLaw ∧ s.sb.lawful

/-- R17: a port's frames in FILLING, DIRTY or PROGRAMMING do not exceed the quota of its session, present or last, and the
REFRESH frames do not exceed 8. -/
def quotaLaw (s : Part) : Prop :=
  (∀ p, s.sb.attr (.port p) ≤ (s.session p).quota) ∧ s.sb.attr .refresh ≤ Config.maxRefreshFrames

/-- The start-up reads under way: the copy read that the media performs and the one that waits (R159). -/
def copyReads (s : Part) : Nat :=
  (match s.media.current with | some { op := .copyRead _, .. } => 1 | _ => 0) +
    (match s.media.commitReq with | some (.readCopy _) => 1 | _ => 0)

/-- The media performs a commit or a copy write of METADATA RESET. -/
def writesCopy (s : Part) : Bool :=
  match s.media.current with
  | some { op := .commit .., .. } => true
  | some { op := .resetWrite _, .. } => true
  | _ => false

/-- R159, R161, R162: while a start-up read is under way it is the only one, the device is STARTING, and nothing writes a
copy; and while the device is STARTING no MARK frame is DIRTY. -/
def startLaw (s : Part) : Prop :=
  (0 < s.copyReads → s.copyReads = 1 ∧ s.md.device = .starting ∧ s.md.startUp = none ∧ s.writesCopy = false) ∧
    (s.md.device = .starting → s.sb.dirtyMarks = 0)

/-- R126, R128: the poison map holds at most 512 entries, with room for every MARK frame that is DIRTY; and so do the images
of the set on the media, in a commit and in the copy writes of METADATA RESET. -/
def roomLaw (s : Part) : Prop :=
  s.integ.poison.length + s.sb.dirtyMarks ≤ Config.maxPoison ∧
    (∀ x, s.disk.copyA = some x → x.image.poison.length ≤ Config.maxPoison) ∧
    (∀ x, s.disk.copyB = some x → x.image.poison.length ≤ Config.maxPoison) ∧
    (∀ m, s.writing = some m → m.poison.length ≤ Config.maxPoison) ∧
    (∀ m, s.md.resetImage = some m → m.poison.length ≤ Config.maxPoison) ∧ s.startLaw

/-- R110: the read run count is at most 8. -/
def readRunLaw (s : Part) : Prop := s.media.readRun ≤ Config.maxReadRun

/-- R121: the refresh list holds at most 8 entries, and no block twice. -/
def refreshLaw (s : Part) : Prop :=
  (s.media.refresh.map (·.block)).Nodup ∧ s.media.refresh.length ≤ Config.maxRefresh

/-- R155: the committed number and the snapshot number are at most the change count. -/
def commitLaw (s : Part) : Prop := s.md.committed ≤ s.md.changes ∧ ∀ n, s.md.snapshot = some n → n ≤ s.md.changes

/-! ### Requests

A REQUEST frame whose checks all pass, up to the request's own fields (checks 4 to 6 of R50). -/

/-- R50, R90, R158, R178, R182: a REQUEST frame with tag `t` and a defined code reaches the block that serves it: the part is
not held, the line is not at 0, the transmit queue has room, the session check passes, the tag is free, and the device state
allows the request. -/
def accepts (s : Part) (p : Port) (t : Tag) (code : BitVec 8) : Prop :=
  s.isHeld = false ∧ (s.lc p).low = false ∧ (s.lc p).responses < Config.maxResponses ∧
    (code = codeOpen ∨ (s.session p).state = .opened) ∧ s.cmds.at? ⟨p, t⟩ = none ∧
    (s.md.device = .safe → servedInSafe code = true)

/-- R91, R179: what the arrival of a valid frame on port `p` changes: the receive framing is at HUNT, and the silence
deadline of an OPEN or CLOSING port is armed again. -/
def arrived (s : Part) (p : Port) : Part := (s.setLc p { s.lc p with framing := .hunt }).rearm p

/-- R47, R52: the command that an accepted request makes. -/
def asked (s : Part) (p : Port) (t : Tag) (code : BitVec 8) : Cmd :=
  { key := ⟨p, t⟩, code := code, state := .sending, receipt := s.cmds.nextReceipt }

/-- R49: a request is answered in the event of its arrival. -/
def answered (s : Part) (p : Port) (t : Tag) (code : BitVec 8) (st : Status) (r : Result) : Part :=
  (s.arrived p).sendCompletion p t code st r

end Part

end Sys2Proof.Machine
end

