-- ==== Sys2Proof/Certificates/Slice0/Obligations.lean ====
section
/-! DEFINITION. The statements for the provers. A statement of the form `exec i s = .next (s.withPart (Part.follow s.part x))`
says that the event answers a next state, that its own effect takes the part to `x`, and that the follow-ups of the event come
after it; `FollowUpsFrame` says what those are and what they can change, and `CompletionEntersTheQueue` the order in which the
event's completions stand. -/

section

open Sys2Proof Sys2Proof.Machine

/-! ### The step, reset, the laws of the part -/

/-- A step with an event waiting is that event, with the rest of the queue. -/
def Obligations.StepTakesTheFrontEvent : Prop :=
  ∀ (c : Instr) (cs : List Instr) (x : Part),
    step { part := x, pending := c :: cs } = exec c { part := x, pending := cs }

/-- A step with no event waiting lets one millisecond pass, and the expiries that are then due wait as events: the hour count
that has fallen behind, and every silence, data, lease and wait deadline that has been reached. The model's choice (log 3). -/
def Obligations.IdleStepPassesAMillisecond : Prop :=
  ∀ x : Part,
    (x.isHeld = true → step { part := x, pending := [] } = .next { part := x, pending := [] }) ∧
    (x.isHeld = false →
      let ms := (x.time.ms + 1) % 281474976710656
      let y := x.withTime { ms := ms, hours := x.time.hours, hourDone := if ms = 0 then 0 else x.time.hourDone }
      step { part := x, pending := [] } = .next { part := y, pending := y.due } ∧
      ∀ i, i ∈ y.due ↔ (i = .lifetimeHoursIncrement ∧ y.time.hourDone < ms / 3600000) ∨
        (∃ p d, i = .silenceExpiry p ∧ ((x.session p).state = .opened ∨ (x.session p).state = .closing) ∧
          (x.session p).deadline = some d ∧ d ≤ ms) ∨
        (∃ c ∈ x.cmds.recs, ∃ d, i = .dataDeadlineExpiry c.key.port c.key.tag ∧ c.state = .filling ∧ c.deadline = some d ∧
          d ≤ ms) ∨
        (∃ l ∈ x.lease.table, i = .leaseDeadlineExpiry l.id ∧ l.deadline ≤ ms) ∨
        ∃ w ∈ x.lease.waits, i = .waitDeadlineExpiry w.key.port w.key.tag ∧ w.deadline ≤ ms)

/-- No event is refused and none faults; an event does not touch the queue of the events that wait. That an event which
cannot happen in a state leaves it, instead of being refused, is the model's choice (log 2, DESIGN CHOICE). -/
def Obligations.EveryEventAnswersANextState : Prop :=
  ∀ (i : Instr) (s : State), ∃ t, exec i s = .next t ∧ t.pending = s.pending

/-- The values after power-on or RESET that the spec gives: device, metadata unit, Timebase, links, sessions (R106), Command
Table, Staging Buffer, Lease Unit, Media Engine, mark tally, scrub engine (R151). The model's choices in this: the snapshot number
absent (log 32), and the read of copy A granted in that same event (log 26). -/
def Obligations.ResetValues : Prop :=
  let x := State.reset.part
  State.reset.pending = [] ∧ x.md.device = .starting ∧ x.md.changes = 0 ∧ x.md.committed = 0 ∧ x.md.snapshot = none ∧
    x.md.failures = 0 ∧ x.time.ms = 0 ∧
    (∀ p, (x.session p).state = .closed ∧ (x.session p).number = 0 ∧ (x.session p).token = 0 ∧
      (x.session p).silence = 0 ∧ (x.session p).quota = 0 ∧ (x.session p).reqLease = false ∧ (x.session p).fenced = false ∧
      (x.session p).deadline = none ∧ (x.lc p).framing = .hunt ∧ (x.lc p).txq = [] ∧ (x.lc p).held = [] ∧
      (x.lc p).errors = 0 ∧ (x.lc p).notices = 0 ∧ (x.lc p).lost = 0) ∧
    x.cmds.recs = [] ∧ x.cmds.queue = [] ∧ x.sb.frames = [] ∧ x.sb.progQ = [] ∧ x.sb.clean = [] ∧ x.sb.seq = 0 ∧
    x.lease.table = [] ∧ x.lease.waits = [] ∧ x.lease.nextId = 1 ∧
    x.media.current = some { op := .copyRead .a } ∧ x.media.portReads = [] ∧ x.media.refreshReads = [] ∧
    x.media.scrubReq = none ∧ x.media.readRun = 0 ∧ x.media.commitWait = [] ∧ x.media.refresh = [] ∧
    x.integ.tally = [] ∧ x.scrub.state = .idle ∧ x.scrub.lastEnd = .none ∧ x.scrub.pending = false ∧
    x.scrub.startedBy = none ∧ x.scrub.window = 0 ∧ x.scrub.next = 0 ∧ x.scrub.inCheck = none ∧ x.scrub.phase = .absent ∧
    x.scrub.counts = { checked := 0, skipped := 0, corrected := 0, poisoned := 0, unrecorded := 0 }

/-- The state after reset keeps the laws that the steps keep: the store's canonical form (R107), the metadata set (R119, R126,
R140, R168) with room in the poison map for the DIRTY MARK frames (R128) and at most one start-up read (R159), the link
controllers (R172, R173, R183), the Lease Unit (R24, R28, R32), sessions (R43, R102), the Command Table (R47, R52), the Staging
Buffer's frames and lists (R1, R10, R12, R14) and quotas (R17), the read run (R110), the refresh list (R121) and the change
numbers (R155). -/
def Obligations.ResetKeepsTheLaws : Prop :=
  let x := State.reset.part
  x.storeLaw ∧ x.metaLaw ∧ x.linkLaw ∧ x.leaseLaw ∧ x.sessionLaw ∧ x.tableLaw ∧ x.frameLaw ∧ x.readRunLaw ∧
    x.refreshLaw ∧ x.commitLaw ∧ x.stagingLaw ∧ x.quotaLaw ∧ x.roomLaw

/-- R119, R126, R140, R168: every step keeps the laws of the metadata set, volatile and on the media. R126, R128, R159: where
the Staging Buffer's lists agree, every step keeps the poison map at 512 entries or below with room for every DIRTY MARK frame,
and so the images on the media, and no second start-up read beside one. -/
def Obligations.StepKeepsMetaLaw : Prop :=
  ∀ s t, step s = .next t → (s.part.metaLaw → t.part.metaLaw) ∧ (s.part.stagingLaw → s.part.roomLaw → t.part.roomLaw)

/-- R24, R28, R32: no step makes two held leases clash or exceeds a limit of the Lease Unit. -/
def Obligations.StepKeepsLeaseLaw : Prop := ∀ s t, step s = .next t → s.part.leaseLaw → t.part.leaseLaw

/-- R43, R102: every step keeps leases and wait list entries with ports whose session may have them, and a fenced port
CLOSED or DRAINING. -/
def Obligations.StepKeepsSessionLaw : Prop := ∀ s t, step s = .next t → s.part.sessionLaw → t.part.sessionLaw

/-- R47, R52: no step gives a tag place two command records, and the records stay in the order of receipt. -/
def Obligations.StepKeepsTableLaw : Prop := ∀ s t, step s = .next t → s.part.tableLaw → t.part.tableLaw

/-- R1: every step keeps at most one frame at an index, below 128. R10, R12, R14: with that, every step keeps the frames of a
block in states they may have together, every DIRTY frame and no other once in the program queue, and every CLEAN frame and no
other once in the clean list. R17: with that, every step keeps each port's frames within its session's quota, and the REFRESH
frames at 8 or below. -/
def Obligations.StepKeepsFrameLaw : Prop :=
  ∀ s t, step s = .next t → (s.part.frameLaw → t.part.frameLaw) ∧ (s.part.stagingLaw → t.part.stagingLaw) ∧
    (s.part.stagingLaw → s.part.quotaLaw → t.part.quotaLaw)

/-- R107, R110, R121, R155, R172, R173, R183: every step keeps the limits of the link controllers, the store's canonical
form, the read run count at 8 or below, the refresh list at 8 entries with no block twice, and the committed and snapshot
numbers at or below the change count; each law by itself. -/
def Obligations.StepKeepsLimits : Prop :=
  ∀ s t, step s = .next t → (s.part.linkLaw → t.part.linkLaw) ∧ (s.part.storeLaw → t.part.storeLaw) ∧
    (s.part.readRunLaw → t.part.readRunLaw) ∧ (s.part.refreshLaw → t.part.refreshLaw) ∧ (s.part.commitLaw → t.part.commitLaw)

/-! ### Frames: what events leave unchanged -/

/-- What the media holds changes only at the end of a program, a commit or a copy write, or when one is cut off; the levels of
the supply inputs and the Timebase only with power, reset and the hour count (the lifetime hours also with the read of copy B,
which loads them). -/
def Obligations.MediaPinsAndTimeFrame : Prop :=
  ∀ (i : Instr) (s t : State), exec i s = .next t → (∀ x, i ≠ .partHeld x) →
    ((∀ b, i ≠ .programFirstAttemptEnd b) → (∀ b, i ≠ .programSecondAttemptEnd b) → (∀ b, i ≠ .commitEnd b) →
      (∀ b, i ≠ .resetCopyWriteEnd b) → t.part.disk = s.part.disk ∧ t.part.free = s.part.free) ∧
    (i ≠ .powerOn → i ≠ .reset →
      ((∀ x, i ≠ .heldInputChange x) → t.part.pins = s.part.pins) ∧
      (i ≠ .lifetimeHoursIncrement → (∀ o, i ≠ .copyBReadEnd o) → t.part.time = s.part.time) ∧
      t.part.time.ms = s.part.time.ms)

/-- No event takes a frame out of a transmit queue but the end of sending, a break, power and reset; and only OPEN takes a
port out of CLOSED or DRAINING into OPEN or CLOSING (a BAD_FRAME event may hold an OPEN). -/
def Obligations.QueuesAndSessionsFrame : Prop :=
  ∀ (i : Instr) (s t : State), exec i s = .next t →
    ((∀ p, i ≠ .finishSending p) → (∀ p, i ≠ .linkReset p) → i ≠ .powerOn → i ≠ .reset → (∀ x, i ≠ .partHeld x) →
      ∀ p, (s.part.lc p).txq <+: (t.part.lc p).txq) ∧
    ((∀ p k x a q r, i ≠ .openReq p k x a q r) → (∀ p bs, i ≠ .badFrame p bs) → ∀ p,
      (s.part.session p).state = .closed ∨ (s.part.session p).state = .draining →
      (t.part.session p).state = .closed ∨ (t.part.session p).state = .draining)

/-- What follows inside an event that takes the part from `a` to `b`: first the HELD READs that it releases (R60) and the
drains that it ends (R96, R97, R99), then the wait list scan (R35), then the admission scan (R54), each where what has changed
since `a` calls for it; then what the scans bring about, and once more if it calls for a scan; then the refresh service (R122), the
scrub engine's wait for room (R146) and the media's grants (R111), and once more if those call for a scan. R60: the READs that one
event releases are released in order of receipt: each waits for those among them that were received before it. The order among the
follow-ups, and that a READ which has waited in vain is released after the others, are the model's (log 10). The follow-ups leave the
pins, what the media holds, the time and the number of free values, take no frame out of a transmit queue, and open no port. An event
that leaves nothing due has none: no scan is due, no READ is held, no drain runs, no refresh and no scrub offer waits, no change waits
for a commit, and the media is busy or has no request. Each follow-up is what its own event does (log 1); what that is, other
statements say. -/
def Obligations.FollowUpsFrame : Prop :=
  (∀ a b : Part, (Part.follow a b).pins = b.pins ∧ (Part.follow a b).disk = b.disk ∧ (Part.follow a b).time = b.time ∧
    (Part.follow a b).free = b.free ∧ ∀ p,
      (∃ fs, ((Part.follow a b).lc p).txq.Perm ((b.lc p).txq ++ fs)) ∧
      ((a.lc p).txq <+: (b.lc p).txq → (a.lc p).txq <+: ((Part.follow a b).lc p).txq) ∧
      ((b.session p).state = .closed ∨ (b.session p).state = .draining →
        ((Part.follow a b).session p).state = .closed ∨ ((Part.follow a b).session p).state = .draining)) ∧
  (∀ a b : Part, waitScanDue a b = false → admissionDue a b = false → (∀ c ∈ b.cmds.recs, c.state ≠ .held) →
    (∀ p, (b.session p).state = .closed ∨ (b.session p).state = .opened) → b.media.refresh = [] →
    b.scrub.phase ≠ .waitingRoom → b.md.changes ≤ b.md.committed →
    (b.media.current ≠ none ∨ (b.media.portReads = [] ∧ b.media.commitReq = none ∧ b.sb.head = none ∧
      b.media.refreshReads = [] ∧ b.media.scrubReq = none)) → Part.follow a b = Part.inReceiptOrder a b) ∧
  (∀ (a b : Part) (n : Nat) (wait : List Nat),
    let f := Part.followUps b.rounds wait a b
    let held := fun (x : Part) r => (x.cmds.byReceipt r).any fun d => decide (d.state = .held)
    let released := (b.cmds.recs.map (·.receipt)).filter fun r => held b r && !held f r
    Part.follow a b = Part.inReceiptOrder a (Part.inTurn b.cmds.recs.length [] a b) ∧ 16 ≤ b.rounds ∧
    Part.inTurn 0 wait a b = f ∧
    Part.inTurn (n + 1) wait a b =
      if released.all fun r => wait.contains r then f else Part.inTurn n (wait ++ released) a b) ∧
  (∀ (n : Nat) (wait : List Nat) (a b : Part),
    let c := Part.scans (Part.settle wait) b.rounds a b
    let d := c.refreshTry.scrubRetry.refreshTry.grants
    let blocks := fun r => (d.cmds.byReceipt r).any fun e => decide (e.state = .queued) || decide (e.state = .filling)
    let free := fun r => (d.cmds.byReceipt r).any fun e => decide (e.state = .held) && e.holdSet.all fun x => !blocks x
    Part.followUps (n + 1) wait a b =
      if waitScanDue c d || admissionDue c d then Part.followUps n wait c d
      else if d.cmds.recs.any fun e => free e.receipt then Part.followUps n [] d d
      else d) ∧
  (∀ (settled : Part → Part) (n : Nat) (a b : Part),
    let c := settled b
    let d := if waitScanDue a c then c.waitScan else c
    let e := if admissionDue a d || leaseChanged c d then d.admission else d
    let f := settled e
    Part.scans settled (n + 1) a b = if waitScanDue e f || admissionDue e f then Part.scans settled n e f else f) ∧
  (∀ (wait : List Nat) (x : Part),
    let held := fun (y : Part) r => (y.cmds.byReceipt r).any fun d => decide (d.state = .held)
    Part.settle wait x = [Port.p0, .p1, .p2, .p3].foldl (fun y p => (y.drainEnd p).drainingEnd p)
      ((x.cmds.recs.map (·.receipt)).foldl (fun y r =>
        if wait.any fun z => decide (z < r) && held y z then y else y.releaseOne r) x)) ∧
  (∀ a b : Part,
    (leaseRemoved a b = true ↔ ∃ l ∈ a.lease.table, ∀ m ∈ b.lease.table, { m with deadline := l.deadline } ≠ l) ∧
    (leaseChanged a b = true ↔ leaseRemoved a b = true ∨ leaseRemoved b a = true) ∧
    (waitScanDue a b = true ↔ leaseRemoved a b = true ∨
      (∃ c ∈ a.cmds.recs, c.state = .filling ∧ ∀ d ∈ b.cmds.recs, d.receipt = c.receipt → d.state ≠ .filling) ∨
      ∃ w ∈ a.lease.waits, w ∉ b.lease.waits) ∧
    (admissionDue a b = true ↔ a.cmds.queue ≠ b.cmds.queue ∨ a.sb.available < b.sb.available ∨
      (∃ p, b.sb.attr (.port p) < a.sb.attr (.port p)) ∨ leaseChanged a b = true ∨
      a.integ.poison.length ≠ b.integ.poison.length)) ∧
  ∀ s : State, s.part.isHeld = false →
    let x := s.part
    let gives := fun (i : Instr) (y : Part) => exec i s = .next (s.withPart (Part.follow x y))
    gives .waitListGrant x.waitScan ∧ gives .admission x.admission ∧
    gives .heldReadRelease ((x.cmds.recs.map (·.receipt)).foldl Part.releaseOne x) ∧
    (∀ p, gives (.closeDrainEnd p) (x.drainEnd p) ∧ gives (.drainingEnd p) (x.drainingEnd p)) ∧
    gives .refreshStart x.refreshTry ∧ gives .scrubRoomRetry x.scrubRetry ∧ gives .mediaGrant x.grants ∧
    x.waitScan = if x.md.device = .ready then Part.scanWaits [] x.lease.waits x else x

/-! ### REQUEST frames: refusals (R50, R90, R182) -/

/-- R90, R182: a REQUEST frame that finds 32 response frames in its port's transmit queue is discarded and counted; without an
OPEN session, a request other than OPEN is refused CLOSING or NO_SESSION. -/
def Obligations.OverrunAndSessionCheck : Prop :=
  ∀ (i : Instr) (s : State) (p : Port) (t : Tag) (code : BitVec 8) (f : List Byte),
    requestFields i = some (p, t, code, f) → i.wellFormed = true → s.part.isHeld = false → (s.part.lc p).low = false →
    (32 ≤ (s.part.lc p).responses → exec i s = .next (s.withPart (Part.follow s.part
      (s.part.setLc p { s.part.lc p with framing := .hunt, errors := (s.part.lc p).errors + 1 })))) ∧
    ((s.part.lc p).responses < 32 → code ≠ codeOpen → (s.part.session p).state ≠ .opened →
      exec i s = .next (s.withPart (Part.follow s.part (s.part.answered p t code
        (if (s.part.session p).state = .closing then .closing else .noSession) .none))))

/-- R50, checks 1 to 3: a request whose tag is in use is refused TAG_IN_USE; else an undefined request kind is refused INVALID;
else, in SAFE, a request that is not served there is refused SAFE_MODE. -/
def Obligations.ReceiptChecksRefuse : Prop :=
  ∀ (i : Instr) (s : State) (p : Port) (t : Tag) (code : BitVec 8) (f : List Byte),
    requestFields i = some (p, t, code, f) → i.wellFormed = true → s.part.isHeld = false → (s.part.lc p).low = false →
    (s.part.lc p).responses < 32 → (code = codeOpen ∨ (s.part.session p).state = .opened) →
    let used := ∃ c ∈ s.part.cmds.recs, c.key = ⟨p, t⟩
    let no := fun st => exec i s = .next (s.withPart (Part.follow s.part (s.part.answered p t code st .none)))
    (used → no .tagInUse) ∧
    (¬ used → code ∉ requestCodes → no .invalid) ∧
    (¬ used → code ∈ requestCodes → s.part.md.device = .safe →
      code ∉ [codeInfo, codeStatus, codeFaultRead, codeOpen, codeClose, codeMetadataReset] → no .safeMode)

/-- R50, checks 4 to 6, of READ, WRITE and MARK: the count, the MARK kind, the range, the quota, in this order. -/
def Obligations.BlockFieldsRefuse : Prop :=
  ∀ (s : State) (p : Port) (t : Tag) (b : BitVec 32) (n x : BitVec 8),
    (s.part.accepts p t codeRead →
      let no := fun st => exec (.read p t b n) s =
        .next (s.withPart (Part.follow s.part (s.part.answered p t codeRead st .none)))
      (n.toNat = 0 ∨ 16 < n.toNat → no .invalid) ∧
      (1 ≤ n.toNat → n.toNat ≤ 16 → 262144 < b.toNat + n.toNat → no .outOfRange)) ∧
    (s.part.accepts p t codeWrite →
      let no := fun st => exec (.write p t b n x) s =
        .next (s.withPart (Part.follow s.part (s.part.answered p t codeWrite st .none)))
      (n.toNat = 0 ∨ 16 < n.toNat → no .invalid) ∧
      (1 ≤ n.toNat → n.toNat ≤ 16 → 262144 < b.toNat + n.toNat → no .outOfRange) ∧
      (1 ≤ n.toNat → n.toNat ≤ 16 → b.toNat + n.toNat ≤ 262144 → (s.part.session p).quota < n.toNat →
        no .quotaExceeded)) ∧
    (s.part.accepts p t codeMark →
      let no := fun st => exec (.mark p t b n x) s =
        .next (s.withPart (Part.follow s.part (s.part.answered p t codeMark st .none)))
      (n.toNat = 0 ∨ 16 < n.toNat ∨ (x ≠ 1 ∧ x ≠ 2) → no .invalid) ∧
      (1 ≤ n.toNat → n.toNat ≤ 16 → x = 1 ∨ x = 2 → 262144 < b.toNat + n.toNat → no .outOfRange) ∧
      (1 ≤ n.toNat → n.toNat ≤ 16 → x = 1 ∨ x = 2 → b.toNat + n.toNat ≤ 262144 → (s.part.session p).quota < n.toNat →
        no .quotaExceeded))

/-! ### Sessions (chapter 5) -/

/-- R93, R94: OPEN: the conditions that refuse it, the first that holds; else it makes the port's session. -/
def Obligations.OpenMakesTheSession : Prop :=
  ∀ (s : State) (p : Port) (t : Tag) (token : BitVec 32) (silence : BitVec 16) (quota reqLease : BitVec 8),
    s.part.accepts p t codeOpen →
    let no := fun st => exec (.openReq p t token silence quota reqLease) s =
      .next (s.withPart (Part.follow s.part (s.part.answered p t codeOpen st .none)))
    let x := s.part.session p
    let good := 20 ≤ silence.toNat ∧ silence.toNat ≤ 10000 ∧ quota.toNat ≤ 96 ∧ (reqLease = 0 ∨ reqLease = 1)
    let q := if quota = 0 then 32 else quota.toNat
    (s.part.md.device = .starting → no .notReady) ∧
    (s.part.md.device ≠ .starting → x.fenced = true → no .fenced) ∧
    (s.part.md.device ≠ .starting → x.fenced = false →
      (x.state = .opened → no .alreadyOpen) ∧
      (x.state = .closing ∨ x.state = .draining → no .busy) ∧
      (x.state = .closed → ¬ good → no .invalid) ∧
      (x.state = .closed → good → q < s.part.sb.attr (.port p) → no .busy) ∧
      (x.state = .closed → good → s.part.sb.attr (.port p) ≤ q →
        exec (.openReq p t token silence quota reqLease) s = .next (s.withPart (Part.follow s.part
          (((s.part.arrived p).setSession p
            { state := .opened, number := x.number + 1, token := token, silence := silence.toNat, quota := q,
              reqLease := decide (reqLease = 1), deadline := some (s.part.time.ms + silence.toNat),
              fenced := false }).sendCompletion p t codeOpen .ok
            (.opened (x.number + 1) q silence.toNat (s.part.sb.attr (.port p))))))))

/-- R42, R95: CLOSE ends the port's wait list entries ABORTED, makes the port CLOSING and waits in SETTLING. -/
def Obligations.CloseBeginsTheDrain : Prop :=
  ∀ (s : State) (p : Port) (t : Tag), s.part.accepts p t codeClose →
    let x := ((s.part.lease.waits.filter fun w => decide (w.key.port = p)).map (·.key)).foldl
      (fun x k => x.endWait k .aborted) (s.part.arrived p)
    exec (.closeReq p t) s = .next (s.withPart (Part.follow s.part
      ((x.setSession p { x.session p with state := .closing }).record
        { key := ⟨p, t⟩, code := codeClose, state := .settling, receipt := s.part.cmds.nextReceipt })))

/-- R102: FENCE: its refusals, and its effect: the target's session ends abruptly with its scans if it is OPEN or CLOSING,
the flag is set, the FENCED notice is produced, and FENCE completes OK. -/
def Obligations.FenceEndsTheTarget : Prop :=
  ∀ (s : State) (p : Port) (t : Tag) (x : BitVec 8), s.part.accepts p t codeFence →
    (4 ≤ x.toNat ∨ x.toNat = p.toNat → exec (.fence p t x) s =
      .next (s.withPart (Part.follow s.part (s.part.answered p t codeFence .invalid .none)))) ∧
    ∀ q : Port, x.toNat = q.toNat → q ≠ p →
      ((s.part.session q).fenced = true → exec (.fence p t x) s =
        .next (s.withPart (Part.follow s.part (s.part.answered p t codeFence .already .none)))) ∧
      ((s.part.session q).fenced = false →
        let a := s.part.arrived p
        let b := if (s.part.session q).state = .opened ∨ (s.part.session q).state = .closing then
            Part.scanAll Part.drains a (a.abruptEnd q .portFenced (some p)) else a
        exec (.fence p t x) s = .next (s.withPart (Part.follow s.part
          (((b.setSession q { b.session q with fenced := true }).putNotice q
            (.fenced p (s.part.session p).number (s.part.session p).token)).sendCompletion p t codeFence .ok .none))))

/-- R104: UNFENCE, whole: who may send it, its refusals, and its effect, which is the flag alone. -/
def Obligations.UnfenceClearsTheFlag : Prop :=
  ∀ (s : State) (p : Port) (t : Tag) (x : BitVec 8), s.part.isHeld = false → (s.part.lc p).low = false →
    (s.part.lc p).responses < 32 →
    let answer := fun st => exec (.unfence p t x) s =
      .next (s.withPart (Part.follow s.part (s.part.answered p t codeUnfence st .none)))
    ((s.part.session p).state ≠ .opened → answer (if (s.part.session p).state = .closing then .closing else .noSession)) ∧
    ((s.part.session p).state = .opened → s.part.cmds.at? ⟨p, t⟩ = none →
      (s.part.md.device = .safe → answer .safeMode) ∧
      (s.part.md.device ≠ .safe →
        (4 ≤ x.toNat → answer .invalid) ∧
        (x.toNat = p.toNat → s.part.sessionLaw → answer .notFenced) ∧
        ∀ q : Port, x.toNat = q.toNat →
          ((s.part.session q).fenced = false → answer .notFenced) ∧
          ((s.part.session q).fenced = true → exec (.unfence p t x) s = .next (s.withPart (Part.follow s.part
            (((s.part.arrived p).setSession q { (s.part.arrived p).session q with fenced := false }).sendCompletion
              p t codeUnfence .ok .none))))))

/-- R44, R62, R98, R99: what an abrupt end leaves of a port, and the record it appends. That nothing of the hold is kept, not the
GO of a DURABLE WRITE that stays in SETTLING either, is the model's choice (log 34). -/
def Obligations.AbruptEndLeaves : Prop :=
  ∀ (s : Part) (p : Port) (kind : FaultKind) (o : Option Port),
    let x := s.abruptEnd p kind o
    x.lease.table = s.lease.table.filter (fun l => decide (l.holder ≠ p)) ∧
    x.lease.waits = s.lease.waits.filter (fun w => decide (w.key.port ≠ p)) ∧
    x.sb.frames = s.sb.frames.filter (fun f => !(decide (f.state = .filling) && decide (f.writer = some (.port p)))) ∧
    (∀ c, c ∈ x.cmds.recs ↔ c ∈ s.cmds.recs ∧
      (c.key.port ≠ p ∨ (c.code = codeWrite ∧ c.durable = true ∧ c.state = .settling))) ∧
    x.cmds.queue = s.cmds.queue.filter (fun k => decide (k.port ≠ p)) ∧
    x.integ.tally = s.integ.tally.filter (fun m => decide (m.key.port ≠ p)) ∧
    x.lc p = { s.lc p with held := [] } ∧ (∀ q, q ≠ p → x.lc q = s.lc q ∧ x.session q = s.session q) ∧
    x.session p =
      { s.session p with
        deadline := none
        state := if (s.cmds.recs.any fun c => decide (c.key.port = p) && decide (c.code = codeWrite) && c.durable &&
          decide (c.state = .settling)) then .draining else .closed } ∧
    (∃ r, r ∈ x.faults.ring ∧ r.seq = x.faults.total ∧
      r.info = { kind := kind, port := some p, otherPort := o, session := some (s.session p).number }) ∧
    x.media = s.media ∧ x.disk = s.disk ∧ x.scrub = s.scrub ∧ x.time = s.time ∧ x.pins = s.pins ∧ x.free = s.free ∧
    x.sb.progQ = s.sb.progQ ∧ x.sb.clean = s.sb.clean ∧ x.sb.seq = s.sb.seq ∧ x.integ.poison = s.integ.poison ∧
    x.lease.nextId = s.lease.nextId ∧ x.cmds.nextReceipt = s.cmds.nextReceipt ∧ x.cmds.stop = s.cmds.stop ∧
    x.md = { s.md with changes := s.md.changes + 1 }

/-! ### Commands (chapters 3 and 4) -/

/-- R51, R59, R69: a READ waits behind its port's own queued or filling commands, or takes its first block. -/
def Obligations.ReadIsHeldOrReads : Prop :=
  ∀ (s : State) (p : Port) (t : Tag) (b : BitVec 32) (n : BitVec 8), s.part.accepts p t codeRead →
    1 ≤ n.toNat → n.toNat ≤ 16 → b.toNat + n.toNat ≤ 262144 →
    let hs := (s.part.cmds.recs.filter fun c => decide (c.key.port = p) &&
      (decide (c.code = codeWrite) || decide (c.code = codeMark)) &&
      (decide (c.state = .queued) || decide (c.state = .filling)) && overlaps c.start c.count b.toNat n.toNat).map (·.receipt)
    let c : Cmd :=
      { key := ⟨p, t⟩, code := codeRead, state := .sending, receipt := s.part.cmds.nextReceipt, start := b.toNat,
        count := n.toNat, holdSet := hs }
    (hs ≠ [] → exec (.read p t b n) s = .next (s.withPart (Part.follow s.part
      ((s.part.arrived p).record { c with state := .held })))) ∧
    (hs = [] → exec (.read p t b n) s = .next (s.withPart (Part.follow s.part
      (((s.part.arrived p).record { c with state := .reading }).runRead s.part.cmds.nextReceipt))))

/-- R69 to R73, R129, R130: how a READING command takes its next block, by what the lookup finds. R71, R66, R183: a block is
delivered: its DATA-OUT enters the queue while fewer than 32 response frames are queued, and is held otherwise; the next index
rises; the last index gives OK or, after an ABORT, ABORTED. The request for a media read keeps what the media holds at the lookup (R70;
log 36). -/
def Obligations.ReadTakesItsNextBlock : Prop :=
  (∀ (s : Part) (r : Nat) (c : Cmd), s.cmds.byReceipt r = some c → c.state = .reading → c.inProgress = none →
    c.dataPending = none →
    let b := c.start + c.next
    (∀ d, s.lookup b = .data d → c.next + 1 < c.count → s.runRead r = Part.takeBlocks 16 r ((s.touch b).deliver c d)) ∧
    (∀ d, s.lookup b = .data d → c.count ≤ c.next + 1 → s.runRead r = (s.touch b).deliver c d) ∧
    (∀ w, s.lookup b = .mark .quiet w → s.runRead r = s.finish c .poisoned (.read c.next (some .quiet))) ∧
    (∀ w, s.lookup b = .mark .reported w → s.runRead r =
      (s.finish c .poisoned (.read c.next (some .reported))).poisonReadReported b c.key.port w none) ∧
    (∀ e, s.lookup b = .poison e → e.kind = .media → s.runRead r = s.finish c .unreadable (.read c.next none)) ∧
    (∀ e, s.lookup b = .poison e → e.kind = .quiet → s.runRead r = s.finish c .poisoned (.read c.next (some .quiet))) ∧
    (∀ e, s.lookup b = .poison e → e.kind = .reported → s.runRead r =
      (s.finish c .poisoned (.read c.next (some .reported))).poisonReadReported b c.key.port e.origin
        (some (e.hours, e.ms))) ∧
    (s.lookup b = .media → s.runRead r =
      (s.withMedia { s.media with
        portReads := s.media.portReads ++
          [{ key := c.key, receipt := r, index := c.next, block := b, seen := s.mediaRead (s.media.locate b) }] }).updCmd r
          fun c => { c with inProgress := some c.next })) ∧
  ∀ (s : Part) (c : Cmd) (d : BlockData),
    let p := c.key.port
    let l := s.lc p
    let enters := l.responses < 32
    let sent := (s.setLc p
      (if enters then
        { l with txq := l.txq ++ [.dataOut c.key.tag c.next d], sending := l.sending || (l.rdy && !l.breakHeld) }
      else { l with held := l.held ++ [{ frame := .dataOut c.key.tag c.next d }] })).updCmd c.receipt fun _ =>
        { c with next := c.next + 1, inProgress := none, dataPending := if enters then none else some c.next }
    (c.next + 1 < c.count → s.deliver c d = sent) ∧
    (c.count ≤ c.next + 1 →
      s.deliver c d = sent.finish c (if c.aborted then .aborted else .ok) (.read (c.next + 1) none))

/-- R11: the visible copy of a block: the DIRTY frame, else the PROGRAMMING one, else the CLEAN one, else the poison map
entry, else the media; a frame answers with its data or, a MARK frame, with its kind. R11, R14: a lookup that a CLEAN frame
answers moves it to the tail of the clean list, and no other lookup moves a frame. -/
def Obligations.LookupFindsTheVisibleCopy : Prop :=
  (∀ (f : Frame),
    (∀ d, f.content = .data → f.data = some d → f.look = .data d) ∧
    (∀ k p, f.content = .mark k → f.writer = some (.port p) → f.look = .mark k (some p))) ∧
  ∀ (s : Part) (b : Nat),
    (∀ f, s.sb.inState .dirty b = none → s.sb.inState .programming b = none → s.sb.inState .clean b = some f →
      s.touch b = s.withSb { s.sb with clean := s.sb.clean.filter (fun i => decide (i ≠ f.idx)) ++ [f.idx] }) ∧
    (s.sb.inState .dirty b ≠ none ∨ s.sb.inState .programming b ≠ none ∨ s.sb.inState .clean b = none → s.touch b = s) ∧
    (∀ f, s.sb.inState .dirty b = some f → s.lookup b = f.look) ∧
    (∀ f, s.sb.inState .dirty b = none → s.sb.inState .programming b = some f → s.lookup b = f.look) ∧
    (∀ f, s.sb.inState .dirty b = none → s.sb.inState .programming b = none → s.sb.inState .clean b = some f →
      s.lookup b = f.look) ∧
    (s.sb.inState .dirty b = none → s.sb.inState .programming b = none → s.sb.inState .clean b = none →
      s.lookup b = (match s.integ.poison.find? fun e => decide (e.block = b) with
        | some e => .poison e
        | none => .media))

/-- R51, R53: a WRITE or MARK joins the admission queue in QUEUED. -/
def Obligations.WriteAndMarkAreQueued : Prop :=
  ∀ (s : State) (p : Port) (t : Tag) (b : BitVec 32) (n x : BitVec 8), 1 ≤ n.toNat → n.toNat ≤ 16 →
    b.toNat + n.toNat ≤ 262144 → n.toNat ≤ (s.part.session p).quota →
    let queued := fun (c : Cmd) =>
      let y := (s.part.arrived p).record c
      y.withCmds { y.cmds with queue := y.cmds.queue ++ [⟨p, t⟩] }
    (s.part.accepts p t codeWrite → exec (.write p t b n x) s = .next (s.withPart (Part.follow s.part
      (queued
        { key := ⟨p, t⟩, code := codeWrite, state := .queued, receipt := s.part.cmds.nextReceipt, start := b.toNat,
          count := n.toNat, durable := x.getLsbD 0 })))) ∧
    (s.part.accepts p t codeMark → x = 1 ∨ x = 2 → exec (.mark p t b n x) s = .next (s.withPart (Part.follow s.part
      (queued
        { key := ⟨p, t⟩, code := codeMark, state := .queued, receipt := s.part.cmds.nextReceipt, start := b.toNat,
          count := n.toNat, kind := if x = 1 then .reported else .quiet }))))

/-- R50, R85: FLUSH: an unknown scope is refused; nothing staged in scope completes it at once; else it waits on its set. -/
def Obligations.FlushWaitsOnItsSet : Prop :=
  ∀ (s : State) (p : Port) (t : Tag) (x : BitVec 8), s.part.accepts p t codeFlush →
    let set := (s.part.sb.frames.filter fun f => (decide (f.state = .dirty) || decide (f.state = .programming)) &&
      (decide (x = 2) || decide (f.writer = some (.port p)))).map
        fun f => { block := f.block, seq := f.seq.getD 0 : SetEntry }
    (x ≠ 1 ∧ x ≠ 2 → exec (.flush p t x) s =
      .next (s.withPart (Part.follow s.part (s.part.answered p t codeFlush .invalid .none)))) ∧
    (x = 1 ∨ x = 2 → set = [] → exec (.flush p t x) s =
      .next (s.withPart (Part.follow s.part (s.part.answered p t codeFlush .ok (.flush 0 0))))) ∧
    (x = 1 ∨ x = 2 → set ≠ [] → exec (.flush p t x) s = .next (s.withPart (Part.follow s.part
      ((s.part.arrived p).record
        { key := ⟨p, t⟩, code := codeFlush, state := .settling, receipt := s.part.cmds.nextReceipt,
          scopeAll := decide (x = 2), waitSet := set }))))

/-- R64 to R67: ABORT: an own or impossible tag is INVALID, a free tag NO_SUCH_TAG; a target that can still be ended is ended
ABORTED before the ABORT completes OK; a SETTLING or SENDING one is TOO_LATE. -/
def Obligations.AbortEndsItsTarget : Prop :=
  ∀ (s : State) (p : Port) (t : Tag) (x : BitVec 8), s.part.accepts p t codeAbort →
    let a := s.part.arrived p
    let gives := fun (y : Part) (st : Status) =>
      exec (.abort p t x) s = .next (s.withPart (Part.follow s.part (y.sendCompletion p t codeAbort st .none)))
    (16 ≤ x.toNat ∨ x.toNat = t.val → gives a .invalid) ∧
    ∀ k : Tag, x.toNat = k.val → k ≠ t →
      (s.part.cmds.at? ⟨p, k⟩ = none → gives a .noSuchTag) ∧
      ∀ d, s.part.cmds.at? ⟨p, k⟩ = some d →
        (d.state = .queued → gives ((a.dequeue d.key).finish d .aborted .none) .ok) ∧
        (d.state = .held → gives (a.finish d .aborted (.read d.next none)) .ok) ∧
        (d.state = .waiting → gives (a.endWait d.key .aborted) .ok) ∧
        (d.state = .filling → gives ((a.endFilling d).finish d .aborted .none) .ok) ∧
        (d.state = .reading → d.inProgress = none → gives (a.finish d .aborted (.read d.next none)) .ok) ∧
        (d.state = .reading → d.inProgress ≠ none →
          gives (a.updCmd d.receipt fun d => { d with count := d.next + 1, aborted := true }) .ok) ∧
        (d.state = .settling ∨ d.state = .sending → gives a .tooLate)

/-- R49, R183: a completion enters the transmit queue and its record goes, or it waits behind a held frame of its command and
the record stays in SENDING. R61: behind the frames that stood in a port's queue before an event, the event's completions stand
in the order of receipt of their commands, a request of the event itself last; no frame is lost, the notices keep their order,
and completions that stand so already stay. R49: no completion overtakes a DATA-OUT of its command that is queued before it.
R54: a GO and a completion keep their order where it is that of receipt, as it is for the frames of one scan. The places of the frames beside completions are otherwise the model's (log 23). -/
def Obligations.CompletionEntersTheQueue : Prop :=
  ∀ (s : Part) (c : Cmd) (st : Status) (r : Result),
    let p := c.key.port
    let behind := fun hs : List HeldFrame => hs.map fun h =>
      if h.frame.tag = some c.key.tag then { h with behind := some (.completion c.key.tag st c.code r) } else h
    ((∀ h ∈ (s.lc p).held, h.frame.tag ≠ some c.key.tag) →
      ((s.finish c st r).lc p).txq = (s.lc p).txq ++ [.completion c.key.tag st c.code r] ∧
      (s.finish c st r).cmds.recs = s.cmds.recs.filter (fun d => decide (d.receipt ≠ c.receipt))) ∧
    ((∃ h ∈ (s.lc p).held, h.frame.tag = some c.key.tag) →
      (s.finish c st r).lc p = { s.lc p with held := behind (s.lc p).held } ∧
      ∀ d ∈ s.cmds.recs, d.receipt = c.receipt →
        { d with state := .sending, result := none, deadline := none } ∈ (s.finish c st r).cmds.recs) ∧
    (∀ q, q ≠ p → (s.finish c st r).lc q = s.lc q) ∧
    (∀ a b : Part, ∃ l : PerPort Lc, Part.inReceiptOrder a b = b.withLinks l ∧
      ∀ q, let n := (a.lc q).txq.length
        let rc := fun t => (a.cmds.recs.find? fun d => decide (d.key = ⟨q, t⟩)).map (·.receipt)
        l.get q = { b.lc q with txq := (b.lc q).txq.take n ++ arrange rc ((b.lc q).txq.drop n) }) ∧
    ∀ (rc : Tag → Option Nat) (fs : List TxFrame),
      let places := fun gs : List TxFrame => gs.filterMap fun f => match f with
        | .completion t .. => some (rc t)
        | _ => none
      let inOrder := fun gs : List TxFrame => (places gs).Pairwise fun x y => ∀ j, y = some j → ∃ i, x = some i ∧ i ≤ j
      (arrange rc fs).Perm fs ∧ inOrder (arrange rc fs) ∧
      (arrange rc fs).filter (·.isNotice) = fs.filter (·.isNotice) ∧ (inOrder fs → arrange rc fs = fs) ∧
      ∀ t st code r,
        let le := fun x y : Option Nat => ∀ j, y = some j → ∃ i, x = some i ∧ i ≤ j
        let done := TxFrame.completion t st code r
        (∀ i d, [.dataOut t i d, done].Sublist fs → [.dataOut t i d, done].Sublist (arrange rc fs)) ∧
        ∀ u n, (le (rc u) (rc t) → [.go u n, done].Sublist fs → [.go u n, done].Sublist (arrange rc fs)) ∧
          (¬ le (rc u) (rc t) → [done, .go u n].Sublist fs → [done, .go u n].Sublist (arrange rc fs))

/-! ### Leases (chapter 2) -/

/-- R30 to R34: LEASE ACQUIRE: its refusals in their order, the grant, the wait, and the full wait list. R29: what stands
against it: a held lease, a WRITE in FILLING (of any port against SHARED, of another port against EXCLUSIVE), a wait. -/
def Obligations.LeaseAcquireOutcomes : Prop :=
  ∀ (s : State) (p : Port) (t : Tag) (b n : BitVec 32) (m : BitVec 8) (d w : BitVec 16),
    s.part.accepts p t codeLeaseAcquire →
    let x := s.part
    let no := fun st => exec (.leaseAcquire p t b n m d w) s =
      .next (s.withPart (Part.follow s.part (s.part.answered p t codeLeaseAcquire st .none)))
    let good := (m = 1 ∨ m = 2) ∧ n.toNat ≠ 0 ∧ 1 ≤ d.toNat ∧ d.toNat ≤ 60000 ∧ w.toNat ≤ 10000
    let mode := if m = 1 then LeaseMode.shared else .exclusive
    let own := (∃ l ∈ x.lease.table, l.holder = p ∧ overlaps l.start l.len b.toNat n.toNat = true) ∨
      (∃ e ∈ x.lease.waits, e.key.port = p ∧ overlaps e.start e.len b.toNat n.toNat = true)
    let clash := (∃ l ∈ x.lease.table, overlaps l.start l.len b.toNat n.toNat = true ∧
        (l.holder = p ∨ l.mode = .exclusive ∨ mode = .exclusive)) ∨
      (∃ f ∈ x.sb.frames, ∃ q, f.state = .filling ∧ f.writer = some (.port q) ∧ b.toNat ≤ f.block ∧
        f.block < b.toNat + n.toNat ∧ (mode = .shared ∨ q ≠ p)) ∨
      (∃ e ∈ x.lease.waits, overlaps e.start e.len b.toNat n.toNat = true ∧ (e.mode = .exclusive ∨ mode = .exclusive))
    (¬ good → no .invalid) ∧
    (good → 262144 < b.toNat + n.toNat → no .outOfRange) ∧
    (good → b.toNat + n.toNat ≤ 262144 → own → no .overlapSelf) ∧
    (good → b.toNat + n.toNat ≤ 262144 → ¬ own →
      (¬ clash → x.lease.table.length < 32 →
        let id := freeLeaseId x.lease.table 33 x.lease.nextId
        let now := x.time.ms
        exec (.leaseAcquire p t b n m d w) s = .next (s.withPart (Part.follow s.part
          (((s.part.arrived p).withLease
            { x.lease with
              table := x.lease.table ++ [{ id := id, holder := p, session := (x.session p).number, start := b.toNat,
                                           len := n.toNat, mode := mode, deadline := now + 10 * d.toNat, granted := now }]
              nextId := if id = 0xFFFF then 1 else id + 1 }).sendCompletion p t codeLeaseAcquire .ok
                (.leaseAcquire id now (now + 10 * d.toNat)))))) ∧
      (clash → w = 0 → no .leaseConflict) ∧
      (¬ clash → 32 ≤ x.lease.table.length → w = 0 → no .leaseTableFull) ∧
      (clash ∨ 32 ≤ x.lease.table.length → w ≠ 0 → 16 ≤ x.lease.waits.length → no .waitListFull) ∧
      (clash ∨ 32 ≤ x.lease.table.length → w ≠ 0 → x.lease.waits.length < 16 →
        exec (.leaseAcquire p t b n m d w) s = .next (s.withPart (Part.follow s.part
          (((s.part.arrived p).withLease
            { x.lease with
              waits := x.lease.waits ++ [{ key := ⟨p, t⟩, start := b.toNat, len := n.toNat, mode := mode,
                                           duration := d.toNat, deadline := x.time.ms + w.toNat }] }).record
            { key := ⟨p, t⟩, code := codeLeaseAcquire, state := .waiting, receipt := x.cmds.nextReceipt,
              lease := some ⟨b.toNat, n.toNat, mode, d.toNat, w.toNat⟩ })))))

/-- R38, R39: LEASE RENEW and LEASE RELEASE: their refusals, the new deadline, the removal. -/
def Obligations.LeaseRenewAndRelease : Prop :=
  ∀ (s : State) (p : Port) (t : Tag) (id d : BitVec 16),
    let x := s.part
    let owned := ∃ l ∈ x.lease.table, l.id = id ∧ l.holder = p
    (x.accepts p t codeLeaseRenew →
      let no := fun st => exec (.leaseRenew p t id d) s =
        .next (s.withPart (Part.follow s.part (s.part.answered p t codeLeaseRenew st .none)))
      (d.toNat = 0 ∨ 60000 < d.toNat → no .invalid) ∧
      (1 ≤ d.toNat → d.toNat ≤ 60000 → ¬ owned → no .noSuchLease) ∧
      (1 ≤ d.toNat → d.toNat ≤ 60000 → owned →
        let at' := x.time.ms + 10 * d.toNat
        exec (.leaseRenew p t id d) s = .next (s.withPart (Part.follow s.part
          (((s.part.arrived p).withLease
            { x.lease with table := x.lease.table.map fun l => if l.id = id then { l with deadline := at' } else l
            }).sendCompletion p t codeLeaseRenew .ok (.leaseRenew at')))))) ∧
    (x.accepts p t codeLeaseRelease →
      (¬ owned → exec (.leaseRelease p t id) s =
        .next (s.withPart (Part.follow s.part (s.part.answered p t codeLeaseRelease .noSuchLease .none)))) ∧
      (owned → exec (.leaseRelease p t id) s = .next (s.withPart (Part.follow s.part
        (((s.part.arrived p).withLease { x.lease with table := x.lease.table.filter fun l => decide (l.id ≠ id) }).sendCompletion
          p t codeLeaseRelease .ok .none)))))

/-- R40: LEASE QUERY: its refusals; the leases that overlap the range, in ascending order of start block and id. -/
def Obligations.LeaseQueryReports : Prop :=
  ∀ (s : State) (p : Port) (t : Tag) (b n : BitVec 32), s.part.accepts p t codeLeaseQuery →
    let answer := fun st r => exec (.leaseQuery p t b n) s =
      .next (s.withPart (Part.follow s.part (s.part.answered p t codeLeaseQuery st r)))
    (n.toNat = 0 → answer .invalid .none) ∧
    (n.toNat ≠ 0 → 262144 < b.toNat + n.toNat → answer .outOfRange .none) ∧
    (n.toNat ≠ 0 → b.toNat + n.toNat ≤ 262144 → ∃ rs : List LeaseReport, answer .ok (.leaseQuery rs) ∧
      rs.Pairwise (fun x y => x.start < y.start ∨ (x.start = y.start ∧ x.id.toNat ≤ y.id.toNat)) ∧
      rs.Perm ((s.part.lease.table.filter fun l => overlaps l.start l.len b.toNat n.toNat).map fun l =>
        { id := l.id, holder := l.holder, session := l.session, token := (s.part.session l.holder).token,
          start := l.start, len := l.len, mode := l.mode, granted := l.granted, deadline := l.deadline }))

/-- R26: the rights query: LEASE_CONFLICT for a SHARED lease or another port's EXCLUSIVE one over the blocks, NOT_LEASED where
REQUIRE_LEASE is set and a block lies in no EXCLUSIVE lease of the port, else Permitted. -/
def Obligations.RightsQueryDecides : Prop :=
  ∀ (s : Part) (p : Port) (b n : Nat),
    let barred := ∃ l ∈ s.lease.table, overlaps l.start l.len b n = true ∧ (l.mode = .shared ∨ l.holder ≠ p)
    let bare := (s.session p).reqLease = true ∧ ∃ i < n, ∀ l ∈ s.lease.table, l.holder = p → l.mode = .exclusive →
      ¬ (l.start ≤ b + i ∧ b + i < l.start + l.len)
    (s.rightsQuery p b n = some .leaseConflict ↔ barred) ∧ (s.rightsQuery p b n = some .notLeased ↔ ¬ barred ∧ bare) ∧
    (s.rightsQuery p b n = none ↔ ¬ barred ∧ ¬ bare)

/-! ### Scrubbing, settings, status and faults (chapters 8 to 10) -/

/-- R142, R148: SCRUB START: BUSY, INVALID without an enabled window, else the pass is requested, the mark is set as one
change, and the command waits on it; SCRUB STOP: NOT_RUNNING, else OK, and the pass stops. -/
def Obligations.ScrubStartAndStop : Prop :=
  ∀ (s : State) (p : Port) (t : Tag),
    (s.part.accepts p t codeScrubStart →
      (s.part.scrub.state ≠ .idle → exec (.scrubStart p t) s =
        .next (s.withPart (Part.follow s.part (s.part.answered p t codeScrubStart .busy .none)))) ∧
      (s.part.scrub.state = .idle → s.part.md.settings.enabledFrom 0 = none → exec (.scrubStart p t) s =
        .next (s.withPart (Part.follow s.part (s.part.answered p t codeScrubStart .invalid .none)))) ∧
      ∀ j w, s.part.scrub.state = .idle → s.part.md.settings.enabledFrom 0 = some j →
        s.part.md.settings.window j = some w → exec (.scrubStart p t) s = .next (s.withPart (Part.follow s.part
          ((((s.part.arrived p).withMd
            { s.part.md with scrubMark := true, changes := s.part.md.changes + 1 }).withScrub
            { state := .running, startedBy := some (.port p), pending := true, window := j, next := w.first,
              inCheck := none, phase := .absent, counts := {}, lastEnd := .none, change := s.part.md.changes + 1,
              autoRef := s.part.scrub.autoRef }).record
            { key := ⟨p, t⟩, code := codeScrubStart, state := .settling, receipt := s.part.cmds.nextReceipt,
              change := s.part.md.changes + 1 })))) ∧
    (s.part.accepts p t codeScrubStop →
      (s.part.scrub.state = .idle → exec (.scrubStop p t) s =
        .next (s.withPart (Part.follow s.part (s.part.answered p t codeScrubStop .notRunning .none)))) ∧
      (s.part.scrub.state ≠ .idle → exec (.scrubStop p t) s =
        .next (s.withPart (Part.follow s.part (s.part.answered p t codeScrubStop .ok .none).stopPass))))

/-- R148, R149: how a pass stops: at once, or at the end of the read in progress; and what its end does: the SCRUB_PASS record,
which names no starter for AUTO (log 24), the cleared mark as one change, the SCRUB_ENDED notice to every OPEN port, and what it
leaves. -/
def Obligations.ScrubPassStops : Prop :=
  ∀ s : Part,
    (s.scrub.state ≠ .running → s.stopPass = s) ∧
    (s.scrub.state = .running → s.scrub.phase = .reading → s.stopPass = s.withScrub { s.scrub with state := .stopping }) ∧
    (s.scrub.state = .running → s.scrub.phase = .absent ∨ s.scrub.phase = .waitingRoom → s.stopPass = s.endPass .stopped) ∧
    (s.scrub.state = .running → s.scrub.phase = .requested →
      s.stopPass = (s.withMedia { s.media with scrubReq := none }).endPass .stopped) ∧
    ∀ e,
      let sum := fun who : Option Starter => ({ reason := e, startedBy := who, counts := s.scrub.counts } : ScrubSummary)
      let x := s.appendFault
        { kind := .scrubPass, scrub := some (sum (match s.scrub.startedBy with | some .auto => none | who => who)) }
      let y := [Port.p0, .p1, .p2, .p3].foldl (fun y p => y.offerNotice p (.scrubEnded (sum s.scrub.startedBy)))
        (x.withMd { x.md with scrubMark := false, changes := x.md.changes + 1 })
      s.endPass e = y.withScrub (s.endPass e).scrub ∧ (s.endPass e).scrub =
        { s.scrub with state := .idle, pending := false, inCheck := none, phase := .absent, lastEnd := e,
                       autoRef := s.time.hours } ∧
      (s.endPass e).md.scrubMark = false ∧ (s.endPass e).md.changes = s.md.changes + 2

/-- R140, R164: SETTINGS READ returns the settings; SETTINGS WRITE is INVALID with a threshold above 255, a period above 168, an
enabled field other than 0 and 1, a first block above the last or a block above 262,143, BUSY where it changes a window during a
pass, else takes the settings as one change, makes the spare-low and auto-scrub tests, and waits on the change. -/
def Obligations.SettingsReadAndWrite : Prop :=
  ∀ (s : State) (p : Port) (t : Tag) (raw : RawSettings),
    (s.part.accepts p t codeSettingsRead → exec (.settingsRead p t) s =
      .next (s.withPart (Part.follow s.part (s.part.answered p t codeSettingsRead .ok (.settings s.part.md.settings))))) ∧
    (s.part.accepts p t codeSettingsWrite →
      let fits := fun w : RawWindow => (w.enabled = 0 ∨ w.enabled = 1) ∧ w.first.toNat ≤ w.last.toNat ∧ w.last.toNat < 262144
      let inRange := raw.threshold.toNat ≤ 255 ∧ raw.period.toNat ≤ 168 ∧ fits raw.w0 ∧ fits raw.w1 ∧ fits raw.w2 ∧ fits raw.w3
      let window := fun w : RawWindow =>
        ({ enabled := decide (w.enabled = 1), first := w.first.toNat, last := w.last.toNat } : Window)
      (¬ inRange → exec (.settingsWrite p t raw) s =
        .next (s.withPart (Part.follow s.part (s.part.answered p t codeSettingsWrite .invalid .none)))) ∧
      (inRange →
        let x : Settings := { threshold := raw.threshold.toNat, period := raw.period.toNat, w0 := window raw.w0,
                              w1 := window raw.w1, w2 := window raw.w2, w3 := window raw.w3 }
        let same := x.w0 = s.part.md.settings.w0 ∧ x.w1 = s.part.md.settings.w1 ∧ x.w2 = s.part.md.settings.w2 ∧
          x.w3 = s.part.md.settings.w3
        (¬ same → s.part.scrub.state ≠ .idle → exec (.settingsWrite p t raw) s =
          .next (s.withPart (Part.follow s.part (s.part.answered p t codeSettingsWrite .busy .none)))) ∧
        (same ∨ s.part.scrub.state = .idle → exec (.settingsWrite p t raw) s = .next (s.withPart (Part.follow s.part
          ((((s.part.arrived p).withMd { s.part.md with settings := x, changes := s.part.md.changes + 1
            }).spareLowTest.autoScrub).record
            { key := ⟨p, t⟩, code := codeSettingsWrite, state := .settling, receipt := s.part.cmds.nextReceipt,
              change := s.part.md.changes + 1 }))))))

/-- R165: METADATA RESET: NOT_SAFE outside SAFE, BUSY while its copy writes run, else its effect, and OK: what it clears; the
image of the set so formed, which both copies get; R120, R125: the spare-low condition, and the block operation in progress that is
cut off (a program: log 14); R105: sessions and fence flags stay. -/
def Obligations.MetadataResetTakesEffect : Prop :=
  ∀ (s : State) (p : Port) (t : Tag), s.part.accepts p t codeMetadataReset →
    (s.part.md.device ≠ .safe → exec (.metadataReset p t) s =
      .next (s.withPart (Part.follow s.part (s.part.answered p t codeMetadataReset .notSafe .none)))) ∧
    (s.part.md.device = .safe → s.part.md.resetImage ≠ none → exec (.metadataReset p t) s =
      .next (s.withPart (Part.follow s.part (s.part.answered p t codeMetadataReset .busy .none)))) ∧
    (s.part.md.device = .safe → s.part.md.resetImage = none →
      let x := (s.part.arrived p).metadataResetEffect
      exec (.metadataReset p t) s =
        .next (s.withPart (Part.follow s.part (x.sendCompletion p t codeMetadataReset .ok .none))) ∧
      x.sb.frames = [] ∧ x.sb.progQ = [] ∧ x.sb.clean = [] ∧ x.sb.seq = s.part.sb.seq ∧ x.media.portReads = [] ∧
      x.media.refreshReads = [] ∧ x.media.scrubReq = none ∧ x.media.readRun = 0 ∧ x.media.commitWait = [] ∧
      x.media.remap = [] ∧ x.media.refresh = [] ∧ x.media.commitReq = some (.resetWrite .a) ∧
      (∀ y, y ∈ x.media.spares ↔ y ∈ s.part.media.spares ∧ y.use = .retired) ∧ x.integ.poison = [] ∧
      x.integ.tally = [] ∧ x.scrub.state = .idle ∧ x.md.settings = Settings.default ∧ x.md.scrubMark = false ∧
      x.md.changes = 0 ∧ x.md.committed = 0 ∧ x.md.current = none ∧ x.md.failures = 0 ∧ x.faults.total = 1 ∧
      (∃ r, x.faults.ring = [r] ∧ r.seq = 1 ∧ r.info = { kind := .metadataReset }) ∧ x.time = s.part.time ∧
      x.disk = s.part.disk ∧ x.lease = s.part.lease ∧ x.cmds = s.part.cmds ∧ x.md.device = .safe ∧
      x.md.resetImage = some { poison := [], remap := [], spares := x.media.spares, ring := x.faults.ring, total := 1,
                               settings := Settings.default, scrubMark := false, hours := s.part.time.hours } ∧
      x.media.spareLow = decide (256 - x.media.spares.length ≤ 16) ∧ x.sess = (s.part.arrived p).sess ∧
      x.links = (s.part.arrived p).links ∧
      (s.part.media.current = none → x.media.current = none) ∧
      ∀ op z, s.part.media.current = some { op := op, discard := z } →
        let ofBlock := (∃ r l, op = .portRead r l) ∨ (∃ i b l, op = .refreshRead i b l) ∨ (∃ b l, op = .scrubRead b l) ∨
          ∃ i b l d sp, op = .program i b l d sp
        (ofBlock → x.media.current = some { op := op, discard := true }) ∧
        (¬ ofBlock → x.media.current = some { op := op, discard := z }))

/-- R176: STATUS answers OK with the record of the state as it stands, field by field, and changes nothing else; the five frame
counts of the record sum to 128. -/
def Obligations.StatusReportsTheState : Prop :=
  (∀ (s : State) (p : Port) (t : Tag), s.part.accepts p t codeStatus →
    let x := s.part
    let l := x.lc p
    let frames := fun st : FrameState => x.sb.frames.countP fun f => decide (f.state = st)
    let written := fun w : Writer => x.sb.frames.countP fun f => decide (f.state ≠ .clean ∧ f.writer = some w)
    let r : StatusRec :=
      { device := x.md.device, ms := x.time.ms, hours := x.time.hours, free := 128 - x.sb.frames.length,
        filling := frames .filling, dirty := frames .dirty, programming := frames .programming, clean := frames .clean,
        refresh := written .refresh, attributed := written (.port p), quota := (x.session p).quota,
        session := (x.session p).number, leases := x.lease.table.length, waits := x.lease.waits.length,
        poison := x.integ.poison.length, remaps := x.media.remap.length, freeSpares := 256 - x.media.spares.length,
        refreshList := x.media.refresh.length, scrubState := x.scrub.state, scrubPending := x.scrub.pending,
        startedBy := x.scrub.startedBy, windowIndex := x.scrub.window, nextBlock := x.scrub.next,
        blockInCheck := x.scrub.inCheck, phase := x.scrub.phase, counts := x.scrub.counts, lastEnd := x.scrub.lastEnd,
        faultTotal := x.faults.total, generation := (match x.md.current with | some (_, g) => g | none => 0),
        pendingChanges := x.md.changes - x.md.committed, linkErrors := l.errors,
        notices := l.txq.countP (·.isNotice), lost := l.lost }
    exec (.status p t) s = .next (s.withPart (Part.follow s.part (s.part.answered p t codeStatus .ok (.status r)))) ∧
    s.part.statusOf p = r) ∧
  ∀ (x : Part) (p : Port), x.frameLaw →
    let r := x.statusOf p
    r.free + r.filling + r.dirty + r.programming + r.clean = 128

/-- R177: INFO answers OK with the values fixed for the part, whatever the state. -/
def Obligations.InfoIsFixed : Prop :=
  (∀ (s : State) (p : Port) (t : Tag), s.part.isHeld = false → (s.part.lc p).low = false →
    (s.part.lc p).responses < 32 → (s.part.session p).state = .opened → s.part.cmds.at? ⟨p, t⟩ = none →
    exec (.info p t) s = .next (s.withPart (Part.follow s.part (s.part.answered p t codeInfo .ok .info)))) ∧
  Result.info.bytes = le 2 0x0B7E ++ le 2 0x0416 ++ le 1 1 ++ le 1 4 ++ le 1 16 ++ le 1 16 ++ le 4 262144 ++ le 2 512 ++
    le 2 128 ++ le 1 96 ++ le 1 32 ++ le 1 32 ++ le 1 16 ++ le 2 512 ++ le 2 256 ++ le 2 256 ++ le 1 8 ++ le 1 4 ++
    le 1 32 ++ le 1 8 ++ le 2 250 ++ le 2 20 ++ le 2 10000 ++ le 2 10000 ++ le 2 60000

/-- R169: FAULT READ: INVALID out of range, else the counts and the records from the start age on, newest first; it changes no
record and no count. -/
def Obligations.FaultReadReturnsRecords : Prop :=
  ∀ (s : State) (p : Port) (t : Tag) (a n : BitVec 8), s.part.isHeld = false → (s.part.lc p).low = false →
    (s.part.lc p).responses < 32 → (s.part.session p).state = .opened → s.part.cmds.at? ⟨p, t⟩ = none →
    let answer := fun st r => exec (.faultRead p t a n) s =
      .next (s.withPart (Part.follow s.part (s.part.answered p t codeFaultRead st r)))
    (31 < a.toNat ∨ n.toNat = 0 ∨ 32 < n.toNat → answer .invalid .none) ∧
    (a.toNat ≤ 31 → 1 ≤ n.toNat → n.toNat ≤ 32 → ∃ rs : List FaultRec,
      answer .ok (.faultRead s.part.faults.total s.part.faults.ring.length rs) ∧
      rs.length = min n.toNat (s.part.faults.ring.length - a.toNat) ∧
      ∀ k < rs.length, rs[k]? = s.part.faults.ring[s.part.faults.ring.length - 1 - (a.toNat + k)]?)

/-- R155, R168: the append of a fault record, as one change. R171 to R173: a notice is produced for a port while its session
is OPEN; it enters the queue with the lost-notice count, which returns to 0, or with 8 notices queued it is discarded and
counted up to 65,535. -/
def Obligations.FaultRecordsAndNotices : Prop :=
  (∀ (s : Part) (i : FaultInfo),
    let total := if s.faults.total < 4294967295 then s.faults.total + 1 else s.faults.total
    let r : FaultRec := { seq := total, ms := s.time.ms, hours := s.time.hours, info := i }
    s.appendFault i = (s.withFaults
      { total := total, ring := (if s.faults.ring.length < 32 then s.faults.ring else s.faults.ring.tail) ++ [r] }).withMd
        { s.md with changes := s.md.changes + 1 }) ∧
  ∀ (s : Part) (p : Port) (b : Notice),
    let l := s.lc p
    let x := (s.putNotice p b).lc p
    (l.notices < 8 → x.txq = l.txq ++ [.notice l.lost s.time.ms b] ∧ x.lost = 0 ∧ x.notices = l.notices + 1) ∧
    (8 ≤ l.notices → x.txq = l.txq ∧ x.lost = min 65535 (l.lost + 1)) ∧
    (∀ q, q ≠ p → (s.putNotice p b).lc q = s.lc q) ∧
    ((s.session p).state = .opened → s.offerNotice p b = s.putNotice p b) ∧
    ((s.session p).state ≠ .opened → s.offerNotice p b = s)

/-! ### Data frames, receiving, sending (chapters 4 and 11) -/

/-- R77 to R81, R91: DATA-IN without a WRITE in FILLING is counted; a wrong index fails the WRITE; the expected block is taken
and arms an armed deadline again (before its GO has entered none is armed: R76, log 13); the last one makes the frames DIRTY and
completes the WRITE or, DURABLE, leaves it its wait set. KEEPALIVE arms the silence deadline. The model's choices in this: neither
arrives while the line is at 0 (log 17), a WRITE that fails discards its held GO (log 33), and one that ends by its last block keeps
it, with its completion behind it (log 12). -/
def Obligations.DataFramesAndKeepalive : Prop :=
  ∀ (s : State) (p : Port) (t : Tag) (idx : BitVec 8) (d : BlockData), s.part.isHeld = false →
    ((s.part.lc p).low = true → exec (.dataIn p t idx d) s = .next s ∧ exec (.keepalive p) s = .next s) ∧
    ((s.part.lc p).low = false →
      let a := s.part.arrived p
      let gives := fun y => exec (.dataIn p t idx d) s = .next (s.withPart (Part.follow s.part y))
      exec (.keepalive p) s = .next (s.withPart (Part.follow s.part a)) ∧
      ((∀ c ∈ s.part.cmds.recs, c.key = ⟨p, t⟩ → ¬ (c.code = codeWrite ∧ c.state = .filling)) →
        gives (a.setLc p { a.lc p with errors := (a.lc p).errors + 1 })) ∧
      ∀ c, s.part.cmds.at? ⟨p, t⟩ = some c → c.code = codeWrite → c.state = .filling →
        (idx.toNat ≠ c.next → gives ((a.endFilling c).finish c .dataSequence .none)) ∧
        (idx.toNat = c.next →
          let y := (a.setFrames (a.sb.frames.map fun f =>
            if f.state = .filling ∧ f.cmd = some ⟨p, t⟩ ∧ f.block = c.start + c.next then { f with data := some d }
            else f)).updCmd c.receipt fun x => { x with next := c.next + 1, deadline := c.deadline.map fun _ => s.part.time.ms + 250 }
          (c.next + 1 < c.count → gives y) ∧
          (c.count ≤ c.next + 1 →
            let z := y.dirtyFilled ⟨p, t⟩ c.start c.count
            (c.durable = false → gives ((z.updCmd c.receipt fun x =>
              { x with state := .sending, deadline := none, result := some (.ok, .write c.count 0) }).emitDecided)) ∧
            (c.durable = true → gives ((z.updCmd c.receipt fun x =>
              { x with state := .settling, deadline := none,
                       waitSet := z.writeSet ⟨p, t⟩ c.start c.count }).emitDecided)))))

/-- R179 to R181: bytes that arrive are examined from the present framing on; what the receiver finds is counted or taken as
its event, in order. R179: what each byte does: a delimiter opens a frame; a length of 0 or above 515 is discarded and hunted
again from its first length byte; a complete frame is checked, and after a bad CRC hunting begins again at the byte after its
delimiter, else after its CRC. R180: when a complete frame fails: its CRC; its kind, its length or its tag. -/
def Obligations.ReceivedBytesAreExamined : Prop :=
  (∀ (s : State) (p : Port) (bs : List Byte), s.part.isHeld = false → (s.part.lc p).low = false →
    let l := s.part.lc p
    let r := receive p (receiveBound l.framing bs) l.framing bs
    let y := r.1.foldl (Part.takeItem p) s.part
    exec (.badFrame p bs) s = .next (s.withPart (y.setLc p { y.lc p with framing := r.2 })) ∧
    ∀ n held b, l.framing = .body n held → bs = [b] → held.length + 1 = 2 + n + 4 →
      checkFrame p n (held ++ [b]) = .bad →
      exec (.badFrame p bs) s = .next (s.withPart
        (s.part.setLc p { l with framing := .hunt, errors := l.errors + 1 }))) ∧
  (∀ (x : Part) (p : Port), Part.takeItem p x .bad = x.setLc p { x.lc p with errors := (x.lc p).errors + 1 }) ∧
  (∀ (i : Instr) (x : Part) (p : Port) (cs : List Instr), (frameOf i).isSome = true →
    exec i { part := x, pending := cs } = .next { part := Part.takeItem p x (.valid i), pending := cs }) ∧
  (∀ (p : Port) (a b : Byte) (n : Nat) (held input : List Byte),
    let rx := fun (fr : Framing) (bs : List Byte) => receive p (receiveBound fr bs) fr bs
    let found := fun (i : RxItem) (r : List RxItem × Framing) => (i :: r.1, r.2)
    (∀ fr, rx fr [] = ([], fr)) ∧
    (b ≠ 0xA5#8 → rx .hunt (b :: input) = rx .hunt input) ∧
    rx .hunt (0xA5#8 :: input) = rx (.header []) input ∧
    rx (.header []) (b :: input) = rx (.header [b]) input ∧
    (let length := ofLe [a, b];
      (length = 0 ∨ 515 < length → rx (.header [a]) (b :: input) = found .bad (rx .hunt (a :: b :: input))) ∧
      (1 ≤ length → length ≤ 515 → rx (.header [a]) (b :: input) = rx (.body length [a, b]) input)) ∧
    (let frame := held ++ [b];
      (frame.length < 2 + n + 4 → rx (.body n held) (b :: input) = rx (.body n frame) input) ∧
      (2 + n + 4 ≤ frame.length →
        (checkFrame p n frame = .badCrc → rx (.body n held) (b :: input) = found .bad (rx .hunt (frame ++ input))) ∧
        (checkFrame p n frame = .bad → rx (.body n held) (b :: input) = found .bad (rx .hunt input)) ∧
        ∀ i, checkFrame p n frame = .valid i → rx (.body n held) (b :: input) = found (.valid i) (rx .hunt input)))) ∧
  ∀ (p : Port) (a b kind : Byte) (rest crc : List Byte), crc.length = 4 →
    let n := 1 + rest.length
    let covered := a :: b :: kind :: rest
    let right := ofLe crc = (crc32 covered).toNat
    let fails := kind ∉ [0x01#8, 0x02#8, 0x03#8] ∨ (kind = 0x03#8 ∧ n ≠ 1) ∨ (kind = 0x02#8 ∧ n ≠ 515) ∨
      (kind = 0x01#8 ∧ (n < 3 ∨ ∃ size, requestSize (rest.getD 1 0) = some size ∧ n ≠ 3 + size)) ∨
      (kind ≠ 0x03#8 ∧ 16 ≤ (rest.getD 0 0).toNat)
    (checkFrame p n (covered ++ crc) = .badCrc ↔ ¬ right) ∧ (checkFrame p n (covered ++ crc) = .bad ↔ right ∧ fails)

/-- R178, R179, R184, R185, R100: what the events of a port's pins do to its link controller: the character error, the return
of PnRXD, the delimiter, the break and its end, and the edges of PnRDY. That a character error on a line at 0 changes nothing is
the model's choice (log 17, with log 2); while the part is held only the level of PnRDY is kept (logs 4, 9). -/
def Obligations.LinkPinEvents : Prop :=
  ∀ (s : State) (p : Port),
    let l := s.part.lc p
    let gives := fun (i : Instr) (x : Lc) => exec i s = .next (s.withPart (Part.follow s.part (s.part.setLc p x)))
    (s.part.isHeld = false →
      (l.low = false → gives (.characterError p) { l with charErr := some (decide (l.framing ≠ .hunt)), framing := .hunt }) ∧
      (l.low = true → exec (.characterError p) s = .next s) ∧
      (l.charErr = some true → gives (.pnrxdReturns p) { l with charErr := none, errors := l.errors + 1 }) ∧
      (l.charErr = some false → gives (.pnrxdReturns p) { l with charErr := none }) ∧
      (l.low = false → l.framing = .hunt → gives (.delimiterReceived p) { l with framing := .header [] }) ∧
      (l.breakHeld = true → gives (.breakEnd p)
        { l with breakHeld := false, framing := .hunt, sending := l.sending || (l.rdy && !l.txq.isEmpty) }) ∧
      (l.breakHeld = false →
        let y := s.part.setLc p
          { framing := .hunt, charErr := none, breakHeld := true, rdy := l.rdy, errors := l.errors, txq := [],
            sending := false, held := [], lost := 0 }
        let z := if (s.part.session p).state = .opened ∨ (s.part.session p).state = .closing then
          y.abruptEnd p .portLapsed none else y
        exec (.linkReset p) s = .next (s.withPart (Part.follow (s.part.withLinks z.links) z)))) ∧
    exec (.pnrdyFall p) s = .next (s.withPart (s.part.setLc p { l with rdy := false })) ∧
    (s.part.isHeld = false → exec (.pnrdyRise p) s = .next (s.withPart (s.part.setLc p
      { l with rdy := true, sending := l.sending || (!l.breakHeld && !l.txq.isEmpty) })))

/-- R183, R184, R76, R69: the end of sending takes the frame out of the queue, lets held frames enter and begins the next
frame; a held frame enters while fewer than 32 response frames are queued; what the entry of a GO or a DATA-OUT does.
What these put into the queue stands as they put it, and the follow-ups' completions after it. -/
def Obligations.SendingAndHeldFrames : Prop :=
  (∀ (s : State) (p : Port), s.part.isHeld = false →
    let l := s.part.lc p
    let after := fun z : Part => Part.follow (s.part.withLinks z.links) z
    (l.sending = true →
      let y := (s.part.setLc p { l with txq := l.txq.tail, sending := false }).enterAll p
      let z := y.setLc p
        { y.lc p with
          sending := (y.lc p).sending || ((y.lc p).rdy && !(y.lc p).breakHeld && !(y.lc p).txq.isEmpty) }
      exec (.finishSending p) s = .next (s.withPart (after z)) ∧
      (l.held = [] → exec (.finishSending p) s = .next (s.withPart (after (s.part.setLc p
        { l with txq := l.txq.tail, sending := l.rdy && !l.breakHeld && !l.txq.tail.isEmpty }))))) ∧
    exec (.heldFrameEntry p) s = .next (s.withPart (after (s.part.enterAll p))) ∧
    ∀ t n c, l.held = [{ frame := .go t n }] → l.responses < 32 → s.part.cmds.at? ⟨p, t⟩ = some c → c.state = .filling →
      exec (.heldFrameEntry p) s = .next (s.withPart (after ((s.part.setLc p
        { l with txq := l.txq ++ [.go t n], sending := l.sending || (l.rdy && !l.breakHeld), held := [] }).updCmd c.receipt
          fun c => { c with deadline := some (s.part.time.ms + 250) })))) ∧
  ∀ (x : Part) (p : Port),
    let l := x.lc p
    (l.held = [] ∨ 32 ≤ l.responses → x.enterAll p = x) ∧
    (∀ h hs, l.held = h :: hs → l.responses < 32 → x.enterAll p = Part.enterHeld 32 p ((x.setLc p
      { l with txq := l.txq ++ [h.frame], sending := l.sending || (l.rdy && !l.breakHeld), held := hs }).heldEntered p h)) ∧
    (∀ t i d c, x.cmds.at? ⟨p, t⟩ = some c → x.heldEntered p { frame := .dataOut t i d } =
      (x.updCmd c.receipt fun c => { c with dataPending := none }).runRead c.receipt) ∧
    ∀ t i d g c, x.cmds.at? ⟨p, t⟩ = some c → c.state = .sending →
      x.heldEntered p { frame := .dataOut t i d, behind := some g } = (x.setLc p
        { l with txq := l.txq ++ [g], sending := l.sending || (l.rdy && !l.breakHeld) }).dropCmd c.receipt

/-! ### Deadlines and time -/

/-- R36, R37, R80, R92, R154: a deadline that has been reached: the abrupt end of a silent session, the end of a WRITE that
waits for data, the removal of a lease and its notice, the end of a wait; and the hour count, as one change with the
auto-scrub test. The model's choices in this: the wrap of the hours at 32 bits (log 16), the count of the hours already
taken (log 3), and the held GO of a WRITE that ends so, discarded (log 33). -/
def Obligations.ReachedDeadlines : Prop :=
  ∀ (s : State), s.part.isHeld = false →
    let x := s.part
    let gives := fun (i : Instr) (y : Part) => exec i s = .next (s.withPart (Part.follow s.part y))
    (∀ p d, (x.session p).state = .opened ∨ (x.session p).state = .closing → (x.session p).deadline = some d →
      d ≤ x.time.ms → gives (.silenceExpiry p) (x.abruptEnd p .portLapsed none)) ∧
    (∀ p t c d, x.cmds.at? ⟨p, t⟩ = some c → c.state = .filling → c.deadline = some d → d ≤ x.time.ms →
      gives (.dataDeadlineExpiry p t) ((x.endFilling c).finish c .dataTimeout .none) ∧
      x.endFilling c = (x.setFrames (x.sb.frames.filter fun f => !(decide (f.state = .filling) && decide (f.cmd = some c.key)))).setLc
        c.key.port { x.lc c.key.port with
          held := (x.lc c.key.port).held.filter fun h => !(h.frame.isGo && decide (h.frame.tag = some c.key.tag)) }) ∧
    (∀ id l, (x.lease.table.find? fun l => decide (l.id = id)) = some l → l.deadline ≤ x.time.ms →
      gives (.leaseDeadlineExpiry id) ((x.withLease
        { x.lease with table := x.lease.table.filter fun m => decide (m.id ≠ id) }).offerNotice l.holder
          (.leaseLapsed id l.start l.len l.mode l.deadline))) ∧
    (∀ p t w c, (x.lease.waits.find? fun w => decide (w.key = ⟨p, t⟩)) = some w → w.deadline ≤ x.time.ms →
      x.cmds.at? ⟨p, t⟩ = some c → gives (.waitDeadlineExpiry p t) ((x.withLease
        { x.lease with waits := x.lease.waits.filter fun w => decide (w.key ≠ ⟨p, t⟩) }).finish c .leaseWaitExpired .none)) ∧
    (x.time.hourDone < x.time.ms / 3600000 → gives .lifetimeHoursIncrement (((x.withTime
      { x.time with hours := (x.time.hours + 1) % 4294967296, hourDone := x.time.hourDone + 1 }).withMd
        { x.md with changes := x.md.changes + 1 }).autoScrub))

/-! ### Steps of the blocks inside other events (log 1) -/

/-- R35, R27, R32: the wait list is scanned in list order; an entry that nothing stands against is granted, and its command
completes OK. R29: what stands against it: a held lease, a WRITE in FILLING, an entry passed over; or a full lease table. -/
def Obligations.WaitListScanGrants : Prop :=
  (∀ s : State, s.part.isHeld = false →
    (s.part.md.device = .ready → exec .waitListGrant s =
      .next (s.withPart (Part.follow s.part (Part.scanWaits [] s.part.lease.waits s.part)))) ∧
    (s.part.md.device ≠ .ready → exec .waitListGrant s = .next (s.withPart (Part.follow s.part s.part)))) ∧
  ∀ (x : Part) (ahead ws : List Wait) (w : Wait),
    let stands := (∃ l ∈ x.lease.table, overlaps l.start l.len w.start w.len = true ∧
        (l.holder = w.key.port ∨ l.mode = .exclusive ∨ w.mode = .exclusive)) ∨
      (∃ f ∈ x.sb.frames, ∃ q, f.state = .filling ∧ f.writer = some (.port q) ∧ w.start ≤ f.block ∧
        f.block < w.start + w.len ∧ (w.mode = .shared ∨ q ≠ w.key.port)) ∨
      (∃ v ∈ ahead, overlaps v.start v.len w.start w.len = true ∧ (v.mode = .exclusive ∨ w.mode = .exclusive)) ∨
      32 ≤ x.lease.table.length
    Part.scanWaits ahead [] x = x ∧
    (stands → Part.scanWaits ahead (w :: ws) x = Part.scanWaits (ahead ++ [w]) ws x) ∧
    ∀ c, ¬ stands → x.cmds.at? w.key = some c →
      let id := freeLeaseId x.lease.table 33 x.lease.nextId
      let l : Lease :=
        { id := id, holder := w.key.port, session := (x.session w.key.port).number, start := w.start, len := w.len,
          mode := w.mode, deadline := x.time.ms + 10 * w.duration, granted := x.time.ms }
      Part.scanWaits ahead (w :: ws) x = Part.scanWaits ahead ws
        ((x.withLease { table := x.lease.table ++ [l], waits := x.lease.waits.filter (fun v => decide (v ≠ w)),
                        nextId := if id = 0xFFFF then 1 else id + 1 }).finish c .ok
          (.leaseAcquire id x.time.ms (x.time.ms + 10 * w.duration)))

/-- R54 to R58, R76: the admission scan, first over a queue of one entry: it waits for quota, fails on rights or on the poison map,
stops for frames, or is admitted: a WRITE goes to FILLING with its frames and sends its GO, a MARK makes its frames DIRTY.
Without READY no scan is made. The same entry by entry: a skipped entry holds back a later overlapping one of its port, the scan goes
on after a skip, a failure and an admission and ends at a stop, and a MARK that lowers another port's attribution brings one scan
more. -/
def Obligations.AdmissionOfOneEntry : Prop :=
  (∀ (s : State) (k : Key) (c : Cmd), s.part.isHeld = false →
    (s.part.md.device ≠ .ready → exec .admission s = .next (s.withPart (Part.follow s.part s.part))) ∧
    (s.part.md.device = .ready → s.part.cmds.queue = [k] → s.part.cmds.at? k = some c → c.key = k →
      let x := s.part.withCmds { s.part.cmds with stop := none }
      let gives := fun y => exec .admission s = .next (s.withPart (Part.follow s.part y))
      let full := c.code = codeMark ∧ 512 < x.integ.poison.length + x.sb.markFrames + c.count
      ((x.session k.port).quota < x.sb.attr (.port k.port) + c.count → gives x) ∧
      (x.sb.attr (.port k.port) + c.count ≤ (x.session k.port).quota →
        (∀ st, x.rightsQuery k.port c.start c.count = some st → gives ((x.dequeue k).finish c st .none)) ∧
        (x.rightsQuery k.port c.start c.count = none → full → gives ((x.dequeue k).finish c .poisonMapFull .none)) ∧
        (x.rightsQuery k.port c.start c.count = none → ¬ full →
          (x.sb.available < c.count → gives (x.withCmds { x.cmds with stop := some k })) ∧
          (c.count ≤ x.sb.available →
            let taken := (x.sb.freeIdx ++ x.sb.clean).take c.count
            let y := (x.withCmds { x.cmds with queue := [] }).reclaim taken
            (c.code ≠ codeMark → (x.lc k.port).responses < 32 →
              gives ((((y.fillFrames k c.start taken).updCmd c.receipt fun c =>
                { c with state := .filling, next := 0 }).setLc k.port ((x.lc k.port).push (.go k.tag c.count))).updCmd
                  c.receipt fun c => { c with deadline := some (x.time.ms + 250) })) ∧
            (c.code ≠ codeMark → 32 ≤ (x.lc k.port).responses →
              gives (((y.fillFrames k c.start taken).updCmd c.receipt fun c =>
                { c with state := .filling, next := 0 }).setLc k.port
                  { x.lc k.port with held := (x.lc k.port).held ++ [{ frame := .go k.tag c.count }] })) ∧
            (c.code = codeMark →
              let z := y.markFrames k c.kind c.start taken
              gives (((z.withInteg { z.integ with tally := z.integ.tally ++
                [{ key := k, blocks := c.count, frames := z.markList c.start c.count, superseded := 0 }] }).updCmd c.receipt
                  fun c => { c with state := .settling }).emitDecided))))))) ∧
  (∀ (x : Part) (skipped : List Cmd) (lowered : Bool) (k : Key) (ks : List Key),
    let on := fun (sk : List Cmd) (lo : Bool) (y : Part) => Part.scanQueue sk lo ks y
    Part.scanQueue skipped lowered [] x = (x, lowered) ∧
    (x.cmds.at? k = none → Part.scanQueue skipped lowered (k :: ks) x = on skipped lowered x) ∧
    ∀ c, x.cmds.at? k = some c → c.key = k →
      let gives := fun r => Part.scanQueue skipped lowered (k :: ks) x = r
      let skip := (x.session k.port).quota < x.sb.attr (.port k.port) + c.count ∨
        ∃ d ∈ skipped, d.key.port = k.port ∧ overlaps d.start d.count c.start c.count = true
      let full := c.code = codeMark ∧ 512 < x.integ.poison.length + x.sb.markFrames + c.count
      (skip → gives (on (skipped ++ [c]) lowered x)) ∧
      (¬ skip →
        (∀ st, x.rightsQuery k.port c.start c.count = some st → gives (on skipped lowered ((x.dequeue k).finish c st .none))) ∧
        (x.rightsQuery k.port c.start c.count = none → full →
          gives (on skipped lowered ((x.dequeue k).finish c .poisonMapFull .none))) ∧
        (x.rightsQuery k.port c.start c.count = none → ¬ full →
          (x.sb.available < c.count → gives (x.withCmds { x.cmds with stop := some k }, lowered)) ∧
          (c.count ≤ x.sb.available →
            let taken := (x.sb.freeIdx ++ x.sb.clean).take c.count
            let y := (x.dequeue k).reclaim taken
            (c.code ≠ codeMark → gives (on skipped lowered (((y.fillFrames k c.start taken).updCmd c.receipt fun c =>
              { c with state := .filling, next := 0 }).sendGo c))) ∧
            (c.code = codeMark →
              let z := y.markFrames k c.kind c.start taken
              let m := ((z.withInteg { z.integ with tally := z.integ.tally ++
                [{ key := k, blocks := c.count, frames := z.markList c.start c.count, superseded := 0 }] }).updCmd c.receipt
                  fun c => { c with state := .settling }).emitDecided
              gives (on skipped (lowered || [Port.p0, .p1, .p2, .p3].any fun p =>
                decide (m.sb.attr (.port p) < x.sb.attr (.port p))) m)))))) ∧
  (∀ (x : Part) (c : Cmd),
    let l := x.lc c.key.port
    (l.responses < 32 → x.sendGo c = (x.setLc c.key.port (l.push (.go c.key.tag c.count))).updCmd c.receipt fun c =>
      { c with deadline := some (x.time.ms + 250) }) ∧
    (32 ≤ l.responses →
      x.sendGo c = x.setLc c.key.port { l with held := l.held ++ [{ frame := .go c.key.tag c.count }] })) ∧
  ∀ (x : Part) (n : Nat),
    (x.md.device ≠ .ready → x.admission = x) ∧
    (x.md.device = .ready → x.admission = Part.admitScans (x.cmds.queue.length + 1) x) ∧
    let r := Part.scanQueue [] false x.cmds.queue (x.withCmds { x.cmds with stop := none })
    Part.admitScans (n + 1) x = if r.2 then Part.admitScans n r.1 else r.1

/-- R60, R96, R97, R99, R43: the release of a READ whose hold set has emptied, the end of a CLOSE's drain, and the end of
DRAINING. The wait list scan that the removal of leases calls for is among the follow-ups. -/
def Obligations.HeldReadsAndDrains : Prop :=
  ∀ (s : State) (c : Cmd) (p : Port), s.part.isHeld = false →
    let x := s.part
    (x.cmds.recs = [c] → c.state = .held → exec .heldReadRelease s = .next (s.withPart (Part.follow s.part
      ((x.setRecs [{ c with state := .reading, holdSet := [] }]).runRead c.receipt)))) ∧
    (x.cmds.byReceipt c.receipt = some c → c.state = .held →
      let still := c.holdSet.filter fun r => (x.cmds.byReceipt r).any fun d =>
        decide (d.state = .queued ∨ d.state = .filling)
      (still ≠ [] → x.releaseOne c.receipt = x.updCmd c.receipt fun c => { c with holdSet := still }) ∧
      (still = [] → x.releaseOne c.receipt =
        (x.updCmd c.receipt fun c => { c with state := .reading, holdSet := [] }).runRead c.receipt)) ∧
    ((x.session p).state = .closing → (x.cmds.recs.filter fun d => decide (d.key.port = p)) = [c] → c.code = codeClose →
      exec (.closeDrainEnd p) s = .next (s.withPart (Part.follow s.part
        (((x.withLease { x.lease with table := x.lease.table.filter fun l => decide (l.holder ≠ p) }).setSession p
          { x.session p with state := .closed, deadline := none }).finish c .ok .none)))) ∧
    ((x.session p).state = .draining → (∀ d ∈ x.cmds.recs, d.key.port ≠ p) →
      exec (.drainingEnd p) s = .next (s.withPart (Part.follow s.part
        (x.setSession p { x.session p with state := .closed }))))

/-- R142 to R146, R122: the scrub engine's retry of an offer, the beginning of a pass with the completion of its SCRUB START,
the automatic start, how the engine takes its next block, which block that is, and when none remains (the field then: log 15); and
the start of refreshes, one after another, the oldest of origin READ before those of origin SCRUB. -/
def Obligations.ScrubAndRefreshSteps : Prop :=
  (∀ s : State, s.part.isHeld = false →
    let x := s.part
    let gives := fun (i : Instr) (y : Part) => exec i s = .next (s.withPart (Part.follow s.part y))
    (∀ b, x.scrub.phase = .waitingRoom → x.scrub.inCheck = some b →
      ((∃ e ∈ x.media.refresh, e.block = b) → gives .scrubRoomRetry x.checkEnded) ∧
      ((∀ e ∈ x.media.refresh, e.block ≠ b) → x.media.refresh.length < 8 → gives .scrubRoomRetry
        (x.withMedia { x.media with refresh := x.media.refresh ++ [{ block := b, origin := .scrub }] }).checkEnded) ∧
      ((∀ e ∈ x.media.refresh, e.block ≠ b) → 8 ≤ x.media.refresh.length → gives .scrubRoomRetry x)) ∧
    (x.scrub.state = .running → x.scrub.pending = true → x.scrub.change ≤ x.md.committed →
      gives .scrubPassBegin ((((x.setRecs (x.cmds.recs.map fun c =>
        if c.code = codeScrubStart ∧ c.state = .settling ∧ c.change ≤ x.md.committed then
          { c with state := .sending, result := some (.ok, .none) } else c)).emitDecided).withScrub
            { x.scrub with pending := false }).scrubNext)) ∧
    (∀ j w, x.md.device = .ready → x.md.settings.period ≠ 0 → x.scrub.autoRef + x.md.settings.period ≤ x.time.hours →
      x.scrub.state = .idle → x.md.settings.enabledFrom 0 = some j → x.md.settings.window j = some w →
      gives .autoScrubStart ((x.withMd { x.md with scrubMark := true, changes := x.md.changes + 1 }).withScrub
        { state := .running, startedBy := some .auto, pending := true, window := j, next := w.first, inCheck := none,
          phase := .absent, counts := {}, lastEnd := .none, change := x.md.changes + 1, autoRef := x.scrub.autoRef })) ∧
    (∀ e i, x.media.refresh = [e] → e.started = none → x.md.device = .ready → x.sb.attr .refresh < 8 →
      1 ≤ x.sb.available → x.stopped = false → (x.sb.freeIdx ++ x.sb.clean).head? = some i →
      let settled := (∃ f ∈ x.sb.frames, f.state ≠ .clean ∧ (∃ p, f.writer = some (.port p)) ∧ f.block = e.block) ∨
        ∃ q ∈ x.integ.poison, q.block = e.block
      (settled → gives .refreshStart (x.withMedia { x.media with refresh := [] })) ∧
      (¬ settled →
        let y := (x.reclaim [i]).listFrame
          { idx := i, state := .filling, block := e.block, writer := some .refresh, cmd := none, content := .data,
            seq := none, data := none }
        gives .refreshStart (y.withMedia { y.media with
          refresh := [{ e with started := some i }],
          refreshReads := y.media.refreshReads ++ [{ frame := i, block := e.block }] })))) ∧
  (∀ (x : Part) (n : Nat),
    let may := x.md.device = .ready ∧ x.sb.attr .refresh < 8 ∧ 1 ≤ x.sb.available ∧ x.stopped = false
    let waiting := x.media.refresh.filter fun e => e.started.isNone
    let first := if waiting.any fun e => decide (e.origin = .read) then waiting.find? fun e => decide (e.origin = .read)
      else waiting.head?
    (x.stopped = true ↔ ∃ k ∈ x.cmds.queue, x.cmds.stop = some k) ∧
    x.refreshTry = Part.startRefreshes (x.media.refresh.length + 1) x ∧ x.startRefreshes 0 = x ∧
    (¬ may ∨ waiting = [] → x.startRefreshes n = x) ∧
    ∀ e, may → first = some e →
      let settled := (∃ f ∈ x.sb.frames, f.state ≠ .clean ∧ (∃ p, f.writer = some (.port p)) ∧ f.block = e.block) ∨
        ∃ q ∈ x.integ.poison, q.block = e.block
      (settled → x.startRefreshes (n + 1) = Part.startRefreshes n
        (x.withMedia { x.media with refresh := x.media.refresh.filter fun g => decide (g.block ≠ e.block) })) ∧
      ∀ i, ¬ settled → (x.sb.freeIdx ++ x.sb.clean).head? = some i →
        let y := (x.reclaim [i]).listFrame
          { idx := i, state := .filling, block := e.block, writer := some .refresh, cmd := none, content := .data,
            seq := none, data := none }
        x.startRefreshes (n + 1) = Part.startRefreshes n (y.withMedia { y.media with
          refresh := x.media.refresh.map fun g => if g.block = e.block then { g with started := some i } else g
          refreshReads := x.media.refreshReads ++ [{ frame := i, block := e.block }] })) ∧
  (∀ (x : Scrub) (st : Settings) (b i : Nat),
    let at' := fun j => if j = 0 then some st.w0 else if j = 1 then some st.w1 else if j = 2 then some st.w2
      else if j = 3 then some st.w3 else none
    st.window i = at' i ∧
    (∀ j, st.enabledFrom i = some j ↔ i ≤ j ∧ (∃ w, at' j = some w ∧ w.enabled = true) ∧
      ∀ k, i ≤ k → k < j → ∀ w, at' k = some w → w.enabled = false) ∧
    (st.enabledFrom i = none ↔ ∀ k, i ≤ k → ∀ w, at' k = some w → w.enabled = false) ∧
    (x.remains st = true ↔ ∃ w, at' x.window = some w ∧ x.next ≤ w.last) ∧
    (∀ w, at' x.window = some w →
      (b < w.last → x.advance st b = { x with next := b + 1 }) ∧
      (w.last ≤ b → ∀ j v, st.enabledFrom (x.window + 1) = some j → at' j = some v →
        x.advance st b = { x with window := j, next := v.first }) ∧
      (w.last ≤ b → st.enabledFrom (x.window + 1) = none → x.advance st b = { x with next := b + 1 }))) ∧
  ∀ (x : Part) (n : Nat),
    let b := x.scrub.next
    let y := x.scrub.advance x.md.settings b
    let skip := (∃ f ∈ x.sb.frames, f.state ≠ .clean ∧ f.block = b) ∨ ∃ q ∈ x.integ.poison, q.block = b
    (x.scrub.remains x.md.settings = false → x.takeScrub (n + 1) = x.endPass .completed) ∧
    (x.scrub.remains x.md.settings = true → skip → x.takeScrub (n + 1) =
      (x.withScrub { y with counts := { y.counts with skipped := y.counts.skipped + 1 } }).takeScrub n) ∧
    (x.scrub.remains x.md.settings = true → ¬ skip → x.takeScrub (n + 1) =
      (x.withScrub { y with inCheck := some b, phase := .requested }).withMedia { x.media with scrubReq := some b }) ∧
    (x.scrub.state = .stopping → x.checkEnded =
      (x.withScrub { x.scrub with inCheck := none, phase := .absent }).endPass .stopped) ∧
    (x.scrub.state ≠ .stopping → x.checkEnded =
      (x.withScrub { x.scrub with inCheck := none, phase := .absent }).scrubNext)

/-- R21, R82, R86, R117, R134, R164: the steps that complete a command: a commit wait entry whose change is committed reports
its outcome; a wait set with no PENDING entry, a MARK whose tally is empty and a SETTINGS WRITE whose change is committed give
their completions. The same for all records and entries at once, whose completions stand in order of receipt (R61). -/
def Obligations.CompletionSteps : Prop :=
  ∀ (s : State) (c : Cmd), s.part.isHeld = false →
    let x := s.part
    let gives := fun (i : Instr) (y : Part) => exec i s = .next (s.withPart (Part.follow s.part y))
    let sent := fun (y : Part) (st : Status) (r : Result) =>
      (y.sendCompletion c.key.port c.key.tag c.code st r).setRecs []
    (∀ w, x.media.commitWait = [w] → w.change ≤ x.md.committed → gives .commitWaitRelease
      ((x.withMedia { x.media with commitWait := [] }).outcome w.frame w.outcome)) ∧
    (x.cmds.recs = [c] → c.state = .settling → (∀ h ∈ (x.lc c.key.port).held, h.frame.tag ≠ some c.key.tag) →
      (c.waitSet ≠ [] → (∀ e ∈ c.waitSet, e.res ≠ .pending) → c.result = none →
        let lost := c.waitSet.countP fun e => decide (e.res = .lost)
        ((x.session c.key.port).state = .draining → gives .waitSetComplete (x.setRecs [])) ∧
        ((x.session c.key.port).state ≠ .draining → c.code = codeFlush → gives .waitSetComplete
          (sent x (if lost = 0 then .ok else .flushIncomplete) (.flush c.waitSet.length lost))) ∧
        ((x.session c.key.port).state ≠ .draining → c.code = codeWrite → gives .waitSetComplete
          (sent x (if lost = 0 then .ok else .dataLost) (.write c.count lost)))) ∧
      (∀ m, x.integ.tally = [m] → m.frames = [] → m.key = c.key → c.code = codeMark → gives .markComplete
        (sent (x.withInteg { x.integ with tally := [] }) .ok (.mark m.blocks m.superseded))) ∧
      (c.code = codeSettingsWrite → c.change ≤ x.md.committed → gives .settingsWriteComplete (sent x .ok .none))) ∧
    gives .commitWaitRelease ((x.media.commitWait.filter fun w => decide (w.change ≤ x.md.committed)).foldl
      (fun z w => z.outcome w.frame w.outcome) (x.withMedia
        { x.media with commitWait := x.media.commitWait.filter fun w => decide (x.md.committed < w.change) })) ∧
    gives .waitSetComplete x.setsDone.emitDecided ∧ gives .markComplete x.tallyDone.emitDecided ∧
    gives .settingsWriteComplete (x.setRecs (x.cmds.recs.map fun c =>
      if c.code = codeSettingsWrite ∧ c.state = .settling ∧ c.change ≤ x.md.committed then
        { c with state := .sending, result := some (.ok, .none) } else c)).emitDecided ∧
    x.setsDone = x.setRecs (x.cmds.recs.filterMap fun c =>
      let lost := c.waitSet.countP fun e => decide (e.res = .lost)
      if c.state = .settling ∧ c.waitSet ≠ [] ∧ ∀ e ∈ c.waitSet, e.res ≠ .pending then
        if (x.session c.key.port).state = .draining then none
        else some { c with state := .sending, result := some (if c.code = codeFlush then
          (if lost = 0 then .ok else .flushIncomplete, .flush c.waitSet.length lost) else
          (if lost = 0 then .ok else .dataLost, .write c.count lost)) }
      else some c) ∧
    x.tallyDone = (x.withInteg { x.integ with tally := x.integ.tally.filter fun m => decide (m.frames ≠ []) }).setRecs
      (x.cmds.recs.map fun c => match x.integ.tally.find? fun m => decide (m.frames = [] ∧ m.key = c.key) with
        | some m => if c.code = codeMark ∧ c.state = .settling then
            { c with state := .sending, result := some (.ok, .mark m.blocks m.superseded) } else c
        | none => c)

/-! ### Staging and the poison map (chapters 1 and 7) -/

/-- R8: the device sequence counter and the comparison of sequence numbers, whole. R9: a frame that becomes DIRTY; an older
DIRTY frame of its block gives it its place in the program queue and goes to FREE, and so does a CLEAN one. R20: an outcome
resolves a PENDING entry of its block whose number is at most its own, in the wait set of every record, and completes the sets that
are done (R21). R13: where the PROGRAMMING frame of an outcome goes; a frame in another state has none. R18, R134: a MARK frame that
is superseded, or freed by its OK outcome, leaves its tally entry. R4, R6, R19, R134: the frames of a WRITE and of a MARK in ascending
block order, the wait set of a DURABLE WRITE, and the frame list of a MARK. -/
def Obligations.StagingFramesMove : Prop :=
  (∀ a b : BitVec 32, (seqGe a b = true ↔ (a - b).toNat < 2147483648) ∧ (seqGt a b = true ↔ seqGe a b = true ∧ a ≠ b)) ∧
  State.reset.part.sb.seq = 0 ∧ (∀ x : Part, x.startUp.sb.seq = 0 ∧ x.metadataResetEffect.sb.seq = x.sb.seq) ∧
  (∀ (s : Part) (f : Frame),
    let q : BitVec 32 := if s.sb.seq = 0xFFFFFFFF then 1 else s.sb.seq + 1
    let old := s.sb.inState .dirty f.block
    let t := s.stageDirty f
    t.sb.seq = q ∧ { f with state := .dirty, seq := some q } ∈ t.sb.frames ∧
    (old = none → t.sb.progQ = s.sb.progQ ++ [f.idx]) ∧
    (∀ g, old = some g → t.sb.progQ = s.sb.progQ.map (fun i => if i = g.idx then f.idx else i) ∧
      (g.idx ≠ f.idx → ∀ h ∈ t.sb.frames, h.idx ≠ g.idx)) ∧
    (∀ g, s.sb.inState .clean f.block = some g → g.idx ∉ t.sb.clean ∧ (g.idx ≠ f.idx → ∀ h ∈ t.sb.frames, h.idx ≠ g.idx)) ∧
    (∀ g ∈ s.sb.frames, g.idx ≠ f.idx → (∀ h, old = some h → h.idx ≠ g.idx) →
      (∀ h, s.sb.inState .clean f.block = some h → h.idx ≠ g.idx) → g ∈ t.sb.frames)) ∧
  (∀ (e : SetEntry) (b : Nat) (q : BitVec 32) (o : ProgOutcome),
    (e.res = .pending → e.block = b → (q - e.seq).toNat < 2147483648 →
      e.resolve b q o = { e with res := match o with | .ok => .ok | .lost => .lost }) ∧
    (¬ (e.res = .pending ∧ e.block = b ∧ (q - e.seq).toNat < 2147483648) → e.resolve b q o = e)) ∧
  (∀ (s : Part) (f : Frame), s.stageDirty f = (match s.sb.inState .dirty f.block with
    | some g => (s.withSb (s.stageDirty f).sb).tallyReport g true
    | none => s.withSb (s.stageDirty f).sb)) ∧
  (∀ (s : Part) (f : Frame) (b : Bool), (f.content = .data → s.tallyReport f b = s) ∧
    ∀ m k q, f.content = .mark m → f.cmd = some k → f.seq = some q → s.tallyReport f b =
      Part.tallyDone (s.withInteg { s.integ with tally := s.integ.tally.map fun e =>
        if e.key = k ∧ (f.block, q) ∈ e.frames then
          { e with frames := e.frames.filter fun x => decide (x ≠ (f.block, q)),
                   superseded := e.superseded + (if b then 1 else 0) }
        else e })) ∧
  (∀ (s : Part) (k : Key) (m : MarkKind) (b n i : Nat) (is : List Nat),
    s.fillFrames k b [] = s ∧ s.markFrames k m b [] = s ∧ s.dirtyFilled k b 0 = s ∧ s.writeSet k b 0 = [] ∧
      s.markList b 0 = [] ∧
    s.fillFrames k b (i :: is) = (s.listFrame
      { idx := i, state := .filling, block := b, writer := some (.port k.port), cmd := some k, content := .data, seq := none,
        data := none }).fillFrames k (b + 1) is ∧
    s.markFrames k m b (i :: is) = (s.stageDirty
      { idx := i, state := .dirty, block := b, writer := some (.port k.port), cmd := some k, content := .mark m, seq := none,
        data := none }).markFrames k m (b + 1) is ∧
    (∀ f, (s.sb.frames.find? fun g => decide (g.state = .filling ∧ g.cmd = some k ∧ g.block = b)) = some f →
      s.dirtyFilled k b (n + 1) = (s.stageDirty f).dirtyFilled k (b + 1) n) ∧
    ∀ f q, s.sb.inState .dirty b = some f → f.seq = some q →
      s.writeSet k b (n + 1) = { block := b, seq := q } :: s.writeSet k (b + 1) n ∧
      s.markList b (n + 1) = (b, q) :: s.markList (b + 1) n) ∧
  (∀ (s : Part) (f : Frame), ∃ fs, s.listFrame f = s.withSb { s.sb with frames := fs } ∧ f ∈ fs ∧
    (∀ g ∈ fs, g = f ∨ g ∈ s.sb.frames) ∧ ∀ g ∈ s.sb.frames, g.idx ≠ f.idx → g ∈ fs) ∧
  ∀ (s : Part) (f : Frame) (o : ProgOutcome), s.sb.at? f.idx = some f →
    let t := s.outcome f.idx o
    (f.state = .programming →
      let kept := o = .ok ∧ f.content = .data ∧ s.sb.inState .dirty f.block = none
      let moved := if kept then (s.listFrame { f with state := .clean, writer := none, cmd := none }) else
        s.withSb { s.sb with frames := s.sb.frames.filter fun g => decide (g.idx ≠ f.idx) }
      let moved := if kept then moved.withSb { moved.sb with clean := s.sb.clean ++ [f.idx] } else moved
      let told := if o = .ok then moved.tallyReport f false else moved
      t = (told.setRecs (told.cmds.recs.map fun c =>
        { c with waitSet := c.waitSet.map fun e => e.resolve f.block (f.seq.getD 0) o })).setsDone.emitDecided) ∧
    (f.state ≠ .programming → t = s) ∧
    (f.state = .programming → o = .ok → f.content = .data → s.sb.inState .dirty f.block = none →
      { f with state := .clean, writer := none, cmd := none } ∈ t.sb.frames ∧ t.sb.clean = s.sb.clean ++ [f.idx]) ∧
    (f.state = .programming → o = .lost ∨ f.content ≠ .data ∨ s.sb.inState .dirty f.block ≠ none →
      t.sb.frames = s.sb.frames.filter (fun g => decide (g.idx ≠ f.idx)) ∧ t.sb.clean = s.sb.clean)

/-- R127, R128, R136, R137: a media-failure request: a block with an entry keeps it or has it replaced by kind MEDIA; a block
without one gets an entry where there is room; each with its fault record, but a lost program's; without room the loss is
recorded, but for the scrub engine. R138: the removal of an entry. -/
def Obligations.PoisonMapTakesFailures : Prop :=
  ∀ (s : Part) (b : Nat) (src : FaultSource),
    let e : PoisonEntry := { block := b, kind := .media, origin := none, hours := s.time.hours, ms := s.time.ms }
    let room := s.integ.poison.length + s.sb.markFrames < 512
    let noted := fun (x : Part) =>
      if src = .program then x else x.appendFault { kind := .mediaUncorrectable, block := some b, source := some src }
    let added := (s.withInteg { s.integ with poison := s.integ.poison ++ [e] }).withMd
      { s.md with changes := s.md.changes + 1 }
    (∀ g, s.poisonOf b = some g → g.kind = .media → s.mediaFailure b src = noted s) ∧
    (∀ g, s.poisonOf b = some g → g.kind ≠ .media → s.mediaFailure b src = noted ((s.withInteg
      { s.integ with poison := s.integ.poison.map fun x => if x.block = b then e else x }).withMd
        { s.md with changes := s.md.changes + 1 })) ∧
    (s.poisonOf b = none → room → s.mediaFailure b src = noted added) ∧
    (s.poisonOf b = none → ¬ room → src = .scrubRead → s.mediaFailure b src = s) ∧
    (s.poisonOf b = none → ¬ room → src ≠ .scrubRead → s.mediaFailure b src =
      s.appendFault { kind := .poisonMapFull, block := some b, source := some src }) ∧
    (s.poisonOf b = none → s.removeEntry b = s) ∧
    (s.poisonOf b ≠ none → s.removeEntry b =
      (s.withInteg { s.integ with poison := s.integ.poison.filter fun x => decide (x.block ≠ b) }).withMd
        { s.md with changes := s.md.changes + 1 })

/-! ### The media (chapter 6) -/

/-- R109 to R113, R133, R156: the grant of the idle media: a PROGRAM after 8 reads in a row, else PORT_READ, COMMIT, PROGRAM,
REFRESH_READ, SCRUB_READ; a commit takes its snapshot; a MARK frame's program ends at once. A busy media grants nothing. R156, R157:
when the COMMIT request is made (log 11); R152, R153, R156: which copy and generation a commit writes, and the image. -/
def Obligations.MediaGrants : Prop :=
  (∀ s : State, s.part.isHeld = false →
    let x := s.part
    let m := x.media
    let prog := x.sb.head ≠ none ∧ x.md.device ≠ .safe
    let turn := prog ∧ 8 ≤ m.readRun
    let gives := fun (y : MediaEngine) (op : MediaOp) => exec .mediaGrant s = .next (s.withPart (Part.follow s.part
      (x.withMedia { y with current := some { op := op } })))
    exec .mediaGrant s = .next (s.withPart (Part.follow s.part x.grants)) ∧
    (x.md.changes ≤ x.md.committed → m.current ≠ none → x.grants = x) ∧
    (x.md.changes ≤ x.md.committed → m.current = none →
      (∀ r rs, ¬ turn → m.portReads = r :: rs →
        gives { m with portReads := rs, readRun := if x.sb.head.isSome && decide (x.md.device ≠ .safe) then m.readRun + 1
                                                   else 0 } (.portRead r (m.locate r.block))) ∧
      (m.portReads = [] → ¬ turn →
        (m.commitReq = some .commit → exec .mediaGrant s = .next (s.withPart (Part.follow s.part
          ((x.withMd { x.md with snapshot := some x.md.changes }).withMedia
            { m with commitReq := none, readRun := 0,
                     current := some { op := .commit x.commitTarget.1 x.commitTarget.2 x.image } })))) ∧
        (∀ c, m.commitReq = some (.readCopy c) → gives { m with commitReq := none, readRun := 0 } (.copyRead c)) ∧
        (∀ c, m.commitReq = some (.resetWrite c) → gives { m with commitReq := none, readRun := 0 } (.resetWrite c)) ∧
        (m.commitReq = none → ¬ prog →
          (∀ r rs, m.refreshReads = r :: rs → gives { m with refreshReads := rs, readRun := 0 }
            (.refreshRead r.frame r.block (m.locate r.block))) ∧
          (∀ b, m.refreshReads = [] → m.scrubReq = some b → exec .mediaGrant s = .next (s.withPart (Part.follow s.part
            ((x.withMedia { m with scrubReq := none, readRun := 0,
                                   current := some { op := .scrubRead b (m.locate b) } }).withScrub
              { x.scrub with phase := .reading })))) ∧
          (m.refreshReads = [] → m.scrubReq = none → x.grants = x))) ∧
      (∀ f d, x.sb.head = some f → x.md.device ≠ .safe → turn ∨ (m.portReads = [] ∧ m.commitReq = none) →
        f.content = .data → f.data = some d → exec .mediaGrant s = .next (s.withPart (Part.follow s.part
          ((x.withSb { x.sb with frames := insertFrame { f with state := .programming } x.sb.frames,
                                 progQ := x.sb.progQ.filter fun i => decide (i ≠ f.idx) }).withMedia
            { m with readRun := 0, current := some { op := .program f.idx f.block (m.locate f.block) d none } })))))) ∧
  (∀ (x : Part) (f : Frame) (k : MarkKind), x.sb.head = some f → f.content = .mark k →
    let y := ((x.withSb { x.sb with frames := insertFrame { f with state := .programming } x.sb.frames,
                                    progQ := x.sb.progQ.filter fun i => decide (i ≠ f.idx) }).withMedia
      { x.media with readRun := 0 }).setEntry f.block (if k = .reported then .reported else .quiet) f.port?
    x.grantProgram = y.withMedia { y.media with
      commitWait := y.media.commitWait ++ [{ frame := f.idx, outcome := .ok, change := x.md.changes + 1 }] }) ∧
  (∀ x : Part,
    let m := x.media
    let prog := x.sb.head ≠ none ∧ x.md.device ≠ .safe
    let commits := ∃ c g i z, m.current = some { op := .commit c g i, discard := z }
    let asks := (x.md.device = .ready ∨ (x.md.device = .starting ∧ x.md.startUp ≠ none)) ∧ ¬ commits ∧ m.commitReq = none ∧
      x.md.committed < x.md.changes
    (asks → x.requestCommit = x.withMedia { m with commitReq := some .commit }) ∧ (¬ asks → x.requestCommit = x) ∧
    let asked := x.requestCommit
    let marked := (Part.grantMarks (asked.sb.progQ.length + 1) asked).requestCommit
    x.grants = (if asked.media.current ≠ none then asked else match marked.choose with
      | some g => marked.grant g
      | none => marked) ∧
    (∀ n, x.grantMarks (n + 1) =
      if x.choose = some .program ∧ (x.sb.head.any fun f => decide (f.content ≠ .data)) = true then x.grantProgram.grantMarks n else x) ∧
    x.choose = (if prog ∧ 8 ≤ m.readRun then some .program else if m.portReads ≠ [] then some .portRead
      else if m.commitReq ≠ none then some .commit else if prog then some .program
      else if m.refreshReads ≠ [] then some .refreshRead else if m.scrubReq ≠ none then some .scrubRead else none) ∧
    (m.commitReq = some .commit → x.grant .commit = (x.withMd { x.md with snapshot := some x.md.changes }).withMedia
      { m with commitReq := none, readRun := 0,
               current := some { op := .commit x.commitTarget.1 x.commitTarget.2 x.image } }) ∧
    (x.md.current = none → x.commitTarget = (.a, 1)) ∧
    (∀ g, x.md.current = some (.a, g) → x.commitTarget = (.b, if g = 4294967295 then 1 else g + 1)) ∧
    (∀ g, x.md.current = some (.b, g) → x.commitTarget = (.a, if g = 4294967295 then 1 else g + 1)) ∧
    x.image = { poison := x.integ.poison, remap := m.remap, spares := m.spares, ring := x.faults.ring,
                total := x.faults.total, settings := x.md.settings, scrubMark := x.md.scrubMark, hours := x.time.hours }) ∧
  ∀ (x : Part) (f : Frame) (k : MarkKind), x.isHeld = false → x.md.changes ≤ x.md.committed → x.media.current = none →
    x.sb.head = some f → x.sb.progQ = [f.idx] → x.sb.at? f.idx = some f → f.content = .mark k → x.md.device ≠ .safe →
    x.media.portReads = [] ∧ x.media.commitReq = none → ∀ cs,
    let y := x.grantProgram.requestCommit
    exec .mediaGrant { part := x, pending := cs } = .next
      { part := Part.follow x (match y.choose with | some g => y.grant g | none => y), pending := cs }

/-- R15, R66, R71 to R73, R112, R121, R123, R136, R146: the ends of a port's read, a refresh read and a scrub read. A read that
a METADATA RESET has cut off ends without effect (R125), and so does the read of a refresh that has been dropped (R124). A READ
delivers what the media held at its lookup (R70, R74), and what the read has found is cached (log 36); what the delivery of a block
does is in `ReadTakesItsNextBlock`. -/
def Obligations.MediaReadsEnd : Prop :=
  (∀ (s : State) (o : Integrity), s.part.isHeld = false →
    let x := s.part
    let y := x.withMedia { x.media with current := none }
    let gives := fun (i : Instr) (z : Part) => exec i s = .next (s.withPart (Part.follow s.part z))
    (∀ r loc, x.media.current = some { op := .portRead r loc, discard := false } →
      (o = .uncorrectable →
        let z := y.mediaFailure r.block .portRead
        ((∀ c, x.cmds.byReceipt r.receipt = some c → ¬ (c.state = .reading ∧ c.inProgress = some r.index)) →
          gives (.portReadEnd o) z) ∧
        ∀ c, x.cmds.byReceipt r.receipt = some c → c.state = .reading → c.inProgress = some r.index →
          gives (.portReadEnd o) (z.finish c (if c.aborted then .aborted else .unreadable) (.read c.next none))) ∧
      (o ≠ .uncorrectable →
        let d := x.mediaRead loc
        let z := y.cacheRead r.block d
        let u := if o = .corrected then z.offerRefresh r.block .read else z
        ((∀ c, x.cmds.byReceipt r.receipt = some c → ¬ (c.state = .reading ∧ c.inProgress = some r.index)) →
          gives (.portReadEnd o) u) ∧
        ∀ c, x.cmds.byReceipt r.receipt = some c → c.state = .reading → c.inProgress = some r.index →
          gives (.portReadEnd o) ((u.deliver c r.seen).runRead c.receipt))) ∧
    (∀ i b loc f, x.media.current = some { op := .refreshRead i b loc, discard := false } →
      (∃ e ∈ x.media.refresh, e.started = some i) → x.sb.at? i = some f → f.state = .filling →
      let gone := (y.freeFrame i).dropRefresh b
      (o = .uncorrectable → gives (.refreshReadEnd o) (gone.mediaFailure b .refreshRead)) ∧
      (o ≠ .uncorrectable → x.settledOtherwise b = true → gives (.refreshReadEnd o) gone) ∧
      (o ≠ .uncorrectable → x.settledOtherwise b = false → gives (.refreshReadEnd o)
        ((y.stageDirty { f with data := some (x.mediaRead loc) }).dropRefresh b).emitDecided)) ∧
    (∀ i b loc, x.media.current = some { op := .refreshRead i b loc, discard := false } →
      (∀ e ∈ x.media.refresh, e.started ≠ some i) ∨ (∀ f, x.sb.at? i = some f → f.state ≠ .filling) →
      gives (.refreshReadEnd o) y) ∧
    (∀ b loc, x.media.current = some { op := .scrubRead b loc, discard := false } →
      let n := x.scrub.counts
      let z := fun (k : ScrubCounts) => y.withScrub { x.scrub with counts := k }
      let one := z { n with checked := n.checked + 1 }
      let two := z { n with checked := n.checked + 1, corrected := n.corrected + 1 }
      let held := ∃ e ∈ x.media.refresh, e.block = b
      let room := x.media.refresh.length < 8
      (o = .good → gives (.scrubReadEnd o) one.checkEnded) ∧
      (o = .corrected → held ∨ room → gives (.scrubReadEnd o) (two.offerRefresh b .scrub).checkEnded) ∧
      (o = .corrected → ¬ held → ¬ room → x.scrub.state = .stopping → gives (.scrubReadEnd o) two.checkEnded) ∧
      (o = .corrected → ¬ held → ¬ room → x.scrub.state ≠ .stopping → gives (.scrubReadEnd o)
        (two.withScrub { two.scrub with phase := .waitingRoom })) ∧
      (o = .uncorrectable →
        let fails := one.mediaFailure b .scrubRead
        let c := one.scrub.counts
        gives (.scrubReadEnd o) (fails.withScrub { fails.scrub with
          counts := if (one.poisonOf b).isSome ∨ one.integ.poison.length + one.sb.markFrames < 512 then
            { c with poisoned := c.poisoned + 1 } else { c with unrecorded := c.unrecorded + 1 } }).checkEnded)) ∧
    (∀ op, x.media.current = some { op := op, discard := true } →
      (∀ r loc, op = .portRead r loc → gives (.portReadEnd o) y) ∧
      (∀ i b loc, op = .refreshRead i b loc → gives (.refreshReadEnd o) y) ∧
      (∀ b loc, op = .scrubRead b loc → gives (.scrubReadEnd o) y))) ∧
  ∀ (x : Part) (b : Nat) (d : BlockData) (o : Origin),
    let seen := ∃ f ∈ x.sb.frames, f.state ≠ .filling ∧ f.block = b
    (seen → x.cacheRead b d = x) ∧
    (¬ seen → x.sb.freeIdx ++ x.sb.clean = [] → x.cacheRead b d = x) ∧
    (∀ i, ¬ seen → (x.sb.freeIdx ++ x.sb.clean).head? = some i →
      let y := (x.reclaim [i]).listFrame
        { idx := i, state := .clean, block := b, writer := none, cmd := none, content := .data, seq := some 0,
          data := some d }
      x.cacheRead b d = y.withSb { y.sb with clean := y.sb.clean ++ [i] }) ∧
    ((∃ e ∈ x.media.refresh, e.block = b) ∨ 8 ≤ x.media.refresh.length → x.offerRefresh b o = x) ∧
    ((∀ e ∈ x.media.refresh, e.block ≠ b) → x.media.refresh.length < 8 → x.offerRefresh b o =
      x.withMedia { x.media with refresh := x.media.refresh ++ [{ block := b, origin := o }] })

/-- R107, R114 to R117, R138: the ends of the two attempts of a program, and what the media holds after them: the data at the
location of a success, an undefined value at that of a failure, every other location as before. R116: a program that has failed
finally: its record, the writer's notice, the MEDIA entry unless a DIRTY frame stands, the commit wait entry LOST. R120: the
spare-low test: notices to every OPEN port and a record where the condition begins to hold. -/
def Obligations.ProgramsEnd : Prop :=
  (∀ (s : State) (i blk loc : Nat) (d : BlockData) (f : Frame), s.part.isHeld = false → s.part.sb.at? i = some f →
    let x := s.part
    let y := x.withMedia { x.media with current := none }
    let spoilt := fun (z : Part) => (z.mediaWrite loc (Config.failedProgram z.free)).withFree (z.free + 1)
    let poisoned := f.ofPort = true ∧ ∃ e ∈ x.integ.poison, e.block = f.block
    let gives := fun (i : Instr) (z : Part) => exec i s = .next (s.withPart (Part.follow s.part z))
    (x.media.current = some { op := .program i blk loc d none, discard := false } →
      (¬ poisoned → gives (.programFirstAttemptEnd true) ((y.mediaWrite loc d).outcome f.idx .ok)) ∧
      (poisoned → gives (.programFirstAttemptEnd true) (((y.mediaWrite loc d).removeEntry f.block).joinCommit f.idx .ok)) ∧
      (∀ sp, x.media.lowestFree = some sp → gives (.programFirstAttemptEnd false) ((spoilt x).withMedia
        { x.media with current := some { op := .program f.idx f.block (262144 + sp) d (some sp) } })) ∧
      (x.media.lowestFree = none → gives (.programFirstAttemptEnd false) ((spoilt y).failFinally f))) ∧
    (∀ sp, x.media.current = some { op := .program i blk loc d (some sp), discard := false } →
      (let z := ((y.mediaWrite loc d).remapBlock f.block sp).appendFault
          { kind := .programFailedRemapped, block := some f.block, port := f.port? };
        gives (.programSecondAttemptEnd true)
          (((if f.ofPort then z.removeEntry f.block else z).joinCommit f.idx .ok).spareLowTest)) ∧
      gives (.programSecondAttemptEnd false)
        (((((spoilt y).withMedia { y.media with spares := y.media.spares ++ [{ idx := sp, use := .retired }] }).withMd
          { y.md with changes := y.md.changes + 1 }).failFinally f).spareLowTest))) ∧
  (∀ (s : State) (i blk loc : Nat) (d : BlockData), s.part.isHeld = false →
    let y := s.part.withMedia { s.part.media with current := none }
    let after := fun ok => Part.follow s.part
      (if ok = true then y.mediaWrite loc d else (y.mediaWrite loc (Config.failedProgram y.free)).withFree (y.free + 1))
    (s.part.media.current = some { op := .program i blk loc d none, discard := true } → ∀ ok,
      exec (.programFirstAttemptEnd ok) s = .next (s.withPart (after ok))) ∧
    (∀ sp, s.part.media.current = some { op := .program i blk loc d (some sp), discard := true } → ∀ ok,
      exec (.programSecondAttemptEnd ok) s = .next (s.withPart (after ok)))) ∧
  (∀ (x : Part) (loc : Nat) (d : BlockData),
    (x.mediaWrite loc d).mediaRead loc = d ∧
      ∀ l, l ≠ loc → (x.mediaWrite loc d).mediaRead l = x.mediaRead l) ∧
  (∀ (x : Part) (f : Frame),
    let noted := x.appendFault
      { kind := .programFailedLost, block := some f.block, frameSeq := f.seq
        port := match f.writer with | some (.port p) => some p | _ => none }
    let told := match f.writer with
      | some (.port p) => noted.offerNotice p (.dataLost f.block (f.seq.getD 0))
      | _ => noted
    let lost := fun y : Part => y.withMedia { y.media with
      commitWait := y.media.commitWait ++ [{ frame := f.idx, outcome := .lost, change := y.md.changes }] }
    ((∃ g ∈ x.sb.frames, g.state = .dirty ∧ g.block = f.block) → x.failFinally f = lost told) ∧
    ((∀ g ∈ x.sb.frames, ¬ (g.state = .dirty ∧ g.block = f.block)) →
      x.failFinally f = lost (told.mediaFailure f.block .program))) ∧
  (∀ x : Part,
    let free := 256 - x.media.spares.length
    let limit := x.md.settings.threshold
    let y := x.withMedia { x.media with spareLow := decide (free ≤ limit) }
    (limit < free ∨ x.media.spareLow = true → x.spareLowTest = y) ∧
    (free ≤ limit → x.media.spareLow = false → x.spareLowTest =
      ([Port.p0, .p1, .p2, .p3].foldl (fun z p => z.offerNotice p (.sparesLow free limit)) y).appendFault
        { kind := .sparesLow, spareCounts := some (free, limit) })) ∧
  ∀ (x : Part) (b sp : Nat), ((x.remapBlock b sp).media.locate b = 262144 + sp) ∧
    (∀ c, c ≠ b → (x.remapBlock b sp).media.locate c = x.media.locate c) ∧
    (x.remapBlock b sp).md.changes = x.md.changes + 1 ∧
    ∀ r, (x.media.remap.find? fun r => decide (r.block = b)) = some r →
      ∀ y ∈ x.media.spares, y.idx = r.spare → { y with use := .retired } ∈ (x.remapBlock b sp).media.spares

/-! ### Commits, start-up, power (chapter 9) -/

/-- R155 to R157, R161, R166: the end of a commit's write, and of a copy write of METADATA RESET: what a success leaves, first
where no command and no frame waits on it; what a failure leaves, and the third failure in a row. R117, R142, R143, R156, R164:
what a success brings to the commit wait entries, SCRUB STARTs, SETTINGS WRITEs and the pending pass whose changes it carries.
R163: SAFE entry. R45, R63, R99, R135: what it makes of each command record. R76: the held GOs it discards. The model's choices: a
port's completions stand before its SCRUB_ENDED notice at SAFE entry (log 31) and where a pass ends as it begins (log 38), a pass that begins
finds the frames of the commit wait list released (log 39), and a check
in WAITING_ROOM is given up at SAFE entry without an offer (log 37). -/
def Obligations.CommitsEnd : Prop :=
  ∀ s : State, s.part.isHeld = false →
    let x := s.part
    let y := x.withMedia { x.media with current := none }
    let gives := fun (i : Instr) (z : Part) => exec i s = .next (s.withPart (Part.follow s.part z))
    let failed := fun (z : Part) (c : CopyId) (g : BitVec 32) =>
      z.appendFault { kind := .metadataCommitFailed, copy := some c, generation := some g }
    (∀ c g m, x.media.current = some { op := .commit c g m } →
      (∀ n, x.md.snapshot = some n → x.cmds.recs = [] → x.media.commitWait = [] → x.scrub.state = .idle →
        let z := (y.setCopy c (some (MetaCopy.write g m))).withMd
          { x.md with current := some (c, g), committed := n, snapshot := none, failures := 0 }
        (x.md.device = .ready → gives (.commitEnd true) z) ∧
        (x.md.device = .starting → (∀ k, x.md.startUp = some k → n < k) → gives (.commitEnd true) z) ∧
        (∀ k, x.md.device = .starting → x.md.startUp = some k → k ≤ n → gives (.commitEnd true)
          ((z.withMd { z.md with device := .ready, startUp := none }).withScrub { z.scrub with autoRef := z.time.hours }))) ∧
      (let z := failed ((y.setCopy c none).withMd { x.md with snapshot := none, failures := x.md.failures + 1 }) c g;
        (x.md.failures + 1 < 3 → gives (.commitEnd false) z) ∧
        (3 ≤ x.md.failures + 1 → gives (.commitEnd false) (z.safeEntry true)))) ∧
    (∀ m, x.md.resetImage = some m → ∀ c, x.media.current = some { op := .resetWrite c } →
      (c = .a →
        let z := (y.setCopy c (some (MetaCopy.write 1 m))).withMd { x.md with failures := 0 }
        gives (.resetCopyWriteEnd true) (z.withMedia { z.media with commitReq := some (.resetWrite .b) })) ∧
      (c = .b → gives (.resetCopyWriteEnd true) ((y.setCopy c (some (MetaCopy.write 1 m))).withMd
        { x.md with failures := 0, resetImage := none, current := some (.b, 1), device := .ready })) ∧
      (let z := failed ((y.setCopy c none).withMd { x.md with failures := x.md.failures + 1 }) c 1;
        (x.md.failures + 1 < 3 → gives (.resetCopyWriteEnd false)
          (z.withMedia { z.media with commitReq := some (.resetWrite c) })) ∧
        (3 ≤ x.md.failures + 1 → gives (.resetCopyWriteEnd false) (z.withMd { z.md with resetImage := none })))) ∧
    (∀ c g m n, x.media.current = some { op := .commit c g m } → x.md.snapshot = some n →
      let z := (y.setCopy c (some (MetaCopy.write g m))).withMd
        { x.md with current := some (c, g), committed := n, snapshot := none, failures := 0 }
      let told := (x.media.commitWait.filter fun w => decide (w.change ≤ n)).foldl
        (fun z w => z.outcome w.frame w.outcome)
        (z.withMedia { y.media with commitWait := x.media.commitWait.filter fun w => decide (n < w.change) })
      let done := (told.setRecs (told.cmds.recs.map fun c =>
        if (c.code = codeScrubStart ∨ c.code = codeSettingsWrite) ∧ c.state = .settling ∧ c.change ≤ n then
          { c with state := .sending, result := some (.ok, .none) } else c)).emitDecided
      let began := if x.scrub.state = .running ∧ x.scrub.pending = true ∧ x.scrub.change ≤ n then
        (done.withScrub { x.scrub with pending := false }).scrubNext else done
      (x.md.device = .ready → gives (.commitEnd true) began) ∧
      (x.md.device = .starting → (∀ k, x.md.startUp = some k → n < k) → gives (.commitEnd true) began) ∧
      (∀ k, x.md.device = .starting → x.md.startUp = some k → k ≤ n → gives (.commitEnd true)
        ((began.withMd { began.md with device := .ready, startUp := none }).withScrub
          { began.scrub with autoRef := x.time.hours }))) ∧
    (x.emitDecided = (x.cmds.recs.filterMap fun c => c.result.map fun r => (c.receipt, r)).foldl
      (fun z r => match z.cmds.recs.find? fun c => decide (c.receipt = r.1) with
        | some c => z.finish c r.2.1 r.2.2
        | none => z) x) ∧
    (∀ b,
      let ended := x.cmds.recs.filter fun c => decide (c.state ≠ .sending)
      let drop := fun (p : Port) (l : Lc) => { l with held := l.held.filter fun h =>
        !(h.frame.isGo && ended.any fun c => decide (c.key.port = p) && decide (h.frame.tag = some c.key.tag)) }
      let links : PerPort Lc := ⟨drop .p0 (x.lc .p0), drop .p1 (x.lc .p1), drop .p2 (x.lc .p2), drop .p3 (x.lc .p3)⟩
      x.safeEntry b = Part.stopPass (Part.emitDecided
        { x with
          links := links
          md := { x.md with device := .safe, startUp := none }
          cmds := { x.cmds with recs := x.cmds.recs.filterMap (x.safeRecord b), queue := [], stop := none }
          sb := { x.sb with frames := x.sb.frames.filter fun f => decide (f.state ≠ .filling) }
          lease := { x.lease with table := [], waits := [] }
          integ := { x.integ with tally := [] }
          media := { x.media with
            refresh := x.media.refresh.filter fun e => e.started.isNone
            refreshReads := [] } })) ∧
    (∀ (b : Bool) (c : Cmd),
      let gated := fun f : Frame => ∃ w ∈ x.media.commitWait, x.sb.at? w.frame = some f
      let awaits := if c.code = codeScrubStart ∨ c.code = codeSettingsWrite then True
        else if c.code = codeMark then ∃ m ∈ x.integ.tally, m.key = c.key ∧ ∃ k ∈ m.frames, ∃ f, gated f ∧
          f.cmd = some c.key ∧ f.block = k.1 ∧ f.seq = some k.2
        else ∃ e ∈ c.waitSet, e.res = .pending ∧ ∃ f q, gated f ∧ f.block = e.block ∧ f.seq = some q ∧
          (q - e.seq).toNat < 2147483648
      let ends := fun st : Status => some { c with state := .sending, result := some (st, .none) }
      (c.state = .sending → x.safeRecord b c = some c) ∧
      (c.state ≠ .sending → c.state ≠ .settling → x.safeRecord b c = ends .safeMode) ∧
      (c.state = .settling → c.code = codeClose → x.safeRecord b c = some c) ∧
      (c.state = .settling → c.code ≠ codeClose → (x.session c.key.port).state = .draining → x.safeRecord b c = none) ∧
      (c.state = .settling → c.code ≠ codeClose → (x.session c.key.port).state ≠ .draining →
        (b = true → awaits → x.safeRecord b c = ends .metadataFailed) ∧
        (b = false ∨ ¬ awaits → x.safeRecord b c = ends .safeMode))) ∧
    ∀ b, (x.safeEntry b).md.device = .safe ∧ (x.safeEntry b).cmds.queue = [] ∧ (x.safeEntry b).lease.table = [] ∧
      (x.safeEntry b).lease.waits = [] ∧ (x.safeEntry b).integ.tally = [] ∧ (x.safeEntry b).disk = x.disk ∧
      (x.safeEntry b).sb.frames = x.sb.frames.filter (fun f => decide (f.state ≠ .filling)) ∧
      (∀ p, (x.safeEntry b).session p = x.session p)

/-- R153: when a copy is valid. R159 to R161: the start-up reads: copy A is judged and copy B requested; then the copy to load is selected: of two
valid ones A, or B with the greater generation; one valid copy, with the other's fault record; none, and the device enters
SAFE with two records. -/
def Obligations.StartUpReads : Prop :=
  (∀ (o : Integrity) (k : MetaCopy),
    let m := k.image
    let fits := fun w : Window => w.first ≤ w.last ∧ w.last < 262144
    copyValid o none = false ∧
    (copyValid o (some k) = true ↔ (o = .good ∨ o = .corrected) ∧ byteSum (copyBytes k.generation m) + k.checksum = 0 ∧
      k.generation ≠ 0 ∧ m.poison.length ≤ 512 ∧ (m.poison.map (·.block)).Nodup ∧ m.remap.length ≤ 256 ∧
      (m.remap.map (·.block)).Nodup ∧ (m.remap.map (·.spare)).Nodup ∧
      (∀ r ∈ m.remap, ∃ x ∈ m.spares, x.idx = r.spare ∧ x.use = .inUse) ∧
      m.spares.countP (fun x => decide (x.use = .inUse)) = m.remap.length ∧ m.ring.length ≤ 32 ∧
      m.ring.length ≤ m.total ∧ m.settings.threshold ≤ 255 ∧ m.settings.period ≤ 168 ∧ fits m.settings.w0 ∧
      fits m.settings.w1 ∧ fits m.settings.w2 ∧ fits m.settings.w3)) ∧
  ∀ (s : State) (o : Integrity), s.part.isHeld = false →
    let x := s.part
    let y := x.withMedia { x.media with current := none }
    (x.media.current = some { op := .copyRead .a } → exec (.copyAReadEnd o) s = .next (s.withPart (Part.follow s.part
      ((y.withMd { x.md with verdictA := some (copyValid o x.disk.copyA) }).withMedia
        { y.media with commitReq := some (.readCopy .b) })))) ∧
    (∀ a, x.media.current = some { op := .copyRead .b } → x.md.verdictA = some a →
      let z := y.withMd { x.md with verdictA := none }
      let b := copyValid o x.disk.copyB
      let gives := fun u => exec (.copyBReadEnd o) s = .next (s.withPart (Part.follow s.part u))
      (∀ ca cb, x.disk.copyA = some ca → x.disk.copyB = some cb → a = true → b = true →
        (seqGt cb.generation ca.generation = false → gives ((z.load .a ca).startUpChanges none)) ∧
        (seqGt cb.generation ca.generation = true → gives ((z.load .b cb).startUpChanges none))) ∧
      (∀ ca, x.disk.copyA = some ca → a = true → b = false → gives ((z.load .a ca).startUpChanges (some .b))) ∧
      (∀ cb, x.disk.copyB = some cb → a = false → b = true → gives ((z.load .b cb).startUpChanges (some .a))) ∧
      (a = false → b = false → gives z.loadNone ∧ z.loadNone.md.device = .safe ∧
        (x.scrub.state = .idle → z.loadNone.faults.total = 2 ∧ z.loadNone.faults.ring.map (·.info) =
            [{ kind := .metadataCopyBad, copy := some .a }, { kind := .metadataCopyBad, copy := some .b }] ∧
          z.loadNone.integ.poison = [] ∧ z.loadNone.media.remap = [] ∧ z.loadNone.media.freeSpares = 256 ∧
          z.loadNone.md.settings = Settings.default ∧ z.loadNone.md.scrubMark = false ∧ z.loadNone.time.hours = 0 ∧
          z.loadNone.disk = x.disk ∧ z.loadNone.media.commitReq = x.media.commitReq))) ∧
    ∀ (c : CopyId) (k : MetaCopy),
      let l := x.load c k
      l.integ.poison = k.image.poison ∧ l.faults = { ring := k.image.ring, total := k.image.total } ∧
      l.time = { x.time with hours := k.image.hours } ∧ l.md.settings = k.image.settings ∧
      l.md.scrubMark = k.image.scrubMark ∧ l.md.current = some (c, k.generation) ∧ l.media.remap = k.image.remap ∧
      l.media.spares = k.image.spares ∧ l.md.changes = x.md.changes ∧
      (k.image.scrubMark = false → (l.startUpChanges none).md.device = .ready ∧
        (l.startUpChanges none).scrub.autoRef = k.image.hours ∧ (l.startUpChanges none).md.changes = x.md.changes) ∧
      (k.image.scrubMark = true → (l.startUpChanges none).md.startUp = some (x.md.changes + 2) ∧
        (l.startUpChanges none).md.scrubMark = false ∧ (l.startUpChanges none).md.changes = x.md.changes + 2) ∧
      (∀ d, k.image.scrubMark = false → (l.startUpChanges (some d)).md.startUp = some (x.md.changes + 1))

/-- R158: a supply input that goes to 0 holds the part: what the media holds stays, but for an operation that is cut off, and
all else returns to its reset values; while the part is held no event but those of the inputs and of PnRDY has an effect;
power-on and RESET give the reset values and begin the read of copy A. R107: a program that is cut off leaves the old contents or
the new; R153, R157, R166: a copy write, a copy that fails its checks. The model's choices in this: when the values return (log
4), the free values (log 6), the level of PnRDY kept, while held too (logs 9, 29), a break forgotten (log 35), and the values
before a copy is loaded (logs 27, 32). -/
def Obligations.PowerAndReset : Prop :=
  ∀ s : State,
    let x := s.part
    let low := fun (pin : Pin) => (match pin with
      | .resetN => { x.pins with resetN := false } | .pwrGood => { x.pins with pwrGood := false } : Pins)
    let high := fun (pin : Pin) => (match pin with
      | .resetN => { x.pins with resetN := true } | .pwrGood => { x.pins with pwrGood := true } : Pins)
    (∀ pin, x.isHeld = false → exec (.partHeld pin) s = .next (s.withPart (x.cutOff.cleared (low pin)))) ∧
    (∀ pin, x.isHeld = true → exec (.partHeld pin) s = .next (s.withPart (x.withPins (low pin)))) ∧
    (∀ f b loc d sp z, x.media.current = some { op := .program f b loc d sp, discard := z } →
      x.cutOff = x.withFree (x.free + 1) ∨ x.cutOff = (x.mediaWrite loc d).withFree (x.free + 1)) ∧
    (∀ c op z, x.media.current = some { op := op, discard := z } → (∃ g m, op = .commit c g m) ∨ op = .resetWrite c →
      x.cutOff = x.withDisk (match c with | .a => { x.disk with copyA := none } | .b => { x.disk with copyB := none })) ∧
    ((∀ op z, x.media.current = some { op := op, discard := z } → (∀ f b loc d sp, op ≠ .program f b loc d sp) ∧
      (∀ c g m, op ≠ .commit c g m) ∧ ∀ c, op ≠ .resetWrite c) → x.cutOff = x) ∧
    (∀ pins,
      let y := x.cleared pins
      y.pins = pins ∧ y.disk = x.disk ∧ y.free = x.free ∧ (∀ p, y.lc p = { rdy := (x.lc p).rdy }) ∧
        (∀ p, y.session p = {}) ∧ y.cmds = {} ∧ y.sb = {} ∧ y.lease = {} ∧ y.media = {} ∧ y.integ = {} ∧ y.scrub = {} ∧
        y.md = {} ∧ y.faults = {} ∧ y.time = {}) ∧
    (x.pins = { resetN := true, pwrGood := false } → exec .powerOn s = .next (s.withPart
      ((x.cleared {}).withMedia { current := some { op := .copyRead .a } }))) ∧
    (x.pins = { resetN := false, pwrGood := true } → exec .reset s = .next (s.withPart
      ((x.cleared {}).withMedia { current := some { op := .copyRead .a } }))) ∧
    (x.pins = { resetN := false, pwrGood := false } → ∀ pin,
      exec (.heldInputChange pin) s = .next (s.withPart (x.withPins (high pin)))) ∧
    (x.isHeld = true → (∀ p, exec (.pnrdyRise p) s = .next (s.withPart (x.setLc p { x.lc p with rdy := true }))) ∧
      ∀ i, i ≠ .powerOn → i ≠ .reset → (∀ pin, i ≠ .partHeld pin) → (∀ pin, i ≠ .heldInputChange pin) →
        (∀ p, i ≠ .pnrdyRise p) → (∀ p, i ≠ .pnrdyFall p) → exec i s = .next s)

/-- R179, R180, R187: the frame that spells an event is received as that event, from HUNT to HUNT, whatever its operands. -/
def Obligations.FramesDecode : Prop :=
  ∀ (i : Instr) (p : Port) (bs : List Byte), i.wellFormed = true → frameOf i = some (p, bs) →
    receive p (receiveBound .hunt bs) .hunt bs = ([.valid i], .hunt)

end
end

