-- ==== Sys2Proof/Laws/State.lean ====
section
/-! SUPPORT. The updates of the part, field by field: what an update writes, and that it leaves every other field. -/

namespace Sys2Proof

@[simp] theorem PerPort.get_set_same {α : Type} (v : PerPort α) (p : Port) (x : α) : (v.set p x).get p = x := by
  cases p <;> rfl

@[simp] theorem PerPort.get_set_ne {α : Type} (v : PerPort α) (p q : Port) (x : α) (h : q ≠ p) :
    (v.set p x).get q = v.get q := by
  cases p <;> cases q <;> first | rfl | exact absurd rfl h

@[simp] theorem PerPort.get_all {α : Type} (x : α) (p : Port) : (PerPort.all x).get p = x := by cases p <;> rfl

@[simp] theorem PerPort.set_set {α : Type} (v : PerPort α) (p : Port) (x y : α) : (v.set p x).set p y = v.set p y := by
  cases p <;> rfl

@[simp] theorem PerPort.set_get {α : Type} (v : PerPort α) (p : Port) : v.set p (v.get p) = v := by cases p <;> rfl

namespace Machine

@[simp] theorem Part.withPins_pins (s : Part) (x : Pins) : (s.withPins x).pins = x := rfl
@[simp] theorem Part.withPins_links (s : Part) (x : Pins) : (s.withPins x).links = s.links := rfl
@[simp] theorem Part.withPins_sess (s : Part) (x : Pins) : (s.withPins x).sess = s.sess := rfl
@[simp] theorem Part.withPins_cmds (s : Part) (x : Pins) : (s.withPins x).cmds = s.cmds := rfl
@[simp] theorem Part.withPins_sb (s : Part) (x : Pins) : (s.withPins x).sb = s.sb := rfl
@[simp] theorem Part.withPins_lease (s : Part) (x : Pins) : (s.withPins x).lease = s.lease := rfl
@[simp] theorem Part.withPins_media (s : Part) (x : Pins) : (s.withPins x).media = s.media := rfl
@[simp] theorem Part.withPins_disk (s : Part) (x : Pins) : (s.withPins x).disk = s.disk := rfl
@[simp] theorem Part.withPins_integ (s : Part) (x : Pins) : (s.withPins x).integ = s.integ := rfl
@[simp] theorem Part.withPins_scrub (s : Part) (x : Pins) : (s.withPins x).scrub = s.scrub := rfl
@[simp] theorem Part.withPins_md (s : Part) (x : Pins) : (s.withPins x).md = s.md := rfl
@[simp] theorem Part.withPins_faults (s : Part) (x : Pins) : (s.withPins x).faults = s.faults := rfl
@[simp] theorem Part.withPins_time (s : Part) (x : Pins) : (s.withPins x).time = s.time := rfl
@[simp] theorem Part.withPins_free (s : Part) (x : Pins) : (s.withPins x).free = s.free := rfl

@[simp] theorem Part.withLinks_pins (s : Part) (x : PerPort Lc) : (s.withLinks x).pins = s.pins := rfl
@[simp] theorem Part.withLinks_links (s : Part) (x : PerPort Lc) : (s.withLinks x).links = x := rfl
@[simp] theorem Part.withLinks_sess (s : Part) (x : PerPort Lc) : (s.withLinks x).sess = s.sess := rfl
@[simp] theorem Part.withLinks_cmds (s : Part) (x : PerPort Lc) : (s.withLinks x).cmds = s.cmds := rfl
@[simp] theorem Part.withLinks_sb (s : Part) (x : PerPort Lc) : (s.withLinks x).sb = s.sb := rfl
@[simp] theorem Part.withLinks_lease (s : Part) (x : PerPort Lc) : (s.withLinks x).lease = s.lease := rfl
@[simp] theorem Part.withLinks_media (s : Part) (x : PerPort Lc) : (s.withLinks x).media = s.media := rfl
@[simp] theorem Part.withLinks_disk (s : Part) (x : PerPort Lc) : (s.withLinks x).disk = s.disk := rfl
@[simp] theorem Part.withLinks_integ (s : Part) (x : PerPort Lc) : (s.withLinks x).integ = s.integ := rfl
@[simp] theorem Part.withLinks_scrub (s : Part) (x : PerPort Lc) : (s.withLinks x).scrub = s.scrub := rfl
@[simp] theorem Part.withLinks_md (s : Part) (x : PerPort Lc) : (s.withLinks x).md = s.md := rfl
@[simp] theorem Part.withLinks_faults (s : Part) (x : PerPort Lc) : (s.withLinks x).faults = s.faults := rfl
@[simp] theorem Part.withLinks_time (s : Part) (x : PerPort Lc) : (s.withLinks x).time = s.time := rfl
@[simp] theorem Part.withLinks_free (s : Part) (x : PerPort Lc) : (s.withLinks x).free = s.free := rfl

@[simp] theorem Part.withSess_pins (s : Part) (x : PerPort Session) : (s.withSess x).pins = s.pins := rfl
@[simp] theorem Part.withSess_links (s : Part) (x : PerPort Session) : (s.withSess x).links = s.links := rfl
@[simp] theorem Part.withSess_sess (s : Part) (x : PerPort Session) : (s.withSess x).sess = x := rfl
@[simp] theorem Part.withSess_cmds (s : Part) (x : PerPort Session) : (s.withSess x).cmds = s.cmds := rfl
@[simp] theorem Part.withSess_sb (s : Part) (x : PerPort Session) : (s.withSess x).sb = s.sb := rfl
@[simp] theorem Part.withSess_lease (s : Part) (x : PerPort Session) : (s.withSess x).lease = s.lease := rfl
@[simp] theorem Part.withSess_media (s : Part) (x : PerPort Session) : (s.withSess x).media = s.media := rfl
@[simp] theorem Part.withSess_disk (s : Part) (x : PerPort Session) : (s.withSess x).disk = s.disk := rfl
@[simp] theorem Part.withSess_integ (s : Part) (x : PerPort Session) : (s.withSess x).integ = s.integ := rfl
@[simp] theorem Part.withSess_scrub (s : Part) (x : PerPort Session) : (s.withSess x).scrub = s.scrub := rfl
@[simp] theorem Part.withSess_md (s : Part) (x : PerPort Session) : (s.withSess x).md = s.md := rfl
@[simp] theorem Part.withSess_faults (s : Part) (x : PerPort Session) : (s.withSess x).faults = s.faults := rfl
@[simp] theorem Part.withSess_time (s : Part) (x : PerPort Session) : (s.withSess x).time = s.time := rfl
@[simp] theorem Part.withSess_free (s : Part) (x : PerPort Session) : (s.withSess x).free = s.free := rfl

@[simp] theorem Part.withCmds_pins (s : Part) (x : CommandTable) : (s.withCmds x).pins = s.pins := rfl
@[simp] theorem Part.withCmds_links (s : Part) (x : CommandTable) : (s.withCmds x).links = s.links := rfl
@[simp] theorem Part.withCmds_sess (s : Part) (x : CommandTable) : (s.withCmds x).sess = s.sess := rfl
@[simp] theorem Part.withCmds_cmds (s : Part) (x : CommandTable) : (s.withCmds x).cmds = x := rfl
@[simp] theorem Part.withCmds_sb (s : Part) (x : CommandTable) : (s.withCmds x).sb = s.sb := rfl
@[simp] theorem Part.withCmds_lease (s : Part) (x : CommandTable) : (s.withCmds x).lease = s.lease := rfl
@[simp] theorem Part.withCmds_media (s : Part) (x : CommandTable) : (s.withCmds x).media = s.media := rfl
@[simp] theorem Part.withCmds_disk (s : Part) (x : CommandTable) : (s.withCmds x).disk = s.disk := rfl
@[simp] theorem Part.withCmds_integ (s : Part) (x : CommandTable) : (s.withCmds x).integ = s.integ := rfl
@[simp] theorem Part.withCmds_scrub (s : Part) (x : CommandTable) : (s.withCmds x).scrub = s.scrub := rfl
@[simp] theorem Part.withCmds_md (s : Part) (x : CommandTable) : (s.withCmds x).md = s.md := rfl
@[simp] theorem Part.withCmds_faults (s : Part) (x : CommandTable) : (s.withCmds x).faults = s.faults := rfl
@[simp] theorem Part.withCmds_time (s : Part) (x : CommandTable) : (s.withCmds x).time = s.time := rfl
@[simp] theorem Part.withCmds_free (s : Part) (x : CommandTable) : (s.withCmds x).free = s.free := rfl

@[simp] theorem Part.withSb_pins (s : Part) (x : Staging) : (s.withSb x).pins = s.pins := rfl
@[simp] theorem Part.withSb_links (s : Part) (x : Staging) : (s.withSb x).links = s.links := rfl
@[simp] theorem Part.withSb_sess (s : Part) (x : Staging) : (s.withSb x).sess = s.sess := rfl
@[simp] theorem Part.withSb_cmds (s : Part) (x : Staging) : (s.withSb x).cmds = s.cmds := rfl
@[simp] theorem Part.withSb_sb (s : Part) (x : Staging) : (s.withSb x).sb = x := rfl
@[simp] theorem Part.withSb_lease (s : Part) (x : Staging) : (s.withSb x).lease = s.lease := rfl
@[simp] theorem Part.withSb_media (s : Part) (x : Staging) : (s.withSb x).media = s.media := rfl
@[simp] theorem Part.withSb_disk (s : Part) (x : Staging) : (s.withSb x).disk = s.disk := rfl
@[simp] theorem Part.withSb_integ (s : Part) (x : Staging) : (s.withSb x).integ = s.integ := rfl
@[simp] theorem Part.withSb_scrub (s : Part) (x : Staging) : (s.withSb x).scrub = s.scrub := rfl
@[simp] theorem Part.withSb_md (s : Part) (x : Staging) : (s.withSb x).md = s.md := rfl
@[simp] theorem Part.withSb_faults (s : Part) (x : Staging) : (s.withSb x).faults = s.faults := rfl
@[simp] theorem Part.withSb_time (s : Part) (x : Staging) : (s.withSb x).time = s.time := rfl
@[simp] theorem Part.withSb_free (s : Part) (x : Staging) : (s.withSb x).free = s.free := rfl

@[simp] theorem Part.withLease_pins (s : Part) (x : LeaseUnit) : (s.withLease x).pins = s.pins := rfl
@[simp] theorem Part.withLease_links (s : Part) (x : LeaseUnit) : (s.withLease x).links = s.links := rfl
@[simp] theorem Part.withLease_sess (s : Part) (x : LeaseUnit) : (s.withLease x).sess = s.sess := rfl
@[simp] theorem Part.withLease_cmds (s : Part) (x : LeaseUnit) : (s.withLease x).cmds = s.cmds := rfl
@[simp] theorem Part.withLease_sb (s : Part) (x : LeaseUnit) : (s.withLease x).sb = s.sb := rfl
@[simp] theorem Part.withLease_lease (s : Part) (x : LeaseUnit) : (s.withLease x).lease = x := rfl
@[simp] theorem Part.withLease_media (s : Part) (x : LeaseUnit) : (s.withLease x).media = s.media := rfl
@[simp] theorem Part.withLease_disk (s : Part) (x : LeaseUnit) : (s.withLease x).disk = s.disk := rfl
@[simp] theorem Part.withLease_integ (s : Part) (x : LeaseUnit) : (s.withLease x).integ = s.integ := rfl
@[simp] theorem Part.withLease_scrub (s : Part) (x : LeaseUnit) : (s.withLease x).scrub = s.scrub := rfl
@[simp] theorem Part.withLease_md (s : Part) (x : LeaseUnit) : (s.withLease x).md = s.md := rfl
@[simp] theorem Part.withLease_faults (s : Part) (x : LeaseUnit) : (s.withLease x).faults = s.faults := rfl
@[simp] theorem Part.withLease_time (s : Part) (x : LeaseUnit) : (s.withLease x).time = s.time := rfl
@[simp] theorem Part.withLease_free (s : Part) (x : LeaseUnit) : (s.withLease x).free = s.free := rfl

@[simp] theorem Part.withMedia_pins (s : Part) (x : MediaEngine) : (s.withMedia x).pins = s.pins := rfl
@[simp] theorem Part.withMedia_links (s : Part) (x : MediaEngine) : (s.withMedia x).links = s.links := rfl
@[simp] theorem Part.withMedia_sess (s : Part) (x : MediaEngine) : (s.withMedia x).sess = s.sess := rfl
@[simp] theorem Part.withMedia_cmds (s : Part) (x : MediaEngine) : (s.withMedia x).cmds = s.cmds := rfl
@[simp] theorem Part.withMedia_sb (s : Part) (x : MediaEngine) : (s.withMedia x).sb = s.sb := rfl
@[simp] theorem Part.withMedia_lease (s : Part) (x : MediaEngine) : (s.withMedia x).lease = s.lease := rfl
@[simp] theorem Part.withMedia_media (s : Part) (x : MediaEngine) : (s.withMedia x).media = x := rfl
@[simp] theorem Part.withMedia_disk (s : Part) (x : MediaEngine) : (s.withMedia x).disk = s.disk := rfl
@[simp] theorem Part.withMedia_integ (s : Part) (x : MediaEngine) : (s.withMedia x).integ = s.integ := rfl
@[simp] theorem Part.withMedia_scrub (s : Part) (x : MediaEngine) : (s.withMedia x).scrub = s.scrub := rfl
@[simp] theorem Part.withMedia_md (s : Part) (x : MediaEngine) : (s.withMedia x).md = s.md := rfl
@[simp] theorem Part.withMedia_faults (s : Part) (x : MediaEngine) : (s.withMedia x).faults = s.faults := rfl
@[simp] theorem Part.withMedia_time (s : Part) (x : MediaEngine) : (s.withMedia x).time = s.time := rfl
@[simp] theorem Part.withMedia_free (s : Part) (x : MediaEngine) : (s.withMedia x).free = s.free := rfl

@[simp] theorem Part.withDisk_pins (s : Part) (x : Disk) : (s.withDisk x).pins = s.pins := rfl
@[simp] theorem Part.withDisk_links (s : Part) (x : Disk) : (s.withDisk x).links = s.links := rfl
@[simp] theorem Part.withDisk_sess (s : Part) (x : Disk) : (s.withDisk x).sess = s.sess := rfl
@[simp] theorem Part.withDisk_cmds (s : Part) (x : Disk) : (s.withDisk x).cmds = s.cmds := rfl
@[simp] theorem Part.withDisk_sb (s : Part) (x : Disk) : (s.withDisk x).sb = s.sb := rfl
@[simp] theorem Part.withDisk_lease (s : Part) (x : Disk) : (s.withDisk x).lease = s.lease := rfl
@[simp] theorem Part.withDisk_media (s : Part) (x : Disk) : (s.withDisk x).media = s.media := rfl
@[simp] theorem Part.withDisk_disk (s : Part) (x : Disk) : (s.withDisk x).disk = x := rfl
@[simp] theorem Part.withDisk_integ (s : Part) (x : Disk) : (s.withDisk x).integ = s.integ := rfl
@[simp] theorem Part.withDisk_scrub (s : Part) (x : Disk) : (s.withDisk x).scrub = s.scrub := rfl
@[simp] theorem Part.withDisk_md (s : Part) (x : Disk) : (s.withDisk x).md = s.md := rfl
@[simp] theorem Part.withDisk_faults (s : Part) (x : Disk) : (s.withDisk x).faults = s.faults := rfl
@[simp] theorem Part.withDisk_time (s : Part) (x : Disk) : (s.withDisk x).time = s.time := rfl
@[simp] theorem Part.withDisk_free (s : Part) (x : Disk) : (s.withDisk x).free = s.free := rfl

@[simp] theorem Part.withInteg_pins (s : Part) (x : IntegrityUnit) : (s.withInteg x).pins = s.pins := rfl
@[simp] theorem Part.withInteg_links (s : Part) (x : IntegrityUnit) : (s.withInteg x).links = s.links := rfl
@[simp] theorem Part.withInteg_sess (s : Part) (x : IntegrityUnit) : (s.withInteg x).sess = s.sess := rfl
@[simp] theorem Part.withInteg_cmds (s : Part) (x : IntegrityUnit) : (s.withInteg x).cmds = s.cmds := rfl
@[simp] theorem Part.withInteg_sb (s : Part) (x : IntegrityUnit) : (s.withInteg x).sb = s.sb := rfl
@[simp] theorem Part.withInteg_lease (s : Part) (x : IntegrityUnit) : (s.withInteg x).lease = s.lease := rfl
@[simp] theorem Part.withInteg_media (s : Part) (x : IntegrityUnit) : (s.withInteg x).media = s.media := rfl
@[simp] theorem Part.withInteg_disk (s : Part) (x : IntegrityUnit) : (s.withInteg x).disk = s.disk := rfl
@[simp] theorem Part.withInteg_integ (s : Part) (x : IntegrityUnit) : (s.withInteg x).integ = x := rfl
@[simp] theorem Part.withInteg_scrub (s : Part) (x : IntegrityUnit) : (s.withInteg x).scrub = s.scrub := rfl
@[simp] theorem Part.withInteg_md (s : Part) (x : IntegrityUnit) : (s.withInteg x).md = s.md := rfl
@[simp] theorem Part.withInteg_faults (s : Part) (x : IntegrityUnit) : (s.withInteg x).faults = s.faults := rfl
@[simp] theorem Part.withInteg_time (s : Part) (x : IntegrityUnit) : (s.withInteg x).time = s.time := rfl
@[simp] theorem Part.withInteg_free (s : Part) (x : IntegrityUnit) : (s.withInteg x).free = s.free := rfl

@[simp] theorem Part.withScrub_pins (s : Part) (x : Scrub) : (s.withScrub x).pins = s.pins := rfl
@[simp] theorem Part.withScrub_links (s : Part) (x : Scrub) : (s.withScrub x).links = s.links := rfl
@[simp] theorem Part.withScrub_sess (s : Part) (x : Scrub) : (s.withScrub x).sess = s.sess := rfl
@[simp] theorem Part.withScrub_cmds (s : Part) (x : Scrub) : (s.withScrub x).cmds = s.cmds := rfl
@[simp] theorem Part.withScrub_sb (s : Part) (x : Scrub) : (s.withScrub x).sb = s.sb := rfl
@[simp] theorem Part.withScrub_lease (s : Part) (x : Scrub) : (s.withScrub x).lease = s.lease := rfl
@[simp] theorem Part.withScrub_media (s : Part) (x : Scrub) : (s.withScrub x).media = s.media := rfl
@[simp] theorem Part.withScrub_disk (s : Part) (x : Scrub) : (s.withScrub x).disk = s.disk := rfl
@[simp] theorem Part.withScrub_integ (s : Part) (x : Scrub) : (s.withScrub x).integ = s.integ := rfl
@[simp] theorem Part.withScrub_scrub (s : Part) (x : Scrub) : (s.withScrub x).scrub = x := rfl
@[simp] theorem Part.withScrub_md (s : Part) (x : Scrub) : (s.withScrub x).md = s.md := rfl
@[simp] theorem Part.withScrub_faults (s : Part) (x : Scrub) : (s.withScrub x).faults = s.faults := rfl
@[simp] theorem Part.withScrub_time (s : Part) (x : Scrub) : (s.withScrub x).time = s.time := rfl
@[simp] theorem Part.withScrub_free (s : Part) (x : Scrub) : (s.withScrub x).free = s.free := rfl

@[simp] theorem Part.withMd_pins (s : Part) (x : MetaUnit) : (s.withMd x).pins = s.pins := rfl
@[simp] theorem Part.withMd_links (s : Part) (x : MetaUnit) : (s.withMd x).links = s.links := rfl
@[simp] theorem Part.withMd_sess (s : Part) (x : MetaUnit) : (s.withMd x).sess = s.sess := rfl
@[simp] theorem Part.withMd_cmds (s : Part) (x : MetaUnit) : (s.withMd x).cmds = s.cmds := rfl
@[simp] theorem Part.withMd_sb (s : Part) (x : MetaUnit) : (s.withMd x).sb = s.sb := rfl
@[simp] theorem Part.withMd_lease (s : Part) (x : MetaUnit) : (s.withMd x).lease = s.lease := rfl
@[simp] theorem Part.withMd_media (s : Part) (x : MetaUnit) : (s.withMd x).media = s.media := rfl
@[simp] theorem Part.withMd_disk (s : Part) (x : MetaUnit) : (s.withMd x).disk = s.disk := rfl
@[simp] theorem Part.withMd_integ (s : Part) (x : MetaUnit) : (s.withMd x).integ = s.integ := rfl
@[simp] theorem Part.withMd_scrub (s : Part) (x : MetaUnit) : (s.withMd x).scrub = s.scrub := rfl
@[simp] theorem Part.withMd_md (s : Part) (x : MetaUnit) : (s.withMd x).md = x := rfl
@[simp] theorem Part.withMd_faults (s : Part) (x : MetaUnit) : (s.withMd x).faults = s.faults := rfl
@[simp] theorem Part.withMd_time (s : Part) (x : MetaUnit) : (s.withMd x).time = s.time := rfl
@[simp] theorem Part.withMd_free (s : Part) (x : MetaUnit) : (s.withMd x).free = s.free := rfl

@[simp] theorem Part.withFaults_pins (s : Part) (x : FaultList) : (s.withFaults x).pins = s.pins := rfl
@[simp] theorem Part.withFaults_links (s : Part) (x : FaultList) : (s.withFaults x).links = s.links := rfl
@[simp] theorem Part.withFaults_sess (s : Part) (x : FaultList) : (s.withFaults x).sess = s.sess := rfl
@[simp] theorem Part.withFaults_cmds (s : Part) (x : FaultList) : (s.withFaults x).cmds = s.cmds := rfl
@[simp] theorem Part.withFaults_sb (s : Part) (x : FaultList) : (s.withFaults x).sb = s.sb := rfl
@[simp] theorem Part.withFaults_lease (s : Part) (x : FaultList) : (s.withFaults x).lease = s.lease := rfl
@[simp] theorem Part.withFaults_media (s : Part) (x : FaultList) : (s.withFaults x).media = s.media := rfl
@[simp] theorem Part.withFaults_disk (s : Part) (x : FaultList) : (s.withFaults x).disk = s.disk := rfl
@[simp] theorem Part.withFaults_integ (s : Part) (x : FaultList) : (s.withFaults x).integ = s.integ := rfl
@[simp] theorem Part.withFaults_scrub (s : Part) (x : FaultList) : (s.withFaults x).scrub = s.scrub := rfl
@[simp] theorem Part.withFaults_md (s : Part) (x : FaultList) : (s.withFaults x).md = s.md := rfl
@[simp] theorem Part.withFaults_faults (s : Part) (x : FaultList) : (s.withFaults x).faults = x := rfl
@[simp] theorem Part.withFaults_time (s : Part) (x : FaultList) : (s.withFaults x).time = s.time := rfl
@[simp] theorem Part.withFaults_free (s : Part) (x : FaultList) : (s.withFaults x).free = s.free := rfl

@[simp] theorem Part.withTime_pins (s : Part) (x : Timebase) : (s.withTime x).pins = s.pins := rfl
@[simp] theorem Part.withTime_links (s : Part) (x : Timebase) : (s.withTime x).links = s.links := rfl
@[simp] theorem Part.withTime_sess (s : Part) (x : Timebase) : (s.withTime x).sess = s.sess := rfl
@[simp] theorem Part.withTime_cmds (s : Part) (x : Timebase) : (s.withTime x).cmds = s.cmds := rfl
@[simp] theorem Part.withTime_sb (s : Part) (x : Timebase) : (s.withTime x).sb = s.sb := rfl
@[simp] theorem Part.withTime_lease (s : Part) (x : Timebase) : (s.withTime x).lease = s.lease := rfl
@[simp] theorem Part.withTime_media (s : Part) (x : Timebase) : (s.withTime x).media = s.media := rfl
@[simp] theorem Part.withTime_disk (s : Part) (x : Timebase) : (s.withTime x).disk = s.disk := rfl
@[simp] theorem Part.withTime_integ (s : Part) (x : Timebase) : (s.withTime x).integ = s.integ := rfl
@[simp] theorem Part.withTime_scrub (s : Part) (x : Timebase) : (s.withTime x).scrub = s.scrub := rfl
@[simp] theorem Part.withTime_md (s : Part) (x : Timebase) : (s.withTime x).md = s.md := rfl
@[simp] theorem Part.withTime_faults (s : Part) (x : Timebase) : (s.withTime x).faults = s.faults := rfl
@[simp] theorem Part.withTime_time (s : Part) (x : Timebase) : (s.withTime x).time = x := rfl
@[simp] theorem Part.withTime_free (s : Part) (x : Timebase) : (s.withTime x).free = s.free := rfl

@[simp] theorem Part.withFree_pins (s : Part) (x : Nat) : (s.withFree x).pins = s.pins := rfl
@[simp] theorem Part.withFree_links (s : Part) (x : Nat) : (s.withFree x).links = s.links := rfl
@[simp] theorem Part.withFree_sess (s : Part) (x : Nat) : (s.withFree x).sess = s.sess := rfl
@[simp] theorem Part.withFree_cmds (s : Part) (x : Nat) : (s.withFree x).cmds = s.cmds := rfl
@[simp] theorem Part.withFree_sb (s : Part) (x : Nat) : (s.withFree x).sb = s.sb := rfl
@[simp] theorem Part.withFree_lease (s : Part) (x : Nat) : (s.withFree x).lease = s.lease := rfl
@[simp] theorem Part.withFree_media (s : Part) (x : Nat) : (s.withFree x).media = s.media := rfl
@[simp] theorem Part.withFree_disk (s : Part) (x : Nat) : (s.withFree x).disk = s.disk := rfl
@[simp] theorem Part.withFree_integ (s : Part) (x : Nat) : (s.withFree x).integ = s.integ := rfl
@[simp] theorem Part.withFree_scrub (s : Part) (x : Nat) : (s.withFree x).scrub = s.scrub := rfl
@[simp] theorem Part.withFree_md (s : Part) (x : Nat) : (s.withFree x).md = s.md := rfl
@[simp] theorem Part.withFree_faults (s : Part) (x : Nat) : (s.withFree x).faults = s.faults := rfl
@[simp] theorem Part.withFree_time (s : Part) (x : Nat) : (s.withFree x).time = s.time := rfl
@[simp] theorem Part.withFree_free (s : Part) (x : Nat) : (s.withFree x).free = x := rfl

@[simp] theorem State.withPart_part (s : State) (x : Part) : (s.withPart x).part = x := rfl
@[simp] theorem State.withPart_pending (s : State) (x : Part) : (s.withPart x).pending = s.pending := rfl

end Machine

end Sys2Proof
end

