-- ==== Sys2Proof/Laws/Buffers.lean ====
section
/-! SUPPORT. The Staging Buffer's lists under each of its moves: the frames after a move by membership and by count, and with
them the laws of R10, R12 and R14, the attribution counts of R17 and the DIRTY MARK frames of R128. -/

namespace Sys2Proof.Machine

/-- Frames in strictly rising index. -/
abbrev Rising (fs : List Frame) : Prop := fs.Pairwise fun f g => f.idx < g.idx

theorem Rising.inj {fs : List Frame} (h : Rising fs) {f g : Frame} (hf : f ∈ fs) (hg : g ∈ fs) (e : f.idx = g.idx) :
    f = g := by
  have n : (fs.map (·.idx)).Nodup := List.pairwise_map.2 (h.imp fun h => Nat.ne_of_lt h)
  exact List.inj_on_of_nodup_map n hf hg e

theorem mem_insertFrame {f : Frame} {fs : List Frame} {g : Frame} (h : g ∈ insertFrame f fs) : g = f ∨ g ∈ fs := by
  induction fs with
  | nil => exact .inl (List.mem_singleton.1 h)
  | cons x fs ih =>
    simp only [insertFrame] at h
    split at h
    · exact List.mem_cons.1 h
    · split at h
      · exact (List.mem_cons.1 h).imp id (List.mem_cons_of_mem _)
      · rcases List.mem_cons.1 h with h | h
        · exact .inr (h ▸ List.mem_cons_self)
        · exact (ih h).imp id (List.mem_cons_of_mem _)

/-- The frames after one is listed at its index. -/
theorem mem_insertFrame_iff {f : Frame} {fs : List Frame} (h : Rising fs) {g : Frame} :
    g ∈ insertFrame f fs ↔ g = f ∨ (g ∈ fs ∧ g.idx ≠ f.idx) := by
  induction fs with
  | nil => simp [insertFrame]
  | cons x fs ih =>
    obtain ⟨hx, hs⟩ := List.pairwise_cons.1 h
    simp only [insertFrame]
    split
    · rename_i hl
      rw [List.mem_cons]
      refine or_congr_right ⟨fun m => ⟨m, ?_⟩, fun m => m.1⟩
      rcases List.mem_cons.1 m with e | m
      · exact e ▸ Nat.ne_of_gt hl
      · exact Nat.ne_of_gt (hl.trans (hx g m))
    · split
      · rename_i _ e
        rw [List.mem_cons, List.mem_cons]
        refine or_congr_right ⟨fun m => ⟨.inr m, ?_⟩, fun m => ?_⟩
        · rw [e]; exact Nat.ne_of_gt (hx g m)
        · rcases m.1 with k | k
          · exact absurd (k ▸ e.symm) m.2
          · exact k
      · rename_i h1 h2
        rw [List.mem_cons, List.mem_cons, ih hs]
        constructor
        · rintro (k | k | k)
          · exact .inr ⟨.inl k, k ▸ fun e => h2 e.symm⟩
          · exact .inl k
          · exact .inr ⟨.inr k.1, k.2⟩
        · rintro (k | ⟨k | k, n⟩)
          · exact .inr (.inl k)
          · exact .inl k
          · exact .inr (.inr ⟨k, n⟩)

/-- A frame that takes the place of another of its index, by count. -/
theorem countP_insertFrame_same {f g : Frame} {fs : List Frame} (P : Frame → Bool) (h : Rising fs) (hg : g ∈ fs)
    (e : g.idx = f.idx) :
    (insertFrame f fs).countP P + (if P g then 1 else 0) = fs.countP P + if P f then 1 else 0 := by
  induction fs with
  | nil => exact absurd hg List.not_mem_nil
  | cons x fs ih =>
    obtain ⟨hx, hs⟩ := List.pairwise_cons.1 h
    rcases List.mem_cons.1 hg with k | k
    · subst k
      simp only [insertFrame]
      rw [if_neg (by omega), if_pos e.symm, List.countP_cons, List.countP_cons]
      omega
    · have := hx g k
      simp only [insertFrame]
      rw [if_neg (by omega), if_neg (by omega), List.countP_cons, List.countP_cons]
      have := ih hs k
      omega

/-- A frame that is listed, by count: at most one more. -/
theorem countP_insertFrame_le (f : Frame) (fs : List Frame) (P : Frame → Bool) :
    (insertFrame f fs).countP P ≤ fs.countP P + if P f then 1 else 0 := by
  induction fs with
  | nil => simp [insertFrame, List.countP_cons]
  | cons x fs ih =>
    simp only [insertFrame]
    split
    · simp only [List.countP_cons]; omega
    · split
      · simp only [List.countP_cons]; omega
      · simp only [List.countP_cons]; omega

namespace Staging

variable {b : Staging}

theorem mem_of_inState {st : FrameState} {blk : Nat} {f : Frame} (h : b.inState st blk = some f) :
    f ∈ b.frames ∧ f.state = st ∧ f.block = blk := by
  refine ⟨List.mem_of_find?_eq_some h, ?_⟩
  have := List.find?_some h
  simpa using this

theorem not_inState {st : FrameState} {blk : Nat} (h : b.inState st blk = none) {f : Frame} (hf : f ∈ b.frames)
    (hs : f.state = st) : f.block ≠ blk := by
  intro e
  have := List.find?_eq_none.1 h f hf
  simp [hs, e] at this

theorem mem_of_at {i : Nat} {f : Frame} (h : b.at? i = some f) : f ∈ b.frames ∧ f.idx = i :=
  ⟨List.mem_of_find?_eq_some h, by have := List.find?_some h; simpa using this⟩

/-- R12: the program head is a DIRTY frame of the queue, and its block has no PROGRAMMING frame. -/
theorem head_spec (l : b.lawful) {f : Frame} (h : b.head = some f) (r : Rising b.frames) :
    f ∈ b.frames ∧ f.state = .dirty ∧ f.idx ∈ b.progQ ∧ b.inState .programming f.block = none := by
  obtain ⟨i, hi, h⟩ := List.exists_of_findSome?_eq_some h
  obtain ⟨g, hg, h⟩ := Option.bind_eq_some_iff.1 h
  split at h
  · cases h
  · rename_i n
    cases h
    obtain ⟨m, e⟩ := mem_of_at hg
    obtain ⟨k, hk, ek, sk⟩ := (l.2.2.1 i).1 hi
    have : f = k := r.inj m hk (e.trans ek.symm)
    exact ⟨m, this ▸ sk, e ▸ hi, by simpa using n⟩

/-- Frames leave or change their data only, and none that leaves is in a list. -/
theorem lawful_frames {fs : List Frame} (l : b.lawful)
    (h : ∀ f ∈ fs, ∃ g ∈ b.frames, f.idx = g.idx ∧ f.state = g.state ∧ f.block = g.block ∧ f.content = g.content)
    (k : ∀ g ∈ b.frames, g.state ≠ .filling → ∃ f ∈ fs, f.idx = g.idx ∧ f.state = g.state) :
    ({ b with frames := fs } : Staging).lawful := by
  obtain ⟨a, p, q, c, d, m⟩ := l
  have same : ∀ st : FrameState, st ≠ .filling → ∀ i, (∃ f ∈ b.frames, f.idx = i ∧ f.state = st) ↔
      ∃ f ∈ fs, f.idx = i ∧ f.state = st := by
    intro st hst i
    constructor
    · rintro ⟨g, hg, e, hs⟩
      obtain ⟨f, hf, e', hs'⟩ := k g hg (hs ▸ hst)
      exact ⟨f, hf, e'.trans e, hs'.trans hs⟩
    · rintro ⟨f, hf, e, hs⟩
      obtain ⟨g, hg, e', hs', -, -⟩ := h f hf
      exact ⟨g, hg, e'.symm.trans e, hs'.symm.trans hs⟩
  refine ⟨?_, p, fun i => (q i).trans (same .dirty (by decide) i), c, fun i => (d i).trans (same .clean (by decide) i),
    fun f hf hs => ?_⟩
  · intro f hf g hg hi hb
    obtain ⟨f', hf', e1, e2, e3, -⟩ := h f hf
    obtain ⟨g', hg', e4, e5, e6, -⟩ := h g hg
    rw [e2, e5]
    exact a f' hf' g' hg' (e1 ▸ e4 ▸ hi) (e3 ▸ e6 ▸ hb)
  · obtain ⟨g, hg, -, e2, -, e4⟩ := h f hf
    have := m g hg (e2 ▸ hs)
    simp only [Frame.isMark] at this ⊢
    rw [e4]; exact this

/-- R7: FILLING frames go to FREE. -/
theorem lawful_filter (l : b.lawful) (p : Frame → Bool) (h : ∀ f ∈ b.frames, p f = false → f.state = .filling) :
    ({ b with frames := b.frames.filter p } : Staging).lawful :=
  lawful_frames l (fun f hf => ⟨f, (List.mem_filter.1 hf).1, rfl, rfl, rfl, rfl⟩) fun g hg hs =>
    ⟨g, List.mem_filter.2 ⟨hg, by by_contra n; exact hs (h g hg (by simpa using n))⟩, rfl, rfl⟩

/-- R3: CLEAN frames leave for FREE. -/
theorem lawful_reclaim (l : b.lawful) (ids : List Nat) :
    ({ b with
        frames := b.frames.filter fun f => !(decide (f.state = .clean) && ids.contains f.idx)
        clean := b.clean.filter fun i => !ids.contains i } : Staging).lawful := by
  obtain ⟨a, p, q, c, d, m⟩ := l
  refine ⟨fun f hf g hg => a f (List.mem_filter.1 hf).1 g (List.mem_filter.1 hg).1, p, fun i => ?_, c.filter _, fun i => ?_,
    fun f hf => m f (List.mem_filter.1 hf).1⟩
  · rw [q i]
    refine ⟨?_, fun ⟨f, hf, k⟩ => ⟨f, (List.mem_filter.1 hf).1, k⟩⟩
    rintro ⟨f, hf, e, hs⟩
    exact ⟨f, List.mem_filter.2 ⟨hf, by simp [hs]⟩, e, hs⟩
  · rw [List.mem_filter, d i]
    constructor
    · rintro ⟨⟨f, hf, e, hs⟩, hi⟩
      exact ⟨f, List.mem_filter.2 ⟨hf, by simp [hs, e]; simpa using hi⟩, e, hs⟩
    · rintro ⟨f, hf, e, hs⟩
      obtain ⟨m, n⟩ := List.mem_filter.1 hf
      refine ⟨⟨f, m, e, hs⟩, ?_⟩
      simp [hs, e] at n
      simpa using n

/-- No frame is listed at the index. -/
def Fresh (b : Staging) (i : Nat) : Prop := ∀ f ∈ b.frames, f.idx ≠ i

/-- R4: a FREE frame becomes FILLING. -/
theorem lawful_fill (l : b.lawful) (r : Rising b.frames) {x : Frame} (hx : x.state = .filling) (hk : x.isMark = false)
    (hf : b.Fresh x.idx) :
    ({ b with frames := insertFrame x b.frames } : Staging).lawful := by
  obtain ⟨a, p, q, c, d, m⟩ := l
  have same : ∀ st : FrameState, st ≠ .filling → ∀ i, (∃ f ∈ b.frames, f.idx = i ∧ f.state = st) ↔
      ∃ f ∈ insertFrame x b.frames, f.idx = i ∧ f.state = st := by
    intro st hst i
    constructor
    · rintro ⟨g, hg, k⟩
      exact ⟨g, (mem_insertFrame_iff r).2 (.inr ⟨hg, hf g hg⟩), k⟩
    · rintro ⟨g, hg, k⟩
      rcases (mem_insertFrame_iff r).1 hg with e | e
      · subst e; exact absurd (hx.symm.trans k.2).symm hst
      · exact ⟨g, e.1, k⟩
  refine ⟨?_, p, fun i => (q i).trans (same .dirty (by decide) i), c, fun i => (d i).trans (same .clean (by decide) i),
    fun f hf' hs => ?_⟩
  · intro f hf' g hg hi hb
    rcases (mem_insertFrame_iff r).1 hf' with e | e
    · exact .inl (e ▸ hx)
    · rcases (mem_insertFrame_iff r).1 hg with e' | e'
      · exact .inr (.inl (e' ▸ hx))
      · exact a f e.1 g e'.1 hi hb
  · rcases (mem_insertFrame_iff r).1 hf' with e | e
    · exact e ▸ hk
    · exact m f e.1 hs

/-- R9: a frame that is FREE or FILLING becomes DIRTY. -/
theorem lawful_dirty (l : b.lawful) (r : Rising b.frames) {x : Frame} (hx : x.state = .dirty)
    (hf : ∀ f ∈ b.frames, f.idx = x.idx → f.state = .filling) (q : BitVec 32) :
    let old := b.inState .dirty x.block
    let cl := b.inState .clean x.block
    ({ frames := insertFrame x (b.frames.filter fun f =>
          decide (old.map (·.idx) ≠ some f.idx) && decide (cl.map (·.idx) ≠ some f.idx))
       progQ := match old with
         | some y => b.progQ.map fun i => if i = y.idx then x.idx else i
         | none => b.progQ ++ [x.idx]
       clean := b.clean.filter fun i => decide (cl.map (·.idx) ≠ some i), seq := q } : Staging).lawful := by
  intro old cl
  obtain ⟨a, p, pq, c, d, z⟩ := l
  have rf := r.filter (p := fun f => decide (old.map (·.idx) ≠ some f.idx) && decide (cl.map (·.idx) ≠ some f.idx))
  have mem : ∀ {g : Frame}, g ∈ insertFrame x (b.frames.filter fun f =>
      decide (old.map (·.idx) ≠ some f.idx) && decide (cl.map (·.idx) ≠ some f.idx)) ↔
      g = x ∨ (g ∈ b.frames ∧ g.idx ≠ x.idx ∧ old.map (·.idx) ≠ some g.idx ∧ cl.map (·.idx) ≠ some g.idx) := by
    intro g
    rw [mem_insertFrame_iff rf, List.mem_filter]
    simp only [Bool.and_eq_true, decide_eq_true_eq]
    tauto
  have xq : x.idx ∉ b.progQ := fun h => by
    obtain ⟨f, hf', e, hs⟩ := (pq _).1 h
    rw [hf f hf' e] at hs; cases hs
  have xc : x.idx ∉ b.clean := fun h => by
    obtain ⟨f, hf', e, hs⟩ := (d _).1 h
    rw [hf f hf' e] at hs; cases hs
  -- a DIRTY frame of the block is the old one, a CLEAN one is the one that goes
  have one : ∀ st : FrameState, st = .dirty ∨ st = .clean → ∀ g ∈ b.frames, g.state = st → g.block = x.block →
      (b.inState st x.block).map (·.idx) = some g.idx := by
    intro st hst g hg hs hb
    cases h : b.inState st x.block with
    | none => exact absurd hb (not_inState h hg hs)
    | some y =>
      obtain ⟨hy, ys, yb⟩ := mem_of_inState h
      by_contra n
      have := a g hg y hy (fun e => n (by simp [e])) (hb.trans yb.symm)
      rw [hs, ys] at this
      rcases hst with e | e <;> subst e <;> simp [FrameState.together] at this
  have apart : ∀ g, g ∈ b.frames → g.idx ≠ x.idx → old.map (·.idx) ≠ some g.idx → cl.map (·.idx) ≠ some g.idx →
      g.block = x.block → g.state = .filling ∨ g.state = .programming := by
    intro g hg _ h1 h2 hb
    cases hs : g.state with
    | filling => exact .inl rfl
    | programming => exact .inr rfl
    | dirty => exact absurd (one .dirty (.inl rfl) g hg hs hb) h1
    | clean => exact absurd (one .clean (.inr rfl) g hg hs hb) h2
  refine ⟨?_, ?_, ?_, c.filter _, ?_, ?_⟩
  · intro f hf' g hg hi hb
    rcases mem.1 hf' with e | ⟨m1, m2, m3, m4⟩
    · subst e
      rcases mem.1 hg with e | ⟨m1, m2, m3, m4⟩
      · exact absurd (e ▸ rfl) hi
      · rcases apart g m1 m2 m3 m4 hb.symm with k | k
        · exact .inr (.inl k)
        · exact .inr (.inr (.inl ⟨hx, k⟩))
    · rcases mem.1 hg with e | ⟨n1, n2, n3, n4⟩
      · subst e
        rcases apart f m1 m2 m3 m4 hb with k | k
        · exact .inl k
        · exact .inr (.inr (.inr ⟨k, hx⟩))
      · exact a f m1 g n1 hi hb
  · show (match old with
      | some y => b.progQ.map fun i => if i = y.idx then x.idx else i
      | none => b.progQ ++ [x.idx]).Nodup
    cases ho : old with
    | none => exact List.nodup_append.2 ⟨p, List.nodup_singleton _, fun i hi j hj e => xq (by
        rw [List.mem_singleton] at hj; exact hj ▸ e ▸ hi)⟩
    | some y =>
      refine List.pairwise_map.2 (p.imp_of_mem fun {i j} hi hj h => ?_)
      split
      · split
        · rename_i e1 e2; exact absurd (e1.trans e2.symm) h
        · exact fun e => xq (e ▸ hj)
      · split
        · exact fun e => xq (e ▸ hi)
        · exact h
  · intro i
    have dirtyOf : (∃ f ∈ insertFrame x (b.frames.filter fun f =>
        decide (old.map (·.idx) ≠ some f.idx) && decide (cl.map (·.idx) ≠ some f.idx)), f.idx = i ∧ f.state = .dirty) ↔
        i = x.idx ∨ (i ∈ b.progQ ∧ old.map (·.idx) ≠ some i) := by
      constructor
      · rintro ⟨f, hf', e, hs⟩
        rcases mem.1 hf' with k | ⟨m1, m2, m3, m4⟩
        · exact .inl (k ▸ e.symm)
        · exact .inr ⟨(pq i).2 ⟨f, m1, e, hs⟩, e ▸ m3⟩
      · rintro (e | ⟨hi, hn⟩)
        · exact ⟨x, mem.2 (.inl rfl), e.symm, hx⟩
        · obtain ⟨f, hf', e, hs⟩ := (pq i).1 hi
          refine ⟨f, mem.2 (.inr ⟨hf', fun k => xq (k ▸ e ▸ hi), e ▸ hn, ?_⟩), e, hs⟩
          intro k
          cases hc : cl with
          | none => rw [hc] at k; cases k
          | some z =>
            obtain ⟨hz, zs, -⟩ := mem_of_inState hc
            rw [hc] at k
            have : z = f := r.inj hz hf' (Option.some.inj k)
            rw [this, hs] at zs; cases zs
    refine Iff.trans ?_ dirtyOf.symm
    show i ∈ (match old with
      | some y => b.progQ.map fun i => if i = y.idx then x.idx else i
      | none => b.progQ ++ [x.idx]) ↔ _
    cases ho : old with
    | none => simp; tauto
    | some y =>
      obtain ⟨hy, ys, -⟩ := mem_of_inState ho
      have yq : y.idx ∈ b.progQ := (pq _).2 ⟨y, hy, rfl, ys⟩
      simp only [List.mem_map, Option.map_some, ne_eq, Option.some.injEq]
      constructor
      · rintro ⟨j, hj, e⟩
        split at e
        · exact .inl e.symm
        · rename_i n; exact .inr ⟨e ▸ hj, fun k => n (e.trans k.symm)⟩
      · rintro (e | ⟨hi, n⟩)
        · exact ⟨y.idx, yq, by rw [if_pos rfl]; exact e.symm⟩
        · exact ⟨i, hi, if_neg fun e => n e.symm⟩
  · intro i
    rw [List.mem_filter, d i]
    simp only [decide_eq_true_eq]
    constructor
    · rintro ⟨⟨f, hf', e, hs⟩, hn⟩
      refine ⟨f, mem.2 (.inr ⟨hf', fun k => ?_, ?_, e ▸ hn⟩), e, hs⟩
      · rw [hf f hf' k] at hs; cases hs
      · intro k
        cases ho : old with
        | none => rw [ho] at k; cases k
        | some z =>
          obtain ⟨hz, zs, -⟩ := mem_of_inState ho
          rw [ho] at k
          have : z = f := r.inj hz hf' (Option.some.inj k)
          rw [this, hs] at zs; cases zs
    · rintro ⟨f, hf', e, hs⟩
      rcases mem.1 hf' with k | ⟨m1, m2, m3, m4⟩
      · subst k; rw [hx] at hs; cases hs
      · exact ⟨⟨f, m1, e, hs⟩, e ▸ m4⟩
  · intro f hf' hs
    rcases mem.1 hf' with k | ⟨m1, -⟩
    · subst k; rw [hx] at hs; cases hs
    · exact z f m1 hs

/-- R12, R113: the program head goes to PROGRAMMING. -/
theorem lawful_program (l : b.lawful) (r : Rising b.frames) {f : Frame} (h : b.head = some f) :
    ({ b with
        frames := insertFrame { f with state := .programming } b.frames
        progQ := b.progQ.filter fun i => decide (i ≠ f.idx) } : Staging).lawful := by
  obtain ⟨hf, hs, -, hn⟩ := head_spec l h r
  obtain ⟨a, p, q, c, d, m⟩ := l
  have mem : ∀ {g : Frame}, g ∈ insertFrame { f with state := .programming } b.frames ↔
      g = { f with state := .programming } ∨ (g ∈ b.frames ∧ g.idx ≠ f.idx) := mem_insertFrame_iff r
  have apart : ∀ g ∈ b.frames, g.idx ≠ f.idx → f.block = g.block → g.state = .filling := by
    intro g hg hi hb
    have := a f hf g hg (fun e => hi e.symm) hb
    have np : g.state ≠ .programming := fun e => not_inState hn hg e hb.symm
    rw [hs] at this
    cases k : g.state <;> simp_all [FrameState.together]
  refine ⟨?_, p.filter _, fun i => ?_, c, fun i => ?_, fun g hg gs => ?_⟩
  · intro g hg k hk hi hb
    rcases mem.1 hg with e | e
    · subst e
      rcases mem.1 hk with e' | e'
      · exact absurd (e' ▸ rfl) hi
      · exact .inr (.inl (apart k e'.1 e'.2 hb))
    · rcases mem.1 hk with e' | e'
      · subst e'; exact .inl (apart g e.1 e.2 hb.symm)
      · exact a g e.1 k e'.1 hi hb
  · rw [List.mem_filter, q i]
    constructor
    · rintro ⟨⟨g, hg, e, gs⟩, n⟩
      exact ⟨g, mem.2 (.inr ⟨hg, fun k => of_decide_eq_true n (e ▸ k)⟩), e, gs⟩
    · rintro ⟨g, hg, e, gs⟩
      rcases mem.1 hg with k | k
      · subst k; cases gs
      · exact ⟨⟨g, k.1, e, gs⟩, decide_eq_true (e ▸ k.2)⟩
  · rw [d i]
    constructor
    · rintro ⟨g, hg, e, gs⟩
      refine ⟨g, mem.2 (.inr ⟨hg, fun k => ?_⟩), e, gs⟩
      rw [r.inj hg hf k, hs] at gs; cases gs
    · rintro ⟨g, hg, e, gs⟩
      rcases mem.1 hg with k | k
      · subst k; cases gs
      · exact ⟨g, k.1, e, gs⟩
  · rcases mem.1 hg with k | k
    · subst k; cases gs
    · exact m g k.1 gs

/-- R13: a PROGRAMMING frame whose block has no DIRTY frame goes to CLEAN. -/
theorem lawful_clean (l : b.lawful) (r : Rising b.frames) {f x : Frame} (hf : f ∈ b.frames) (hs : f.state = .programming)
    (hi : x.idx = f.idx) (hb : x.block = f.block) (hx : x.state = .clean) (hn : b.inState .dirty f.block = none) :
    ({ b with frames := insertFrame x b.frames, clean := b.clean ++ [x.idx] } : Staging).lawful := by
  obtain ⟨a, p, q, c, d, m⟩ := l
  have mem : ∀ {g : Frame}, g ∈ insertFrame x b.frames ↔ g = x ∨ (g ∈ b.frames ∧ g.idx ≠ f.idx) := fun {g} => by
    rw [mem_insertFrame_iff r, hi]
  have apart : ∀ g ∈ b.frames, g.idx ≠ f.idx → f.block = g.block → g.state = .filling := by
    intro g hg hi hb
    have := a f hf g hg (fun e => hi e.symm) hb
    have np : g.state ≠ .dirty := fun e => not_inState hn hg e hb.symm
    rw [hs] at this
    cases k : g.state <;> simp_all [FrameState.together]
  have fc : f.idx ∉ b.clean := fun h => by
    obtain ⟨g, hg, e, gs⟩ := (d _).1 h
    rw [r.inj hg hf e, hs] at gs; cases gs
  refine ⟨?_, p, fun i => ?_, ?_, fun i => ?_, fun g hg gs => ?_⟩
  · intro g hg k hk hi' hb'
    rcases mem.1 hg with e | e
    · subst e
      rcases mem.1 hk with e' | e'
      · exact absurd (e' ▸ rfl) hi'
      · exact .inr (.inl (apart k e'.1 e'.2 (hb ▸ hb')))
    · rcases mem.1 hk with e' | e'
      · subst e'; exact .inl (apart g e.1 e.2 (hb ▸ hb'.symm))
      · exact a g e.1 k e'.1 hi' hb'
  · rw [q i]
    constructor
    · rintro ⟨g, hg, e, gs⟩
      refine ⟨g, mem.2 (.inr ⟨hg, fun k => ?_⟩), e, gs⟩
      rw [r.inj hg hf k, hs] at gs; cases gs
    · rintro ⟨g, hg, e, gs⟩
      rcases mem.1 hg with k | k
      · subst k; rw [hx] at gs; cases gs
      · exact ⟨g, k.1, e, gs⟩
  · exact List.nodup_append.2 ⟨c, List.nodup_singleton _, fun i h j hj e => fc (by
      rw [List.mem_singleton] at hj; rw [← hi, ← hj, ← e]; exact h)⟩
  · rw [List.mem_append, List.mem_singleton, d i]
    constructor
    · rintro (⟨g, hg, e, gs⟩ | e)
      · refine ⟨g, mem.2 (.inr ⟨hg, fun k => ?_⟩), e, gs⟩
        rw [r.inj hg hf k, hs] at gs; cases gs
      · exact ⟨x, mem.2 (.inl rfl), e.symm, hx⟩
    · rintro ⟨g, hg, e, gs⟩
      rcases mem.1 hg with k | k
      · subst k; exact .inr e.symm
      · exact .inl ⟨g, k.1, e, gs⟩
  · rcases mem.1 hg with k | k
    · subst k; rw [hx] at gs; cases gs
    · exact m g k.1 gs

/-- R13: a PROGRAMMING or FILLING frame goes to FREE. -/
theorem lawful_free (l : b.lawful) {i : Nat}
    (h : ∀ f ∈ b.frames, f.idx = i → f.state = .programming ∨ f.state = .filling) :
    ({ b with frames := b.frames.filter fun f => decide (f.idx ≠ i) } : Staging).lawful := by
  obtain ⟨a, p, q, c, d, m⟩ := l
  have same : ∀ st : FrameState, st = .dirty ∨ st = .clean → ∀ j, (∃ f ∈ b.frames, f.idx = j ∧ f.state = st) ↔
      ∃ f ∈ b.frames.filter (fun f => decide (f.idx ≠ i)), f.idx = j ∧ f.state = st := by
    intro st hst j
    constructor
    · rintro ⟨f, hf, e, hs⟩
      refine ⟨f, List.mem_filter.2 ⟨hf, decide_eq_true fun k => ?_⟩, e, hs⟩
      rcases h f hf k with k | k <;> rcases hst with n | n <;> rw [k, n] at hs <;> cases hs
    · rintro ⟨f, hf, k⟩
      exact ⟨f, (List.mem_filter.1 hf).1, k⟩
  exact ⟨fun f hf g hg => a f (List.mem_filter.1 hf).1 g (List.mem_filter.1 hg).1, p,
    fun j => (q j).trans (same .dirty (.inl rfl) j), c, fun j => (d j).trans (same .clean (.inr rfl) j),
    fun f hf => m f (List.mem_filter.1 hf).1⟩

/-- R15: a FREE frame becomes CLEAN for a block that has no DIRTY, PROGRAMMING or CLEAN frame. -/
theorem lawful_cache (l : b.lawful) (r : Rising b.frames) {x : Frame} (hx : x.state = .clean) (hf : b.Fresh x.idx)
    (hn : ∀ f ∈ b.frames, f.block = x.block → f.state = .filling) :
    ({ b with frames := insertFrame x b.frames, clean := b.clean ++ [x.idx] } : Staging).lawful := by
  obtain ⟨a, p, q, c, d, m⟩ := l
  have mem : ∀ {g : Frame}, g ∈ insertFrame x b.frames ↔ g = x ∨ g ∈ b.frames := fun {g} => by
    rw [mem_insertFrame_iff r]
    exact or_congr_right ⟨fun k => k.1, fun k => ⟨k, hf g k⟩⟩
  refine ⟨?_, p, fun i => ?_, ?_, fun i => ?_, fun g hg gs => ?_⟩
  · intro g hg k hk hi hb
    rcases mem.1 hg with e | e
    · subst e
      rcases mem.1 hk with e' | e'
      · exact absurd (e' ▸ rfl) hi
      · exact .inr (.inl (hn k e' hb.symm))
    · rcases mem.1 hk with e' | e'
      · subst e'; exact .inl (hn g e hb)
      · exact a g e k e' hi hb
  · rw [q i]
    constructor
    · rintro ⟨g, hg, k⟩
      exact ⟨g, mem.2 (.inr hg), k⟩
    · rintro ⟨g, hg, e, gs⟩
      rcases mem.1 hg with k | k
      · subst k; rw [hx] at gs; cases gs
      · exact ⟨g, k, e, gs⟩
  · refine List.nodup_append.2 ⟨c, List.nodup_singleton _, fun i h j hj e => ?_⟩
    rw [List.mem_singleton] at hj
    obtain ⟨g, hg, e', -⟩ := (d _).1 h
    exact hf g hg (by rw [e', e, hj])
  · rw [List.mem_append, List.mem_singleton, d i]
    constructor
    · rintro (⟨g, hg, k⟩ | e)
      · exact ⟨g, mem.2 (.inr hg), k⟩
      · exact ⟨x, mem.2 (.inl rfl), e.symm, hx⟩
    · rintro ⟨g, hg, e, gs⟩
      rcases mem.1 hg with k | k
      · subst k; exact .inr e.symm
      · exact .inl ⟨g, k, e, gs⟩
  · rcases mem.1 hg with k | k
    · subst k; rw [hx] at gs; cases gs
    · exact m g k gs

/-- R14: a CLEAN frame moves to the tail of the clean list. -/
theorem lawful_touch (l : b.lawful) {f : Frame} (hf : f ∈ b.frames) (hs : f.state = .clean) :
    ({ b with clean := (b.clean.filter fun i => decide (i ≠ f.idx)) ++ [f.idx] } : Staging).lawful := by
  obtain ⟨a, p, q, c, d, m⟩ := l
  refine ⟨a, p, q, ?_, fun i => ?_, m⟩
  · refine List.nodup_append.2 ⟨c.filter _, List.nodup_singleton _, fun i h j hj e => ?_⟩
    rw [List.mem_singleton] at hj
    exact of_decide_eq_true (List.mem_filter.1 h).2 (e.trans hj)
  · refine Iff.trans ?_ (d i)
    rw [List.mem_append, List.mem_filter, List.mem_singleton]
    constructor
    · rintro (k | k)
      · exact k.1
      · rw [k]; exact (d _).2 ⟨f, hf, rfl, hs⟩
    · intro k
      by_cases e : i = f.idx
      · exact .inr e
      · exact .inl ⟨k, decide_eq_true e⟩

/-! ### Allocation (R3) -/

theorem mem_freeIdx {i : Nat} (h : i ∈ b.freeIdx) : b.Fresh i := by
  intro f hf e
  have := (List.mem_filter.1 h).2
  simp only [Bool.not_eq_true', List.any_eq_false] at this
  exact this f hf (decide_eq_true e)

/-- An allocation takes no index twice. -/
theorem alloc_nodup (l : b.lawful) (n : Nat) : ((b.freeIdx ++ b.clean).take n).Nodup := by
  refine (List.take_sublist _ _).nodup (List.nodup_append.2 ⟨List.nodup_range.filter _, l.2.2.2.1, ?_⟩)
  intro i hi j hj e
  obtain ⟨f, hf, k, -⟩ := (l.2.2.2.2.1 j).1 hj
  exact mem_freeIdx hi f hf (k.trans e.symm)

/-- The frames that an allocation takes are FREE once the CLEAN ones among them are reclaimed. -/
theorem alloc_fresh (l : b.lawful) (r : Rising b.frames) {ids : List Nat} (h : ∀ i ∈ ids, i ∈ b.freeIdx ++ b.clean)
    {c : Staging} (hc : c.frames = b.frames.filter fun f => !(decide (f.state = .clean) && ids.contains f.idx)) :
    ∀ i ∈ ids, c.Fresh i := by
  intro i hi f hf e
  rw [hc] at hf
  obtain ⟨m, n⟩ := List.mem_filter.1 hf
  rcases List.mem_append.1 (h i hi) with k | k
  · exact mem_freeIdx k f m e
  · obtain ⟨g, hg, k, gs⟩ := (l.2.2.2.2.1 i).1 k
    have : g = f := r.inj hg m (k.trans e.symm)
    subst this
    simp [gs, e, hi] at n

/-! ### A frame becomes DIRTY (R9) -/

/-- The Staging Buffer after frame `x` has become DIRTY. -/
def dirtied (b : Staging) (x : Frame) : Staging :=
  let old := b.inState .dirty x.block
  let cl := b.inState .clean x.block
  { frames := insertFrame { x with state := .dirty, seq := some (nextSeq b.seq) } (b.frames.filter fun f =>
      decide (old.map (·.idx) ≠ some f.idx) && decide (cl.map (·.idx) ≠ some f.idx))
    progQ := match old with
      | some y => b.progQ.map fun i => if i = y.idx then x.idx else i
      | none => b.progQ ++ [x.idx]
    clean := b.clean.filter fun i => decide (cl.map (·.idx) ≠ some i)
    seq := nextSeq b.seq }

theorem dirtied_lawful (l : b.lawful) (r : Rising b.frames) {x : Frame}
    (hf : ∀ f ∈ b.frames, f.idx = x.idx → f.state = .filling) : (b.dirtied x).lawful :=
  lawful_dirty (x := { x with state := .dirty, seq := some (nextSeq b.seq) }) l r rfl hf _

theorem mem_dirtied {x f : Frame} (h : f ∈ (b.dirtied x).frames) : f.idx = x.idx ∨ f ∈ b.frames := by
  rcases mem_insertFrame h with e | e
  · exact .inl (by rw [e])
  · exact .inr (List.mem_filter.1 e).1

/-! ### Counts -/

/-- Frames leave, and others change in nothing that is counted: no count rises. -/
theorem attr_sublist {c : Staging} (h : c.frames.Sublist b.frames) (w : Writer) : c.attr w ≤ b.attr w := h.countP_le

theorem dirtyMarks_sublist {c : Staging} (h : c.frames.Sublist b.frames) : c.dirtyMarks ≤ b.dirtyMarks := h.countP_le

/-- A frame is listed: a count rises by one at most, and for its own writer only. -/
theorem attr_insert {c : Staging} {x : Frame} {fs : List Frame} (h : c.frames = insertFrame x fs)
    (k : fs.Sublist b.frames) (w : Writer) :
    c.attr w ≤ b.attr w + if x.staged && decide (x.writer = some w) then 1 else 0 := by
  unfold attr
  rw [h]
  exact (countP_insertFrame_le x fs _).trans (Nat.add_le_add_right k.countP_le _)

theorem dirtyMarks_insert {c : Staging} {x : Frame} {fs : List Frame} (h : c.frames = insertFrame x fs)
    (k : fs.Sublist b.frames) :
    c.dirtyMarks ≤ b.dirtyMarks + if x.isMark && decide (x.state = .dirty) then 1 else 0 := by
  unfold dirtyMarks
  rw [h]
  exact (countP_insertFrame_le x fs _).trans (Nat.add_le_add_right k.countP_le _)

/-- A frame takes the place of one of its index that is counted as it is: no count rises. -/
theorem countP_replace {c : Staging} {x g : Frame} {fs : List Frame} (P : Frame → Bool) (r : Rising b.frames)
    (h : c.frames = insertFrame x fs) (k : fs.Sublist b.frames) (hg : g ∈ fs) (e : g.idx = x.idx)
    (hp : P x = true → P g = true) : c.frames.countP P ≤ b.frames.countP P := by
  have h1 := countP_insertFrame_same (f := x) P (r.sublist k) hg e
  have h2 := k.countP_le (p := P)
  rw [h]
  cases hx : P x
  · simp only [hx, Bool.false_eq_true, if_false] at h1; omega
  · simp only [hx, hp hx, if_true] at h1; omega

theorem attr_dirtied (x : Frame) (w : Writer) :
    (b.dirtied x).attr w ≤ b.attr w + if x.writer = some w then 1 else 0 := by
  refine (attr_insert rfl List.filter_sublist w).trans (Nat.add_le_add_left ?_ _)
  by_cases h : x.writer = some w
  · rw [if_pos h]; split <;> omega
  · simp [h]

theorem dirtyMarks_dirtied (x : Frame) : (b.dirtied x).dirtyMarks ≤ b.dirtyMarks + if x.isMark then 1 else 0 := by
  refine (dirtyMarks_insert rfl List.filter_sublist).trans (Nat.add_le_add_left ?_ _)
  rw [show ({ x with state := .dirty, seq := some (nextSeq b.seq) } : Frame).isMark = x.isMark from rfl]
  cases x.isMark <;> simp

/-- A frame that was FILLING already: no count rises. -/
theorem attr_dirtied_same {x g : Frame} (r : Rising b.frames) (hg : g ∈ b.frames) (hi : g.idx = x.idx)
    (hs : g.state = .filling) (hw : g.writer = x.writer) (w : Writer) : (b.dirtied x).attr w ≤ b.attr w := by
  refine countP_replace _ r rfl List.filter_sublist (List.mem_filter.2 ⟨hg, ?_⟩) hi ?_
  · simp only [Bool.and_eq_true, decide_eq_true_eq]
    refine ⟨fun k => ?_, fun k => ?_⟩
    · cases h : b.inState .dirty x.block with
      | none => rw [h] at k; cases k
      | some y =>
        obtain ⟨hy, ys, -⟩ := mem_of_inState h
        rw [h] at k
        rw [r.inj hy hg (Option.some.inj k), hs] at ys; cases ys
    · cases h : b.inState .clean x.block with
      | none => rw [h] at k; cases k
      | some y =>
        obtain ⟨hy, ys, -⟩ := mem_of_inState h
        rw [h] at k
        rw [r.inj hy hg (Option.some.inj k), hs] at ys; cases ys
  · intro h
    simp only [Frame.staged, hs, hw] at h ⊢
    simpa using h

end Staging

end Sys2Proof.Machine
end

