-- ==== Sys2Proof/Laws/Keeps.lean ====
section
/-! SUPPORT. What an operation can do, said once for each: `Keeps K s t` says that going from `s` to `t` changes nothing but
the components of `K`, takes no frame out of a transmit queue unless `drop` is in `K`, opens no shut port unless `opens` is,
makes no command record unless `adds` is, and keeps each law of Safety.lean by itself. It is closed under composition; the files beside this one give it for every shared operation. -/

namespace Sys2Proof.Machine

/-- The components of the part; `drop` is the removal of frames from a transmit queue, `opens` that a port leaves CLOSED or
DRAINING for another state, `adds` that a command record is made. -/
inductive Comp where
  | pins | links | drop | sess | opens | cmds | adds | sb | lease | media | disk | integ | scrub | md | faults | time | free
deriving DecidableEq, Repr

/-- A port that is CLOSED or DRAINING. -/
def Session.shut (x : Session) : Prop := x.state = .closed ∨ x.state = .draining

/-- What names a command record: its tag place and its place in the order of receipt. -/
def Cmd.name (c : Cmd) : Key × Nat := (c.key, c.receipt)

/-- No command record is made. -/
def Narrows (s t : Part) : Prop :=
  (t.cmds.recs.map Cmd.name).Sublist (s.cmds.recs.map Cmd.name) ∧ t.cmds.nextReceipt = s.cmds.nextReceipt

theorem Narrows.table {s t : Part} (h : Narrows s t) (l : s.tableLaw) : t.tableLaw := by
  obtain ⟨h1, h2⟩ := h
  obtain ⟨a, b, c⟩ := l
  refine ⟨?_, ?_, ?_⟩
  · have := (h1.map Prod.fst).nodup (by simpa [List.map_map, Function.comp_def, Cmd.name] using a)
    simpa [List.map_map, Function.comp_def, Cmd.name] using this
  · have := (List.pairwise_map (f := Cmd.name) (R := fun x y => x.2 < y.2)).2 b
    exact (List.pairwise_map (f := Cmd.name) (R := fun x y => x.2 < y.2)).1 (this.sublist h1)
  · intro d hd
    obtain ⟨e, he, k⟩ := List.mem_map.1 (h1.subset (List.mem_map_of_mem hd))
    rw [h2, ← show e.receipt = d.receipt from congrArg Prod.snd k]
    exact c e he

/-- The laws of the Staging Buffer's lists are kept, and with them the quotas and the room in the poison map. -/
structure Buf (s t : Part) : Prop where
  staging : s.stagingLaw → t.stagingLaw
  quota : s.stagingLaw → s.quotaLaw → t.quotaLaw
  room : s.stagingLaw → s.roomLaw → t.roomLaw

theorem Buf.refl (s : Part) : Buf s s := ⟨id, fun _ => id, fun _ => id⟩

theorem Buf.trans {s t u : Part} (a : Buf s t) (b : Buf t u) : Buf s u :=
  ⟨b.staging ∘ a.staging, fun h k => b.quota (a.staging h) (a.quota h k), fun h k => b.room (a.staging h) (a.room h k)⟩

namespace Part

variable {s : Part}

/-- R159: nothing that the law of the start-up reads looks at has grown. -/
theorem startLaw_of {t : Part} (hr : t.copyReads ≤ s.copyReads) (hd : t.md.device = s.md.device)
    (hu : t.md.startUp = s.md.startUp) (hw : t.writesCopy = true → s.writesCopy = true)
    (hm : t.sb.dirtyMarks ≤ s.sb.dirtyMarks) (h : s.startLaw) : t.startLaw := by
  refine ⟨fun k => ?_, fun k => ?_⟩
  · obtain ⟨a, b, c, d⟩ := h.1 (k.trans_le hr)
    refine ⟨by omega, hd.trans b, hu.trans c, ?_⟩
    by_contra n
    rw [hw (by simpa using n)] at d
    cases d
  · have := h.2 (hd.symm.trans k)
    omega

/-- The Media Engine changes: no start-up read more is under way, and no copy is written that was not. -/
theorem buf_ops {x : MediaEngine} (hr : (s.withMedia x).copyReads ≤ s.copyReads)
    (hm : ∀ m, (s.withMedia x).writing = some m → s.writing = some m)
    (hw : (s.withMedia x).writesCopy = true → s.writesCopy = true) : Buf s (s.withMedia x) := by
  refine ⟨id, fun _ => id, fun _ => ?_⟩
  rintro ⟨a, b, c, d, e, f⟩
  exact ⟨a, b, c, fun m k => d m (hm m k), e, startLaw_of (s := s) hr rfl rfl hw (le_refl _) f⟩

/-- The Media Engine's current operation ends or stays, and no start-up read is asked for. -/
theorem buf_media {x : MediaEngine} (hc : x.current = s.media.current ∨ x.current = none)
    (hq : x.commitReq = s.media.commitReq ∨ ∀ c, x.commitReq ≠ some (.readCopy c)) : Buf s (s.withMedia x) := by
  refine buf_ops ?_ (fun m k => ?_) fun k => ?_
  · unfold copyReads
    refine Nat.add_le_add ?_ ?_
    · rcases hc with hc | hc
      · simp only [withMedia_media, hc]; exact le_refl _
      · simp only [withMedia_media, hc]; exact Nat.zero_le _
    · rcases hq with hq | hq
      · simp only [withMedia_media, hq]; exact le_refl _
      · have : (match x.commitReq with | some (.readCopy _) => 1 | _ => 0) = 0 := by
          split
          · rename_i c hc'; exact absurd hc' (hq c)
          · rfl
        exact (le_of_eq this).trans (Nat.zero_le _)
  · rcases hc with hc | hc
    · simpa only [writing, withMedia_media, hc] using k
    · simp [writing, hc] at k
  · rcases hc with hc | hc
    · simpa only [writesCopy, withMedia_media, hc] using k
    · simp [writesCopy, hc] at k

/-- The device state and what the start-up waits on stay. -/
theorem buf_md {x : MetaUnit} (hd : x.device = s.md.device) (hu : x.startUp = s.md.startUp)
    (hr : x.resetImage = s.md.resetImage ∨ x.resetImage = none) : Buf s (s.withMd x) := by
  refine ⟨id, fun _ => id, fun _ => ?_⟩
  rintro ⟨a, b, c, d, e, f⟩
  refine ⟨a, b, c, d, fun m k => ?_, startLaw_of (s := s) (le_refl _) hd hu id (le_refl _) f⟩
  rcases hr with hr | hr
  · exact e m (by simpa only [withMd_md, hr] using k)
  · simp [hr] at k

/-- The poison map does not grow. -/
theorem buf_integ {x : IntegrityUnit} (h : x.poison.length ≤ s.integ.poison.length) : Buf s (s.withInteg x) :=
  ⟨id, fun _ => id, fun _ l => ⟨(Nat.add_le_add_right h _).trans l.1, l.2⟩⟩

/-- The quota of the port's session stays. -/
theorem buf_sess {p : Port} {x : Session} (h : x.quota = (s.session p).quota) : Buf s (s.setSession p x) := by
  refine ⟨id, fun _ l => ⟨fun q => ?_, l.2⟩, fun _ => id⟩
  have := l.1 q
  by_cases e : q = p
  · subst e
    show s.sb.attr _ ≤ ((s.withSess (s.sess.set q x)).session q).quota
    rw [show (s.withSess (s.sess.set q x)).session q = x from PerPort.get_set_same .., h]
    exact this
  · show s.sb.attr _ ≤ ((s.withSess (s.sess.set p x)).session q).quota
    rw [show (s.withSess (s.sess.set p x)).session q = s.session q from PerPort.get_set_ne _ _ _ _ e]
    exact this

/-- A move of the Staging Buffer in which no count rises. -/
theorem buf_sb {x : Staging} (g : s.frameLaw → (s.withSb x).frameLaw) (l : s.stagingLaw → x.lawful)
    (q : s.stagingLaw → ∀ w, x.attr w ≤ s.sb.attr w) (d : s.stagingLaw → x.dirtyMarks ≤ s.sb.dirtyMarks) :
    Buf s (s.withSb x) := by
  refine ⟨fun h => ⟨g h.1, l h⟩, fun h k => ⟨fun p => (q h _).trans (k.1 p), (q h _).trans k.2⟩, fun h k => ?_⟩
  exact ⟨(Nat.add_le_add_left (d h) _).trans k.1, k.2.1, k.2.2.1, k.2.2.2.1, k.2.2.2.2.1,
    startLaw_of (s := s) (le_refl _) rfl rfl id (d h) k.2.2.2.2.2⟩

end Part

/-- Each law is kept by itself. -/
structure Kept (s t : Part) : Prop where
  store : s.storeLaw → t.storeLaw
  image : s.metaLaw → t.metaLaw
  link : s.linkLaw → t.linkLaw
  lease : s.leaseLaw → t.leaseLaw
  session : s.sessionLaw → t.sessionLaw
  frame : s.frameLaw → t.frameLaw
  readRun : s.readRunLaw → t.readRunLaw
  refresh : s.refreshLaw → t.refreshLaw
  commit : s.commitLaw → t.commitLaw
  table : s.tableLaw → t.tableLaw
  buf : Buf s t

theorem Kept.refl (s : Part) : Kept s s := ⟨id, id, id, id, id, id, id, id, id, id, Buf.refl s⟩

theorem Kept.trans {s t u : Part} (a : Kept s t) (b : Kept t u) : Kept s u :=
  ⟨b.store ∘ a.store, b.image ∘ a.image, b.link ∘ a.link, b.lease ∘ a.lease, b.session ∘ a.session, b.frame ∘ a.frame,
    b.readRun ∘ a.readRun, b.refresh ∘ a.refresh, b.commit ∘ a.commit, b.table ∘ a.table, a.buf.trans b.buf⟩

/-- Only the components of `K` change, and the laws are kept. -/
structure Keeps (K : List Comp) (s t : Part) : Prop where
  pins : .pins ∉ K → t.pins = s.pins
  links : .links ∉ K → t.links = s.links
  txq : .drop ∉ K → ∀ p, (s.lc p).txq <+: (t.lc p).txq
  sess : .sess ∉ K → t.sess = s.sess
  shut : .opens ∉ K → ∀ p, (s.session p).shut → (t.session p).shut
  cmds : .cmds ∉ K → t.cmds = s.cmds
  recs : .adds ∉ K → s.tableLaw → Narrows s t
  sb : .sb ∉ K → t.sb = s.sb
  lease : .lease ∉ K → t.lease = s.lease
  media : .media ∉ K → t.media = s.media
  disk : .disk ∉ K → t.disk = s.disk
  integ : .integ ∉ K → t.integ = s.integ
  scrub : .scrub ∉ K → t.scrub = s.scrub
  md : .md ∉ K → t.md = s.md
  faults : .faults ∉ K → t.faults = s.faults
  time : .time ∉ K → t.time = s.time
  free : .free ∉ K → t.free = s.free
  laws : Kept s t

theorem Keeps.refl {K : List Comp} (s : Part) : Keeps K s s :=
  ⟨fun _ => rfl, fun _ => rfl, fun _ _ => List.prefix_refl _, fun _ => rfl, fun _ _ => id, fun _ => rfl,
    fun _ _ => ⟨List.Sublist.refl _, rfl⟩, fun _ => rfl, fun _ => rfl, fun _ => rfl, fun _ => rfl, fun _ => rfl, fun _ => rfl,
    fun _ => rfl, fun _ => rfl, fun _ => rfl, fun _ => rfl, Kept.refl s⟩

theorem Keeps.trans {K : List Comp} {s t u : Part} (a : Keeps K s t) (b : Keeps K t u) : Keeps K s u :=
  ⟨fun h => (b.pins h).trans (a.pins h), fun h => (b.links h).trans (a.links h),
    fun h p => (a.txq h p).trans (b.txq h p), fun h => (b.sess h).trans (a.sess h),
    fun h p q => b.shut h p (a.shut h p q), fun h => (b.cmds h).trans (a.cmds h),
    fun h l => ⟨(b.recs h (a.laws.table l)).1.trans (a.recs h l).1, (b.recs h (a.laws.table l)).2.trans (a.recs h l).2⟩,
    fun h => (b.sb h).trans (a.sb h), fun h => (b.lease h).trans (a.lease h), fun h => (b.media h).trans (a.media h),
    fun h => (b.disk h).trans (a.disk h), fun h => (b.integ h).trans (a.integ h), fun h => (b.scrub h).trans (a.scrub h),
    fun h => (b.md h).trans (a.md h), fun h => (b.faults h).trans (a.faults h), fun h => (b.time h).trans (a.time h),
    fun h => (b.free h).trans (a.free h), a.laws.trans b.laws⟩

theorem Keeps.mono {K L : List Comp} {s t : Part} (a : Keeps K s t) (h : K ⊆ L) : Keeps L s t :=
  ⟨fun n => a.pins fun m => n (h m), fun n => a.links fun m => n (h m), fun n => a.txq fun m => n (h m),
    fun n => a.sess fun m => n (h m), fun n => a.shut fun m => n (h m), fun n => a.cmds fun m => n (h m),
    fun n => a.recs fun m => n (h m), fun n => a.sb fun m => n (h m),
    fun n => a.lease fun m => n (h m), fun n => a.media fun m => n (h m), fun n => a.disk fun m => n (h m),
    fun n => a.integ fun m => n (h m), fun n => a.scrub fun m => n (h m), fun n => a.md fun m => n (h m),
    fun n => a.faults fun m => n (h m), fun n => a.time fun m => n (h m), fun n => a.free fun m => n (h m), a.laws⟩

/-- A further operation follows, whose components are among those of `K`. -/
theorem Keeps.next {K L : List Comp} {s t u : Part} (b : Keeps L t u) (h : L ⊆ K) (a : Keeps K s t) : Keeps K s u :=
  a.trans (b.mono h)

/-- A fold of operations that each change only components of `K`. -/
theorem Keeps.foldl {K : List Comp} {α : Type} (f : Part → α → Part) (h : ∀ s x, Keeps K s (f s x)) (xs : List α) :
    ∀ s, Keeps K s (xs.foldl f s) := by
  induction xs with
  | nil => exact fun s => Keeps.refl s
  | cons x xs ih => exact fun s => (h s x).trans (ih (f s x))

/-! ### Ports -/

@[simp] theorem Part.lc_setLc_same (s : Part) (p : Port) (l : Lc) : (s.setLc p l).lc p = l := PerPort.get_set_same ..

@[simp] theorem Part.lc_setLc_ne (s : Part) (p q : Port) (l : Lc) (h : q ≠ p) : (s.setLc p l).lc q = s.lc q :=
  PerPort.get_set_ne _ _ _ _ h

@[simp] theorem Part.session_setSession_same (s : Part) (p : Port) (x : Session) : (s.setSession p x).session p = x :=
  PerPort.get_set_same ..

@[simp] theorem Part.session_setSession_ne (s : Part) (p q : Port) (x : Session) (h : q ≠ p) :
    (s.setSession p x).session q = s.session q := PerPort.get_set_ne _ _ _ _ h

/-! ### The primitive updates -/

namespace Keeps

variable (s : Part)

theorem ofPins (x : Pins) : Keeps [.pins] s (s.withPins x) := by
  refine ⟨?_, ?_, ?_, ?_, ?_, ?_, ?_, ?_, ?_, ?_, ?_, ?_, ?_, ?_, ?_, ?_, ?_,
    ⟨id, id, id, id, id, id, id, id, id, id, ⟨id, fun _ => id, fun _ => id⟩⟩⟩ <;> intro h
  all_goals first
    | rfl
    | exact fun _ => List.prefix_refl _
    | exact fun _ => id
    | exact fun _ => ⟨List.Sublist.refl _, rfl⟩
    | exact absurd (by decide) h

theorem ofTime (x : Timebase) : Keeps [.time] s (s.withTime x) := by
  refine ⟨?_, ?_, ?_, ?_, ?_, ?_, ?_, ?_, ?_, ?_, ?_, ?_, ?_, ?_, ?_, ?_, ?_,
    ⟨id, id, id, id, id, id, id, id, id, id, ⟨id, fun _ => id, fun _ => id⟩⟩⟩ <;> intro h
  all_goals first
    | rfl
    | exact fun _ => List.prefix_refl _
    | exact fun _ => id
    | exact fun _ => ⟨List.Sublist.refl _, rfl⟩
    | exact absurd (by decide) h

theorem ofFree (x : Nat) : Keeps [.free] s (s.withFree x) := by
  refine ⟨?_, ?_, ?_, ?_, ?_, ?_, ?_, ?_, ?_, ?_, ?_, ?_, ?_, ?_, ?_, ?_, ?_,
    ⟨id, id, id, id, id, id, id, id, id, id, ⟨id, fun _ => id, fun _ => id⟩⟩⟩ <;> intro h
  all_goals first
    | rfl
    | exact fun _ => List.prefix_refl _
    | exact fun _ => id
    | exact fun _ => ⟨List.Sublist.refl _, rfl⟩
    | exact absurd (by decide) h

/-- The Command Table changes and no record is made. -/
theorem ofCmds (x : CommandTable) (g : s.tableLaw → Narrows s (s.withCmds x)) : Keeps [.cmds] s (s.withCmds x) := by
  refine ⟨?_, ?_, ?_, ?_, ?_, ?_, ?_, ?_, ?_, ?_, ?_, ?_, ?_, ?_, ?_, ?_, ?_,
    ⟨id, id, id, id, id, id, id, id, id, fun l => (g l).table l, ⟨id, fun _ => id, fun _ => id⟩⟩⟩ <;> intro h
  all_goals first
    | rfl
    | exact fun _ => List.prefix_refl _
    | exact fun _ => id
    | exact g
    | exact absurd (by decide) h

/-- The Command Table changes. -/
theorem ofCmdsAdds (x : CommandTable) (g : s.tableLaw → (s.withCmds x).tableLaw) :
    Keeps [.cmds, .adds] s (s.withCmds x) := by
  refine ⟨?_, ?_, ?_, ?_, ?_, ?_, ?_, ?_, ?_, ?_, ?_, ?_, ?_, ?_, ?_, ?_, ?_,
    ⟨id, id, id, id, id, id, id, id, id, g, ⟨id, fun _ => id, fun _ => id⟩⟩⟩ <;> intro h
  all_goals first
    | rfl
    | exact fun _ => List.prefix_refl _
    | exact fun _ => id
    | exact absurd (by decide) h

theorem ofScrub (x : Scrub) : Keeps [.scrub] s (s.withScrub x) := by
  refine ⟨?_, ?_, ?_, ?_, ?_, ?_, ?_, ?_, ?_, ?_, ?_, ?_, ?_, ?_, ?_, ?_, ?_,
    ⟨id, id, id, id, id, id, id, id, id, id, ⟨id, fun _ => id, fun _ => id⟩⟩⟩ <;> intro h
  all_goals first
    | rfl
    | exact fun _ => List.prefix_refl _
    | exact fun _ => id
    | exact fun _ => ⟨List.Sublist.refl _, rfl⟩
    | exact absurd (by decide) h

theorem ofSb (x : Staging) (g : s.frameLaw → (s.withSb x).frameLaw) (m : Buf s (s.withSb x)) : Keeps [.sb] s (s.withSb x) := by
  refine ⟨?_, ?_, ?_, ?_, ?_, ?_, ?_, ?_, ?_, ?_, ?_, ?_, ?_, ?_, ?_, ?_, ?_,
    ⟨id, id, id, id, id, g, id, id, id, id, m⟩⟩ <;> intro h
  all_goals first
    | rfl
    | exact fun _ => List.prefix_refl _
    | exact fun _ => id
    | exact fun _ => ⟨List.Sublist.refl _, rfl⟩
    | exact absurd (by decide) h

theorem ofLease (x : LeaseUnit) (g : s.leaseLaw → (s.withLease x).leaseLaw)
    (k : s.sessionLaw → (s.withLease x).sessionLaw) : Keeps [.lease] s (s.withLease x) := by
  refine ⟨?_, ?_, ?_, ?_, ?_, ?_, ?_, ?_, ?_, ?_, ?_, ?_, ?_, ?_, ?_, ?_, ?_,
    ⟨id, id, id, g, k, id, id, id, id, id, ⟨id, fun _ => id, fun _ => id⟩⟩⟩ <;> intro h
  all_goals first
    | rfl
    | exact fun _ => List.prefix_refl _
    | exact fun _ => id
    | exact fun _ => ⟨List.Sublist.refl _, rfl⟩
    | exact absurd (by decide) h

theorem ofMedia (x : MediaEngine) (g : s.metaLaw → (s.withMedia x).metaLaw)
    (r : s.readRunLaw → (s.withMedia x).readRunLaw) (f : s.refreshLaw → (s.withMedia x).refreshLaw)
    (m : Buf s (s.withMedia x)) :
    Keeps [.media] s (s.withMedia x) := by
  refine ⟨?_, ?_, ?_, ?_, ?_, ?_, ?_, ?_, ?_, ?_, ?_, ?_, ?_, ?_, ?_, ?_, ?_,
    ⟨id, g, id, id, id, id, r, f, id, id, m⟩⟩ <;> intro h
  all_goals first
    | rfl
    | exact fun _ => List.prefix_refl _
    | exact fun _ => id
    | exact fun _ => ⟨List.Sublist.refl _, rfl⟩
    | exact absurd (by decide) h

theorem ofDisk (x : Disk) (g : s.storeLaw → (s.withDisk x).storeLaw) (k : s.metaLaw → (s.withDisk x).metaLaw)
    (m : Buf s (s.withDisk x)) :
    Keeps [.disk] s (s.withDisk x) := by
  refine ⟨?_, ?_, ?_, ?_, ?_, ?_, ?_, ?_, ?_, ?_, ?_, ?_, ?_, ?_, ?_, ?_, ?_,
    ⟨g, k, id, id, id, id, id, id, id, id, m⟩⟩ <;> intro h
  all_goals first
    | rfl
    | exact fun _ => List.prefix_refl _
    | exact fun _ => id
    | exact fun _ => ⟨List.Sublist.refl _, rfl⟩
    | exact absurd (by decide) h

theorem ofInteg (x : IntegrityUnit) (g : s.metaLaw → (s.withInteg x).metaLaw) (m : Buf s (s.withInteg x)) : Keeps [.integ] s (s.withInteg x) := by
  refine ⟨?_, ?_, ?_, ?_, ?_, ?_, ?_, ?_, ?_, ?_, ?_, ?_, ?_, ?_, ?_, ?_, ?_,
    ⟨id, g, id, id, id, id, id, id, id, id, m⟩⟩ <;> intro h
  all_goals first
    | rfl
    | exact fun _ => List.prefix_refl _
    | exact fun _ => id
    | exact fun _ => ⟨List.Sublist.refl _, rfl⟩
    | exact absurd (by decide) h

theorem ofMd (x : MetaUnit) (g : s.metaLaw → (s.withMd x).metaLaw) (k : s.commitLaw → (s.withMd x).commitLaw)
    (m : Buf s (s.withMd x)) :
    Keeps [.md] s (s.withMd x) := by
  refine ⟨?_, ?_, ?_, ?_, ?_, ?_, ?_, ?_, ?_, ?_, ?_, ?_, ?_, ?_, ?_, ?_, ?_,
    ⟨id, g, id, id, id, id, id, id, k, id, m⟩⟩ <;> intro h
  all_goals first
    | rfl
    | exact fun _ => List.prefix_refl _
    | exact fun _ => id
    | exact fun _ => ⟨List.Sublist.refl _, rfl⟩
    | exact absurd (by decide) h

theorem ofFaults (x : FaultList) (g : s.metaLaw → (s.withFaults x).metaLaw) : Keeps [.faults] s (s.withFaults x) := by
  refine ⟨?_, ?_, ?_, ?_, ?_, ?_, ?_, ?_, ?_, ?_, ?_, ?_, ?_, ?_, ?_, ?_, ?_,
    ⟨id, g, id, id, id, id, id, id, id, id, ⟨id, fun _ => id, fun _ => id⟩⟩⟩ <;> intro h
  all_goals first
    | rfl
    | exact fun _ => List.prefix_refl _
    | exact fun _ => id
    | exact fun _ => ⟨List.Sublist.refl _, rfl⟩
    | exact absurd (by decide) h

theorem ofSess (p : Port) (x : Session) (g : s.sessionLaw → (s.setSession p x).sessionLaw)
    (k : (s.session p).shut → x.shut) (m : Buf s (s.setSession p x)) : Keeps [.sess] s (s.setSession p x) := by
  refine ⟨?_, ?_, ?_, ?_, ?_, ?_, ?_, ?_, ?_, ?_, ?_, ?_, ?_, ?_, ?_, ?_, ?_,
    ⟨id, id, id, id, g, id, id, id, id, id, m⟩⟩ <;> intro h
  case refine_5 =>
    intro q
    by_cases e : q = p
    · subst e; simpa using k
    · simp [e]
  all_goals first
    | rfl
    | exact fun _ => List.prefix_refl _
    | exact fun _ => ⟨List.Sublist.refl _, rfl⟩
    | exact absurd (by decide) h

/-- A port's session changes, perhaps out of CLOSED or DRAINING. -/
theorem ofSessOpens (p : Port) (x : Session) (g : s.sessionLaw → (s.setSession p x).sessionLaw)
    (m : Buf s (s.setSession p x)) :
    Keeps [.sess, .opens] s (s.setSession p x) := by
  refine ⟨?_, ?_, ?_, ?_, ?_, ?_, ?_, ?_, ?_, ?_, ?_, ?_, ?_, ?_, ?_, ?_, ?_,
    ⟨id, id, id, id, g, id, id, id, id, id, m⟩⟩ <;> intro h
  all_goals first
    | rfl
    | exact fun _ => List.prefix_refl _
    | exact fun _ => ⟨List.Sublist.refl _, rfl⟩
    | exact absurd (by decide) h

end Keeps

/-! ### Link controllers -/

theorem Part.linkLaw_setLc {s : Part} {p : Port} {l : Lc} (h : (s.lc p).lawful → l.lawful) (k : s.linkLaw) :
    (s.setLc p l).linkLaw := by
  intro q
  by_cases e : q = p
  · subst e; simpa using h (k q)
  · simpa [e] using k q

namespace Keeps

variable (s : Part)

/-- A link controller changes and loses no queued frame. -/
theorem ofLc (p : Port) (l : Lc) (h : (s.lc p).lawful → l.lawful) (q : (s.lc p).txq <+: l.txq) :
    Keeps [.links] s (s.setLc p l) := by
  refine ⟨?_, ?_, ?_, ?_, ?_, ?_, ?_, ?_, ?_, ?_, ?_, ?_, ?_, ?_, ?_, ?_, ?_,
    ⟨id, id, Part.linkLaw_setLc h, id, id, id, id, id, id, id, ⟨id, fun _ => id, fun _ => id⟩⟩⟩ <;> intro k
  case refine_3 =>
    intro r
    by_cases e : r = p
    · subst e; simpa using q
    · simp [e]
  all_goals first
    | rfl
    | exact fun _ => id
    | exact fun _ => ⟨List.Sublist.refl _, rfl⟩
    | exact absurd (by decide) k

/-- A link controller changes and may lose queued frames. -/
theorem ofLcDrop (p : Port) (l : Lc) (h : (s.lc p).lawful → l.lawful) : Keeps [.links, .drop] s (s.setLc p l) := by
  refine ⟨?_, ?_, ?_, ?_, ?_, ?_, ?_, ?_, ?_, ?_, ?_, ?_, ?_, ?_, ?_, ?_, ?_,
    ⟨id, id, Part.linkLaw_setLc h, id, id, id, id, id, id, id, ⟨id, fun _ => id, fun _ => id⟩⟩⟩ <;> intro k
  all_goals first
    | rfl
    | exact fun _ => id
    | exact fun _ => ⟨List.Sublist.refl _, rfl⟩
    | exact absurd (by decide) k

/-- The Media Engine changes in nothing that the laws of the metadata set look at. -/
theorem ofMediaPlain (x : MediaEngine) (hr : x.remap = s.media.remap) (hs : x.spares = s.media.spares)
    (hc : x.current = s.media.current ∨ x.current = none) (hn : x.readRun = s.media.readRun ∨ x.readRun = 0)
    (hf : x.refresh.Sublist s.media.refresh)
    (hq : x.commitReq = s.media.commitReq ∨ ∀ c, x.commitReq ≠ some (.readCopy c)) : Keeps [.media] s (s.withMedia x) := by
  refine ofMedia s x ?_ ?_ ?_ (Part.buf_media hc hq)
  · rintro ⟨a, b, c, d, e, f⟩
    refine ⟨?_, ?_, c, d, ?_, f⟩
    · have : (s.withMedia x).image = s.image := by simp only [Part.image, Part.withMedia_integ, Part.withMedia_media, hr, hs, Part.withMedia_faults, Part.withMedia_md, Part.withMedia_time]
      rw [this]; exact a
    · intro sp h
      rw [show (s.withMedia x).media.spares = s.media.spares from hs]
      rcases hc with hc | hc
      · exact b sp (by simpa only [Part.trialSpare, Part.withMedia_media, hc] using h)
      · simp [Part.trialSpare, hc] at h
    · intro m h
      rcases hc with hc | hc
      · exact e m (by simpa only [Part.writing, Part.withMedia_media, hc] using h)
      · simp [Part.writing, hc] at h
  · intro h
    rcases hn with hn | hn
    · simpa only [Part.readRunLaw, Part.withMedia_media, hn] using h
    · simp [Part.readRunLaw, hn]
  · rintro ⟨a, b⟩
    exact ⟨(hf.map _).nodup a, hf.length_le.trans b⟩

end Keeps

/-! ### An update whose law rests on what held at the start -/

namespace Keeps

variable {K : List Comp} {a s : Part}

theorem andSb (e : Keeps K a s) (hK : .sb ∈ K) (x : Staging)
    (g : a.frameLaw → s.frameLaw → (s.withSb x).frameLaw)
    (m : Buf a s → Buf a (s.withSb x)) : Keeps K a (s.withSb x) :=
  ⟨e.pins, e.links, e.txq, e.sess, e.shut, e.cmds, e.recs, fun n => absurd hK n, e.lease, e.media, e.disk, e.integ, e.scrub, e.md,
    e.faults, e.time, e.free, ⟨e.laws.store, e.laws.image, e.laws.link, e.laws.lease, e.laws.session,
      fun h => g h (e.laws.frame h), e.laws.readRun, e.laws.refresh, e.laws.commit, e.laws.table, m e.laws.buf⟩⟩

theorem andLease (e : Keeps K a s) (hK : .lease ∈ K) (x : LeaseUnit)
    (g : a.leaseLaw → s.leaseLaw → (s.withLease x).leaseLaw)
    (k : a.sessionLaw → s.sessionLaw → (s.withLease x).sessionLaw) : Keeps K a (s.withLease x) :=
  ⟨e.pins, e.links, e.txq, e.sess, e.shut, e.cmds, e.recs, e.sb, fun n => absurd hK n, e.media, e.disk, e.integ, e.scrub, e.md,
    e.faults, e.time, e.free, ⟨e.laws.store, e.laws.image, e.laws.link, fun h => g h (e.laws.lease h),
      fun h => k h (e.laws.session h), e.laws.frame, e.laws.readRun, e.laws.refresh, e.laws.commit, e.laws.table, e.laws.buf.trans ⟨id, fun _ => id, fun _ => id⟩⟩⟩

theorem andMedia (e : Keeps K a s) (hK : .media ∈ K) (x : MediaEngine)
    (g : a.metaLaw → s.metaLaw → (s.withMedia x).metaLaw)
    (r : a.readRunLaw → s.readRunLaw → (s.withMedia x).readRunLaw)
    (f : a.refreshLaw → s.refreshLaw → (s.withMedia x).refreshLaw)
    (m : Buf a s → Buf a (s.withMedia x)) : Keeps K a (s.withMedia x) :=
  ⟨e.pins, e.links, e.txq, e.sess, e.shut, e.cmds, e.recs, e.sb, e.lease, fun n => absurd hK n, e.disk, e.integ, e.scrub, e.md,
    e.faults, e.time, e.free, ⟨e.laws.store, fun h => g h (e.laws.image h), e.laws.link, e.laws.lease, e.laws.session,
      e.laws.frame, fun h => r h (e.laws.readRun h), fun h => f h (e.laws.refresh h), e.laws.commit, e.laws.table, m e.laws.buf⟩⟩

theorem andDisk (e : Keeps K a s) (hK : .disk ∈ K) (x : Disk)
    (g : a.storeLaw → s.storeLaw → (s.withDisk x).storeLaw)
    (m : a.metaLaw → s.metaLaw → (s.withDisk x).metaLaw)
    (n : Buf a s → Buf a (s.withDisk x)) : Keeps K a (s.withDisk x) :=
  ⟨e.pins, e.links, e.txq, e.sess, e.shut, e.cmds, e.recs, e.sb, e.lease, e.media, fun n => absurd hK n, e.integ, e.scrub, e.md,
    e.faults, e.time, e.free, ⟨fun h => g h (e.laws.store h), fun h => m h (e.laws.image h), e.laws.link, e.laws.lease,
      e.laws.session, e.laws.frame, e.laws.readRun, e.laws.refresh, e.laws.commit, e.laws.table, n e.laws.buf⟩⟩

theorem andInteg (e : Keeps K a s) (hK : .integ ∈ K) (x : IntegrityUnit)
    (g : a.metaLaw → s.metaLaw → (s.withInteg x).metaLaw)
    (m : Buf a s → Buf a (s.withInteg x)) : Keeps K a (s.withInteg x) :=
  ⟨e.pins, e.links, e.txq, e.sess, e.shut, e.cmds, e.recs, e.sb, e.lease, e.media, e.disk, fun n => absurd hK n, e.scrub, e.md,
    e.faults, e.time, e.free, ⟨e.laws.store, fun h => g h (e.laws.image h), e.laws.link, e.laws.lease,
      e.laws.session, e.laws.frame, e.laws.readRun, e.laws.refresh, e.laws.commit, e.laws.table, m e.laws.buf⟩⟩

theorem andFaults (e : Keeps K a s) (hK : .faults ∈ K) (x : FaultList)
    (g : a.metaLaw → s.metaLaw → (s.withFaults x).metaLaw) : Keeps K a (s.withFaults x) :=
  ⟨e.pins, e.links, e.txq, e.sess, e.shut, e.cmds, e.recs, e.sb, e.lease, e.media, e.disk, e.integ, e.scrub, e.md,
    fun n => absurd hK n, e.time, e.free, ⟨e.laws.store, fun h => g h (e.laws.image h), e.laws.link, e.laws.lease,
      e.laws.session, e.laws.frame, e.laws.readRun, e.laws.refresh, e.laws.commit, e.laws.table, e.laws.buf.trans ⟨id, fun _ => id, fun _ => id⟩⟩⟩

theorem andMd (e : Keeps K a s) (hK : .md ∈ K) (x : MetaUnit)
    (g : a.metaLaw → s.metaLaw → (s.withMd x).metaLaw) (k : a.commitLaw → s.commitLaw → (s.withMd x).commitLaw)
    (m : Buf a s → Buf a (s.withMd x)) :
    Keeps K a (s.withMd x) :=
  ⟨e.pins, e.links, e.txq, e.sess, e.shut, e.cmds, e.recs, e.sb, e.lease, e.media, e.disk, e.integ, e.scrub,
    fun n => absurd hK n, e.faults, e.time, e.free, ⟨e.laws.store, fun h => g h (e.laws.image h), e.laws.link,
      e.laws.lease, e.laws.session, e.laws.frame, e.laws.readRun, e.laws.refresh, fun h => k h (e.laws.commit h), e.laws.table, m e.laws.buf⟩⟩

theorem andCmds (e : Keeps K a s) (hK : [.cmds, .adds] ⊆ K) (x : CommandTable)
    (g : a.tableLaw → s.tableLaw → (s.withCmds x).tableLaw) : Keeps K a (s.withCmds x) :=
  ⟨e.pins, e.links, e.txq, e.sess, e.shut, fun n => absurd (hK (by decide)) n, fun n => absurd (hK (by decide)) n, e.sb,
    e.lease, e.media, e.disk, e.integ, e.scrub, e.md, e.faults, e.time, e.free,
    ⟨e.laws.store, e.laws.image, e.laws.link, e.laws.lease, e.laws.session, e.laws.frame, e.laws.readRun,
      e.laws.refresh, e.laws.commit, fun h => g h (e.laws.table h), e.laws.buf.trans ⟨id, fun _ => id, fun _ => id⟩⟩⟩

theorem andSess (e : Keeps K a s) (hK : .sess ∈ K) (p : Port) (x : Session)
    (g : a.sessionLaw → s.sessionLaw → (s.setSession p x).sessionLaw)
    (k : (s.session p).shut → x.shut) (m : Buf a s → Buf a (s.setSession p x)) : Keeps K a (s.setSession p x) :=
  ⟨e.pins, e.links, e.txq, fun n => absurd hK n, fun h q l => by
      have l := e.shut h q l
      by_cases c : q = p
      · subst c; simpa using k l
      · simpa [c] using l,
    e.cmds, e.recs, e.sb, e.lease, e.media, e.disk, e.integ, e.scrub, e.md,
    e.faults, e.time, e.free, ⟨e.laws.store, e.laws.image, e.laws.link, e.laws.lease,
      fun h => g h (e.laws.session h), e.laws.frame, e.laws.readRun, e.laws.refresh, e.laws.commit, e.laws.table, m e.laws.buf⟩⟩

theorem andLc (e : Keeps K a s) (hK : .links ∈ K) (p : Port) (l : Lc) (q : (s.lc p).txq <+: l.txq)
    (g : a.linkLaw → (s.lc p).lawful → l.lawful) : Keeps K a (s.setLc p l) :=
  ⟨e.pins, fun n => absurd hK n, fun h r => (e.txq h r).trans (by
      by_cases c : r = p
      · subst c; simpa using q
      · simp [c]),
    e.sess, e.shut, e.cmds, e.recs, e.sb, e.lease, e.media, e.disk, e.integ, e.scrub, e.md,
    e.faults, e.time, e.free, ⟨e.laws.store, e.laws.image, fun h => Part.linkLaw_setLc (g h) (e.laws.link h), e.laws.lease,
      e.laws.session, e.laws.frame, e.laws.readRun, e.laws.refresh, e.laws.commit, e.laws.table, e.laws.buf.trans ⟨id, fun _ => id, fun _ => id⟩⟩⟩

end Keeps

end Sys2Proof.Machine
end

