-- ==== Sys2Proof/Laws/Ops.lean ====
section
/-! SUPPORT. What the operations of Machine/Ops.lean, Staging.lean and Poison.lean can do: the components each changes, with
the laws kept, and the media's store read after a write. -/

namespace Sys2Proof.Machine

/-! ### The media's store -/

theorem storeGet_cons (x : Nat × BlockData) (st : List (Nat × BlockData)) (loc : Nat) :
    storeGet (x :: st) loc = if x.1 = loc then some x.2 else storeGet st loc := by
  by_cases h : x.1 = loc <;> simp [storeGet, h]

/-- A written location reads as what was written. -/
theorem storeGet_storePut_same (loc : Nat) (d : BlockData) (st : List (Nat × BlockData)) :
    storeGet (storePut loc d st) loc = some d := by
  induction st with
  | nil => simp [storePut, storeGet]
  | cons x st ih =>
    simp only [storePut]
    split
    · simp [storeGet_cons]
    · split
      · simp [storeGet_cons]
      · rename_i _ h
        rw [storeGet_cons, if_neg fun e => h e.symm, ih]

/-- Every other location reads as before. -/
theorem storeGet_storePut_ne (loc other : Nat) (d : BlockData) (st : List (Nat × BlockData)) (h : other ≠ loc) :
    storeGet (storePut loc d st) other = storeGet st other := by
  induction st with
  | nil => simp [storePut, storeGet, Ne.symm h]
  | cons x st ih =>
    simp only [storePut]
    split
    · rw [storeGet_cons, if_neg fun e => h e.symm]
    · split
      · rename_i _ e
        rw [storeGet_cons, storeGet_cons, if_neg fun e' => h e'.symm, if_neg fun e' => h (e'.symm.trans e.symm)]
      · rw [storeGet_cons, storeGet_cons, ih]

theorem mem_storePut {loc : Nat} {d : BlockData} {st : List (Nat × BlockData)} {y : Nat × BlockData}
    (h : y ∈ storePut loc d st) : y.1 = loc ∨ y ∈ st := by
  induction st with
  | nil => simp only [storePut, List.mem_singleton] at h; exact .inl (by rw [h])
  | cons x st ih =>
    simp only [storePut] at h
    split at h
    · rcases List.mem_cons.1 h with h | h
      · exact .inl (by rw [h])
      · exact .inr h
    · split at h
      · rcases List.mem_cons.1 h with h | h
        · exact .inl (by rw [h])
        · exact .inr (List.mem_cons_of_mem _ h)
      · rcases List.mem_cons.1 h with h | h
        · exact .inr (h ▸ List.mem_cons_self)
        · exact (ih h).imp id (List.mem_cons_of_mem _)

/-- A write keeps the store's canonical form. -/
theorem storePut_sorted (loc : Nat) (d : BlockData) {st : List (Nat × BlockData)}
    (h : st.Pairwise fun x y => x.1 < y.1) : (storePut loc d st).Pairwise fun x y => x.1 < y.1 := by
  induction st with
  | nil => simp [storePut]
  | cons x st ih =>
    obtain ⟨hx, hs⟩ := List.pairwise_cons.1 h
    simp only [storePut]
    split
    · rename_i hl
      refine List.pairwise_cons.2 ⟨fun y hy => ?_, h⟩
      rcases List.mem_cons.1 hy with e | hy
      · exact e ▸ hl
      · exact hl.trans (hx y hy)
    · split
      · rename_i _ e
        exact List.pairwise_cons.2 ⟨fun y hy => e ▸ hx y hy, hs⟩
      · rename_i h1 h2
        refine List.pairwise_cons.2 ⟨fun y hy => ?_, ih hs⟩
        rcases mem_storePut hy with e | hy
        · rw [e]; exact lt_of_le_of_ne (not_lt.1 h1) fun e => h2 e.symm
        · exact hx y hy

/-! ### Frames in rising index -/

theorem insertFrame_sorted (f : Frame) {fs : List Frame} (h : fs.Pairwise fun f g => f.idx < g.idx) :
    (insertFrame f fs).Pairwise fun f g => f.idx < g.idx := by
  induction fs with
  | nil => simp [insertFrame]
  | cons x fs ih =>
    obtain ⟨hx, hs⟩ := List.pairwise_cons.1 h
    simp only [insertFrame]
    split
    · rename_i hl
      refine List.pairwise_cons.2 ⟨fun y hy => ?_, h⟩
      rcases List.mem_cons.1 hy with e | hy
      · exact e ▸ hl
      · exact hl.trans (hx y hy)
    · split
      · rename_i _ e
        exact List.pairwise_cons.2 ⟨fun y hy => e ▸ hx y hy, hs⟩
      · rename_i h1 h2
        refine List.pairwise_cons.2 ⟨fun y hy => ?_, ih hs⟩
        rcases mem_insertFrame hy with e | hy
        · rw [e]; exact lt_of_le_of_ne (not_lt.1 h1) fun e => h2 e.symm
        · exact hx y hy

/-- A frame enters the list: the frame law is kept. -/
theorem Part.frameLaw_insert {s : Part} {f : Frame} {b : Staging} (hf : f.idx < Config.stagingFrames)
    {fs : List Frame} (hs : fs.Sublist s.sb.frames) (hb : b.frames = insertFrame f fs)
    (hc : ∀ i ∈ b.clean, i < Config.stagingFrames) (h : s.frameLaw) : (s.withSb b).frameLaw := by
  refine ⟨?_, ?_, hc⟩
  · rw [Part.withSb_sb, hb]; exact insertFrame_sorted f (h.1.sublist hs)
  · rw [Part.withSb_sb, hb]
    intro g hg
    rcases mem_insertFrame hg with e | hg
    · exact e ▸ hf
    · exact h.2.1 g (hs.subset hg)

/-- Frames and clean list entries leave, or frames change in place: the frame law is kept. -/
theorem Part.frameLaw_shrink {s : Part} {b : Staging} (hs : (b.frames.map (·.idx)).Sublist (s.sb.frames.map (·.idx)))
    (hc : ∀ i ∈ b.clean, i ∈ s.sb.clean) (h : s.frameLaw) : (s.withSb b).frameLaw := by
  refine ⟨?_, ?_, fun i hi => h.2.2 i (hc i hi)⟩
  · exact List.pairwise_map.1 ((List.pairwise_map.2 h.1).sublist hs)
  · intro f hf
    obtain ⟨g, hg, e⟩ := List.mem_map.1 (hs.subset (List.mem_map_of_mem hf))
    exact e ▸ h.2.1 g hg

theorem Part.at_lt {s : Part} {i : Nat} {f : Frame} (h : s.sb.at? i = some f) (k : s.frameLaw) :
    f.idx < Config.stagingFrames := k.2.1 f (List.mem_of_find?_eq_some h)

theorem Part.inState_lt {s : Part} {st : FrameState} {b : Nat} {f : Frame} (h : s.sb.inState st b = some f)
    (k : s.frameLaw) : f.idx < Config.stagingFrames := k.2.1 f (List.mem_of_find?_eq_some h)

/-- R3: the frames an allocation takes are staging frames. -/
theorem Part.allocIdx_lt {s : Part} {n i : Nat} (h : i ∈ s.allocIdx n) (k : s.frameLaw) : i < Config.stagingFrames := by
  rcases List.mem_append.1 (List.mem_of_mem_take h) with h | h
  · exact List.mem_range.1 (List.mem_filter.1 h).1
  · exact k.2.2 i h

/-! ### Link controllers -/

theorem Lc.notices_push (l : Lc) (f : TxFrame) : (l.push f).notices = l.notices + if f.isNotice then 1 else 0 := by
  simp [Lc.notices, Lc.push, List.countP_append, List.countP_cons]

theorem Lc.lawful_push {l : Lc} {f : TxFrame} (hf : f.isNotice = false) (h : l.lawful) : (l.push f).lawful := by
  refine ⟨?_, h.2.1, h.2.2⟩
  rw [Lc.notices_push, hf]; exact h.1

theorem Lc.lawful_takeNotice {l : Lc} {ms : Nat} {b : Notice} (h : l.lawful) : (l.takeNotice ms b).lawful := by
  unfold Lc.takeNotice
  split
  · rename_i hl
    refine ⟨?_, Nat.zero_le _, h.2.2⟩
    show (l.push _).notices ≤ _
    rw [Lc.notices_push]; simpa [TxFrame.isNotice] using hl
  · exact ⟨h.1, Nat.min_le_left _ _, h.2.2⟩

theorem Lc.txq_takeNotice (l : Lc) (ms : Nat) (b : Notice) : l.txq <+: (l.takeNotice ms b).txq := by
  unfold Lc.takeNotice
  split
  · exact List.prefix_append _ _
  · exact List.prefix_refl _

/-- R168: a record more, and the oldest of 32 dropped: the limits of the Fault List are kept. -/
theorem ringLawful.append {ring : List FaultRec} {total : Nat} (h : ringLawful ring total) (r : FaultRec) :
    ringLawful ((if ring.length < Config.maxFaults then ring else ring.drop 1) ++ [r])
      (if total < Config.maxFaultTotal then total + 1 else total) := by
  obtain ⟨h1, h2, h3⟩ := h
  have hmax : Config.maxFaults ≤ Config.maxFaultTotal := by decide
  have hpos : 1 ≤ Config.maxFaults := by decide
  have hlen : (if ring.length < Config.maxFaults then ring else ring.drop 1).length + 1 ≤ Config.maxFaults ∧
      (if ring.length < Config.maxFaults then ring else ring.drop 1).length ≤ ring.length := by
    split
    · exact ⟨by omega, le_refl _⟩
    · rw [List.length_drop]; omega
  obtain ⟨e1, e2⟩ := hlen
  simp only [ringLawful, List.length_append, List.length_singleton]
  rcases Nat.lt_or_ge total Config.maxFaultTotal with ht | ht
  · rw [if_pos ht]; omega
  · rw [if_neg (Nat.not_lt.2 ht)]; omega

/-! ### Order of receipt (R61) -/

theorem placeCompletion_perm (rc : Tag → Option Nat) (t : Tag) (r : Nat) (f : TxFrame) (gs : List TxFrame) :
    (placeCompletion rc t r f gs).Perm (f :: gs) := by
  induction gs with
  | nil => exact .refl _
  | cons g gs ih =>
    unfold placeCompletion
    split
    · exact List.perm_middle.trans ((List.filter_append_perm _ _).cons f)
    · exact (ih.cons g).trans (.swap f g gs)

theorem placeFrame_perm (rc : Tag → Option Nat) (gs : List TxFrame) (f : TxFrame) :
    (placeFrame rc gs f).Perm (gs ++ [f]) := by
  unfold placeFrame
  split
  · split
    · exact (placeCompletion_perm _ _ _ _ _).trans (List.perm_append_singleton _ gs).symm
    · exact .refl _
  · exact .refl _

theorem foldl_placeFrame_perm (rc : Tag → Option Nat) (fs : List TxFrame) :
    ∀ gs, (fs.foldl (placeFrame rc) gs).Perm (gs ++ fs) := by
  induction fs with
  | nil => intro gs; simp
  | cons f fs ih =>
    intro gs
    rw [List.foldl_cons]
    refine (ih _).trans (((placeFrame_perm rc gs f).append_right fs).trans ?_)
    rw [List.append_assoc]; exact .refl _

/-- R61: the order of receipt loses no frame and makes none. -/
theorem arrange_perm (rc : Tag → Option Nat) (fs : List TxFrame) : (arrange rc fs).Perm fs :=
  foldl_placeFrame_perm rc fs []

/-- The place in the order of receipt that a completion has; no other frame has one. -/
def TxFrame.place (rc : Tag → Option Nat) : TxFrame → Option (Option Nat)
  | .completion t .. => some (rc t)
  | _ => none

/-- The one place comes before the other, or they are one; no place is the last. -/
def placeLe (x y : Option Nat) : Prop := ∀ j, y = some j → ∃ i, x = some i ∧ i ≤ j

theorem TxFrame.place_later {rc : Tag → Option Nat} {r : Nat} {g : TxFrame} (h : g.later rc r = true) :
    ∃ x, g.place rc = some x ∧ placeLe (some r) x ∧ ∀ y, placeLe x y → placeLe (some r) y := by
  cases g with
  | completion t st code res =>
    have k : ∀ x, rc t = some x → r < x := by simpa [TxFrame.later, Option.all_eq_true] using h
    exact ⟨rc t, rfl, fun j e => ⟨r, rfl, (k j e).le⟩, fun y l j e =>
      let ⟨i, a, b⟩ := l j e; ⟨r, rfl, (k i a).le.trans b⟩⟩
  | _ => simp [TxFrame.later] at h

theorem TxFrame.place_not_later {rc : Tag → Option Nat} {r : Nat} {g : TxFrame} (h : g.later rc r = false)
    {x : Option Nat} (hx : g.place rc = some x) : placeLe x (some r) := by
  cases g with
  | completion t st code res =>
    cases hx
    intro j e; cases e
    cases k : rc t with
    | none => simp [TxFrame.later, k] at h
    | some i => exact ⟨i, rfl, by simpa [TxFrame.later, k] using h⟩
  | _ => cases hx

theorem TxFrame.later_of_place {rc : Tag → Option Nat} {r : Nat} {g : TxFrame}
    (h : ∀ x, g.place rc = some x → placeLe x (some r)) : g.later rc r = false := by
  cases g with
  | completion t st code res =>
    obtain ⟨i, a, b⟩ := h _ rfl r rfl
    simp [TxFrame.later, a, b]
  | _ => rfl

theorem TxFrame.precedes_place {rc : Tag → Option Nat} {t : Tag} {r : Nat} {g : TxFrame} (h : g.precedes rc t r = true) :
    g.place rc = none ∧ g.isNotice = false := by
  cases g <;> first | exact ⟨rfl, rfl⟩ | (simp [TxFrame.precedes] at h)

/-- The frames that a completion takes along are no completions and no notices. -/
theorem places_precedes (rc : Tag → Option Nat) (t : Tag) (r : Nat) (gs : List TxFrame) :
    (gs.filter (·.precedes rc t r)).filterMap (·.place rc) = [] ∧
      (gs.filter fun h => !h.precedes rc t r).filterMap (·.place rc) = gs.filterMap (·.place rc) ∧
      (gs.filter (·.precedes rc t r)).filter (·.isNotice) = [] ∧
      (gs.filter fun h => !h.precedes rc t r).filter (·.isNotice) = gs.filter (·.isNotice) := by
  induction gs with
  | nil => exact ⟨rfl, rfl, rfl, rfl⟩
  | cons g gs ih =>
    obtain ⟨a, b, c, d⟩ := ih
    cases h : g.precedes rc t r with
    | true =>
      obtain ⟨p, n⟩ := TxFrame.precedes_place h
      simp [h, p, n, a, b, c, d]
    | false => simp [h, a, b, c, d, List.filterMap_cons, List.filter_cons]

theorem placeCompletion_inOrder {rc : Tag → Option Nat} {t : Tag} {r : Nat} {f : TxFrame} (hf : f.place rc = some (some r)) :
    ∀ gs : List TxFrame, (gs.filterMap (·.place rc)).Pairwise placeLe →
      ((placeCompletion rc t r f gs).filterMap (·.place rc)).Pairwise placeLe := by
  intro gs
  induction gs with
  | nil => intro _; simp [placeCompletion, hf]
  | cons g gs ih =>
    intro h
    unfold placeCompletion
    split
    · rename_i hl
      obtain ⟨x, hx, le, tr⟩ := TxFrame.place_later hl
      obtain ⟨a, b, -, -⟩ := places_precedes rc t r (g :: gs)
      rw [List.filterMap_append, a, List.nil_append, List.filterMap_cons, hf, b]
      refine List.pairwise_cons.2 ⟨fun y hy => ?_, h⟩
      simp only [List.filterMap_cons, hx] at h hy
      rcases List.mem_cons.1 hy with e | e
      · exact e ▸ le
      · exact tr y ((List.pairwise_cons.1 h).1 y e)
    · rename_i hl
      have hl : g.later rc r = false := by simpa using hl
      cases hx : g.place rc with
      | none => simp only [List.filterMap_cons, hx] at h ⊢; exact ih h
      | some x =>
        simp only [List.filterMap_cons, hx] at h ⊢
        obtain ⟨h1, h2⟩ := List.pairwise_cons.1 h
        refine List.pairwise_cons.2 ⟨fun y hy => ?_, ih h2⟩
        have := ((placeCompletion_perm rc t r f gs).filterMap (·.place rc)).mem_iff.1 hy
        simp only [List.filterMap_cons, hf, List.mem_cons] at this
        rcases this with e | e
        · exact e ▸ TxFrame.place_not_later hl hx
        · exact h1 y e

theorem placeFrame_inOrder (rc : Tag → Option Nat) (gs : List TxFrame) (f : TxFrame)
    (h : (gs.filterMap (·.place rc)).Pairwise placeLe) :
    ((placeFrame rc gs f).filterMap (·.place rc)).Pairwise placeLe := by
  have atEnd : f.place rc = none ∨ f.place rc = some none →
      ((gs ++ [f]).filterMap (·.place rc)).Pairwise placeLe := by
    rintro (e | e)
    · simpa [e] using h
    · simp only [List.filterMap_append, List.filterMap_cons, e, List.filterMap_nil]
      exact List.pairwise_append.2 ⟨h, List.pairwise_singleton _ _, by
        intro x _ y hy; cases List.mem_singleton.1 hy; intro j k; cases k⟩
  unfold placeFrame
  split
  · split
    · rename_i r hr; exact placeCompletion_inOrder (by simp only [TxFrame.place, hr]) gs h
    · rename_i hr; exact atEnd (.inr (by simp only [TxFrame.place, hr]))
  · rename_i hn
    refine atEnd (.inl ?_)
    cases f <;> first | rfl | exact absurd rfl (hn _ _ _ _)

/-- R61: the completions of an event stand in the order of receipt. -/
theorem arrange_inOrder (rc : Tag → Option Nat) (fs : List TxFrame) :
    ((arrange rc fs).filterMap (·.place rc)).Pairwise placeLe := by
  suffices ∀ gs : List TxFrame, (gs.filterMap (·.place rc)).Pairwise placeLe →
      ((fs.foldl (placeFrame rc) gs).filterMap (·.place rc)).Pairwise placeLe from this [] List.Pairwise.nil
  induction fs with
  | nil => exact fun _ h => h
  | cons f fs ih => exact fun gs h => ih _ (placeFrame_inOrder rc gs f h)

theorem placeFrame_notices (rc : Tag → Option Nat) (gs : List TxFrame) (f : TxFrame) :
    (placeFrame rc gs f).filter (·.isNotice) = (gs ++ [f]).filter (·.isNotice) := by
  unfold placeFrame
  split
  · rename_i t st code res
    split
    · rename_i r _
      rw [List.filter_append]
      show _ = _ ++ []
      rw [List.append_nil]
      induction gs with
      | nil => rfl
      | cons g gs ih =>
        unfold placeCompletion
        split
        · obtain ⟨-, -, c, d⟩ := places_precedes rc t r (g :: gs)
          rw [List.filter_append, c, List.nil_append]
          exact d
        · rw [List.filter_cons, List.filter_cons, ih]
    · rfl
  · rfl

/-- R61: the notices of an event keep their order. -/
theorem arrange_notices (rc : Tag → Option Nat) (fs : List TxFrame) :
    (arrange rc fs).filter (·.isNotice) = fs.filter (·.isNotice) := by
  suffices ∀ gs : List TxFrame, (fs.foldl (placeFrame rc) gs).filter (·.isNotice) = (gs ++ fs).filter (·.isNotice) from
    this []
  induction fs with
  | nil => intro gs; simp
  | cons f fs ih =>
    intro gs
    rw [List.foldl_cons, ih, List.filter_append, placeFrame_notices, ← List.filter_append]
    simp

theorem placeFrame_atEnd {rc : Tag → Option Nat} {gs : List TxFrame} {f : TxFrame}
    (h : ((gs ++ [f]).filterMap (·.place rc)).Pairwise placeLe) : placeFrame rc gs f = gs ++ [f] := by
  unfold placeFrame
  split
  · rename_i t st code res
    split
    · rename_i r hr
      rw [List.filterMap_append] at h
      have k : ∀ x ∈ gs.filterMap (·.place rc), placeLe x (some r) := fun x hx =>
        (List.pairwise_append.1 h).2.2 x hx _ (by simp [TxFrame.place, hr])
      clear h
      induction gs with
      | nil => rfl
      | cons g gs ih =>
        have l : g.later rc r = false := TxFrame.later_of_place fun x hx =>
          k x (List.mem_filterMap.2 ⟨g, List.mem_cons_self .., hx⟩)
        unfold placeCompletion
        rw [if_neg (by simp [l]), ih fun x hx => k x ?_]
        · rfl
        · obtain ⟨y, hy, e⟩ := List.mem_filterMap.1 hx
          exact List.mem_filterMap.2 ⟨y, List.mem_cons_of_mem _ hy, e⟩
    · rfl
  · rfl

/-- R61: completions that stand in the order of receipt stay where they are. -/
theorem arrange_of_inOrder {rc : Tag → Option Nat} {fs : List TxFrame}
    (h : (fs.filterMap (·.place rc)).Pairwise placeLe) : arrange rc fs = fs := by
  suffices ∀ gs : List TxFrame, ((gs ++ fs).filterMap (·.place rc)).Pairwise placeLe →
      fs.foldl (placeFrame rc) gs = gs ++ fs from this [] h
  clear h
  induction fs with
  | nil => intro gs _; simp
  | cons f fs ih =>
    intro gs h
    have e : gs ++ f :: fs = gs ++ [f] ++ fs := by simp
    rw [e] at h ⊢
    rw [List.foldl_cons, placeFrame_atEnd (by rw [List.filterMap_append] at h; exact (List.pairwise_append.1 h).1)]
    exact ih _ h

theorem placeCompletion_mem (rc : Tag → Option Nat) (t : Tag) (r : Nat) (f : TxFrame) (gs : List TxFrame) (x : TxFrame) :
    x ∈ placeCompletion rc t r f gs ↔ x = f ∨ x ∈ gs :=
  (placeCompletion_perm rc t r f gs).mem_iff.trans (by simp)

/-- R49, R54: a completion that is placed leaves a frame before the completion that it precedes. -/
theorem placeCompletion_pair {rc : Tag → Option Nat} {u : Tag} {r : Nat} {f g c : TxFrame}
    (hc : c.precedes rc u r = false) {gs : List TxFrame} (h : [g, c].Sublist gs) :
    [g, c].Sublist (placeCompletion rc u r f gs) := by
  induction gs with
  | nil => cases h
  | cons a as ih =>
    unfold placeCompletion
    split
    · by_cases p : g.precedes rc u r = true
      · have hg : g ∈ (a :: as).filter (·.precedes rc u r) := List.mem_filter.2 ⟨h.subset (by simp), p⟩
        have hc : c ∈ f :: (a :: as).filter fun x => !x.precedes rc u r :=
          List.mem_cons_of_mem _ (List.mem_filter.2 ⟨h.subset (by simp), by simp [hc]⟩)
        exact (List.singleton_sublist.2 hg).append (List.singleton_sublist.2 hc)
      · have k := h.filter fun x => !x.precedes rc u r
        refine List.Sublist.trans ?_ (List.sublist_append_right _ _)
        refine List.Sublist.cons _ ?_
        simpa [List.filter_cons, p, hc] using k
    · rcases List.sublist_cons_iff.1 h with h | ⟨l, e, h⟩
      · exact (ih h).cons _
      · cases e
        exact (List.singleton_sublist.2 ((placeCompletion_mem ..).2 (.inr (h.subset (by simp))))).cons_cons _

/-- R49, R54: a completion goes behind the frames that precede it. -/
theorem placeCompletion_behind {rc : Tag → Option Nat} {t : Tag} {r : Nat} {f g : TxFrame} (hg : g.precedes rc t r = true)
    {gs : List TxFrame} (h : g ∈ gs) : [g, f].Sublist (placeCompletion rc t r f gs) := by
  induction gs with
  | nil => cases h
  | cons a as ih =>
    unfold placeCompletion
    split
    · exact (List.singleton_sublist.2 (List.mem_filter.2 ⟨h, hg⟩)).append (List.singleton_sublist.2 List.mem_cons_self)
    · rcases List.mem_cons.1 h with rfl | h
      · exact (List.singleton_sublist.2 ((placeCompletion_mem ..).2 (.inl rfl))).cons_cons _
      · exact (ih h).cons _

/-- R54: where the completions stand in the order of receipt, one that is placed leaves behind a completion a frame that
precedes no completion received up to that one. -/
theorem placeCompletion_after {rc : Tag → Option Nat} {u : Tag} {r : Nat} {f g c : TxFrame} {x : Option Nat}
    (hx : c.place rc = some x) (hc : c.precedes rc u r = false) (hg : placeLe (some r) x → g.precedes rc u r = false) :
    ∀ {gs : List TxFrame}, (gs.filterMap (·.place rc)).Pairwise placeLe → [c, g].Sublist gs →
      [c, g].Sublist (placeCompletion rc u r f gs) := by
  intro gs
  induction gs with
  | nil => exact fun _ h => nomatch h
  | cons a as ih =>
    intro o h
    unfold placeCompletion
    split
    · rename_i l
      obtain ⟨y, hy, le, tr⟩ := TxFrame.place_later l
      have k : placeLe (some r) x := by
        rcases List.mem_cons.1 (h.subset (by simp : c ∈ [c, g])) with e | e
        · rw [← e, hx] at hy; cases hy; exact le
        · rw [List.filterMap_cons_some hy] at o
          exact tr x ((List.pairwise_cons.1 o).1 x (List.mem_filterMap.2 ⟨c, e, hx⟩))
      refine List.Sublist.trans ?_ (List.sublist_append_right _ _)
      refine List.Sublist.cons _ ?_
      simpa [List.filter_cons, hc, hg k] using h.filter fun x => !x.precedes rc u r
    · rcases List.sublist_cons_iff.1 h with h | ⟨l, e, h⟩
      · refine (ih ?_ h).cons _
        cases e : a.place rc with
        | none => rwa [List.filterMap_cons_none e] at o
        | some y => rw [List.filterMap_cons_some e] at o; exact (List.pairwise_cons.1 o).2
      · cases e
        exact (List.singleton_sublist.2 ((placeCompletion_mem ..).2 (.inr (h.subset (by simp))))).cons_cons _

/-- What holds of two frames, queued in this order, while frames join them one by one: the pair keeps its order. -/
theorem foldl_placeFrame_pair {rc : Tag → Option Nat} {g c : TxFrame}
    (h : ∀ gs f, (gs.filterMap (·.place rc)).Pairwise placeLe → [g, c].Sublist (gs ++ [f]) →
      [g, c].Sublist (placeFrame rc gs f)) (fs : List TxFrame) :
    ∀ gs, (gs.filterMap (·.place rc)).Pairwise placeLe → [g, c].Sublist (gs ++ fs) →
      [g, c].Sublist (fs.foldl (placeFrame rc) gs) := by
  induction fs with
  | nil => intro gs _ k; simpa using k
  | cons f fs ih =>
    intro gs o k
    rw [show gs ++ f :: fs = gs ++ [f] ++ fs by simp] at k
    obtain ⟨a, b, e, ha, hb⟩ := List.sublist_append_iff.1 k
    refine ih _ (placeFrame_inOrder rc gs f o) ?_
    rw [e]
    refine List.Sublist.append ?_ hb
    rcases a with _ | ⟨x, _ | ⟨y, a⟩⟩
    · exact List.nil_sublist _
    · exact List.singleton_sublist.2 ((placeFrame_perm rc gs f).mem_iff.2 (List.singleton_sublist.1 ha))
    · injection e with e1 e
      injection e with e2 e
      obtain ⟨rfl, -⟩ := List.append_eq_nil_iff.1 e.symm
      subst e1 e2
      exact h gs f o ha

/-- A pair that stands in `gs ++ [f]` stands in `gs`, or its second frame is `f`. -/
theorem pair_append_singleton {α : Type} {x y f : α} {gs : List α} (h : [x, y].Sublist (gs ++ [f])) :
    [x, y].Sublist gs ∨ x ∈ gs ∧ y = f := by
  obtain ⟨a, b, e, ha, hb⟩ := List.sublist_append_iff.1 h
  rcases a with _ | ⟨p, _ | ⟨q, a⟩⟩
  · rw [List.nil_append] at e; subst e
    have := hb.length_le; simp at this
  · cases e
    exact .inr ⟨List.singleton_sublist.1 ha, List.mem_singleton.1 (List.singleton_sublist.1 hb)⟩
  · injection e with e1 e
    injection e with e2 e
    obtain ⟨rfl, -⟩ := List.append_eq_nil_iff.1 e.symm
    subst e1 e2
    exact .inl ha

/-- R49, R54: a completion stays behind the frames that are queued before it and precede it. -/
theorem arrange_precedes (rc : Tag → Option Nat) {t : Tag} {st : Status} {code : BitVec 8} {res : Result} {g : TxFrame}
    (hg : ∀ r, rc t = some r → g.precedes rc t r = true) (fs : List TxFrame)
    (h : [g, .completion t st code res].Sublist fs) : [g, .completion t st code res].Sublist (arrange rc fs) := by
  refine foldl_placeFrame_pair (fun gs f _ k => ?_) fs [] List.Pairwise.nil h
  unfold placeFrame
  split
  · split
    · rename_i r hr
      rcases pair_append_singleton k with k | ⟨hm, e⟩
      · exact placeCompletion_pair rfl k
      · cases e
        exact placeCompletion_behind (hg r hr) hm
    · exact k
  · exact k

/-- R54: a GO stays behind the completions that are queued before it, of commands received before its own. -/
theorem arrange_go_after (rc : Tag → Option Nat) {t u : Tag} {st : Status} {code : BitVec 8} {res : Result} {n : Nat}
    (hu : ¬ placeLe (rc u) (rc t)) (fs : List TxFrame)
    (h : [.completion t st code res, .go u n].Sublist fs) :
    [TxFrame.completion t st code res, .go u n].Sublist (arrange rc fs) := by
  refine foldl_placeFrame_pair (fun gs f o k => ?_) fs [] List.Pairwise.nil h
  unfold placeFrame
  split
  · split
    · rename_i r hr
      rcases pair_append_singleton k with k | ⟨-, e⟩
      · refine placeCompletion_after (x := rc t) rfl rfl (fun le => ?_) o k
        by_contra z
        obtain ⟨i, hi, k⟩ : ∃ i, rc u = some i ∧ i ≤ r := by
          simpa [TxFrame.precedes, Option.any_eq_true] using z
        refine hu fun j hj => ?_
        obtain ⟨y, hy, l⟩ := le j hj
        cases hy
        exact ⟨i, hi, k.trans l⟩
      · cases e
    · exact k
  · exact k

namespace Part

variable (s : Part)

theorem countError_keeps (p : Port) : Keeps [.links] s (s.countError p) :=
  .ofLc s p _ (fun h => h) (List.prefix_refl _)

theorem push_keeps (p : Port) (f : TxFrame) (hf : f.isNotice = false) :
    Keeps [.links] s (s.setLc p ((s.lc p).push f)) :=
  .ofLc s p _ (Lc.lawful_push hf) (List.prefix_append _ _)

theorem putNotice_keeps (p : Port) (b : Notice) : Keeps [.links] s (s.putNotice p b) :=
  .ofLc s p _ Lc.lawful_takeNotice (Lc.txq_takeNotice _ _ _)

theorem offerNotice_keeps (p : Port) (b : Notice) : Keeps [.links] s (s.offerNotice p b) := by
  unfold offerNotice; split
  · exact putNotice_keeps s p b
  · exact .refl s

theorem noticeAll_keeps (b : Notice) : Keeps [.links] s (s.noticeAll b) :=
  (offerNotice_keeps _ _ b).next (by decide) <| (offerNotice_keeps _ _ b).next (by decide) <|
    (offerNotice_keeps _ _ b).next (by decide) <| offerNotice_keeps _ _ b

theorem sendCompletion_keeps (p : Port) (t : Tag) (c : BitVec 8) (st : Status) (r : Result) :
    Keeps [.links] s (s.sendCompletion p t c st r) := push_keeps s p _ rfl

theorem putBehind_keeps (p : Port) (t : Tag) (f : TxFrame) (hf : f.isNotice = false) :
    Keeps [.links] s (s.setLc p ((s.lc p).putBehind t f)) := by
  refine .ofLc s p _ (fun h => ⟨h.1, h.2.1, fun x hx => ?_⟩) (List.prefix_refl _)
  obtain ⟨y, hy, e⟩ := List.mem_map.1 hx
  subst e
  split
  · exact ⟨(h.2.2 y hy).1, fun g hg => by cases hg; exact hf⟩
  · exact h.2.2 y hy

theorem dropGo_keeps (p : Port) (t : Tag) : Keeps [.links] s (s.setLc p ((s.lc p).dropGo t)) :=
  .ofLc s p _ (fun h => ⟨h.1, h.2.1, fun x hx => h.2.2 x (List.mem_filter.1 hx).1⟩) (List.prefix_refl _)

/-- A frame that is no notice is held back. -/
theorem addHeld_keeps (p : Port) (f : TxFrame) (hf : f.isNotice = false) :
    Keeps [.links] s (s.setLc p { s.lc p with held := (s.lc p).held ++ [{ frame := f }] }) := by
  refine .ofLc s p _ (fun h => ⟨h.1, h.2.1, fun x hx => ?_⟩) (List.prefix_refl _)
  rcases List.mem_append.1 hx with hx | hx
  · exact h.2.2 x hx
  · cases List.mem_singleton.1 hx; exact ⟨hf, fun g hg => by cases hg⟩

/-- Nothing is held any more. -/
theorem clearHeld_keeps (p : Port) : Keeps [.links] s (s.setLc p { s.lc p with held := [] }) :=
  .ofLc s p _ (fun h => ⟨h.1, h.2.1, fun _ hx => absurd hx List.not_mem_nil⟩) (List.prefix_refl _)

/-! ### Changes and fault records -/

/-- The metadata unit changes in nothing that the laws of the metadata set and of commits look at, but for its change count,
which does not fall. -/
theorem md_and {K : List Comp} (hK : .md ∈ K) {a : Part} (e : Keeps K a s) (x : MetaUnit)
    (hs : x.settings = s.md.settings) (hm : x.scrubMark = s.md.scrubMark)
    (hr : x.resetImage = s.md.resetImage ∨ x.resetImage = none) (hc : x.committed = s.md.committed)
    (hn : x.snapshot = s.md.snapshot ∨ x.snapshot = none)
    (hg : s.md.changes ≤ x.changes) (hb : Buf a s → Buf a (s.withMd x)) : Keeps K a (s.withMd x) := by
  refine e.andMd hK x ?_ ?_ hb
  · rintro - ⟨a, b, c, d, e, f⟩
    refine ⟨?_, b, c, d, e, ?_⟩
    · have : (s.withMd x).image = s.image := by simp only [image, withMd_integ, withMd_media, withMd_faults, withMd_md, withMd_time, hs, hm]
      rw [this]; exact a
    · intro m h
      rcases hr with hr | hr
      · exact f m (by simpa only [withMd_md, hr] using h)
      · simp [hr] at h
  · rintro - ⟨a, b⟩
    refine ⟨by simpa only [withMd_md, hc] using a.trans hg, ?_⟩
    intro n h
    rcases hn with hn | hn
    · exact (b n (by simpa only [withMd_md, hn] using h)).trans hg
    · simp [hn] at h

/-- The same, where the device state and what the start-up waits on stay too. -/
theorem md_keeps (x : MetaUnit) (hs : x.settings = s.md.settings) (hm : x.scrubMark = s.md.scrubMark)
    (hr : x.resetImage = s.md.resetImage ∨ x.resetImage = none) (hc : x.committed = s.md.committed)
    (hn : x.snapshot = s.md.snapshot ∨ x.snapshot = none)
    (hg : s.md.changes ≤ x.changes) (hd : x.device = s.md.device := by rfl) (hu : x.startUp = s.md.startUp := by rfl) :
    Keeps [.md] s (s.withMd x) :=
  md_and s (by decide) (.refl s) x hs hm hr hc hn hg fun _ => buf_md hd hu hr

theorem change_keeps : Keeps [.md] s s.change :=
  md_keeps s _ rfl rfl (.inl rfl) rfl (.inl rfl) (Nat.le_succ _)

theorem appendFault_keeps (i : FaultInfo) : Keeps [.faults, .md] s (s.appendFault i) := by
  refine (change_keeps _).next (by decide) ?_
  refine (Keeps.ofFaults s _ ?_).mono (by decide)
  rintro ⟨⟨a1, a2, a3, a4⟩, b⟩
  refine ⟨⟨a1, a2, ?_, a4⟩, b⟩
  exact a3.append _

/-! ### Command records and completions -/

/-- The Command Table changes in nothing but its records, each of which keeps its name or goes. -/
theorem recs_keeps (x : CommandTable) (hn : x.nextReceipt = s.cmds.nextReceipt)
    (h : (x.recs.map Cmd.name).Sublist (s.cmds.recs.map Cmd.name)) : Keeps [.cmds] s (s.withCmds x) :=
  .ofCmds s x fun _ => ⟨h, hn⟩

theorem names_map {f : Cmd → Cmd} (h : ∀ c, (f c).name = c.name) (cs : List Cmd) :
    ((cs.map f).map Cmd.name).Sublist (cs.map Cmd.name) := by
  rw [List.map_map, show Cmd.name ∘ f = Cmd.name from funext h]

theorem names_filterMap {f : Cmd → Option Cmd} (h : ∀ c d, f c = some d → d.name = c.name) (cs : List Cmd) :
    ((cs.filterMap f).map Cmd.name).Sublist (cs.map Cmd.name) := by
  induction cs with
  | nil => exact List.Sublist.refl _
  | cons c cs ih =>
    cases hc : f c with
    | none => rw [List.filterMap_cons_none hc]; exact ih.cons _
    | some d => rw [List.filterMap_cons_some hc, List.map_cons, List.map_cons, h c d hc]; exact ih.cons_cons _

theorem mapRecs_keeps (f : Cmd → Cmd) (h : ∀ c, (f c).name = c.name) : Keeps [.cmds] s (s.setRecs (s.cmds.recs.map f)) :=
  recs_keeps s _ rfl (names_map h _)

theorem filterMapRecs_keeps (f : Cmd → Option Cmd) (h : ∀ c d, f c = some d → d.name = c.name) :
    Keeps [.cmds] s (s.setRecs (s.cmds.recs.filterMap f)) := recs_keeps s _ rfl (names_filterMap h _)

/-- R52: a place in the order of receipt names one record. -/
theorem receipt_inj {s : Part} (l : s.tableLaw) {c d : Cmd} (hc : c ∈ s.cmds.recs) (hd : d ∈ s.cmds.recs)
    (h : c.receipt = d.receipt) : c = d := by
  have n : (s.cmds.recs.map (·.receipt)).Nodup := List.pairwise_map.2 (l.2.1.imp fun h => Nat.ne_of_lt h)
  exact List.inj_on_of_nodup_map n hc hd h

theorem updCmd_keeps (r : Nat) (f : Cmd → Cmd) (h : ∀ c, (f c).name = c.name := by intro _; rfl) :
    Keeps [.cmds] s (s.updCmd r f) :=
  mapRecs_keeps s _ fun c => by split <;> first | exact h c | rfl

/-- A record of the table is replaced by one with its name. -/
theorem replaceCmd_keeps (c d : Cmd) (hc : c ∈ s.cmds.recs) (h : d.name = c.name) :
    Keeps [.cmds] s (s.updCmd c.receipt fun _ => d) := by
  refine .ofCmds s _ fun l => ⟨?_, rfl⟩
  have : (s.cmds.recs.map fun x => if x.receipt = c.receipt then d else x).map Cmd.name = s.cmds.recs.map Cmd.name := by
    rw [List.map_map]
    refine List.map_congr_left fun x hx => ?_
    dsimp only [Function.comp]
    split
    · rename_i e; rw [h, receipt_inj l hx hc e]
    · rfl
  exact this ▸ List.Sublist.refl _

theorem dropCmd_keeps (r : Nat) : Keeps [.cmds] s (s.dropCmd r) := recs_keeps s _ rfl (List.filter_sublist.map _)

theorem dequeue_keeps (k : Key) : Keeps [.cmds] s (s.dequeue k) := recs_keeps s _ rfl (List.Sublist.refl _)

theorem finish_keeps (c : Cmd) (st : Status) (r : Result) : Keeps [.links, .cmds] s (s.finish c st r) := by
  unfold finish; dsimp only; split
  · exact (updCmd_keeps _ _ _).next (by decide) <| (putBehind_keeps s _ _ _ rfl).mono (by decide)
  · exact (dropCmd_keeps _ _).next (by decide) <| (sendCompletion_keeps s _ _ _ _ _).mono (by decide)

theorem finishAt_keeps (r : Nat) (st : Status) (x : Result) : Keeps [.links, .cmds] s (s.finishAt r st x) := by
  unfold finishAt; split
  · exact finish_keeps s _ _ _
  · exact .refl s

theorem emitDecided_keeps : Keeps [.links, .cmds] s s.emitDecided :=
  .foldl _ (fun s _ => finishAt_keeps s _ _ _) _ s

/-- The mark tally changes: no law looks at it. -/
theorem tally_keeps (ts : List Tally) : Keeps [.integ] s (s.withInteg { s.integ with tally := ts }) :=
  .ofInteg s _ (fun h => h) (buf_integ (le_refl _))

theorem tallyDone_keeps : Keeps [.integ, .cmds] s s.tallyDone :=
  (mapRecs_keeps _ _ fun c => by split <;> first | (split <;> rfl) | rfl).next (by decide) <|
    (tally_keeps s _).mono (by decide)

theorem tallyReport_keeps (f : Frame) (b : Bool) : Keeps [.integ, .cmds] s (s.tallyReport f b) := by
  unfold tallyReport; split
  · exact (tallyDone_keeps _).next (by decide) <| (tally_keeps s _).mono (by decide)
  · exact .refl s

/-! ### The media -/

/-- What is on the media changes in the store only. -/
theorem mediaWrite_keeps (loc : Nat) (d : BlockData) : Keeps [.disk] s (s.mediaWrite loc d) := by
  refine .ofDisk s _ ?_ (fun h => h) ⟨id, fun _ => id, fun _ => id⟩
  intro h
  exact decide_eq_true (storePut_sorted loc d (of_decide_eq_true h))

theorem mediaSpoil_keeps (loc : Nat) : Keeps [.disk, .free] s (s.mediaSpoil loc) :=
  (Keeps.ofFree _ _).next (by decide) <| (mediaWrite_keeps s _ _).mono (by decide)

/-- A copy is written whose image holds at most 512 poison entries. -/
theorem buf_setCopy {s : Part} {c : CopyId} {x : Option MetaCopy}
    (h : s.roomLaw → ∀ y, x = some y → y.image.poison.length ≤ Config.maxPoison) : Buf s (s.setCopy c x) := by
  cases c
  · exact ⟨id, fun _ => id, fun _ l => ⟨l.1, h l, l.2.2⟩⟩
  · exact ⟨id, fun _ => id, fun _ l => ⟨l.1, l.2.1, h l, l.2.2.2⟩⟩

/-- R159: the device state or what the start-up waits on changes while no start-up read is under way. -/
theorem buf_device {a s : Part} {x : MetaUnit} (b : Buf a s) (hz : a.stagingLaw → a.roomLaw → s.copyReads = 0)
    (hd : x.device = s.md.device ∨ x.device ≠ .starting) (hr : x.resetImage = s.md.resetImage ∨ x.resetImage = none) :
    Buf a (s.withMd x) := by
  refine ⟨b.staging, b.quota, fun k l => ?_⟩
  obtain ⟨l1, l2, l3, l4, l5, -, l7⟩ := b.room k l
  have z : (s.withMd x).copyReads = 0 := hz k l
  refine ⟨l1, l2, l3, l4, fun m n => ?_, fun n => absurd n (by omega), fun n => ?_⟩
  · rcases hr with hr | hr
    · exact l5 m (by simpa only [withMd_md, hr] using n)
    · simp [hr] at n
  · rcases hd with hd | hd
    · exact l7 (hd.symm.trans n)
    · exact absurd n hd

/-- A metadata copy is left undefined. -/
theorem loseCopy_keeps (c : CopyId) : Keeps [.disk] s (s.setCopy c none) := by
  have b : Buf s (s.setCopy c none) := buf_setCopy fun _ _ k => by cases k
  cases c
  · refine .ofDisk s _ (fun h => h) (fun h => ?_) b
    exact ⟨h.1, h.2.1, fun y e => (by cases e), h.2.2.2.1, h.2.2.2.2⟩
  · refine .ofDisk s _ (fun h => h) (fun h => ?_) b
    exact ⟨h.1, h.2.1, h.2.2.1, fun y e => (by cases e), h.2.2.2.2⟩

theorem idle_keeps : Keeps [.media] s s.idle :=
  .ofMediaPlain s _ rfl rfl (.inr rfl) (.inl rfl) (List.Sublist.refl _) (.inl rfl)

end Part

end Sys2Proof.Machine
end

