-- ==== Sys2Proof/Laws/Staging.lean ====
section
/-! SUPPORT. What the operations of Machine/Staging.lean, Poison.lean and ReadPath.lean can do: the components each changes,
with the laws kept. -/

namespace Sys2Proof.Machine

/-- A move of the Staging Buffer, its laws given those of the state before it. -/
theorem Buf.andSb {a s : Part} {x : Staging} (b : Buf a s) (l : a.stagingLaw → s.stagingLaw → (s.withSb x).stagingLaw)
    (q : a.stagingLaw → s.stagingLaw → s.quotaLaw → (s.withSb x).quotaLaw)
    (r : a.stagingLaw → s.stagingLaw → s.roomLaw → (s.withSb x).roomLaw) : Buf a (s.withSb x) :=
  ⟨fun h => l h (b.staging h), fun h k => q h (b.staging h) (b.quota h k), fun h k => r h (b.staging h) (b.room h k)⟩

namespace Part

variable (s : Part)

/-! ### Staging Buffer -/

variable {s} in
/-- R126, R128: the room in the poison map after a move of the Staging Buffer. -/
theorem room_sb {x : Staging} (h : s.integ.poison.length + x.dirtyMarks ≤ Config.maxPoison)
    (k : s.md.device = .starting → x.dirtyMarks = 0) (l : s.roomLaw) : (s.withSb x).roomLaw :=
  ⟨h, l.2.1, l.2.2.1, l.2.2.2.1, l.2.2.2.2.1, l.2.2.2.2.2.1, k⟩

variable {s} in
/-- No more DIRTY MARK frames than before. -/
theorem room_sb_le {x : Staging} (h : x.dirtyMarks ≤ s.sb.dirtyMarks) (l : s.roomLaw) : (s.withSb x).roomLaw :=
  room_sb ((Nat.add_le_add_left h _).trans l.1) (fun k => Nat.le_zero.1 (h.trans (l.2.2.2.2.2.2 k).le)) l

variable {s} in
/-- R17: the attribution counts after a move that gives port `p` at most one frame more. -/
theorem quota_sb_one {x : Staging} {p : Port}
    (h : ∀ w, x.attr w ≤ s.sb.attr w + if some (Writer.port p) = some w then 1 else 0)
    (hq : s.sb.attr (.port p) + 1 ≤ (s.session p).quota) (l : s.quotaLaw) : (s.withSb x).quotaLaw := by
  refine ⟨fun r => ?_, (h .refresh).trans l.2⟩
  have k := h (.port r)
  show x.attr (.port r) ≤ (s.session r).quota
  by_cases e : p = r
  · subst e; simp only [if_true] at k; omega
  · simp only [Option.some.injEq, Writer.port.injEq, e, if_false] at k
    exact k.trans (l.1 r)

/-- FILLING frames leave, or frames take other data. -/
theorem setFrames_keeps (fs : List Frame) (h : (fs.map (·.idx)).Sublist (s.sb.frames.map (·.idx)))
    (l : s.stagingLaw → ({ s.sb with frames := fs } : Staging).lawful)
    (c : ∀ P : Frame → Bool, (∀ (f : Frame) d, P { f with data := d } = P f) → fs.countP P ≤ s.sb.frames.countP P) :
    Keeps [.sb] s (s.setFrames fs) :=
  .ofSb s _ (frameLaw_shrink h fun _ h => h) <|
    buf_sb (frameLaw_shrink h fun _ h => h) l (fun _ _ => c _ fun _ _ => rfl) fun _ => c _ fun _ _ => rfl

theorem filterFrames_keeps (f : Frame → Bool)
    (l : s.stagingLaw → ({ s.sb with frames := s.sb.frames.filter f } : Staging).lawful) :
    Keeps [.sb] s (s.setFrames (s.sb.frames.filter f)) :=
  setFrames_keeps s _ (List.filter_sublist.map _) l fun _ _ => List.filter_sublist.countP_le

/-- R13: a PROGRAMMING or FILLING frame goes to FREE. -/
theorem freeFrame_keeps (i : Nat)
    (h : s.stagingLaw → ∀ f ∈ s.sb.frames, f.idx = i → f.state = .programming ∨ f.state = .filling) :
    Keeps [.sb] s (s.freeFrame i) := filterFrames_keeps s _ fun l => Staging.lawful_free l.2 (h l)

theorem freeFilling_keeps (k : Key) : Keeps [.sb] s (s.freeFilling k) :=
  filterFrames_keeps s _ fun l => Staging.lawful_filter l.2 _ fun f _ h => by
    by_contra n
    simp [n] at h

theorem fillData_keeps (k : Key) (b : Nat) (d : BlockData) : Keeps [.sb] s (s.fillData k b d) := by
  have e : ∀ f : Frame, ∃ x, (if f.state = .filling ∧ f.cmd = some k ∧ f.block = b then
      { f with data := some d } else f) = { f with data := x } := fun f => by
    split
    · exact ⟨_, rfl⟩
    · exact ⟨f.data, rfl⟩
  refine setFrames_keeps s _ ?_ (fun l => Staging.lawful_frames l.2 ?_ ?_) ?_
  · rw [List.map_map, show ((·.idx) ∘ fun f : Frame => if f.state = .filling ∧ f.cmd = some k ∧ f.block = b then
      { f with data := some d } else f) = (·.idx) from funext fun f => by dsimp only [Function.comp]; split <;> rfl]
  · intro f hf
    obtain ⟨g, hg, h⟩ := List.mem_map.1 hf
    obtain ⟨x, hx⟩ := e g
    rw [hx] at h
    exact ⟨g, hg, by rw [← h], by rw [← h], by rw [← h], by rw [← h]⟩
  · intro g hg _
    obtain ⟨x, hx⟩ := e g
    exact ⟨_, List.mem_map.2 ⟨g, hg, hx⟩, rfl, rfl⟩
  · intro P hP
    rw [List.countP_map]
    refine le_of_eq (congrArg (List.countP · _) (funext fun f => ?_))
    obtain ⟨x, hx⟩ := e f
    exact (congrArg P hx).trans (hP f x)

theorem reclaim_keeps (ids : List Nat) : Keeps [.sb] s (s.reclaim ids) := by
  have g : s.frameLaw → (s.reclaim ids).frameLaw :=
    frameLaw_shrink (List.filter_sublist.map _) fun _ h => (List.mem_filter.1 h).1
  exact .ofSb s _ g <| buf_sb g (fun l => Staging.lawful_reclaim l.2 ids)
    (fun _ => Staging.attr_sublist List.filter_sublist) fun _ => Staging.dirtyMarks_sublist List.filter_sublist

/-- R3: the taken frames are FREE once the CLEAN ones among them are reclaimed. -/
theorem allocated (n : Nat) (l : s.stagingLaw) :
    (s.allocIdx n).Nodup ∧ ∀ i ∈ s.allocIdx n, (s.reclaim (s.allocIdx n)).sb.Fresh i :=
  ⟨Staging.alloc_nodup l.2 n, Staging.alloc_fresh l.2 l.1.1 (fun _ h => List.mem_of_mem_take h) rfl⟩

/-- The frames of an admitted WRITE: they are FREE, and the port's quota has room for them. -/
theorem fillFrames_keeps {K : List Comp} (hK : .sb ∈ K) {a : Part} (k : Key) (ids : List Nat)
    (h : a.frameLaw → ∀ i ∈ ids, i < Config.stagingFrames) :
    ∀ (s : Part) (b : Nat), Keeps K a s → (a.stagingLaw → ids.Nodup ∧ ∀ i ∈ ids, s.sb.Fresh i) →
      s.sb.attr (.port k.port) + ids.length ≤ (s.session k.port).quota → Keeps K a (s.fillFrames k b ids) := by
  induction ids with
  | nil => exact fun s b e _ _ => e
  | cons i is ih =>
    intro s b e f q
    rw [List.length_cons] at q
    unfold fillFrames
    generalize hx :
      ({ idx := i, state := .filling, block := b, writer := some (.port k.port), cmd := some k, content := .data,
         seq := none, data := none } : Frame) = x
    have hi : x.idx = i := by rw [← hx]
    have g : a.frameLaw → s.frameLaw → (s.listFrame x).frameLaw :=
      fun l m => frameLaw_insert (hi ▸ h l i List.mem_cons_self) (List.Sublist.refl _) rfl m.2.2 m
    have c : ∀ w, (s.listFrame x).sb.attr w ≤ s.sb.attr w + if some (Writer.port k.port) = some w then 1 else 0 := fun w =>
      (Staging.attr_insert (b := s.sb) rfl (List.Sublist.refl _) w).trans (by simp [Frame.staged, ← hx])
    refine ih (fun l j hj => h l j (List.mem_cons_of_mem _ hj)) _ _ ?_ (fun l => ?_) ?_
    · refine e.andSb hK _ g fun m => m.andSb (fun l n => ⟨g l.1 n.1, ?_⟩) (fun _ _ => quota_sb_one c (by omega)) fun _ _ => ?_
      · exact Staging.lawful_fill n.2 n.1.1 (by rw [← hx]) (by rw [← hx]; rfl) (hi ▸ (f l).2 i List.mem_cons_self)
      · exact room_sb_le ((Staging.dirtyMarks_insert (b := s.sb) rfl (List.Sublist.refl _)).trans (by simp [Frame.isMark, ← hx]))
    · obtain ⟨n, f⟩ := f l
      obtain ⟨n1, n2⟩ := List.nodup_cons.1 n
      refine ⟨n2, fun j hj y hy => ?_⟩
      rcases mem_insertFrame hy with z | z
      · rw [z, hi]; exact fun z => n1 (z ▸ hj)
      · exact f j (List.mem_cons_of_mem _ hj) y z
    · have := c (.port k.port)
      rw [if_pos rfl] at this
      show _ ≤ (s.session k.port).quota
      omega

variable {s} in
theorem frameLaw_dirtied {x : Frame} (h : x.idx < Config.stagingFrames) (m : s.frameLaw) :
    (s.withSb (s.sb.dirtied x)).frameLaw :=
  frameLaw_insert (f := { x with state := .dirty, seq := some (nextSeq s.sb.seq) }) h List.filter_sublist rfl
    (fun i hi => m.2.2 i (List.mem_filter.1 hi).1) m

/-- R9, R18: becoming DIRTY changes the Staging Buffer, and reports a superseded frame to the mark tally. -/
theorem stageDirty_eq (x : Frame) :
    s.stageDirty x = match s.sb.inState .dirty x.block with
      | some y => (s.withSb (s.sb.dirtied x)).tallyReport y true
      | none => s.withSb (s.sb.dirtied x) := by
  unfold stageDirty Staging.dirtied
  cases s.sb.inState .dirty x.block <;> rfl

theorem tallyReport_same (f : Frame) (b : Bool) : (s.tallyReport f b).sb = s.sb ∧ (s.tallyReport f b).sess = s.sess ∧
    (s.tallyReport f b).integ.poison = s.integ.poison ∧ (s.tallyReport f b).md = s.md := by
  unfold tallyReport; split <;> exact ⟨rfl, rfl, rfl, rfl⟩

theorem stageDirty_same (x : Frame) : (s.stageDirty x).sb = s.sb.dirtied x ∧ (s.stageDirty x).sess = s.sess ∧
    (s.stageDirty x).integ.poison = s.integ.poison ∧ (s.stageDirty x).md = s.md := by
  rw [stageDirty_eq]; split
  · exact tallyReport_same _ _ _
  · exact ⟨rfl, rfl, rfl, rfl⟩

/-- R9: the frame's index must be a staging frame's. -/
theorem stageDirty_and {K : List Comp} (hK : [.sb, .integ, .cmds] ⊆ K) {a : Part} (e : Keeps K a s) (x : Frame)
    (h : a.frameLaw → s.frameLaw → x.idx < Config.stagingFrames)
    (m : Buf a s → Buf a (s.withSb (s.sb.dirtied x))) : Keeps K a (s.stageDirty x) := by
  have g : Keeps K a (s.withSb (s.sb.dirtied x)) := e.andSb (hK (by decide)) _ (fun l n => frameLaw_dirtied (h l n) n) m
  rw [stageDirty_eq]; split
  · exact (tallyReport_keeps _ _ true).next (by intro c hc; exact hK (by revert hc; cases c <;> decide)) g
  · exact g

/-- R6, R123: a FILLING frame, with its data, becomes DIRTY. -/
theorem stageFilled_keeps (g x : Frame) (hg : g ∈ s.sb.frames) (hs : g.state = .filling) (hi : x.idx = g.idx := by rfl)
    (hw : x.writer = g.writer := by rfl) (hm : x.content = g.content := by rfl) :
    Keeps [.sb, .integ, .cmds] s (s.stageDirty x) := by
  have lt : s.frameLaw → x.idx < Config.stagingFrames := fun l => hi ▸ l.2.1 g hg
  refine stageDirty_and s (List.Subset.refl _) (.refl s) x (fun l _ => lt l) fun _ =>
    buf_sb (fun l => frameLaw_dirtied (lt l) l) (fun l => ?_) (fun l => ?_) fun l => ?_
  · exact Staging.dirtied_lawful l.2 l.1.1 fun f hf e => Rising.inj l.1.1 hf hg (e.trans hi) ▸ hs
  · exact Staging.attr_dirtied_same l.1.1 hg hi.symm hs hw.symm
  · have k : x.isMark = false := by
      have := l.2.2.2.2.2.2 g hg hs
      simp only [Frame.isMark] at this ⊢
      rw [hm]; exact this
    exact (Staging.dirtyMarks_dirtied x).trans (by simp [k])

/-- The frames of an admitted MARK: they are FREE, and the port's quota and the poison map have room for them. -/
theorem markFrames_keeps {K : List Comp} (hK : [.sb, .integ, .cmds] ⊆ K) {a : Part} (k : Key) (m : MarkKind)
    (ids : List Nat) (h : a.frameLaw → ∀ i ∈ ids, i < Config.stagingFrames) :
    ∀ (s : Part) (b : Nat), Keeps K a s → (a.stagingLaw → ids.Nodup ∧ ∀ i ∈ ids, s.sb.Fresh i) →
      s.sb.attr (.port k.port) + ids.length ≤ (s.session k.port).quota →
      s.integ.poison.length + s.sb.dirtyMarks + ids.length ≤ Config.maxPoison → s.md.device ≠ .starting →
      Keeps K a (s.markFrames k m b ids) := by
  induction ids with
  | nil => exact fun s b e _ _ _ _ => e
  | cons i is ih =>
    intro s b e f q r d
    rw [List.length_cons] at q r
    unfold markFrames
    generalize hx :
      ({ idx := i, state := .dirty, block := b, writer := some (.port k.port), cmd := some k, content := .mark m,
         seq := none, data := none } : Frame) = x
    have hi : x.idx = i := by rw [← hx]
    have hw : x.writer = some (.port k.port) := by rw [← hx]
    have hm : x.isMark = true := by rw [← hx]; rfl
    have c : ∀ w, (s.sb.dirtied x).attr w ≤ s.sb.attr w + if some (Writer.port k.port) = some w then 1 else 0 :=
      fun w => hw ▸ Staging.attr_dirtied x w
    have n : (s.sb.dirtied x).dirtyMarks ≤ s.sb.dirtyMarks + 1 := by
      have := Staging.dirtyMarks_dirtied (b := s.sb) x
      simpa [hm] using this
    have same := stageDirty_same s x
    refine ih (fun l j hj => h l j (List.mem_cons_of_mem _ hj)) _ _ (stageDirty_and s hK e _ (fun l _ => ?_) fun v => ?_)
      (fun l => ?_) ?_ ?_ ?_
    · rw [hi]; exact h l i List.mem_cons_self
    · refine v.andSb (fun l n => ⟨frameLaw_dirtied (hi ▸ h l.1 i List.mem_cons_self) n.1, ?_⟩)
        (fun _ _ => quota_sb_one c (by omega)) fun _ _ => room_sb (by omega) fun z => absurd z d
      exact Staging.dirtied_lawful n.2 n.1.1 fun g hg z => absurd (z.trans hi) ((f l).2 i List.mem_cons_self g hg)
    · obtain ⟨n, f⟩ := f l
      obtain ⟨n1, n2⟩ := List.nodup_cons.1 n
      refine ⟨n2, fun j hj y hy => ?_⟩
      rw [same.1] at hy
      rcases Staging.mem_dirtied hy with z | z
      · rw [z, hi]; exact fun z => n1 (z ▸ hj)
      · exact f j (List.mem_cons_of_mem _ hj) y z
    · have := c (.port k.port)
      rw [if_pos rfl] at this
      rw [same.1, session, same.2.1]
      show _ ≤ (s.session k.port).quota
      omega
    · rw [same.1, same.2.2.1]; omega
    · rw [same.2.2.2]; exact d

theorem dirtyFilled_keeps (k : Key) (n : Nat) : ∀ (s : Part) (b : Nat),
    Keeps [.sb, .integ, .cmds] s (s.dirtyFilled k b n) := by
  induction n with
  | zero => exact fun s b => .refl s
  | succ n ih =>
    intro s b
    unfold dirtyFilled
    refine (ih _ _).next (List.Subset.refl _) ?_
    split
    · rename_i f hf
      refine stageFilled_keeps s f f (List.mem_of_find?_eq_some hf) ?_
      have := List.find?_some hf
      simp only [Bool.and_eq_true, decide_eq_true_eq] at this
      exact this.1.1
    · exact .refl s

theorem touch_keeps (b : Nat) : Keeps [.sb] s (s.touch b) := by
  unfold touch
  split
  · rename_i f _ _ hf
    have g : s.frameLaw →
        (s.withSb { s.sb with clean := (s.sb.clean.filter fun i => decide (i ≠ f.idx)) ++ [f.idx] }).frameLaw := by
      intro l
      refine ⟨l.1, l.2.1, fun i hi => ?_⟩
      rcases List.mem_append.1 hi with hi | hi
      · exact l.2.2 i (List.mem_filter.1 hi).1
      · exact List.mem_singleton.1 hi ▸ inState_lt hf l
    obtain ⟨m, n, -⟩ := Staging.mem_of_inState hf
    exact .ofSb s _ g (buf_sb g (fun l => Staging.lawful_touch l.2 m n) (fun _ _ => le_refl _) fun _ => le_refl _)
  · exact .refl s

theorem setsDone_keeps : Keeps [.cmds] s s.setsDone := by
  refine filterMapRecs_keeps s _ fun c d h => ?_
  split at h
  · split at h <;> cases h; rfl
  · cases h; rfl

/-- R13: a PROGRAMMING frame whose block has no DIRTY frame goes to CLEAN. -/
theorem cleaned_keeps {i : Nat} {f : Frame} (hf : s.sb.at? i = some f) (hs : f.state = .programming)
    (hn : (s.sb.inState .dirty f.block).isNone = true) :
    Keeps [.sb] s (s.withSb { s.sb with
      frames := insertFrame { f with state := .clean, writer := none, cmd := none } s.sb.frames
      clean := s.sb.clean ++ [i] }) := by
  obtain ⟨m, e⟩ := Staging.mem_of_at hf
  subst e
  have g : s.frameLaw → (s.withSb { s.sb with
      frames := insertFrame { f with state := .clean, writer := none, cmd := none } s.sb.frames
      clean := s.sb.clean ++ [f.idx] }).frameLaw := by
    intro l
    refine frameLaw_insert (f := { f with state := .clean, writer := none, cmd := none }) (l.2.1 f m)
      (List.Sublist.refl _) rfl (fun j hj => ?_) l
    rcases List.mem_append.1 hj with hj | hj
    · exact l.2.2 j hj
    · exact List.mem_singleton.1 hj ▸ l.2.1 f m
  refine .ofSb s _ g (buf_sb g (fun l => ?_) (fun l w => ?_) fun l => ?_)
  · exact Staging.lawful_clean (x := { f with state := .clean, writer := none, cmd := none }) l.2 l.1.1 m hs rfl rfl rfl
      (Option.isNone_iff_eq_none.1 hn)
  · exact Staging.countP_replace (b := s.sb) (x := { f with state := .clean, writer := none, cmd := none }) _ l.1.1 rfl
      (List.Sublist.refl _) m rfl fun h => by simp at h
  · exact Staging.countP_replace (b := s.sb) (x := { f with state := .clean, writer := none, cmd := none }) _ l.1.1 rfl
      (List.Sublist.refl _) m rfl fun h => by simp at h

theorem outcome_keeps (i : Nat) (o : ProgOutcome) : Keeps [.sb, .integ, .cmds, .links] s (s.outcome i o) := by
  unfold outcome
  split
  · exact .refl s
  · rename_i f hf
    obtain ⟨hf, hs⟩ := Option.filter_eq_some_iff.1 hf
    have hs := of_decide_eq_true hs
    dsimp only
    refine (emitDecided_keeps _).next (by decide) <| (setsDone_keeps _).next (by decide) <|
      Keeps.next (L := [.cmds]) (mapRecs_keeps _ _ fun _ => rfl) (by decide) ?_
    have moved : Keeps [.sb, .integ, .cmds, .links] s
        (if o = .ok ∧ f.content = .data ∧ (s.sb.inState .dirty f.block).isNone then
          s.withSb { s.sb with
            frames := insertFrame { f with state := .clean, writer := none, cmd := none } s.sb.frames
            clean := s.sb.clean ++ [i] }
        else s.freeFrame i) := by
      split
      · rename_i h
        exact (cleaned_keeps s hf hs h.2.2).mono (by decide)
      · refine (freeFrame_keeps s i fun l g hg e => .inl ?_).mono (by decide)
        obtain ⟨m, k⟩ := Staging.mem_of_at hf
        rw [Rising.inj l.1.1 hg m (e.trans k.symm), hs]
    split
    · exact (tallyReport_keeps _ f false).next (by decide) moved
    · exact moved

theorem cacheRead_keeps (b : Nat) (d : BlockData) : Keeps [.sb] s (s.cacheRead b d) := by
  unfold cacheRead
  split
  · exact .refl s
  · rename_i hn
    simp only [Bool.or_eq_true, not_or, Bool.not_eq_true, Option.isSome_eq_false_iff, Option.isNone_iff_eq_none] at hn
    split
    · rename_i i is hi
      have hlt : s.frameLaw → i < Config.stagingFrames := fun l => allocIdx_lt (hi ▸ List.mem_cons_self) l
      have hm : i ∈ s.sb.freeIdx ++ s.sb.clean := List.mem_of_mem_take (hi ▸ List.mem_cons_self : i ∈ s.allocIdx 1)
      dsimp only
      generalize hx :
        ({ idx := i, state := .clean, block := b, writer := none, cmd := none, content := .data, seq := some 0,
           data := some d } : Frame) = x
      have xi : x.idx = i := by rw [← hx]
      have xs : x.state = .clean := by rw [← hx]
      have xb : x.block = b := by rw [← hx]
      refine (reclaim_keeps s [i]).andSb (by decide)
        { (s.reclaim [i]).sb with
          frames := insertFrame x (s.reclaim [i]).sb.frames
          clean := (s.reclaim [i]).sb.clean ++ [i] } ?_ fun m => m.andSb ?_ ?_ ?_
      · intro l m
        refine frameLaw_insert (f := x) (xi ▸ hlt l) (List.Sublist.refl _) rfl (fun j hj => ?_) m
        rcases List.mem_append.1 hj with hj | hj
        · exact m.2.2 j hj
        · exact List.mem_singleton.1 hj ▸ hlt l
      · intro l m
        refine ⟨frameLaw_insert (f := x) (xi ▸ hlt l.1) (List.Sublist.refl _) rfl (fun j hj => ?_) m.1, ?_⟩
        · rcases List.mem_append.1 hj with hj | hj
          · exact m.1.2.2 j hj
          · exact List.mem_singleton.1 hj ▸ hlt l.1
        · have fr : (s.reclaim [i]).sb.Fresh x.idx :=
            xi ▸ Staging.alloc_fresh (ids := [i]) (c := (s.reclaim [i]).sb) l.2 l.1.1
              (fun j hj => List.mem_singleton.1 hj ▸ hm) rfl i List.mem_cons_self
          have := Staging.lawful_cache (x := x) m.2 m.1.1 xs fr fun f hf e => by
            have hf := (List.mem_filter.1 hf).1
            rw [xb] at e
            cases k : f.state with
            | filling => rfl
            | dirty => exact absurd e (Staging.not_inState hn.1.1 hf k)
            | programming => exact absurd e (Staging.not_inState hn.1.2 hf k)
            | clean => exact absurd e (Staging.not_inState hn.2 hf k)
          rw [xi] at this
          exact this
      · intro _ _ q
        have c : ∀ w, Staging.attr { (s.reclaim [i]).sb with
            frames := insertFrame x (s.reclaim [i]).sb.frames
            clean := (s.reclaim [i]).sb.clean ++ [i] } w ≤ (s.reclaim [i]).sb.attr w := fun w =>
          (Staging.attr_insert (b := (s.reclaim [i]).sb) rfl (List.Sublist.refl _) w).trans (by simp [Frame.staged, xs])
        exact ⟨fun p => (c _).trans (q.1 p), (c _).trans q.2⟩
      · exact fun _ _ => room_sb_le
          ((Staging.dirtyMarks_insert (b := (s.reclaim [i]).sb) rfl (List.Sublist.refl _)).trans (by simp [xs]))
    · exact .refl s

/-! ### Poison map -/

theorem setPoison_and {K : List Comp} (hK : .integ ∈ K) {a : Part} (e : Keeps K a s) (es : List PoisonEntry)
    (h : s.metaLaw → (es.map (·.block)).Nodup)
    (r : a.stagingLaw → a.roomLaw → s.roomLaw → es.length + s.sb.dirtyMarks ≤ Config.maxPoison) :
    Keeps K a (s.setPoison es) := by
  refine e.andInteg hK _ (fun _ l => ?_) fun m => ⟨m.staging, m.quota, fun k l => ?_⟩
  · exact ⟨⟨h l, l.1.2.1, l.1.2.2.1, l.1.2.2.2⟩, l.2⟩
  · exact ⟨r k l (m.room k l), (m.room k l).2⟩

theorem setPoison_keeps (es : List PoisonEntry) (h : s.metaLaw → (es.map (·.block)).Nodup)
    (r : es.length ≤ s.integ.poison.length) : Keeps [.integ] s (s.setPoison es) :=
  setPoison_and s (by decide) (.refl s) es h fun _ _ l => (Nat.add_le_add_right r _).trans l.1

/-- R127, R128: an entry is set; where the block has none, the map has room for it. -/
theorem setEntry_and {K : List Comp} (hK : [.integ, .md] ⊆ K) {a : Part} (e : Keeps K a s) (b : Nat) (k : PoisonKind)
    (o : Option Port) (r : (s.poisonOf b).isSome = true ∨
      (a.stagingLaw → a.roomLaw → s.roomLaw → s.integ.poison.length + s.sb.dirtyMarks < Config.maxPoison)) :
    Keeps K a (s.setEntry b k o) := by
  unfold setEntry
  refine (change_keeps _).next (by intro c hc; exact hK (by revert hc; cases c <;> decide)) ?_
  split
  · refine setPoison_and s (hK (by decide)) e _ (fun l => ?_) fun _ _ l => by rw [List.length_map]; exact l.1
    have e : ((·.block) ∘ fun x : PoisonEntry => if x.block = b then
        { block := b, kind := k, origin := o, hours := s.time.hours, ms := s.now } else x) = (·.block) := by
      funext x; dsimp only [Function.comp]; split
      · rename_i h; exact h.symm
      · rfl
    rw [List.map_map, e]; exact l.1.1
  · rename_i hb
    refine setPoison_and s (hK (by decide)) e _ (fun l => ?_) fun l m n => ?_
    · have hn : ∀ x ∈ s.integ.poison, x.block ≠ b := by
        intro x hx e
        exact hb (List.find?_isSome.2 ⟨x, hx, decide_eq_true e⟩)
      rw [List.map_append]
      refine List.nodup_append.2 ⟨l.1.1, List.nodup_singleton _, ?_⟩
      intro x hx y hy e
      obtain ⟨z, hz, rfl⟩ := List.mem_map.1 hx
      simp only [List.map_cons, List.map_nil, List.mem_singleton] at hy
      exact hn z hz (e.trans hy)
    · have := (r.resolve_left hb) l m n
      rw [List.length_append, List.length_singleton]; omega

theorem removeEntry_keeps (b : Nat) : Keeps [.integ, .md] s (s.removeEntry b) := by
  unfold removeEntry
  split
  · exact (change_keeps _).next (by decide) <|
      (setPoison_keeps s _ (fun l => (List.filter_sublist.map _).nodup l.1.1) (List.length_filter_le _ _)).mono (by decide)
  · exact .refl s

/-- R128: the room test for a MEDIA entry leaves room for every DIRTY MARK frame. -/
theorem room_of_media (h : s.roomForMedia = true) : s.integ.poison.length + s.sb.dirtyMarks < Config.maxPoison := by
  refine lt_of_le_of_lt (Nat.add_le_add_left ?_ _) (of_decide_eq_true h)
  refine List.countP_mono_left fun f _ h => ?_
  simp only [Bool.and_eq_true, Bool.or_eq_true] at h ⊢
  exact ⟨h.1, .inl h.2⟩

theorem failureRecord_keeps (b : Nat) (x : FaultSource) : Keeps [.faults, .md] s (s.failureRecord b x) := by
  unfold failureRecord; split
  · exact .refl s
  · exact appendFault_keeps s _

theorem mediaFailure_keeps (b : Nat) (x : FaultSource) : Keeps [.integ, .md, .faults] s (s.mediaFailure b x) := by
  unfold mediaFailure
  split
  · refine (failureRecord_keeps _ _ _).next (by decide) ?_
    split
    · exact .refl s
    · rename_i e h _
      exact setEntry_and s (by decide) (.refl s) _ _ _ (.inl (by simp [h]))
  · split
    · rename_i h
      exact (failureRecord_keeps _ _ _).next (by decide) <|
        setEntry_and s (by decide) (.refl s) _ _ _ (.inr fun _ _ _ => room_of_media s h)
    · split
      · exact .refl s
      · exact (appendFault_keeps s _).mono (by decide)

theorem poisonReadReported_keeps (b : Nat) (r : Port) (o : Option Port) (t : Option (Nat × Nat)) :
    Keeps [.links, .faults, .md] s (s.poisonReadReported b r o t) :=
  (appendFault_keeps _ _).next (by decide) <| (noticeAll_keeps s _).mono (by decide)

/-! ### Read path -/

theorem failRead_keeps (c : Cmd) (st : Status) (k : Option MarkKind) : Keeps [.links, .cmds] s (s.failRead c st k) :=
  finish_keeps s _ _ _

theorem deliver_keeps (c : Cmd) (d : BlockData) (hc : c ∈ s.cmds.recs) : Keeps [.links, .cmds] s (s.deliver c d) := by
  unfold deliver
  dsimp only
  have h : Keeps [.links, .cmds] s (s.setLc c.key.port
      (if decide ((s.lc c.key.port).responses < Config.maxResponses) = true then
        (s.lc c.key.port).push (.dataOut c.key.tag c.next d)
      else { s.lc c.key.port with held := (s.lc c.key.port).held ++ [{ frame := .dataOut c.key.tag c.next d }] })) := by
    split
    · exact (push_keeps s _ _ rfl).mono (by decide)
    · exact (addHeld_keeps s _ _ rfl).mono (by decide)
  split
  · exact Keeps.next (L := [.cmds]) (replaceCmd_keeps _ c _ hc rfl) (by decide) h
  · exact (finish_keeps _ _ _ _).next (by decide) <|
      Keeps.next (L := [.cmds]) (replaceCmd_keeps _ c _ hc rfl) (by decide) h

/-- The Media Engine's requests of the ports' reads change. -/
theorem portReads_keeps (rs : List PortReq) : Keeps [.media] s (s.withMedia { s.media with portReads := rs }) :=
  .ofMediaPlain s _ rfl rfl (.inl rfl) (.inl rfl) (List.Sublist.refl _) (.inl rfl)

/-- What a READ that takes blocks can change. -/
theorem takeBlocks_keeps (n : Nat) : ∀ (r : Nat) (s : Part),
    Keeps [.links, .cmds, .sb, .media, .faults, .md] s (takeBlocks n r s) := by
  induction n with
  | zero => exact fun r s => .refl s
  | succ n ih =>
    intro r s
    unfold takeBlocks
    split
    · exact .refl s
    · rename_i c hc
      split
      · dsimp only
        split
        · refine (ih _ _).next (by decide) <| (deliver_keeps _ _ _ ?_).next (by decide) <| (touch_keeps s _).mono (by decide)
          rw [(touch_keeps s _).cmds (by decide)]
          exact List.mem_of_find?_eq_some hc
        · split
          · exact (poisonReadReported_keeps _ _ _ _ _).next (by decide) <| (failRead_keeps s _ _ _).mono (by decide)
          · exact (failRead_keeps s _ _ _).mono (by decide)
        · split
          · exact (failRead_keeps s _ _ _).mono (by decide)
          · exact (failRead_keeps s _ _ _).mono (by decide)
          · exact (poisonReadReported_keeps _ _ _ _ _).next (by decide) <| (failRead_keeps s _ _ _).mono (by decide)
        · exact (updCmd_keeps _ _ _).next (by decide) <| (portReads_keeps s _).mono (by decide)
      · exact .refl s

theorem runRead_keeps (r : Nat) : Keeps [.links, .cmds, .sb, .media, .faults, .md] s (s.runRead r) :=
  takeBlocks_keeps 17 r s

theorem releaseOne_keeps (r : Nat) : Keeps [.links, .cmds, .sb, .media, .faults, .md] s (s.releaseOne r) := by
  unfold releaseOne
  split
  · exact .refl s
  · split
    · dsimp only
      split
      · exact (runRead_keeps _ _).next (by decide) <| (updCmd_keeps s _ _).mono (by decide)
      · exact (updCmd_keeps s _ _).mono (by decide)
    · exact .refl s

theorem releaseInTurn_keeps (wait : List Nat) (r : Nat) :
    Keeps [.links, .cmds, .sb, .media, .faults, .md] s (releaseInTurn wait s r) := by
  unfold releaseInTurn
  split
  · exact .refl s
  · exact releaseOne_keeps s r

theorem releaseHeld_keeps (wait : List Nat) : Keeps [.links, .cmds, .sb, .media, .faults, .md] s (releaseHeld wait s) :=
  .foldl _ (fun s _ => releaseInTurn_keeps s wait _) _ s

theorem sendGo_keeps (c : Cmd) : Keeps [.links, .cmds] s (s.sendGo c) := by
  unfold sendGo
  dsimp only
  split
  · exact (updCmd_keeps _ _ _).next (by decide) <| (push_keeps s _ _ rfl).mono (by decide)
  · exact (addHeld_keeps s _ _ rfl).mono (by decide)

theorem goEntered_keeps (k : Key) : Keeps [.cmds] s (s.goEntered k) := by
  unfold goEntered
  split
  · split
    · exact updCmd_keeps s _ _
    · exact .refl s
  · exact .refl s

theorem dataEntered_keeps (k : Key) : Keeps [.links, .cmds, .sb, .media, .faults, .md] s (s.dataEntered k) := by
  unfold dataEntered
  split
  · exact (runRead_keeps _ _).next (by decide) <| (updCmd_keeps s _ _).mono (by decide)
  · exact .refl s

theorem behindEntered_keeps (k : Key) : Keeps [.cmds] s (s.behindEntered k) := by
  unfold behindEntered
  split
  · split
    · exact dropCmd_keeps s _
    · exact .refl s
  · exact .refl s

/-- R183: what the entry of a held frame can change, where the frame behind it is no notice. -/
theorem heldEntered_and {K : List Comp} (hK : [.links, .cmds, .sb, .media, .faults, .md] ⊆ K) {a : Part}
    (e : Keeps K a s) (p : Port) (h : HeldFrame)
    (hf : a.linkLaw → ∀ f, h.behind = some f → f.isNotice = false) : Keeps K a (s.heldEntered p h) := by
  have g : ∀ f, h.behind = some f → Keeps K a (s.setLc p ((s.lc p).push f)) := fun f hb =>
    e.andLc (hK (by decide)) p _ (List.prefix_append _ _) fun l m => Lc.lawful_push (hf l f hb) m
  have k : [.cmds] ⊆ K := fun c hc => hK (by revert hc; cases c <;> decide)
  unfold heldEntered
  split
  · rename_i f _ _ _ hb _
    exact (behindEntered_keeps _ _).next k (g f hb)
  · rename_i f _ _ hb _
    exact (behindEntered_keeps _ _).next k (g f hb)
  · exact (dataEntered_keeps s _).next hK e
  · exact (goEntered_keeps s _).next k e
  · exact e

/-- What the entry of held frames can change. -/
theorem enterHeld_keeps (n : Nat) : ∀ (p : Port) (s : Part),
    Keeps [.links, .cmds, .sb, .media, .faults, .md] s (enterHeld n p s) := by
  induction n with
  | zero => exact fun p s => .refl s
  | succ n ih =>
    intro p s
    unfold enterHeld
    dsimp only
    split
    · exact .refl s
    · rename_i h hs hh
      split
      · refine (ih _ _).next (List.Subset.refl _) (heldEntered_and _ (List.Subset.refl _) ?_ p h ?_)
        · refine (Keeps.refl s).andLc (by decide) p _ (List.prefix_append _ _) fun _ l => ?_
          have m := l.2.2 h (hh ▸ List.mem_cons_self)
          have k := Lc.lawful_push (f := h.frame) m.1 l
          exact ⟨k.1, k.2.1, fun x hx => l.2.2 x (hh ▸ List.mem_cons_of_mem _ hx)⟩
        · exact fun l => ((l p).2.2 h (hh ▸ List.mem_cons_self)).2
      · exact .refl s

theorem enterAll_keeps (p : Port) : Keeps [.links, .cmds, .sb, .media, .faults, .md] s (s.enterAll p) :=
  enterHeld_keeps _ p s

end Part

end Sys2Proof.Machine
end

