-- ==== Sys2Proof/Laws/Leases.lean ====
section
/-! SUPPORT. What the operations of Machine/Leases.lean and Admission.lean can do: the components each changes, with the laws
kept. -/

namespace Sys2Proof.Machine.Part

variable (s : Part)

theorem reply_keeps (c : Cmd) (st : Status) (r : Result) : Keeps [.links] s (s.reply c st r) :=
  sendCompletion_keeps s _ _ _ _ _

/-- R47, R50: the record of a request that has just been accepted enters its tag table: its place is empty, and it takes
the next place in the order of receipt. -/
structure Fresh (s : Part) (c : Cmd) : Prop where
  key : ∀ d ∈ s.cmds.recs, d.key ≠ c.key
  receipt : c.receipt = s.cmds.nextReceipt

/-- What makes no record keeps a new record's place free. -/
theorem Fresh.of_narrows {s t : Part} {c : Cmd} (f : Fresh s c) (h : Narrows s t) : Fresh t c := by
  refine ⟨fun d hd => ?_, by rw [h.2]; exact f.receipt⟩
  obtain ⟨e, he, k⟩ := List.mem_map.1 (h.1.subset (List.mem_map_of_mem hd))
  have q : e.key = d.key := congrArg Prod.fst k
  rw [← q]; exact f.key e he

theorem record_and {K : List Comp} (hK : [.cmds, .adds] ⊆ K) {a : Part} (e : Keeps K a s) (c : Cmd)
    (f : a.tableLaw → Fresh s c) : Keeps K a (s.record c) := by
  refine e.andCmds hK _ fun i l => ?_
  obtain ⟨k, r⟩ := f i
  refine ⟨?_, ?_, ?_⟩
  · show ((s.cmds.recs ++ [c]).map (·.key)).Nodup
    rw [List.map_append]
    refine List.nodup_append.2 ⟨l.1, List.nodup_singleton _, ?_⟩
    intro x hx y hy q
    obtain ⟨d, hd, rfl⟩ := List.mem_map.1 hx
    simp only [List.map_cons, List.map_nil, List.mem_singleton] at hy
    exact k d hd (q.trans hy)
  · refine List.pairwise_append.2 ⟨l.2.1, List.pairwise_singleton _ _, fun d hd x hx => ?_⟩
    rw [List.mem_singleton.1 hx, r]; exact l.2.2 d hd
  · intro d hd
    rcases List.mem_append.1 hd with hd | hd
    · exact (l.2.2 d hd).trans (Nat.lt_succ_self _)
    · rw [List.mem_singleton.1 hd, r]; exact Nat.lt_succ_self _

theorem record_keeps (c : Cmd) (f : s.tableLaw → Fresh s c) : Keeps [.cmds, .adds] s (s.record c) :=
  record_and s (List.Subset.refl _) (.refl s) c f

/-- Leases and wait list entries leave: the laws of the Lease Unit are kept. -/
theorem lease_shrink (x : LeaseUnit) (ht : x.table.Sublist s.lease.table) (hw : x.waits.Sublist s.lease.waits) :
    Keeps [.lease] s (s.withLease x) := by
  refine .ofLease s x ?_ ?_
  · rintro ⟨a, b, c⟩
    exact ⟨a.sublist ht, ht.length_le.trans b, hw.length_le.trans c⟩
  · rintro ⟨a, b, c⟩
    exact ⟨fun l hl => a l (ht.subset hl), fun w h => b w (hw.subset h), c⟩

theorem setLeases_keeps (ls : List Lease) (h : ls.Sublist s.lease.table) : Keeps [.lease] s (s.setLeases ls) :=
  lease_shrink s _ h (List.Sublist.refl _)

theorem setWaits_keeps (ws : List Wait) (h : ws.Sublist s.lease.waits) : Keeps [.lease] s (s.setWaits ws) :=
  lease_shrink s _ (List.Sublist.refl _) h

theorem removeLease_keeps (id : BitVec 16) : Keeps [.lease] s (s.removeLease id) :=
  setLeases_keeps s _ List.filter_sublist

theorem lapse_keeps (l : Lease) : Keeps [.lease, .links] s (s.lapse l) :=
  (offerNotice_keeps _ _ _).next (by decide) <| (removeLease_keeps s _).mono (by decide)

theorem endWait_keeps (k : Key) (st : Status) : Keeps [.lease, .links, .cmds] s (s.endWait k st) := by
  have h : Keeps [.lease, .links, .cmds] s (s.setWaits (s.lease.waits.filter fun w => decide (w.key ≠ k))) :=
    (setWaits_keeps s _ List.filter_sublist).mono (by decide)
  unfold endWait
  dsimp only
  split
  · exact (finish_keeps _ _ _ _).next (by decide) h
  · exact h

/-- R29, R32: a request that can be granted clashes with no held lease. -/
theorem apart_newLease {s : Part} {ahead : List Wait} {p : Port} {start len : Nat} {mode : LeaseMode} {d : Nat}
    (h : s.grantable ahead p start len mode = true) : ∀ l ∈ s.lease.table, l.apart (s.newLease p start len mode d) := by
  intro l hl ho
  have hb : s.leaseBlocked p start len mode = false := by
    have := (Bool.and_eq_true_iff.1 (Bool.and_eq_true_iff.1 h).1).1
    simpa using this
  have hc : l.against p start len mode = false := by
    have := (Bool.or_eq_false_iff.1 hb).1
    exact eq_false_of_ne_true fun e => Bool.eq_false_iff.1 this (List.any_eq_true.2 ⟨l, hl, e⟩)
  simp only [Lease.against] at hc
  have ho' : overlaps l.start l.len start len = true := ho
  rw [ho', Bool.true_and, Bool.or_eq_false_iff, Bool.or_eq_false_iff] at hc
  refine ⟨of_decide_eq_false hc.1.1, ?_, ?_⟩
  · have := of_decide_eq_false hc.1.2
    cases hm : l.mode
    · rfl
    · exact absurd hm this
  · have := of_decide_eq_false hc.2
    show mode = .shared
    cases hm : mode
    · rfl
    · exact absurd hm this

/-- R32: the grant of a request that can be granted, to a port whose session is OPEN. -/
theorem addLease_and {K : List Comp} (hK : .lease ∈ K) {a : Part} (e : Keeps K a s) (ahead : List Wait) (p : Port)
    (start len : Nat) (mode : LeaseMode) (d : Nat) (h : s.grantable ahead p start len mode = true)
    (ho : a.sessionLaw → (s.session p).state = .opened) : Keeps K a (s.addLease (s.newLease p start len mode d)) := by
  refine e.andLease hK _ ?_ ?_
  · rintro - ⟨a, b, c⟩
    have hl : s.lease.table.length < Config.maxLeases := of_decide_eq_true (Bool.and_eq_true_iff.1 h).2
    refine ⟨?_, ?_, c⟩
    · refine List.pairwise_append.2 ⟨a, List.pairwise_singleton _ _, ?_⟩
      intro l hl m hm
      rw [List.mem_singleton.1 hm]
      exact apart_newLease h l hl
    · simpa [addLease] using hl
  · rintro o ⟨a, b, c⟩
    refine ⟨?_, b, c⟩
    intro l hl
    rcases List.mem_append.1 hl with hl | hl
    · exact a l hl
    · rw [List.mem_singleton.1 hl]; exact .inl (ho o)

theorem grantWait_and {K : List Comp} (hK : [.lease, .links, .cmds] ⊆ K) {a : Part} (e : Keeps K a s)
    (ahead : List Wait) (w : Wait) (h : s.grantable ahead w.key.port w.start w.len w.mode = true)
    (ho : a.sessionLaw → (s.session w.key.port).state = .opened) : Keeps K a (s.grantWait w) := by
  have f : Keeps K a (s.moveWait w (s.newLease w.key.port w.start w.len w.mode w.duration)) := by
    unfold moveWait
    have e' : Keeps K a (s.setWaits (s.lease.waits.filter fun x => decide (x ≠ w))) :=
      (setWaits_keeps s _ List.filter_sublist).next (by simpa using hK (by decide)) e
    exact addLease_and _ (hK (by decide)) e' ahead w.key.port w.start w.len w.mode w.duration h ho
  unfold grantWait
  dsimp only
  split
  · exact (finish_keeps _ _ _ _).next (by intro c hc; exact hK (by revert hc; cases c <;> decide)) f
  · exact f

/-- R35: one pass over entries whose ports are OPEN; sessions do not change in it. -/
theorem scanWaits_keeps {a : Part} (ws : List Wait) (ho : a.sessionLaw → ∀ w ∈ ws, (a.session w.key.port).state = .opened) :
    ∀ (ahead : List Wait) (s : Part), Keeps [.lease, .links, .cmds] a s →
      Keeps [.lease, .links, .cmds] a (scanWaits ahead ws s) := by
  induction ws with
  | nil => exact fun _ _ e => e
  | cons w ws ih =>
    intro ahead s e
    have ih := ih fun l v hv => ho l v (List.mem_cons_of_mem _ hv)
    unfold scanWaits
    split
    · rename_i h
      refine ih _ _ (grantWait_and s (List.Subset.refl _) e ahead w h fun l => ?_)
      have q := e.sess (by decide)
      simpa only [session, q] using ho l w List.mem_cons_self
    · exact ih _ _ e

theorem waitScan_keeps : Keeps [.lease, .links, .cmds] s s.waitScan := by
  unfold waitScan
  split
  · exact scanWaits_keeps _ (fun l w hw => l.2.1 w hw) _ _ (.refl s)
  · exact .refl s

/-! ### Requests -/

/-- R32 to R34, for a port whose session is OPEN. -/
theorem acquire_keeps (c : Cmd) (x : LeaseParams) (ho : (s.session c.key.port).state = .opened)
    (f : s.tableLaw → Fresh s c) : Keeps [.lease, .links, .cmds, .adds] s (s.acquire c x) := by
  unfold acquire
  dsimp only
  split
  · rename_i h
    exact (reply_keeps _ _ _ _).next (by decide) (addLease_and s (by decide) (.refl s) _ _ _ _ _ _ h fun _ => ho)
  · split
    · exact (reply_keeps s _ _ _).mono (by decide)
    · split
      · rename_i hl
        refine record_and _ (by decide) ?_ _ fun l => ⟨(f l).1, (f l).2⟩
        refine (Keeps.refl s).andLease (by decide) _ ?_ ?_
        · rintro - ⟨a, b, c⟩
          exact ⟨a, b, by simpa using hl⟩
        · rintro - ⟨a, b, d⟩
          refine ⟨a, ?_, d⟩
          intro w hw
          rcases List.mem_append.1 hw with hw | hw
          · exact b w hw
          · rw [List.mem_singleton.1 hw]; exact ho
      · exact (reply_keeps s _ _ _).mono (by decide)

theorem serveAcquire_keeps (c : Cmd) (x : Except Status LeaseParams) (ho : (s.session c.key.port).state = .opened)
    (f : s.tableLaw → Fresh s c) : Keeps [.lease, .links, .cmds, .adds] s (s.serveAcquire c x) := by
  unfold serveAcquire
  split
  · exact (reply_keeps s _ _ _).mono (by decide)
  · split
    · exact (reply_keeps s _ _ _).mono (by decide)
    · exact acquire_keeps s _ _ ho f

theorem serveRenew_keeps (c : Cmd) (id d : BitVec 16) : Keeps [.lease, .links] s (s.serveRenew c id d) := by
  unfold serveRenew
  split
  · exact (reply_keeps s _ _ _).mono (by decide)
  · split
    · exact (reply_keeps s _ _ _).mono (by decide)
    · dsimp only
      refine (reply_keeps _ _ _ _).next (by decide) ((Keeps.refl s).andLease (by decide) _ ?_ ?_)
      · rintro - ⟨a, b, c⟩
        refine ⟨List.pairwise_map.2 (a.imp fun {l m} h => ?_), by simpa using b, c⟩
        split <;> split <;> exact h
      · rintro - ⟨a, b, c⟩
        refine ⟨?_, b, c⟩
        intro l hl
        obtain ⟨m, hm, e⟩ := List.mem_map.1 hl
        have : l.holder = m.holder := by rw [← e]; split <;> rfl
        exact this ▸ a m hm

theorem serveRelease_keeps (c : Cmd) (id : BitVec 16) : Keeps [.lease, .links] s (s.serveRelease c id) := by
  unfold serveRelease
  split
  · exact (reply_keeps s _ _ _).mono (by decide)
  · exact (reply_keeps _ _ _ _).next (by decide) <| (removeLease_keeps s _).mono (by decide)

theorem serveQuery_keeps (c : Cmd) (start len : BitVec 32) : Keeps [.links] s (s.serveQuery c start len) := by
  unfold serveQuery
  split
  · exact reply_keeps s _ _ _
  · split
    · exact reply_keeps s _ _ _
    · exact reply_keeps s _ _ _

/-! ### Admission -/

theorem alloc_length_le (n : Nat) : (s.allocIdx n).length ≤ n := List.length_take_le _ _

/-- R58: the port's quota has room for the frames of a WRITE. -/
theorem admitWrite_keeps (c : Cmd) (q : s.sb.attr (.port c.key.port) + c.count ≤ (s.session c.key.port).quota) :
    Keeps [.cmds, .sb, .links] s (s.admitWrite c) := by
  unfold admitWrite
  dsimp only
  refine (sendGo_keeps _ _).next (by decide) <| (updCmd_keeps _ _ _).next (by decide) ?_
  refine fillFrames_keeps (K := [.cmds, .sb, .links]) (by decide) (a := s) _ _ (fun l i hi => allocIdx_lt hi l) _ _ ?_
    (fun l => allocated s _ l) ?_
  · exact (reclaim_keeps _ _).next (by decide) <| (dequeue_keeps s _).mono (by decide)
  · have h1 := Staging.attr_sublist (b := s.sb) (c := ((s.dequeue c.key).reclaim (s.allocIdx c.count)).sb)
      List.filter_sublist (.port c.key.port)
    have h2 := alloc_length_le s c.count
    exact (Nat.add_le_add h1 h2).trans q

/-- R58: the port's quota and the poison map have room for the frames of a MARK. -/
theorem admitMark_keeps (c : Cmd) (q : s.sb.attr (.port c.key.port) + c.count ≤ (s.session c.key.port).quota)
    (r : s.integ.poison.length + s.sb.dirtyMarks + c.count ≤ Config.maxPoison) (d : s.md.device ≠ .starting) :
    Keeps [.cmds, .sb, .integ, .links] s (s.admitMark c) := by
  unfold admitMark
  dsimp only
  refine (emitDecided_keeps _).next (by decide) <| (updCmd_keeps _ _ _).next (by decide) <|
    (tally_keeps _ _).next (by decide) ?_
  have h2 := alloc_length_le s c.count
  refine markFrames_keeps (K := [.cmds, .sb, .integ, .links]) (by decide) (a := s) _ _ _
    (fun l i hi => allocIdx_lt hi l) _ _ ?_ (fun l => allocated s _ l) ?_ ?_ d
  · exact (reclaim_keeps _ _).next (by decide) <| (dequeue_keeps s _).mono (by decide)
  · have h1 := Staging.attr_sublist (b := s.sb) (c := ((s.dequeue c.key).reclaim (s.allocIdx c.count)).sb)
      List.filter_sublist (.port c.key.port)
    exact (Nat.add_le_add h1 h2).trans q
  · have h1 := Staging.dirtyMarks_sublist (b := s.sb) (c := ((s.dequeue c.key).reclaim (s.allocIdx c.count)).sb)
      List.filter_sublist
    exact (Nat.add_le_add (Nat.add_le_add_left h1 _) h2).trans r

theorem admitFail_keeps (c : Cmd) (st : Status) : Keeps [.cmds, .links] s (s.admitFail c st) :=
  (finish_keeps _ _ _ _).next (by decide) <| (dequeue_keeps s _).mono (by decide)

theorem stop_keeps (k : Option Key) : Keeps [.cmds] s (s.withCmds { s.cmds with stop := k }) :=
  recs_keeps s _ rfl (List.Sublist.refl _)

/-- R55: an entry that is not skipped fits its port's quota. -/
theorem quota_of_skips {sk : List Cmd} {c : Cmd} (h : ¬s.skips sk c = true) :
    s.sb.attr (.port c.key.port) + c.count ≤ (s.session c.key.port).quota := by
  by_contra n
  exact h (by simp only [skips, Bool.or_eq_true, decide_eq_true_eq]; exact .inl (not_le.1 n))

/-- R56: a MARK that does not fail fits the poison map. -/
theorem room_of_admission {c : Cmd} (h : s.admissionFailure c = none) (k : c.code = codeMark) :
    s.integ.poison.length + s.sb.dirtyMarks + c.count ≤ Config.maxPoison := by
  unfold admissionFailure at h
  split at h
  · cases h
  · split at h
    · cases h
    · rename_i n
      refine le_trans (Nat.add_le_add_right (Nat.add_le_add_left ?_ _) _) (not_lt.1 fun m => n ⟨k, m⟩)
      refine List.countP_mono_left fun f _ h => ?_
      simp only [Bool.and_eq_true, Bool.or_eq_true] at h ⊢
      exact ⟨h.1, .inl h.2⟩

theorem scanQueue_keeps (ks : List Key) : ∀ (skipped : List Cmd) (b : Bool) (s : Part), s.md.device ≠ .starting →
    Keeps [.cmds, .sb, .integ, .links] s (scanQueue skipped b ks s).1 := by
  induction ks with
  | nil => exact fun _ _ s _ => .refl s
  | cons k ks ih =>
    intro skipped b s hd
    have on : ∀ {t : Part} {b : Bool} {sk : List Cmd}, Keeps [.cmds, .sb, .integ, .links] s t →
        Keeps [.cmds, .sb, .integ, .links] s (scanQueue sk b ks t).1 := fun {t b sk} e =>
      (ih sk b t (by rw [e.md (by decide)]; exact hd)).next (by decide) e
    unfold scanQueue
    split
    · exact ih _ _ _ hd
    · split
      · exact ih _ _ _ hd
      · rename_i hs
        split
        · exact on ((admitFail_keeps s _ _).mono (by decide))
        · rename_i hf
          split
          · exact (stop_keeps s _).mono (by decide)
          · split
            · rename_i hm
              exact on (admitMark_keeps s _ (quota_of_skips s hs) (room_of_admission s hf hm) hd)
            · exact on ((admitWrite_keeps s _ (quota_of_skips s hs)).mono (by decide))

theorem admitScans_keeps (n : Nat) : ∀ s : Part, s.md.device ≠ .starting →
    Keeps [.cmds, .sb, .integ, .links] s (admitScans n s) := by
  induction n with
  | zero => exact fun s _ => .refl s
  | succ n ih =>
    intro s hd
    have e : Keeps [.cmds, .sb, .integ, .links] s (s.withCmds { s.cmds with stop := none }) :=
      (stop_keeps s _).mono (by decide)
    have h : Keeps [.cmds, .sb, .integ, .links] s
        (scanQueue [] false s.cmds.queue (s.withCmds { s.cmds with stop := none })).1 :=
      Keeps.next (L := [.cmds, .sb, .integ, .links]) (scanQueue_keeps _ _ _ _ hd) (by decide) e
    unfold admitScans
    dsimp only
    split
    · exact (ih _ (by rw [h.md (by decide)]; exact hd)).next (by decide) h
    · exact h

theorem admission_keeps : Keeps [.cmds, .sb, .integ, .links] s s.admission := by
  unfold admission
  split
  · rename_i h
    exact admitScans_keeps _ _ (by rw [h]; decide)
  · exact .refl s

end Sys2Proof.Machine.Part
end

