-- ==== Sys2Proof/Laws/Media.lean ====
section
/-! SUPPORT. What the operations of Machine/Scrubbing.lean and Media.lean can do: the components each changes, with the laws
kept, and the remap table's law through a remapping. -/

namespace Sys2Proof.Machine

/-! ### The remap table (R119) -/

/-- A spare that is not listed is retired. -/
theorem remapLawful.retire {remap : List Remap} {spares : List Spare} (h : remapLawful remap spares) {sp : Nat}
    (hs : sp < Config.spareBlocks) (hn : ∀ x ∈ spares, x.idx ≠ sp) :
    remapLawful remap (spares ++ [{ idx := sp, use := .retired }]) := by
  obtain ⟨a, b, c, d, e, f⟩ := h
  refine ⟨a, b, ?_, ?_, ?_, ?_⟩
  · rw [List.map_append]
    refine List.nodup_append.2 ⟨c, List.nodup_singleton _, ?_⟩
    intro x hx y hy e
    obtain ⟨z, hz, rfl⟩ := List.mem_map.1 hx
    simp only [List.map_cons, List.map_nil, List.mem_singleton] at hy
    exact hn z hz (e.trans hy)
  · intro x hx
    rcases List.mem_append.1 hx with hx | hx
    · exact d x hx
    · rw [List.mem_singleton.1 hx]; exact hs
  · intro r hr
    obtain ⟨x, hx, k⟩ := e r hr
    exact ⟨x, List.mem_append_left _ hx, k⟩
  · simpa [List.countP_append] using f

/-- A spare that is IN USE is retired in place: one spare fewer is IN USE. -/
theorem countP_retired {spares : List Spare} (hc : (spares.map (·.idx)).Nodup) {o : Nat} {x : Spare} (hx : x ∈ spares)
    (ho : x.idx = o) (hu : x.use = .inUse) :
    (spares.map fun x => if some x.idx = some o then { x with use := .retired } else x).countP
      (fun x => decide (x.use = .inUse)) + 1 = spares.countP fun x => decide (x.use = .inUse) := by
  induction spares with
  | nil => exact absurd hx List.not_mem_nil
  | cons y ys ih =>
    rw [List.map_cons] at hc
    obtain ⟨hy, hc⟩ := List.nodup_cons.1 hc
    rcases List.mem_cons.1 hx with e | hx
    · subst e
      have same : ys.map (fun x => if some x.idx = some o then { x with use := .retired } else x) = ys := by
        conv_rhs => rw [← List.map_id ys]
        refine List.map_congr_left fun z hz => ?_
        rw [if_neg]
        · rfl
        · intro e
          exact hy (List.mem_map.2 ⟨z, hz, by rw [Option.some.inj e, ho]⟩)
      rw [List.map_cons, same, List.countP_cons, List.countP_cons]
      simp [ho, hu]
    · have ne : y.idx ≠ o := fun e => hy (List.mem_map.2 ⟨x, hx, by rw [ho, e]⟩)
      rw [List.map_cons, List.countP_cons, List.countP_cons, ← ih hc hx]
      have : ¬ some y.idx = some o := fun e => ne (Option.some.inj e)
      rw [if_neg this]
      omega

/-- R115: a block is remapped to a spare that is not listed; the spare it had before is retired. -/
theorem remapLawful.remapped {remap : List Remap} {spares : List Spare} (h : remapLawful remap spares) {blk sp : Nat}
    (hs : sp < Config.spareBlocks) (hn : ∀ x ∈ spares, x.idx ≠ sp) :
    let old := (remap.find? fun r => decide (r.block = blk)).map (·.spare)
    remapLawful
      (if old.isSome then remap.map fun r => if r.block = blk then { r with spare := sp } else r
       else remap ++ [{ block := blk, spare := sp }])
      ((spares.map fun x => if some x.idx = old then { x with use := .retired } else x) ++ [{ idx := sp, use := .inUse }]) := by
  obtain ⟨a, b, c, d, e, f⟩ := h
  intro old
  have hidx : ((·.idx) ∘ fun x : Spare => if some x.idx = old then { x with use := .retired } else x) = (·.idx) := by
    funext x; dsimp only [Function.comp]; split <;> rfl
  have c' : (((spares.map fun x : Spare => if some x.idx = old then { x with use := .retired } else x) ++
      ([{ idx := sp, use := .inUse }] : List Spare)).map (·.idx)).Nodup := by
    rw [List.map_append, List.map_map, hidx]
    refine List.nodup_append.2 ⟨c, List.nodup_singleton _, ?_⟩
    intro x hx y hy e
    obtain ⟨z, hz, rfl⟩ := List.mem_map.1 hx
    simp only [List.map_cons, List.map_nil, List.mem_singleton] at hy
    exact hn z hz (e.trans hy)
  have d' : ∀ x ∈ (spares.map fun x : Spare => if some x.idx = old then { x with use := .retired } else x) ++
      ([{ idx := sp, use := .inUse }] : List Spare), x.idx < Config.spareBlocks := by
    intro x hx
    rcases List.mem_append.1 hx with hx | hx
    · obtain ⟨z, hz, rfl⟩ := List.mem_map.1 hx
      split <;> exact d z hz
    · rw [List.mem_singleton.1 hx]; exact hs
  have spne : ∀ r ∈ remap, r.spare ≠ sp := by
    intro r hr e'
    obtain ⟨x, hx, k, -⟩ := e r hr
    exact hn x hx (k.trans e')
  cases ho : remap.find? fun r => decide (r.block = blk) with
  | none =>
    have hold : old = none := by simp only [old, ho, Option.map_none]
    have hnb : ∀ r ∈ remap, r.block ≠ blk := fun r hr e => by
      have := List.find?_eq_none.1 ho r hr
      exact this (decide_eq_true e)
    have same : (spares.map fun x => if some x.idx = old then { x with use := .retired } else x) = spares := by
      conv_rhs => rw [← List.map_id spares]
      refine List.map_congr_left fun z _ => ?_
      rw [hold, if_neg (by simp)]; rfl
    rw [same] at c' d' ⊢
    rw [hold] at *
    simp only [Option.isSome_none, Bool.false_eq_true, if_false]
    refine ⟨?_, ?_, c', d', ?_, ?_⟩
    · rw [List.map_append]
      refine List.nodup_append.2 ⟨a, List.nodup_singleton _, ?_⟩
      intro x hx y hy e
      obtain ⟨z, hz, rfl⟩ := List.mem_map.1 hx
      simp only [List.map_cons, List.map_nil, List.mem_singleton] at hy
      exact hnb z hz (e.trans hy)
    · rw [List.map_append]
      refine List.nodup_append.2 ⟨b, List.nodup_singleton _, ?_⟩
      intro x hx y hy e
      obtain ⟨z, hz, rfl⟩ := List.mem_map.1 hx
      simp only [List.map_cons, List.map_nil, List.mem_singleton] at hy
      exact spne z hz (e.trans hy)
    · intro r hr
      rcases List.mem_append.1 hr with hr | hr
      · obtain ⟨x, hx, k⟩ := e r hr
        exact ⟨x, List.mem_append_left _ hx, k⟩
      · rw [List.mem_singleton.1 hr]
        exact ⟨_, List.mem_append_right _ (List.mem_singleton_self _), rfl, rfl⟩
    · simp [List.countP_append, f]
  | some q =>
    have hq := List.mem_of_find?_eq_some ho
    have hqb : q.block = blk := of_decide_eq_true (List.find?_some (p := fun r : Remap => decide (r.block = blk)) ho)
    have hold : old = some q.spare := by simp only [old, ho, Option.map_some]
    rw [hold] at c' d' ⊢
    simp only [Option.isSome_some, if_true]
    have uniq : ∀ r ∈ remap, r.block ≠ blk → r.spare ≠ q.spare := by
      intro r hr hb hs
      exact hb ((congrArg Remap.block (List.inj_on_of_nodup_map b hr hq hs)).trans hqb)
    refine ⟨?_, ?_, c', d', ?_, ?_⟩
    · have : ((·.block) ∘ fun r : Remap => if r.block = blk then { r with spare := sp } else r) = (·.block) := by
        funext x; dsimp only [Function.comp]; split <;> rfl
      rw [List.map_map, this]; exact a
    · rw [List.map_map]
      refine List.pairwise_map.2 ?_
      have ab := (List.pairwise_map.1 a).and (List.pairwise_map.1 b)
      refine ab.imp_of_mem fun {x y} hx hy h => ?_
      dsimp only [Function.comp]
      split
      · rename_i hxb
        rw [if_neg fun hyb => h.1 (hxb.trans hyb.symm)]
        exact fun k => spne y hy k.symm
      · split
        · exact spne x hx
        · exact h.2
    · intro r' hr'
      obtain ⟨r, hr, rfl⟩ := List.mem_map.1 hr'
      split
      · exact ⟨_, List.mem_append_right _ (List.mem_singleton_self _), rfl, rfl⟩
      · rename_i hb
        obtain ⟨x, hx, hi, hu⟩ := e r hr
        refine ⟨x, List.mem_append_left _ (List.mem_map.2 ⟨x, hx, ?_⟩), hi, hu⟩
        rw [if_neg]
        intro k
        exact uniq r hr hb (hi.symm.trans (Option.some.inj k))
    · obtain ⟨x, hx, hi, hu⟩ := e q hq
      rw [List.countP_append, List.length_map, ← f, ← countP_retired c hx hi hu]
      simp

/-- An operation that writes no image and works on no copy. -/
def MediaOp.plain (op : MediaOp) : Prop :=
  (∀ c g m, op ≠ .commit c g m) ∧ (∀ c, op ≠ .copyRead c) ∧ ∀ c, op ≠ .resetWrite c

namespace Part

variable (s : Part)

variable {s} in
/-- The Media Engine performs no operation of class COMMIT, and no start-up read is asked for. -/
theorem buf_plain {x : MediaEngine} (hc : ∀ o, x.current = some o → o.op.plain)
    (hq : x.commitReq = s.media.commitReq ∨ ∀ c, x.commitReq ≠ some (.readCopy c)) : Buf s (s.withMedia x) := by
  have e : Buf s (s.withMedia { x with current := none }) := buf_media (.inr rfl) hq
  have h1 : (s.withMedia x).copyReads = (s.withMedia { x with current := none }).copyReads := by
    unfold copyReads
    refine congrArg (· + _) ?_
    cases h : x.current with
    | none => simp [h]
    | some o =>
      have k := (hc o h).2.1
      obtain ⟨op⟩ := o
      cases op <;> simp_all
  have h2 : (s.withMedia x).writesCopy = false := by
    cases h : x.current with
    | none => simp [writesCopy, h]
    | some o =>
      have k := hc o h
      obtain ⟨op⟩ := o
      cases op <;> simp_all [writesCopy, MediaOp.plain]
  have h3 : (s.withMedia x).writing = none := by
    cases h : x.current with
    | none => simp [writing, h]
    | some o =>
      have k := (hc o h).1
      obtain ⟨op⟩ := o
      cases op <;> simp_all [writing]
  refine ⟨id, fun _ => id, fun k l => ?_⟩
  obtain ⟨a, b, c, d, f, g⟩ := e.room k l
  refine ⟨a, b, c, fun m n => ?_, f, fun n => ?_, g.2⟩
  · rw [h3] at n; cases n
  · obtain ⟨g1, g2, g3, -⟩ := g.1 (h1 ▸ n)
    exact ⟨h1.trans g1, g2, g3, h2⟩

/-! ### Refresh list -/

theorem offerRefresh_keeps (b : Nat) (o : Origin) : Keeps [.media] s (s.offerRefresh b o) := by
  unfold offerRefresh
  split
  · exact .refl s
  · rename_i hb
    split
    · rename_i hl
      refine .ofMedia s _ (fun h => h) (fun h => h) ?_ (buf_media (.inl rfl) (.inl rfl))
      rintro ⟨a, c⟩
      refine ⟨?_, by simpa using hl⟩
      rw [withMedia_media, List.map_append]
      refine List.nodup_append.2 ⟨a, List.nodup_singleton _, ?_⟩
      intro x hx y hy e
      obtain ⟨z, hz, rfl⟩ := List.mem_map.1 hx
      simp only [List.map_cons, List.map_nil, List.mem_singleton] at hy
      exact hb (List.any_eq_true.2 ⟨z, hz, decide_eq_true (e.trans hy)⟩)
    · exact .refl s

theorem dropRefresh_keeps (b : Nat) : Keeps [.media] s (s.dropRefresh b) :=
  .ofMediaPlain s _ rfl rfl (.inl rfl) (.inl rfl) List.filter_sublist (.inl rfl)

/-- Requests of the Media Engine change. -/
theorem requests_keeps (x : MediaEngine) (hr : x.remap = s.media.remap) (hs : x.spares = s.media.spares)
    (hc : x.current = s.media.current) (hn : x.readRun = s.media.readRun ∨ x.readRun = 0)
    (hf : x.refresh = s.media.refresh)
    (hq : x.commitReq = s.media.commitReq ∨ ∀ c, x.commitReq ≠ some (.readCopy c) := by
      first | exact .inl rfl | exact .inr fun c h => by cases h) : Keeps [.media] s (s.withMedia x) :=
  .ofMediaPlain s x hr hs (.inl hc) hn (hf ▸ List.Sublist.refl _) hq

/-! ### Scrub engine -/

theorem setScrub_keeps (x : Scrub) : Keeps [.scrub] s (s.setScrub x) := .ofScrub s x

theorem setMark_keeps (b : Bool) : Keeps [.md] s (s.setMark b) := by
  refine (change_keeps _).next (by decide) ?_
  exact .ofMd s _ (fun h => h) (fun h => h) (buf_md rfl rfl (.inl rfl))

theorem requestPass_keeps (w : Starter) : Keeps [.md, .scrub] s (s.requestPass w) := by
  unfold requestPass
  split
  · exact .refl s
  · exact (setScrub_keeps _ _).next (by decide) <| (setMark_keeps s _).mono (by decide)

theorem endPass_keeps (r : EndReason) : Keeps [.md, .scrub, .faults, .links] s (s.endPass r) := by
  unfold endPass
  exact (setScrub_keeps _ _).next (by decide) <| (noticeAll_keeps _ _).next (by decide) <|
    (setMark_keeps _ _).next (by decide) <| (appendFault_keeps s _).mono (by decide)

theorem scrubReq_keeps (x : Option Nat) : Keeps [.media] s (s.withMedia { s.media with scrubReq := x }) :=
  requests_keeps s _ rfl rfl rfl (.inl rfl) rfl

theorem takeScrub_keeps (n : Nat) : ∀ s : Part, Keeps [.md, .scrub, .faults, .links, .media] s (takeScrub n s) := by
  induction n with
  | zero => exact fun s => .refl s
  | succ n ih =>
    intro s
    unfold takeScrub
    dsimp only
    split
    · split
      · exact (ih _).next (by decide) <| (setScrub_keeps s _).mono (by decide)
      · exact (scrubReq_keeps _ _).next (by decide) <| (setScrub_keeps s _).mono (by decide)
    · exact (endPass_keeps s _).mono (by decide)

theorem scrubNext_keeps : Keeps [.md, .scrub, .faults, .links, .media] s s.scrubNext := takeScrub_keeps _ s

theorem stopPass_keeps : Keeps [.md, .scrub, .faults, .links, .media] s s.stopPass := by
  unfold stopPass
  split
  · split
    · exact (endPass_keeps s _).mono (by decide)
    · exact (endPass_keeps _ _).next (by decide) <| (scrubReq_keeps s _).mono (by decide)
    · exact (setScrub_keeps s _).mono (by decide)
    · exact (endPass_keeps s _).mono (by decide)
  · exact .refl s

theorem checkEnded_keeps : Keeps [.md, .scrub, .faults, .links, .media] s s.checkEnded := by
  have h : Keeps [.md, .scrub, .faults, .links, .media] s (s.setScrub s.scrub.closeCheck) :=
    (setScrub_keeps s _).mono (by decide)
  unfold checkEnded
  dsimp only
  split
  · exact (endPass_keeps _ _).next (by decide) h
  · exact (scrubNext_keeps _).next (by decide) h

theorem countScrub_keeps (f : ScrubCounts → ScrubCounts) : Keeps [.scrub] s (s.countScrub f) := setScrub_keeps s _

theorem scrubEnded_keeps (b : Nat) (o : Integrity) :
    Keeps [.md, .scrub, .faults, .links, .media, .integ] s (s.scrubEnded b o) := by
  have h : ∀ f, Keeps [.md, .scrub, .faults, .links, .media, .integ] s (s.countScrub f) :=
    fun f => (countScrub_keeps s f).mono (by decide)
  unfold scrubEnded
  dsimp only
  split
  · exact (checkEnded_keeps _).next (by decide) (h _)
  · split
    · exact (checkEnded_keeps _).next (by decide) <| (offerRefresh_keeps _ _ _).next (by decide) <|
        (countScrub_keeps _ _).next (by decide) (h _)
    · split
      · exact (checkEnded_keeps _).next (by decide) <| (countScrub_keeps _ _).next (by decide) (h _)
      · exact (setScrub_keeps _ _).next (by decide) <| (countScrub_keeps _ _).next (by decide) (h _)
  · exact (checkEnded_keeps _).next (by decide) <| (countScrub_keeps _ _).next (by decide) <|
      (mediaFailure_keeps _ _ _).next (by decide) (h _)

theorem scrubRetry_keeps : Keeps [.md, .scrub, .faults, .links, .media] s s.scrubRetry := by
  unfold scrubRetry
  split
  · split
    · exact (checkEnded_keeps _).next (by decide) <| (offerRefresh_keeps s _ _).mono (by decide)
    · exact .refl s
  · exact .refl s

theorem autoScrub_keeps : Keeps [.md, .scrub] s s.autoScrub := by
  unfold autoScrub
  split
  · exact requestPass_keeps s _
  · exact .refl s

theorem decideCommit_keeps (c : BitVec 8) (n : Nat) : Keeps [.cmds] s (s.decideCommit c n) :=
  mapRecs_keeps s _ fun c => by split <;> rfl

theorem commitDone_keeps (c : BitVec 8) (n : Nat) : Keeps [.cmds, .links] s (s.commitDone c n) :=
  (emitDecided_keeps _).next (by decide) <| (decideCommit_keeps s c n).mono (by decide)

theorem beginPass_keeps (n : Nat) : Keeps [.md, .scrub, .faults, .links, .media] s (s.beginPass n) := by
  unfold beginPass
  split
  · exact (scrubNext_keeps _).next (by decide) <| (setScrub_keeps s _).mono (by decide)
  · exact .refl s

theorem serveScrubStart_keeps (c : Cmd) (f : s.tableLaw → Fresh s c) :
    Keeps [.md, .scrub, .links, .cmds, .adds] s (s.serveScrubStart c) := by
  unfold serveScrubStart
  split
  · exact (reply_keeps s _ _ _).mono (by decide)
  · split
    · exact (reply_keeps s _ _ _).mono (by decide)
    · refine record_and _ (by decide) ((requestPass_keeps s _).mono (by decide)) _ fun l => ?_
      have k := (f l).of_narrows ((requestPass_keeps s (.port c.key.port)).recs (by decide) l)
      exact ⟨k.1, k.2⟩

theorem serveScrubStop_keeps (c : Cmd) : Keeps [.md, .scrub, .faults, .links, .media] s (s.serveScrubStop c) := by
  unfold serveScrubStop
  split
  · exact (reply_keeps s _ _ _).mono (by decide)
  · exact (stopPass_keeps _).next (by decide) <| (reply_keeps s _ _ _).mono (by decide)

/-! ### Spares -/

theorem spareLowTest_keeps : Keeps [.media, .links, .faults, .md] s s.spareLowTest := by
  have h : ∀ b, Keeps [.media, .links, .faults, .md] s (s.withMedia { s.media with spareLow := b }) :=
    fun b => Keeps.mono (K := [.media]) (requests_keeps s _ rfl rfl rfl (.inl rfl) rfl) (by decide)
  unfold spareLowTest
  dsimp only
  split
  · exact (appendFault_keeps _ _).next (by decide) <| (noticeAll_keeps _ _).next (by decide) (h _)
  · exact h _

/-- A spare that no listed one is, with the media idle: the remap table and the spares may change together. -/
theorem spares_and {K : List Comp} (hK : .media ∈ K) {a : Part} (e : Keeps K a s) (remap : List Remap)
    (spares : List Spare) (hc : s.media.current = none)
    (h : a.metaLaw → s.metaLaw → remapLawful remap spares) :
    Keeps K a (s.withMedia { s.media with remap := remap, spares := spares }) := by
  refine e.andMedia hK _ ?_ (fun _ h => h) (fun _ h => h) fun b => b.trans (buf_media (.inl rfl) (.inl rfl))
  rintro l m
  refine ⟨⟨m.1.1, h l m, m.1.2.2⟩, ?_, m.2.2.1, m.2.2.2.1, ?_, m.2.2.2.2.2⟩
  · intro sp k; simp [trialSpare, hc] at k
  · intro i k; simp [writing, hc] at k

theorem remapBlock_and {K : List Comp} (hK : [.media, .md] ⊆ K) {a : Part} (e : Keeps K a s) (blk sp : Nat)
    (hc : s.media.current = none)
    (h : a.metaLaw → sp < Config.spareBlocks ∧ ∀ x ∈ s.media.spares, x.idx ≠ sp) : Keeps K a (s.remapBlock blk sp) :=
  (change_keeps _).next (fun c hc => hK (by revert hc; cases c <;> decide)) <|
    spares_and s (hK (by decide)) e _ _ hc fun l m => m.1.2.1.remapped (h l).1 (h l).2

theorem retireSpare_and {K : List Comp} (hK : [.media, .md] ⊆ K) {a : Part} (e : Keeps K a s) (sp : Nat)
    (hc : s.media.current = none)
    (h : a.metaLaw → sp < Config.spareBlocks ∧ ∀ x ∈ s.media.spares, x.idx ≠ sp) : Keeps K a (s.retireSpare sp) :=
  (change_keeps _).next (fun c hc => hK (by revert hc; cases c <;> decide)) <|
    spares_and s (hK (by decide)) e _ _ hc fun l m => m.1.2.1.retire (h l).1 (h l).2

/-! ### Refresh service -/

/-- R122: fewer than 8 REFRESH frames stand before a refresh starts. -/
theorem beginRefresh_keeps (b : Nat) (q : s.sb.attr .refresh < Config.maxRefreshFrames) :
    Keeps [.sb, .media] s (s.beginRefresh b) := by
  unfold beginRefresh
  split
  · exact .refl s
  · rename_i i is hi
    have hlt : s.frameLaw → i < Config.stagingFrames := fun l => allocIdx_lt (hi ▸ List.mem_cons_self) l
    have hm : i ∈ s.sb.freeIdx ++ s.sb.clean := List.mem_of_mem_take (hi ▸ List.mem_cons_self : i ∈ s.allocIdx 1)
    dsimp only
    generalize hx :
      ({ idx := i, state := .filling, block := b, writer := some .refresh, cmd := none, content := .data, seq := none,
         data := none } : Frame) = x
    have xi : x.idx = i := by rw [← hx]
    have c : ∀ w, ((s.reclaim [i]).listFrame x).sb.attr w ≤
        s.sb.attr w + if some Writer.refresh = some w then 1 else 0 := fun w =>
      (Staging.attr_insert (b := s.sb) rfl List.filter_sublist w).trans (by simp [Frame.staged, ← hx])
    have g : s.frameLaw → (s.reclaim [i]).frameLaw → ((s.reclaim [i]).listFrame x).frameLaw := fun l m =>
      frameLaw_insert (f := x) (xi ▸ hlt l) (List.Sublist.refl _) rfl m.2.2 m
    have h : Keeps [.sb, .media] s ((s.reclaim [i]).listFrame x) := by
      refine ((reclaim_keeps s [i]).mono (by decide)).andSb (by decide) _ g fun m => ⟨fun l => ⟨?_, ?_⟩, fun _ k => ?_, ?_⟩
      · exact g l.1 (m.staging l).1
      · exact Staging.lawful_fill (m.staging l).2 (m.staging l).1.1 (by rw [← hx]) (by rw [← hx]; rfl)
          (xi ▸ Staging.alloc_fresh (ids := [i]) (c := (s.reclaim [i]).sb) l.2 l.1.1
            (fun j hj => List.mem_singleton.1 hj ▸ hm) rfl i List.mem_cons_self)
      · refine ⟨fun p => ?_, ?_⟩
        · exact (c (.port p)).trans ((by simp : _ ≤ s.sb.attr (.port p)).trans (k.1 p))
        · have := c .refresh
          rw [if_pos rfl] at this
          show ((s.reclaim [i]).listFrame x).sb.attr .refresh ≤ _
          omega
      · exact fun l k => room_sb_le ((Staging.dirtyMarks_insert (b := (s.reclaim [i]).sb) rfl (List.Sublist.refl _)).trans
          (by simp [Frame.isMark, ← hx])) (m.room l k)
    refine h.andMedia (by decide) _ (fun _ m => m) (fun _ m => m) ?_ fun b => b.trans (buf_media (.inl rfl) (.inl rfl))
    rintro - ⟨m1, m2⟩
    refine ⟨?_, by simpa using m2⟩
    rw [withMedia_media, List.map_map]
    have : ((·.block) ∘ fun e : RefreshEntry => if e.block = b then { e with started := some i } else e) = (·.block) := by
      funext x; dsimp only [Function.comp]; split <;> rfl
    rw [this]; exact m1

theorem startRefreshes_keeps (n : Nat) : ∀ s : Part, Keeps [.sb, .media] s (startRefreshes n s) := by
  induction n with
  | zero => exact fun s => .refl s
  | succ n ih =>
    intro s
    unfold startRefreshes
    split
    · exact .refl s
    · split
      · rename_i h
        refine (ih _).next (by decide) ?_
        split
        · exact (dropRefresh_keeps s _).mono (by decide)
        · refine beginRefresh_keeps s _ ?_
          simp only [mayRefresh, Bool.and_eq_true, decide_eq_true_eq] at h
          exact h.1.1.2
      · exact .refl s

theorem refreshTry_keeps : Keeps [.sb, .media] s s.refreshTry := startRefreshes_keeps _ s

theorem refreshEnded_keeps (i b loc : Nat) (o : Integrity) :
    Keeps [.sb, .media, .integ, .md, .faults, .cmds, .links] s (s.refreshEnded i b loc o) := by
  unfold refreshEnded
  split
  · exact .refl s
  · rename_i f hf
    obtain ⟨hf, hs⟩ := Option.filter_eq_some_iff.1 hf
    obtain ⟨m, k⟩ := Staging.mem_of_at hf
    have hs := of_decide_eq_true hs
    have g : Keeps [.sb, .media, .integ, .md, .faults, .cmds, .links] s ((s.freeFrame i).dropRefresh b) :=
      (dropRefresh_keeps _ _).next (by decide) <|
        (freeFrame_keeps s i fun l x hx e => .inr (Rising.inj l.1.1 hx m (e.trans k.symm) ▸ hs)).mono (by decide)
    split
    · dsimp only
      split
      · exact (mediaFailure_keeps _ _ _).next (by decide) g
      · split
        · exact g
        · refine (emitDecided_keeps _).next (by decide) <| (dropRefresh_keeps _ _).next (by decide) ?_
          exact Keeps.mono (K := [.sb, .integ, .cmds]) (stageFilled_keeps s f _ m hs) (by decide)
    · exact .refl s

/-! ### Ends of reads and programs -/

theorem portReadEnded_keeps (r : PortReq) (loc : Nat) (o : Integrity) :
    Keeps [.sb, .media, .integ, .md, .faults, .cmds, .links] s (s.portReadEnded r loc o) := by
  unfold portReadEnded
  dsimp only
  split
  · have h : Keeps [.sb, .media, .integ, .md, .faults, .cmds, .links] s (s.mediaFailure r.block .portRead) :=
      (mediaFailure_keeps s _ _).mono (by decide)
    split
    · split
      · exact (finish_keeps _ _ _ _).next (by decide) h
      · exact (failRead_keeps _ _ _ _).next (by decide) h
    · exact h
  · have h : Keeps [.sb, .media, .integ, .md, .faults, .cmds, .links] s (s.cacheRead r.block (s.mediaRead loc)) :=
      (cacheRead_keeps s _ _).mono (by decide)
    have h' : Keeps [.sb, .media, .integ, .md, .faults, .cmds, .links] s
        (if o = .corrected then (s.cacheRead r.block (s.mediaRead loc)).offerRefresh r.block .read
         else s.cacheRead r.block (s.mediaRead loc)) := by
      split
      · exact (offerRefresh_keeps _ _ _).next (by decide) h
      · exact h
    have hm : (if o = .corrected then (s.cacheRead r.block (s.mediaRead loc)).offerRefresh r.block .read
         else s.cacheRead r.block (s.mediaRead loc)).cmds = s.cmds := by
      split
      · exact ((offerRefresh_keeps _ _ _).cmds (by decide)).trans ((cacheRead_keeps s _ _).cmds (by decide))
      · exact (cacheRead_keeps s _ _).cmds (by decide)
    split
    · rename_i c hc
      refine (runRead_keeps _ _).next (by decide) <| (deliver_keeps _ _ _ ?_).next (by decide) h'
      rw [hm]
      exact List.mem_of_find?_eq_some (Option.filter_eq_some_iff.1 hc).1
    · exact h'

theorem joinCommit_keeps (i : Nat) (o : ProgOutcome) : Keeps [.media] s (s.joinCommit i o) :=
  requests_keeps s _ rfl rfl rfl (.inl rfl) rfl

theorem failFinally_keeps (f : Frame) : Keeps [.media, .integ, .md, .faults, .links] s (s.failFinally f) := by
  unfold failFinally
  dsimp only
  refine (joinCommit_keeps _ _ _).next (by decide) ?_
  have h : ∀ i, Keeps [.media, .integ, .md, .faults, .links] s (s.appendFault i) :=
    fun i => (appendFault_keeps s i).mono (by decide)
  cases f.port? with
  | none =>
    dsimp only
    split
    · exact (mediaFailure_keeps _ _ _).next (by decide) (h _)
    · exact h _
  | some p =>
    have h' := fun i b => (offerNotice_keeps _ p b).next (by decide) (h i)
    dsimp only
    split
    · exact (mediaFailure_keeps _ _ _).next (by decide) (h' _ _)
    · exact h' _ _

theorem unpoison_keeps (f : Frame) : Keeps [.integ, .md] s (s.unpoison f) := by
  unfold unpoison
  split
  · exact removeEntry_keeps s _
  · exact .refl s

theorem firstSucceeded_keeps (f : Frame) (loc : Nat) (d : BlockData) :
    Keeps [.sb, .media, .disk, .integ, .md, .cmds, .links] s (s.firstSucceeded f loc d) := by
  have h : Keeps [.sb, .media, .disk, .integ, .md, .cmds, .links] s (s.idle.mediaWrite loc d) :=
    (mediaWrite_keeps _ _ _).next (by decide) <| (idle_keeps s).mono (by decide)
  unfold firstSucceeded
  dsimp only
  split
  · exact (joinCommit_keeps _ _ _).next (by decide) <| (unpoison_keeps _ _).next (by decide) h
  · exact (outcome_keeps _ _ _).next (by decide) h

theorem lowestFree_free {m : MediaEngine} {sp : Nat} (h : m.lowestFree = some sp) :
    sp < Config.spareBlocks ∧ ∀ x ∈ m.spares, x.idx ≠ sp := by
  refine ⟨List.mem_range.1 (List.mem_of_find?_eq_some h), fun x hx e => ?_⟩
  have := List.find?_some h
  have h' : (m.spares.any fun x => decide (x.idx = sp)) = false := by simpa using this
  exact Bool.eq_false_iff.1 h' (List.any_eq_true.2 ⟨x, hx, decide_eq_true e⟩)

theorem firstFailed_keeps (f : Frame) (loc : Nat) (d : BlockData) :
    Keeps [.media, .disk, .free, .integ, .md, .faults, .links] s (s.firstFailed f loc d) := by
  have h : Keeps [.media, .disk, .free, .integ, .md, .faults, .links] s (s.mediaSpoil loc) :=
    (mediaSpoil_keeps s loc).mono (by decide)
  unfold firstFailed
  dsimp only
  split
  · rename_i sp hsp
    refine h.andMedia (by decide) _ ?_ (fun _ m => m) (fun _ m => m) fun b => b.trans (buf_plain (by simp [MediaOp.plain]) (.inl rfl))
    rintro - m
    refine ⟨m.1, ?_, m.2.2.1, m.2.2.2.1, ?_, m.2.2.2.2.2⟩
    · intro sp' k
      cases (Option.some.inj k : sp = sp')
      exact lowestFree_free hsp
    · intro i k; simp [writing] at k
  · exact (failFinally_keeps _ _).next (by decide) <| (idle_keeps _).next (by decide) h

/-- R115, with the spare that the second attempt has programmed. -/
theorem secondSucceeded_keeps (f : Frame) (sp loc : Nat) (d : BlockData) (h : s.trialSpare = some sp) :
    Keeps [.media, .disk, .integ, .md, .faults, .links] s (s.secondSucceeded f sp loc d) := by
  unfold secondSucceeded
  dsimp only
  refine (spareLowTest_keeps _).next (by decide) <| (joinCommit_keeps _ _ _).next (by decide) <|
    (unpoison_keeps _ _).next (by decide) <| (appendFault_keeps _ _).next (by decide) ?_
  refine remapBlock_and _ (by decide) ?_ _ _ rfl fun l => l.2.1 sp h
  exact (mediaWrite_keeps _ _ _).next (by decide) <| (idle_keeps s).mono (by decide)

theorem secondFailed_keeps (f : Frame) (sp loc : Nat) (h : s.trialSpare = some sp) :
    Keeps [.media, .disk, .free, .integ, .md, .faults, .links] s (s.secondFailed f sp loc) := by
  unfold secondFailed
  refine (spareLowTest_keeps _).next (by decide) <| (failFinally_keeps _ _).next (by decide) ?_
  refine retireSpare_and _ (by decide) ?_ _ rfl fun l => l.2.1 sp h
  exact (mediaSpoil_keeps _ _).next (by decide) <| (idle_keeps s).mono (by decide)

/-! ### The arbiter -/

theorem requestCommit_keeps : Keeps [.media] s s.requestCommit := by
  unfold requestCommit
  split
  · exact requests_keeps s _ rfl rfl rfl (.inl rfl) rfl
  · exact .refl s

/-- The media becomes busy with an operation that writes no image, works on no copy, and tries no spare. -/
theorem occupy_keeps (op : MediaOp) (h : op.plain) (k : ∀ i b l d sp, op ≠ .program i b l d (some sp)) :
    Keeps [.media] s (s.occupy op) := by
  refine .ofMedia s _ ?_ (fun m => m) (fun m => m) (buf_plain (by rintro o e; cases e; exact h) (.inl rfl))
  intro m
  refine ⟨m.1, ?_, m.2.2.1, m.2.2.2.1, ?_, m.2.2.2.2.2⟩
  · intro sp e
    cases op <;> simp [trialSpare] at e
    exact absurd (by rw [e]) (k _ _ _ _ sp)
  · intro i e
    cases op <;> simp [writing] at e
    exact absurd rfl (h.1 _ _ _)

theorem grantPortRead_keeps (h : s.programWaits = true → s.media.readRun < Config.maxReadRun) :
    Keeps [.media] s s.grantPortRead := by
  unfold grantPortRead
  split
  · exact .refl s
  · refine (occupy_keeps _ _ (by simp [MediaOp.plain]) (by simp)).next (by decide) ?_
    refine .ofMedia s _ (fun m => m) ?_ (fun m => m) (buf_media (.inl rfl) (.inl rfl))
    intro m
    show (if s.programWaits = true then s.media.readRun + 1 else 0) ≤ Config.maxReadRun
    split
    · rename_i hw; exact h hw
    · exact Nat.zero_le _

theorem grantCommit_keeps : Keeps [.media, .md] s s.grantCommit := by
  unfold grantCommit
  dsimp only
  split
  · exact .refl s
  · have h : Keeps [.media, .md] s ((s.withMedia { s.media with commitReq := none, readRun := 0 }).withMd
        { s.md with snapshot := some s.md.changes }) := by
      refine Keeps.next (K := [.media, .md]) (L := [.md])
        (Keeps.ofMd _ { s.md with snapshot := some s.md.changes } (fun m => m) ?_ (buf_md rfl rfl (.inl rfl))) (by decide)
        (Keeps.mono (K := [.media]) (requests_keeps s _ rfl rfl rfl (.inr rfl) rfl) (by decide))
      rintro ⟨c1, -⟩
      exact ⟨c1, fun n e => by cases e; exact le_refl _⟩
    refine h.andMedia (by decide) _ ?_ (fun _ m => m) (fun _ m => m) fun b => ⟨b.staging, b.quota, fun k l => ?_⟩
    · rintro - m
      refine ⟨m.1, ?_, m.2.2.1, m.2.2.2.1, ?_, m.2.2.2.2.2⟩
      · intro sp e; simp [trialSpare] at e
      · intro i e
        have : s.image = i := by simpa [writing, image] using e
        exact this ▸ m.1
    · obtain ⟨l1, l2, l3, l4, l5, l6, l7⟩ := l
      refine ⟨l1, l2, l3, fun m e => ?_, l5, fun n => absurd n (by simp [copyReads]), l7⟩
      have : s.image = m := by simpa [writing, image] using e
      rw [← this]
      exact le_trans (Nat.le_add_right _ _) l1
  · rename_i c hc
    refine (Keeps.ofMedia s { s.media with commitReq := none, readRun := 0, current := some { op := .copyRead c } }
      (fun m => ⟨m.1, ?_, m.2.2.1, m.2.2.2.1, ?_, m.2.2.2.2.2⟩) (fun _ => Nat.zero_le _) (fun m => m)
      ⟨id, fun _ => id, fun _ l => ⟨l.1, l.2.1, l.2.2.1, ?_, l.2.2.2.2.1, fun _ => ?_, l.2.2.2.2.2.2⟩⟩).mono (by decide)
    · intro sp e; simp [trialSpare] at e
    · intro m e; simp [writing] at e
    · intro m e; simp [writing] at e
    · obtain ⟨-, h2, h3, -⟩ := l.2.2.2.2.2.1 (by simp [copyReads, hc])
      exact ⟨rfl, h2, h3, rfl⟩
  · rename_i c hc
    refine (Keeps.ofMedia s { s.media with commitReq := none, readRun := 0, current := some { op := .resetWrite c } }
      (fun m => ⟨m.1, ?_, m.2.2.1, m.2.2.2.1, ?_, m.2.2.2.2.2⟩) (fun _ => Nat.zero_le _) (fun m => m)
      ⟨id, fun _ => id, fun _ l => ⟨l.1, l.2.1, l.2.2.1, ?_, l.2.2.2.2.1, fun n => ?_, l.2.2.2.2.2.2⟩⟩).mono (by decide)
    · intro sp e; simp [trialSpare] at e
    · intro m e; simp [writing] at e
    · intro m e; simp [writing] at e
    · exact absurd n (by simp [copyReads])

theorem grantProgram_keeps : Keeps [.media, .sb, .integ, .md] s s.grantProgram := by
  unfold grantProgram
  split
  · exact .refl s
  · rename_i f hf
    dsimp only
    have hm : f ∈ s.sb.frames := by
      obtain ⟨i, -, hi⟩ := List.exists_of_findSome?_eq_some hf
      obtain ⟨g, hg, k⟩ := Option.bind_eq_some_iff.1 hi
      split at k
      · cases k
      · cases k; exact List.mem_of_find?_eq_some hg
    obtain ⟨b, hb⟩ : ∃ b : Staging,
      { s.sb with
        frames := insertFrame { f with state := .programming } s.sb.frames
        progQ := s.sb.progQ.filter fun i => decide (i ≠ f.idx) } = b := ⟨_, rfl⟩
    have hfr : b.frames = insertFrame { f with state := .programming } s.sb.frames := by rw [← hb]
    have hfl : s.frameLaw → (s.withSb b).frameLaw := fun l =>
      frameLaw_insert (f := { f with state := .programming }) (show f.idx < _ from l.2.1 f hm) (List.Sublist.refl _) hfr
        (by rw [← hb]; exact l.2.2) l
    have hq : Keeps [.sb] s (s.withSb b) := by
      refine .ofSb s b hfl (buf_sb hfl (fun l => hb ▸ Staging.lawful_program l.2 l.1.1 hf) (fun l w => ?_) fun l => ?_)
      · refine Staging.countP_replace (x := { f with state := .programming }) _ l.1.1 hfr (List.Sublist.refl _) hm rfl ?_
        intro h
        simp only [Frame.staged, (Staging.head_spec l.2 hf l.1.1).2.1] at h ⊢
        simpa using h
      · exact Staging.countP_replace (x := { f with state := .programming }) _ l.1.1 hfr (List.Sublist.refl _) hm rfl
          fun h => by simp at h
    have h : Keeps [.media, .sb, .integ, .md] s ((s.withMedia { s.media with readRun := 0 }).withSb b) :=
      (requests_keeps (s.withSb b) { s.media with readRun := 0 } rfl rfl rfl (.inr rfl) rfl).next (by decide)
        (hq.mono (by decide))
    split
    · rename_i k hk
      have e := (joinCommit_keeps _ f.idx .ok).next (by decide) <|
        setEntry_and _ (by decide) h f.block k.poison f.port? (.inr fun l m _ => by
          have c := countP_insertFrame_same (f := { f with state := .programming })
            (fun f => f.isMark && decide (f.state = .dirty)) l.1.1 hm rfl
          rw [if_pos (by simp [Frame.isMark, hk, (Staging.head_spec l.2 hf l.1.1).2.1]), if_neg (by simp)] at c
          have := m.1
          show s.integ.poison.length + b.frames.countP (fun f => f.isMark && decide (f.state = .dirty)) < _
          rw [hfr]
          unfold Staging.dirtyMarks at this
          omega)
      subst hb; exact e
    · rename_i d _ _
      have e := fun x => (occupy_keeps _ (.program f.idx f.block x d none) (by simp [MediaOp.plain]) (by simp)).next
        (by decide) h
      subst hb; exact e _
    · subst hb; exact h

theorem grantRefreshRead_keeps : Keeps [.media] s s.grantRefreshRead := by
  unfold grantRefreshRead
  split
  · exact .refl s
  · exact (occupy_keeps _ _ (by simp [MediaOp.plain]) (by simp)).next (by decide) <| requests_keeps s _ rfl rfl rfl (.inr rfl) rfl

theorem grantScrubRead_keeps : Keeps [.media, .scrub] s s.grantScrubRead := by
  unfold grantScrubRead
  split
  · exact .refl s
  · exact (setScrub_keeps _ _).next (by decide) <| (occupy_keeps _ _ (by simp [MediaOp.plain]) (by simp)).next (by decide) <|
      Keeps.mono (K := [.media]) (requests_keeps s _ rfl rfl rfl (.inr rfl) rfl) (by decide)

/-- R110: the class that the arbiter takes is granted. -/
theorem grant_keeps (g : Grant) (h : s.choose = some g) : Keeps [.media, .sb, .integ, .md, .scrub] s (s.grant g) := by
  cases g with
  | portRead =>
    refine (grantPortRead_keeps s fun hw => ?_).mono (by decide)
    by_contra hn
    have : s.choose = some .program := by
      unfold choose
      rw [if_pos]
      rw [hw, Bool.true_and, decide_eq_true_eq]
      exact not_lt.1 hn
    rw [this] at h
    cases h
  | commit => exact (grantCommit_keeps s).mono (by decide)
  | program => exact (grantProgram_keeps s).mono (by decide)
  | refreshRead => exact (grantRefreshRead_keeps s).mono (by decide)
  | scrubRead => exact (grantScrubRead_keeps s).mono (by decide)

theorem grantMarks_keeps (n : Nat) : ∀ s : Part, Keeps [.media, .sb, .integ, .md] s (grantMarks n s) := by
  induction n with
  | zero => exact fun s => .refl s
  | succ n ih =>
    intro s
    unfold grantMarks
    split
    · exact (ih _).next (by decide) (grantProgram_keeps s)
    · exact .refl s

theorem grants_keeps : Keeps [.media, .sb, .integ, .md, .scrub] s s.grants := by
  unfold grants
  dsimp only
  have h : Keeps [.media, .sb, .integ, .md, .scrub] s s.requestCommit := (requestCommit_keeps s).mono (by decide)
  split
  · exact h
  · have h' : Keeps [.media, .sb, .integ, .md, .scrub] s
        (grantMarks (s.requestCommit.sb.progQ.length + 1) s.requestCommit).requestCommit :=
      (requestCommit_keeps _).next (by decide) <| (grantMarks_keeps _ _).next (by decide) h
    split
    · rename_i g hg
      exact (grant_keeps _ g hg).next (by decide) h'
    · exact h'

end Part

end Sys2Proof.Machine
end

