-- ==== Sys2Proof/Laws/Sessions.lean ====
section
/-! SUPPORT. What the operations of Machine/Sessions.lean can do, up to all the follow-ups of an event: the components each
changes, with the laws kept. -/

namespace Sys2Proof.Machine.Part

variable (s : Part)

/-- The session of a port changes in nothing that a law looks at. -/
theorem session_plain {s : Part} {p : Port} {x : Session} (hs : x.state = (s.session p).state)
    (hf : x.fenced = (s.session p).fenced) (hq : x.quota = (s.session p).quota := by rfl) : Keeps [.sess] s (s.setSession p x) := by
  have e : ∀ q, ((s.setSession p x).session q).state = (s.session q).state := by
    intro q
    by_cases c : q = p
    · subst c; simpa using hs
    · simp [c]
  have f : ∀ q, ((s.setSession p x).session q).fenced = (s.session q).fenced := by
    intro q
    by_cases c : q = p
    · subst c; simpa using hf
    · simp [c]
  refine .ofSess s p x ?_ ?_ (buf_sess hq)
  · rintro ⟨a, b, c⟩
    refine ⟨fun l hl => by rw [e]; exact a l hl, fun w hw => by rw [e]; exact b w hw, fun q hq => ?_⟩
    rw [f] at hq; rw [e]; exact c q hq
  · intro h; rw [Session.shut, hs]; exact h

/-- A port's session becomes CLOSED or DRAINING, with none of its leases and wait list entries left. -/
theorem shutSession_and {K : List Comp} (hK : .sess ∈ K) {a : Part} (e : Keeps K a s) {p : Port} {x : Session} (hx : x.shut)
    (hq : x.quota = (s.session p).quota)
    (hl : a.sessionLaw → s.sessionLaw → ∀ l ∈ s.lease.table, l.holder ≠ p)
    (hw : a.sessionLaw → s.sessionLaw → ∀ w ∈ s.lease.waits, w.key.port ≠ p) : Keeps K a (s.setSession p x) := by
  refine e.andSess hK p x ?_ (fun _ => hx) fun b => b.trans (buf_sess hq)
  intro i j
  refine ⟨fun l hm => ?_, fun w hm => ?_, fun q hq => ?_⟩
  · have := hl i j l hm
    simpa [this] using j.1 l hm
  · have := hw i j w hm
    simpa [this] using j.2.1 w hm
  · by_cases c : q = p
    · subst c; rw [session_setSession_same]; exact hx
    · rw [session_setSession_ne _ _ _ _ c] at hq ⊢; exact j.2.2 q hq

theorem rearm_keeps (p : Port) : Keeps [.sess] s (s.rearm p) := by
  unfold rearm
  split
  · exact session_plain rfl rfl
  · exact .refl s

theorem abruptEnd_keeps (p : Port) (k : FaultKind) (o : Option Port) :
    Keeps [.lease, .sb, .cmds, .integ, .links, .sess, .faults, .md] s (s.abruptEnd p k o) := by
  unfold abruptEnd
  dsimp only
  refine (appendFault_keeps _ _).next (by decide) ?_
  refine shutSession_and _ (by decide) ?_ ?_ rfl ?_ ?_
  · refine (clearHeld_keeps _ _).next (by decide) <| (tally_keeps _ _).next (by decide) <|
      Keeps.next (L := [.cmds]) (recs_keeps _ _ (by rfl) (List.filter_sublist.map _)) (by decide) <|
      (filterFrames_keeps _ _ fun l => Staging.lawful_filter l.2 _ fun f _ h => by
        by_contra n
        simp [n] at h).next (by decide) ?_
    exact Keeps.mono (K := [.lease]) (lease_shrink s _ List.filter_sublist List.filter_sublist) (by decide)
  · simp only [Session.shut]
    split
    · exact .inl rfl
    · exact .inr rfl
  · intro _ _ l hl
    exact of_decide_eq_true (List.mem_filter.1 hl).2
  · intro _ _ w hw
    exact of_decide_eq_true (List.mem_filter.1 hw).2

theorem drained_closing {s : Part} {p : Port} {c : Cmd} (h : s.drained p = some c) : (s.session p).state = .closing := by
  unfold drained at h
  split at h
  · assumption
  · cases h

theorem drainEnd_keeps (p : Port) : Keeps [.lease, .sess, .links, .cmds] s (s.drainEnd p) := by
  unfold drainEnd
  split
  · exact .refl s
  · rename_i c hc
    refine (finish_keeps _ _ _ _).next (by decide) ?_
    refine shutSession_and _ (by decide) ?_ (.inl rfl) rfl ?_ ?_
    · exact (setLeases_keeps s _ List.filter_sublist).mono (by decide)
    · intro _ _ l hl
      exact of_decide_eq_true (List.mem_filter.1 hl).2
    · intro l _ w hw e
      have h : (s.session w.key.port).state = .opened := l.2.1 w hw
      rw [e, drained_closing hc] at h
      cases h

theorem drainingEnd_keeps (p : Port) : Keeps [.sess] s (s.drainingEnd p) := by
  unfold drainingEnd
  split
  · rename_i h
    refine shutSession_and s (by decide) (.refl s) (.inl rfl) rfl ?_ ?_
    · intro i _ l hl e
      have := i.1 l hl
      rw [e, h.1] at this
      rcases this with k | k <;> cases k
    · intro i _ w hw e
      have := i.2.1 w hw
      rw [e, h.1] at this
      cases this
  · exact .refl s

theorem drains_keeps : Keeps [.lease, .sess, .links, .cmds] s s.drains :=
  .foldl _ (fun s p => (drainingEnd_keeps _ p).next (by decide) (drainEnd_keeps s p)) _ s

/-! ### Follow-ups -/

theorem settle_keeps (wait : List Nat) :
    Keeps [.lease, .links, .cmds, .sb, .media, .faults, .md, .sess] s (settle wait s) :=
  (drains_keeps _).next (by decide) <| (releaseHeld_keeps s wait).mono (by decide)

theorem waitScanAfter_keeps (a c : Part) : Keeps [.lease, .links, .cmds] c (waitScanAfter a c) := by
  unfold waitScanAfter; split
  · exact waitScan_keeps c
  · exact .refl c

theorem admissionAfter_keeps (a c d : Part) : Keeps [.cmds, .sb, .integ, .links] d (admissionAfter a c d) := by
  unfold admissionAfter; split
  · exact admission_keeps d
  · exact .refl d

theorem scanOnce_keeps (a c : Part) : Keeps [.lease, .links, .cmds, .sb, .integ] c (scanOnce a c) :=
  (admissionAfter_keeps _ _ _).next (by decide) <| (waitScanAfter_keeps a c).mono (by decide)

/-- What the scans of an event can change, where what it settles is some of this. -/
theorem scans_keeps {settled : Part → Part}
    (hs : ∀ s, Keeps [.lease, .links, .cmds, .sb, .integ, .media, .faults, .md, .sess] s (settled s)) (n : Nat) : ∀ a b : Part,
    Keeps [.lease, .links, .cmds, .sb, .integ, .media, .faults, .md, .sess] b (scans settled n a b) := by
  induction n with
  | zero => exact fun _ b => .refl b
  | succ n ih =>
    intro a b
    unfold scans
    dsimp only
    have h : Keeps [.lease, .links, .cmds, .sb, .integ, .media, .faults, .md, .sess] b (settled (scanOnce a (settled b))) :=
      (hs _).next (by decide) <| (scanOnce_keeps a _).next (by decide) (hs b)
    split
    · exact (ih _ _).next (by decide) h
    · exact h

theorem scanAll_keeps {settled : Part → Part}
    (hs : ∀ s, Keeps [.lease, .links, .cmds, .sb, .integ, .media, .faults, .md, .sess] s (settled s)) (a b : Part) :
    Keeps [.lease, .links, .cmds, .sb, .integ, .media, .faults, .md, .sess] b (scanAll settled a b) := scans_keeps hs _ a b

theorem followUps_keeps (n : Nat) : ∀ (wait : List Nat) (a b : Part),
    Keeps [.lease, .links, .cmds, .sb, .integ, .media, .faults, .md, .sess, .scrub] b (followUps n wait a b) := by
  induction n with
  | zero => exact fun _ _ b => .refl b
  | succ n ih =>
    intro wait a b
    unfold followUps
    dsimp only
    have h : Keeps [.lease, .links, .cmds, .sb, .integ, .media, .faults, .md, .sess, .scrub] b
        (scanAll (settle wait) a b).refreshTry.scrubRetry.refreshTry.grants :=
      (grants_keeps _).next (by decide) <| (refreshTry_keeps _).next (by decide) <|
        (scrubRetry_keeps _).next (by decide) <| (refreshTry_keeps _).next (by decide) <|
          (scanAll_keeps (fun s => (settle_keeps s wait).mono (by decide)) a b).mono (by decide)
    split
    · exact (ih _ _ _).next (by decide) h
    · split
      · exact (ih _ _ _).next (by decide) h
      · exact h

theorem inTurn_keeps (n : Nat) : ∀ (wait : List Nat) (a b : Part),
    Keeps [.lease, .links, .cmds, .sb, .integ, .media, .faults, .md, .sess, .scrub] b (inTurn n wait a b) := by
  induction n with
  | zero => exact fun wait a b => followUps_keeps _ wait a b
  | succ n ih =>
    intro wait a b
    unfold inTurn
    dsimp only
    split
    · exact followUps_keeps _ wait a b
    · exact ih _ _ _

/-- R61: the frames that stood in a queue of `x` stay at its head. -/
theorem lc_inReceiptOrder (x s : Part) (p : Port) : (inReceiptOrder x s).lc p = { s.lc p with
    txq := (s.lc p).txq.take (x.lc p).txq.length ++
      arrange (x.receiptOf p) ((s.lc p).txq.drop (x.lc p).txq.length) } := by cases p <;> rfl

theorem txq_inReceiptOrder_perm (x s : Part) (p : Port) :
    ((inReceiptOrder x s).lc p).txq.Perm (s.lc p).txq := by
  rw [lc_inReceiptOrder]
  exact ((arrange_perm _ _).append_left _).trans (by rw [List.take_append_drop])

theorem txq_inReceiptOrder (x s : Part) (p : Port) (h : (x.lc p).txq <+: (s.lc p).txq) :
    (x.lc p).txq <+: ((inReceiptOrder x s).lc p).txq := by
  rw [lc_inReceiptOrder]
  show _ <+: (s.lc p).txq.take (x.lc p).txq.length ++ _
  rw [← List.prefix_iff_eq_take.1 h]
  exact List.prefix_append _ _

/-- R61: the completions of an event are put into the order of receipt: the link laws are kept. -/
theorem inReceiptOrder_and {K : List Comp} (hK : .links ∈ K) {a x s : Part} (e : Keeps K a s)
    (h : .drop ∉ K → ∀ p, (a.lc p).txq <+: (x.lc p).txq ∧ (x.lc p).txq <+: (s.lc p).txq) :
    Keeps K a (inReceiptOrder x s) :=
  ⟨e.pins, fun n => absurd hK n, fun n p => (h n p).1.trans (txq_inReceiptOrder x s p (h n p).2),
    e.sess, e.shut, e.cmds, e.recs, e.sb, e.lease, e.media, e.disk, e.integ, e.scrub, e.md,
    e.faults, e.time, e.free, ⟨e.laws.store, e.laws.image, fun l p => by
        have k := e.laws.link l p
        refine ⟨?_, ?_, ?_⟩
        · show ((inReceiptOrder x s).lc p).txq.countP _ ≤ _
          rw [(txq_inReceiptOrder_perm x s p).countP_eq]; exact k.1
        · rw [lc_inReceiptOrder]; exact k.2.1
        · rw [lc_inReceiptOrder]; exact k.2.2,
      e.laws.lease, e.laws.session, e.laws.frame, e.laws.readRun, e.laws.refresh, e.laws.commit, e.laws.table,
      e.laws.buf.trans ⟨id, fun _ => id, fun _ => id⟩⟩⟩

/-- What the follow-ups of an event can change, where the event has taken the part from `a` to `b` and its completions are
put into the order of receipt behind the queues of `x`: neither pins, nor what is on the media, nor time; and no frame
leaves a transmit queue. -/
theorem follow_and {K : List Comp} (hK : [.lease, .links, .cmds, .sb, .integ, .media, .faults, .md, .sess, .scrub] ⊆ K)
    {a x b : Part} (e : Keeps K a b)
    (h : .drop ∉ K → ∀ p, (a.lc p).txq <+: (x.lc p).txq ∧ (x.lc p).txq <+: (b.lc p).txq) : Keeps K a (follow x b) :=
  inReceiptOrder_and (hK (by decide)) ((inTurn_keeps _ _ x b).next hK e) fun n p =>
    ⟨(h n p).1, (h n p).2.trans ((inTurn_keeps _ _ x b).txq (by decide) p)⟩

theorem follow_keeps {K : List Comp} (hK : [.lease, .links, .cmds, .sb, .integ, .media, .faults, .md, .sess, .scrub] ⊆ K)
    {a b : Part} (e : Keeps K a b) : Keeps K a (follow a b) :=
  follow_and hK e fun n p => ⟨List.prefix_refl _, e.txq n p⟩

/-! ### Requests -/

theorem serveOpen_keeps (c : Cmd) (token : BitVec 32) (silence : BitVec 16) (quota reqLease : BitVec 8) :
    Keeps [.sess, .opens, .links] s (s.serveOpen c token silence quota reqLease) := by
  unfold serveOpen
  dsimp only
  split
  · exact (reply_keeps s _ _ _).mono (by decide)
  · rename_i h
    refine (reply_keeps _ _ _ _).next (by decide) ?_
    have hq : s.sb.attr (.port c.key.port) ≤ quotaOf quota := by
      simp only [openRefusal] at h
      by_contra n
      split at h
      · cases h
      · split at h
        · cases h
        · split at h
          · cases h
          · split at h
            · cases h
            · split at h
              · cases h
              · rw [if_pos (not_le.1 n)] at h; cases h
    refine Keeps.mono (K := [.sess, .opens]) (Keeps.ofSessOpens s _ _ ?_
      ⟨id, fun _ k => ⟨fun p => ?_, k.2⟩, fun _ => id⟩) (by decide)
    case refine_2 =>
      by_cases e : p = c.key.port
      · subst e
        rw [session_setSession_same]; exact hq
      · rw [session_setSession_ne _ _ _ _ e]; exact k.1 p
    rintro ⟨l1, l2, l3⟩
    have hf : (s.session c.key.port).fenced = false := by
      simp only [openRefusal] at h
      split at h
      · cases h
      · split at h
        · cases h
        · rename_i k; simpa using k
    refine ⟨fun l hl => ?_, fun w hw => ?_, fun q hq => ?_⟩
    · by_cases e : l.holder = c.key.port
      · rw [e]; simp [openedSession]
      · rw [session_setSession_ne _ _ _ _ e]; exact l1 l hl
    · by_cases e : w.key.port = c.key.port
      · rw [e]; simp [openedSession]
      · rw [session_setSession_ne _ _ _ _ e]; exact l2 w hw
    · by_cases e : q = c.key.port
      · subst e
        simp [openedSession, hf] at hq
      · rw [session_setSession_ne _ _ _ _ e] at hq ⊢; exact l3 q hq

/-- The wait list after the entries of some commands have ended. -/
theorem endWaits_keeps (ks : List Key) (st : Status) :
    Keeps [.lease, .links, .cmds] s (ks.foldl (fun s k => s.endWait k st) s) :=
  .foldl _ (fun s k => endWait_keeps s k st) ks s

theorem finish_waits (c : Cmd) (st : Status) (r : Result) : (s.finish c st r).lease = s.lease := by
  exact (finish_keeps s c st r).lease (by decide)

theorem endWait_waits (k : Key) (st : Status) :
    (s.endWait k st).lease.waits = s.lease.waits.filter fun w => decide (w.key ≠ k) := by
  unfold endWait
  dsimp only
  split
  · rw [finish_waits]; rfl
  · rfl

theorem endWaits_waits (ks : List Key) (st : Status) : ∀ s : Part,
    (ks.foldl (fun s k => s.endWait k st) s).lease.waits = s.lease.waits.filter fun w => decide (w.key ∉ ks) := by
  induction ks with
  | nil => intro s; simp
  | cons k ks ih =>
    intro s
    rw [List.foldl_cons, ih, endWait_waits, List.filter_filter]
    refine List.filter_congr fun w _ => ?_
    simp [Bool.and_comm]

theorem serveClose_keeps (c : Cmd) (ho : (s.session c.key.port).state = .opened) (f : s.tableLaw → Fresh s c) :
    Keeps [.lease, .links, .cmds, .adds, .sess] s (s.serveClose c) := by
  unfold serveClose
  dsimp only
  generalize hks : (s.lease.waits.filter fun w => decide (w.key.port = c.key.port)).map (·.key) = ks
  have e := (endWaits_keeps s ks .aborted).mono (L := [.lease, .links, .cmds, .adds, .sess]) (by decide)
  have hf := fun l => (f l).of_narrows ((endWaits_keeps s ks .aborted).recs (by decide) l)
  have hs : (ks.foldl (fun s k => s.endWait k .aborted) s).session c.key.port = s.session c.key.port := by
    simp only [session, (endWaits_keeps s ks .aborted).sess (by decide)]
  have hw := endWaits_waits ks .aborted s
  generalize (ks.foldl (fun s k => s.endWait k .aborted) s) = t at e hs hw hf
  refine record_and _ (by decide) ?_ _ fun l => ⟨(hf l).1, (hf l).2⟩
  refine e.andSess (by decide) _ _ ?_ ?_ fun b => b.trans (buf_sess rfl)
  · rintro - ⟨l1, l2, l3⟩
    refine ⟨fun l hl => ?_, fun w hm => ?_, fun q hq => ?_⟩
    · by_cases e : l.holder = c.key.port
      · rw [e]; simp
      · rw [session_setSession_ne _ _ _ _ e]; exact l1 l hl
    · have ne : w.key.port ≠ c.key.port := by
        intro e
        rw [show (t.setSession c.key.port _).lease.waits = t.lease.waits from rfl, hw] at hm
        have := of_decide_eq_true (List.mem_filter.1 hm).2
        exact this (hks ▸ List.mem_map_of_mem (List.mem_filter.2 ⟨(List.mem_filter.1 hm).1, decide_eq_true e⟩))
      rw [session_setSession_ne _ _ _ _ ne]; exact l2 w hm
    · by_cases e : q = c.key.port
      · subst e
        rw [session_setSession_same] at hq
        have := l3 _ hq
        rw [hs, ho] at this
        rcases this with k | k <;> cases k
      · rw [session_setSession_ne _ _ _ _ e] at hq ⊢; exact l3 q hq
  · intro h
    rw [hs] at h
    rw [Session.shut, ho] at h
    rcases h with k | k <;> cases k

theorem fencePort_keeps (p t : Port) :
    Keeps [.lease, .links, .cmds, .sb, .integ, .media, .faults, .md, .sess] s (s.fencePort p t) := by
  unfold fencePort
  dsimp only
  refine (putNotice_keeps _ _ _).next (by decide) ?_
  have e : Keeps [.lease, .links, .cmds, .sb, .integ, .media, .faults, .md, .sess] s
      (if s.armsSilence t then scanAll drains s (s.abruptEnd t .portFenced (some p)) else s) := by
    split
    · exact (scanAll_keeps (fun s => (drains_keeps s).mono (by decide)) _ _).next (by decide) <| (abruptEnd_keeps s _ _ _).mono (by decide)
    · exact .refl s
  have hs : ((if s.armsSilence t then scanAll drains s (s.abruptEnd t .portFenced (some p)) else s).session t).shut := by
    split
    · refine (scanAll_keeps (fun s => (drains_keeps s).mono (by decide)) s _).shut (by decide) t ?_
      have : ((s.abruptEnd t .portFenced (some p)).session t).shut := by
        simp only [abruptEnd, appendFault, change, session, withFaults_sess, withMd_sess, setSession, withSess_sess,
          PerPort.get_set_same, Session.shut]
        split
        · exact .inl rfl
        · exact .inr rfl
      exact this
    · rename_i h
      simp only [armsSilence, Bool.or_eq_true, decide_eq_true_eq, not_or] at h
      simp only [Session.shut]
      cases k : (s.session t).state <;> simp_all
  generalize (if s.armsSilence t then scanAll drains s (s.abruptEnd t .portFenced (some p)) else s) = b at e hs
  refine e.andSess (by decide) _ _ ?_ (fun h => h) fun b => b.trans (buf_sess rfl)
  rintro - ⟨l1, l2, l3⟩
  refine ⟨fun l hl => ?_, fun w hw => ?_, fun q hq => ?_⟩
  · by_cases e : l.holder = t
    · rw [e, session_setSession_same]; exact e ▸ l1 l hl
    · rw [session_setSession_ne _ _ _ _ e]; exact l1 l hl
  · by_cases e : w.key.port = t
    · rw [e, session_setSession_same]; exact e ▸ l2 w hw
    · rw [session_setSession_ne _ _ _ _ e]; exact l2 w hw
  · by_cases e : q = t
    · rw [e, session_setSession_same]; exact hs
    · rw [session_setSession_ne _ _ _ _ e] at hq ⊢; exact l3 q hq

theorem serveFence_keeps (c : Cmd) (x : BitVec 8) :
    Keeps [.lease, .links, .cmds, .sb, .integ, .media, .faults, .md, .sess] s (s.serveFence c x) := by
  unfold serveFence
  split
  · exact (reply_keeps s _ _ _).mono (by decide)
  · split
    · exact (reply_keeps s _ _ _).mono (by decide)
    · split
      · exact (reply_keeps s _ _ _).mono (by decide)
      · exact (reply_keeps _ _ _ _).next (by decide) (fencePort_keeps s _ _)

theorem serveUnfence_keeps (c : Cmd) (x : BitVec 8) : Keeps [.sess, .links] s (s.serveUnfence c x) := by
  unfold serveUnfence
  split
  · exact (reply_keeps s _ _ _).mono (by decide)
  · rename_i t _
    split
    · refine (reply_keeps _ _ _ _).next (by decide) ?_
      refine Keeps.andSess (.refl s) (by decide) _ _ ?_ (fun h => h) fun b => b.trans (buf_sess rfl)
      rintro - ⟨l1, l2, l3⟩
      refine ⟨fun l hl => ?_, fun w hw => ?_, fun q hq => ?_⟩
      · by_cases e : l.holder = t
        · rw [e, session_setSession_same]; exact e ▸ l1 l hl
        · rw [session_setSession_ne _ _ _ _ e]; exact l1 l hl
      · by_cases e : w.key.port = t
        · rw [e, session_setSession_same]; exact e ▸ l2 w hw
        · rw [session_setSession_ne _ _ _ _ e]; exact l2 w hw
      · by_cases e : q = t
        · subst e; rw [session_setSession_same] at hq; cases hq
        · rw [session_setSession_ne _ _ _ _ e] at hq ⊢; exact l3 q hq
    · exact (reply_keeps s _ _ _).mono (by decide)

theorem endFilling_keeps (c : Cmd) : Keeps [.sb, .links] s (s.endFilling c) :=
  (dropGo_keeps _ _ _).next (by decide) <| (freeFilling_keeps s _).mono (by decide)

theorem abortTarget_keeps (d : Cmd) : Keeps [.lease, .links, .cmds, .sb] s (s.abortTarget d).1 := by
  unfold abortTarget
  split
  · exact (finish_keeps _ _ _ _).next (by decide) <| (dequeue_keeps s _).mono (by decide)
  · exact (finish_keeps s _ _ _).mono (by decide)
  · exact (endWait_keeps s _ _).mono (by decide)
  · exact (finish_keeps _ _ _ _).next (by decide) <| (endFilling_keeps s _).mono (by decide)
  · split
    · exact (finish_keeps s _ _ _).mono (by decide)
    · exact (updCmd_keeps s _ _).mono (by decide)
  · exact .refl s
  · exact .refl s

theorem serveAbort_keeps (c : Cmd) (t : Tag) : Keeps [.lease, .links, .cmds, .sb] s (s.serveAbort c t) := by
  unfold serveAbort
  split
  · exact (reply_keeps s _ _ _).mono (by decide)
  · exact (reply_keeps _ _ _ _).next (by decide) (abortTarget_keeps s _)

/-! ### Nothing due -/

theorem Lease.same_refl (l : Lease) : l.same l = true := decide_eq_true rfl

theorem leaseRemoved_self (b : Part) : leaseRemoved b b = false := by
  simp only [leaseRemoved, List.any_eq_false, Bool.not_eq_true, Bool.not_eq_false', List.any_eq_true]
  exact fun l hl => ⟨l, hl, Lease.same_refl l⟩

/-- Nothing changed: no wait list scan is due (R35). -/
theorem waitScanDue_self (b : Part) : waitScanDue b b = false := by
  simp only [waitScanDue, leaseRemoved_self, fillingEnded, waitGone, Bool.or_eq_false_iff, List.any_eq_false]
  refine ⟨⟨trivial, ?_⟩, ?_⟩
  · intro c hc; simp; intro h; exact ⟨c, hc, rfl, h⟩
  · intro w hw; simp [hw]

/-- Nothing changed: no admission scan is due (R54). -/
theorem admissionDue_self (b : Part) : admissionDue b b = false := by
  simp [admissionDue, framesFreed, attrFell, leaseChanged, leaseRemoved_self]

end Sys2Proof.Machine.Part
end

