-- ==== Sys2Proof/Laws/Persist.lean ====
section
/-! SUPPORT. What the operations of Machine/Persist.lean and Requests.lean can do, up to a whole REQUEST frame: the components
each changes, with the laws kept. -/

namespace Sys2Proof.Machine

theorem windowOf_ok {r : RawWindow} {w : Window} (h : windowOf r = some w) : w.ok = true := by
  unfold windowOf at h
  split at h
  · cases h
  · split at h
    · rename_i k
      cases h
      simp only [Window.ok, Bool.and_eq_true, decide_eq_true_eq]
      exact ⟨k.2.2, k.2.1⟩
    · cases h

/-- R140, R164: the settings of a SETTINGS WRITE that is not refused are in range. -/
theorem settingsOf_ok {r : RawSettings} {x : Settings} (h : settingsOf r = some x) : x.ok = true := by
  unfold settingsOf at h
  split at h
  · rename_i a b c d ha hb hc hd
    split at h
    · rename_i k
      cases h
      simp only [Settings.ok, Bool.and_eq_true, decide_eq_true_eq]
      exact ⟨⟨⟨⟨⟨k.1, k.2⟩, windowOf_ok ha⟩, windowOf_ok hb⟩, windowOf_ok hc⟩, windowOf_ok hd⟩
    · cases h
  · cases h

namespace Part

variable (s : Part)

/-! ### SAFE entry -/

theorem dropGos_keeps : Keeps [.links] s s.dropGos := .foldl _ (fun s _ => dropGo_keeps s _ _) _ s

/-- A port's link controller without the GOs held for the commands `cs`. -/
def withoutGos (cs : List Cmd) (p : Port) (l : Lc) : Lc :=
  { l with held := l.held.filter fun h =>
      !(h.frame.isGo && cs.any fun c => decide (c.key.port = p) && decide (h.frame.tag = some c.key.tag)) }

/-- R76: the held GOs of several commands are discarded: nothing else of the part changes. -/
theorem foldl_dropGo (cs : List Cmd) : ∀ s : Part,
    cs.foldl (fun s c => s.setLc c.key.port ((s.lc c.key.port).dropGo c.key.tag)) s =
      s.withLinks ⟨withoutGos cs .p0 (s.lc .p0), withoutGos cs .p1 (s.lc .p1), withoutGos cs .p2 (s.lc .p2),
        withoutGos cs .p3 (s.lc .p3)⟩ := by
  induction cs with
  | nil => intro s; simp [withoutGos]; rfl
  | cons c cs ih =>
    intro s
    have key : ∀ q, withoutGos cs q ((s.setLc c.key.port ((s.lc c.key.port).dropGo c.key.tag)).lc q) =
        withoutGos (c :: cs) q (s.lc q) := by
      intro q
      by_cases h : q = c.key.port
      · subst h
        rw [lc_setLc_same]
        simp only [withoutGos, Lc.dropGo, List.filter_filter, List.any_cons, decide_true, Bool.true_and]
        congr 2
        funext h
        cases h.frame.isGo <;> cases decide (h.frame.tag = some c.key.tag) <;> simp
      · rw [lc_setLc_ne _ _ _ _ h]
        simp [withoutGos, Ne.symm h]
    rw [List.foldl_cons, ih]
    simp only [key]
    rfl

/-- R76: what SAFE entry discards. -/
theorem dropGos_eq : s.dropGos =
    let ended := s.cmds.recs.filter fun c => decide (c.state ≠ .sending)
    s.withLinks ⟨withoutGos ended .p0 (s.lc .p0), withoutGos ended .p1 (s.lc .p1), withoutGos ended .p2 (s.lc .p2),
      withoutGos ended .p3 (s.lc .p3)⟩ := foldl_dropGo _ s

/-- R159: while the media performs a commit or a copy write of METADATA RESET, no start-up read is under way. -/
theorem copyReads_of_writesCopy {s : Part} (h : s.writesCopy = true) (l : s.roomLaw) : s.copyReads = 0 := by
  by_contra n
  have := (l.2.2.2.2.2.1 (Nat.pos_of_ne_zero n)).2.2.2
  rw [h] at this; cases this

/-- R159: a start-up read that the media performs is the only one. -/
theorem copyReads_idle {s : Part} {c : CopyId} {d : Bool} (h : s.media.current = some { op := .copyRead c, discard := d })
    (l : s.roomLaw) : s.idle.copyReads = 0 := by
  have k := (l.2.2.2.2.2.1 (by simp [copyReads, h])).1
  simp only [copyReads, h, idle, withMedia_media] at k ⊢
  omega

theorem copyReads_idle_le (s : Part) : s.idle.copyReads ≤ s.copyReads := Nat.add_le_add_right (Nat.zero_le _) _

theorem safeRecord_name {s : Part} {b : Bool} {c d : Cmd} (h : s.safeRecord b c = some d) : d.name = c.name := by
  unfold safeRecord at h
  split at h
  · cases h; rfl
  · split at h
    · cases h; rfl
    · split at h <;> cases h; rfl
  · cases h; rfl

/-- R163: SAFE entry, where no start-up read is under way. -/
theorem safeEntry_and {K : List Comp} (hK : [.links, .md, .cmds, .sb, .lease, .integ, .media, .scrub, .faults] ⊆ K)
    {a : Part} (e : Keeps K a s) (b : Bool) (hz : a.stagingLaw → a.roomLaw → s.copyReads = 0) :
    Keeps K a (s.safeEntry b) := by
  have sub : ∀ {L : List Comp}, L ⊆ [.links, .md, .cmds, .sb, .lease, .integ, .media, .scrub, .faults] → L ⊆ K :=
    fun h => List.Subset.trans h hK
  unfold safeEntry
  dsimp only
  refine (stopPass_keeps _).next (sub (by decide)) <| (emitDecided_keeps _).next (sub (by decide)) ?_
  refine Keeps.next (L := [.media])
    (Keeps.ofMediaPlain _ _ rfl rfl (.inl rfl) (.inl rfl) List.filter_sublist (.inl rfl)) (sub (by decide)) ?_
  refine (tally_keeps _ _).next (sub (by decide)) ?_
  refine (setWaits_keeps _ _ (List.nil_sublist _)).next (sub (by decide)) <|
    (setLeases_keeps _ _ (List.nil_sublist _)).next (sub (by decide)) ?_
  refine (filterFrames_keeps _ _ fun l => Staging.lawful_filter l.2 _ fun f _ h => by simpa using h).next
    (sub (by decide)) <| Keeps.next (L := [.cmds]) (recs_keeps _ _ ?_ ?_) (sub (by decide)) ?_
  · rw [withMd_cmds, (dropGos_keeps s).cmds (by decide)]
  · rw [withMd_cmds, (dropGos_keeps s).cmds (by decide)]
    exact names_filterMap (fun c d h => safeRecord_name h) _
  have hm : s.dropGos.md = s.md := (dropGos_keeps s).md (by decide)
  refine md_and _ (hK (by decide)) ((dropGos_keeps s).next (sub (by decide)) e) { s.md with device := .safe, startUp := none }
    (by rw [hm]) (by rw [hm]) (.inl (by rw [hm])) (by rw [hm]) (.inl (by rw [hm])) (by rw [hm]) fun b =>
    buf_device b (fun k l => ?_) (.inr (by simp)) (.inl (by rw [hm]))
  have := hz k l
  simpa only [copyReads, (dropGos_keeps s).media (by decide)] using this

/-! ### Commits -/

theorem releaseCommitWait_keeps (n : Nat) : Keeps [.media, .sb, .integ, .cmds, .links] s (s.releaseCommitWait n) := by
  unfold releaseCommitWait
  dsimp only
  refine (Keeps.foldl (K := [.sb, .integ, .cmds, .links]) _ (fun s w => outcome_keeps s _ _) _ _).next (by decide) ?_
  exact Keeps.mono (K := [.media]) (requests_keeps s _ (by rfl) (by rfl) (by rfl) (.inl (by rfl)) (by rfl)) (by decide)

/-- R161: the device enters READY from start-up, where no start-up read is under way. -/
theorem readyFromStartUp_and {K : List Comp} (hK : [.md, .scrub] ⊆ K) {a : Part} (e : Keeps K a s)
    (hz : a.stagingLaw → a.roomLaw → s.copyReads = 0) : Keeps K a s.readyFromStartUp :=
  (setScrub_keeps _ _).next (fun c hc => hK (by revert hc; cases c <;> decide)) <|
    md_and s (hK (by decide)) e { s.md with device := .ready, startUp := none } rfl rfl (.inl rfl) rfl (.inl rfl)
      (le_refl _) fun b => buf_device b hz (.inr (by simp)) (.inl rfl)

theorem startUpDone_keeps (n : Nat) : Keeps [.md, .scrub] s (s.startUpDone n) := by
  unfold startUpDone
  split
  · rename_i h
    refine readyFromStartUp_and s (List.Subset.refl _) (.refl s) fun _ l => ?_
    by_contra z
    rw [(l.2.2.2.2.2.1 (Nat.pos_of_ne_zero z)).2.2.1] at h
    simp at h
  · exact .refl s

/-- A metadata copy is written, whose image keeps the laws of the set, or left undefined. -/
theorem setCopy_and {K : List Comp} (hK : .disk ∈ K) {a : Part} (e : Keeps K a s) (c : CopyId) (x : Option MetaCopy)
    (h : a.metaLaw → ∀ y, x = some y → y.image.lawful)
    (r : a.stagingLaw → a.roomLaw → ∀ y, x = some y → y.image.poison.length ≤ Config.maxPoison) :
    Keeps K a (s.setCopy c x) := by
  cases c
  · refine e.andDisk hK _ (fun _ h => h) (fun l m => ⟨m.1, m.2.1, fun y k => h l y k, m.2.2.2.1, m.2.2.2.2⟩) fun b =>
      ⟨b.staging, b.quota, fun k l => ?_⟩
    have m := b.room k l
    exact ⟨m.1, fun y e => r k l y e, m.2.2⟩
  · refine e.andDisk hK _ (fun _ h => h) (fun l m => ⟨m.1, m.2.1, m.2.2.1, fun y k => h l y k, m.2.2.2.2⟩) fun b =>
      ⟨b.staging, b.quota, fun k l => ?_⟩
    have m := b.room k l
    exact ⟨m.1, m.2.1, fun y e => r k l y e, m.2.2.2⟩

theorem setCopy_md (c : CopyId) (x : Option MetaCopy) : (s.setCopy c x).md = s.md := by cases c <;> rfl

/-- R156, for the image that the commit writes. -/
theorem commitSucceeded_keeps (c : CopyId) (g : BitVec 32) (m : MetaImage) (h : s.writing = some m) :
    Keeps [.disk, .media, .md, .sb, .integ, .cmds, .links, .scrub, .faults] s (s.commitSucceeded c g m) := by
  unfold commitSucceeded
  dsimp only
  refine (startUpDone_keeps _ _).next (by decide) <| (beginPass_keeps _ _).next (by decide) <|
    (emitDecided_keeps _).next (by decide) <| (decideCommit_keeps _ _ _).next (by decide) <|
    (decideCommit_keeps _ _ _).next (by decide) <| (releaseCommitWait_keeps _ _).next (by decide) ?_
  have e : Keeps [.disk, .media, .md, .sb, .integ, .cmds, .links, .scrub, .faults] s
      (s.idle.setCopy c (some (MetaCopy.write g m))) :=
    setCopy_and _ (by decide) ((idle_keeps s).mono (by decide)) _ _
      (fun l y k => by cases k; exact l.2.2.2.2.1 m h) fun _ l y k => by cases k; exact l.2.2.2.1 m h
  refine Keeps.next (L := [.md]) (Keeps.ofMd _ _ (fun h => h) ?_ (buf_md rfl rfl (.inl rfl))) (by decide) e
  rintro ⟨a, b⟩
  rw [setCopy_md] at a b
  refine ⟨?_, fun n k => by cases k⟩
  rw [withMd_md, setCopy_md]
  cases hs : s.md.snapshot with
  | none => exact a
  | some n => exact b n hs

theorem setCopy_media (c : CopyId) (x : Option MetaCopy) : (s.setCopy c x).media = s.media := by cases c <;> rfl

/-- R157, while the media performs a commit. -/
theorem commitFailed_keeps (c : CopyId) (g : BitVec 32) (h : s.writesCopy = true) :
    Keeps [.disk, .media, .md, .sb, .integ, .cmds, .links, .scrub, .faults, .lease] s (s.commitFailed c g) := by
  unfold commitFailed
  dsimp only
  have e : Keeps [.disk, .media, .md, .sb, .integ, .cmds, .links, .scrub, .faults, .lease] s (s.idle.setCopy c none) :=
    (loseCopy_keeps _ _).next (by decide) ((idle_keeps s).mono (by decide))
  have e' := fun i => (appendFault_keeps _ i).next (by decide) <|
    (md_keeps _ { (s.idle.setCopy c none).md with snapshot := none, failures := (s.idle.setCopy c none).md.failures + 1 }
      rfl rfl (.inl rfl) rfl (.inr rfl) (le_refl _)).next (by decide) e
  split
  · refine safeEntry_and _ (by decide) (e' _) _ fun _ l => ?_
    have := copyReads_of_writesCopy h l
    refine Nat.le_zero.1 (le_trans ?_ (le_of_eq this))
    refine le_trans (le_of_eq ?_) (copyReads_idle_le s)
    simp only [copyReads, appendFault, change, withMd_media, withFaults_media, setCopy_media]
  · exact e' _

/-! ### Start-up -/

/-- The volatile metadata set changes, with the media idle. -/
theorem load_and {K : List Comp} (hK : [.integ, .faults, .time, .md, .media] ⊆ K) {a : Part} (e : Keeps K a s) (c : CopyId)
    (x : MetaCopy) (hc : s.media.current = none) (h : a.metaLaw → x.image.lawful)
    (r : a.stagingLaw → a.roomLaw → s.roomLaw → x.image.poison.length + s.sb.dirtyMarks ≤ Config.maxPoison) :
    Keeps K a (s.load c x) := by
  unfold load
  dsimp only
  refine Keeps.next (L := [.media]) (requests_keeps _ _ (by rfl) (by rfl) (by rfl) (.inl (by rfl)) (by rfl))
    (fun c hc => hK (by revert hc; cases c <;> decide)) ?_
  refine spares_and _ (hK (by decide)) ?_ _ _ hc fun l _ => (h l).2.1
  refine Keeps.andMd ?_ (hK (by decide)) _ (fun l m => ⟨⟨m.1.1, m.1.2.1, m.1.2.2.1, (h l).2.2.2⟩, m.2⟩) (fun _ m => m) fun b =>
    b.trans (buf_md rfl rfl (.inl rfl))
  refine Keeps.next (L := [.time]) (Keeps.ofTime _ _) (fun c hc => hK (by revert hc; cases c <;> decide)) ?_
  refine Keeps.andFaults ?_ (hK (by decide)) _ (fun l m => ⟨⟨m.1.1, m.1.2.1, (h l).2.2.1, m.1.2.2.2⟩, m.2⟩)
  exact e.andInteg (hK (by decide)) _ (fun l m => ⟨⟨(h l).1, m.1.2⟩, m.2⟩) fun b =>
    ⟨b.staging, b.quota, fun k l => ⟨r k l (b.room k l), (b.room k l).2⟩⟩

/-- R161: the start-up changes, where no start-up read is under way. -/
theorem startUpChanges_and {K : List Comp} (hK : [.md, .scrub, .faults] ⊆ K) {a : Part} (e : Keeps K a s)
    (bad : Option CopyId) (hz : a.stagingLaw → a.roomLaw → s.copyReads = 0) : Keeps K a (s.startUpChanges bad) := by
  have sub : ∀ {L : List Comp}, L ⊆ [.md, .scrub, .faults] → L ⊆ K := fun h => List.Subset.trans h hK
  unfold startUpChanges
  dsimp only
  have h : Keeps [.md, .faults] s
      (if bad.isSome then s.appendFault { kind := .metadataCopyBad, copy := bad } else s) := by
    split
    · exact (appendFault_keeps s _).mono (by decide)
    · exact .refl s
  generalize (if bad.isSome then s.appendFault { kind := .metadataCopyBad, copy := bad } else s) = t at h
  have h' : Keeps [.md, .faults] s
      (if s.md.scrubMark then (t.appendFault { kind := .scrubInterrupted }).setMark false else t) := by
    split
    · exact (setMark_keeps _ _).next (by decide) <| (appendFault_keeps _ _).next (by decide) h
    · exact h
  generalize (if s.md.scrubMark then (t.appendFault { kind := .scrubInterrupted }).setMark false else t) = u at h'
  have hz' : a.stagingLaw → a.roomLaw → u.copyReads = 0 := fun k l => by
    simpa only [copyReads, h'.media (by decide)] using hz k l
  have e' : Keeps K a u := h'.next (sub (by decide)) e
  split
  · exact md_and u (hK (by decide)) e' { u.md with startUp := some u.md.changes } rfl rfl (.inl rfl) rfl (.inl rfl)
      (le_refl _) fun b => buf_device b hz' (.inl rfl) (.inl rfl)
  · exact readyFromStartUp_and u (sub (by decide)) e' hz'

theorem ringLawful_nil : ringLawful [] 0 := ⟨by decide, by decide, by decide⟩

theorem default_ok : Settings.default.ok = true := by decide

theorem remapLawful_nil : remapLawful [] [] := by
  refine ⟨List.nodup_nil, List.nodup_nil, List.nodup_nil, ?_, ?_, rfl⟩ <;> simp

/-- R160: no copy is valid; no start-up read is under way. -/
theorem loadNone_and {K : List Comp}
    (hK : [.links, .md, .cmds, .sb, .lease, .integ, .media, .scrub, .faults, .time] ⊆ K) {a : Part} (e : Keeps K a s)
    (hc : s.media.current = none) (hz : a.stagingLaw → a.roomLaw → s.copyReads = 0) : Keeps K a s.loadNone := by
  have sub : ∀ {L : List Comp}, L ⊆ [.links, .md, .cmds, .sb, .lease, .integ, .media, .scrub, .faults, .time] → L ⊆ K :=
    fun h => List.Subset.trans h hK
  unfold loadNone
  dsimp only
  refine safeEntry_and _ (sub (by decide)) ?_ _ fun k l => by
    simpa only [copyReads, appendFault, change, setPoison, withMd_media, withFaults_media, withMedia_media, withTime_media,
      withInteg_media] using hz k l
  refine (appendFault_keeps _ _).next (sub (by decide)) <| (appendFault_keeps _ _).next (sub (by decide)) ?_
  refine Keeps.next (L := [.media])
    (requests_keeps _ { s.media with remap := [], spares := [], spareLow := false } (by rfl) (by rfl) (by rfl)
      (.inl (by rfl)) (by rfl) (.inl rfl)) (sub (by decide))
    (t := (((s.setPoison []).withFaults { ring := [], total := 0 }).withTime { s.time with hours := 0 }).withMd
      { s.md with settings := .default, scrubMark := false, current := none } |>.withMedia
        { s.media with remap := [], spares := [] }) ?_
  refine spares_and _ (hK (by decide)) ?_ [] [] hc fun _ _ => remapLawful_nil
  refine Keeps.next (L := [.md]) (Keeps.ofMd _ _ (fun m => ⟨⟨m.1.1, m.1.2.1, m.1.2.2.1, default_ok⟩, m.2⟩) (fun m => m)
    (buf_md rfl rfl (.inl rfl))) (sub (by decide)) ?_
  refine Keeps.next (L := [.time]) (Keeps.ofTime _ _) (sub (by decide)) ?_
  refine Keeps.next (L := [.faults]) (Keeps.ofFaults _ _ fun m => ⟨⟨m.1.1, m.1.2.1, ringLawful_nil, m.1.2.2.2⟩, m.2⟩)
    (sub (by decide)) ?_
  exact (setPoison_keeps s [] (fun _ => List.nodup_nil) (Nat.zero_le _)).next (sub (by decide)) e

theorem copyReads_load (c : CopyId) (x : MetaCopy) : (s.load c x).copyReads = s.copyReads := by
  simp only [copyReads, load, setPoison, withMd_media, withFaults_media, withMedia_media, withTime_media, withInteg_media]

/-- R159 to R161: the selection of a copy; no start-up read is under way, and no MARK frame is DIRTY. -/
theorem selectCopy_and {K : List Comp}
    (hK : [.links, .md, .cmds, .sb, .lease, .integ, .media, .scrub, .faults, .time] ⊆ K) {a : Part} (e : Keeps K a s)
    (va vb : Bool) (hc : s.media.current = none) (hd : s.disk = a.disk)
    (hz : a.stagingLaw → a.roomLaw → s.copyReads = 0 ∧ s.sb.dirtyMarks = 0) : Keeps K a (s.selectCopy va vb) := by
  have sub : ∀ {L : List Comp}, L ⊆ [.links, .md, .cmds, .sb, .lease, .integ, .media, .scrub, .faults, .time] → L ⊆ K :=
    fun h => List.Subset.trans h hK
  have g : ∀ c x bad, (a.metaLaw → x.image.lawful) →
      (a.roomLaw → x.image.poison.length ≤ Config.maxPoison) → Keeps K a ((s.load c x).startUpChanges bad) := by
    intro c x bad h r
    have loaded : Keeps K a (s.load c x) := load_and s (sub (by decide)) e c x hc h fun k l _ => by
      rw [(hz k l).2]; exact r l
    exact startUpChanges_and _ (sub (by decide)) loaded bad fun k l => (copyReads_load s c x).trans (hz k l).1
  have ga : ∀ x, s.disk.copyA = some x → ∀ c bad, Keeps K a ((s.load c x).startUpChanges bad) := fun x hx c bad => by
    rw [hd] at hx
    exact g c x bad (fun l => l.2.2.1 x hx) fun l => l.2.1 x hx
  have gb : ∀ x, s.disk.copyB = some x → ∀ c bad, Keeps K a ((s.load c x).startUpChanges bad) := fun x hx c bad => by
    rw [hd] at hx
    exact g c x bad (fun l => l.2.2.2.1 x hx) fun l => l.2.2.1 x hx
  unfold selectCopy
  split
  · rename_i x y hx hy
    split
    · exact gb y hy _ _
    · exact ga x hx _ _
  · rename_i x hx
    exact ga x hx _ _
  · rename_i y hy
    exact gb y hy _ _
  · exact loadNone_and s hK e hc fun k l => (hz k l).1

theorem copyARead_keeps (o : Integrity) {d : Bool} (h : s.media.current = some { op := .copyRead .a, discard := d }) :
    Keeps [.media, .md] s (s.copyARead o) := by
  have e : Keeps [.media, .md] s (s.idle.withMd { s.idle.md with verdictA := some (copyValid o s.disk.copyA) }) :=
    Keeps.next (L := [.md])
      (md_keeps _ _ (by rfl) (by rfl) (.inl (by rfl)) (by rfl) (.inl (by rfl)) (by exact le_refl _)) (by decide)
      ((idle_keeps s).mono (by decide))
  unfold copyARead
  dsimp only
  refine e.andMedia (by decide) _ ?_ (fun _ l => l) (fun _ l => l) fun b => ⟨b.staging, b.quota, fun k l => ?_⟩
  · rintro - m
    refine ⟨m.1, fun sp n => ?_, m.2.2.1, m.2.2.2.1, fun i n => ?_, m.2.2.2.2.2⟩
    · simp [trialSpare, idle] at n
    · simp [writing, idle] at n
  · obtain ⟨m1, m2, m3, m4, m5, m6⟩ := b.room k l
    obtain ⟨-, n2, n3, -⟩ := l.2.2.2.2.2.1 (by simp [copyReads, h])
    refine ⟨m1, m2, m3, fun m n => ?_, m5, fun _ => ⟨?_, n2, n3, ?_⟩, m6.2⟩
    · simp [writing, idle] at n
    · simp [copyReads, idle]
    · simp [writesCopy, idle]

theorem copyBRead_keeps (o : Integrity) {d : Bool} (h : s.media.current = some { op := .copyRead .b, discard := d }) :
    Keeps [.links, .md, .cmds, .sb, .lease, .integ, .media, .scrub, .faults, .time] s (s.copyBRead o) := by
  unfold copyBRead
  dsimp only
  refine selectCopy_and _ (List.Subset.refl _) ?_ _ _ rfl rfl fun _ l => ⟨copyReads_idle h l, ?_⟩
  · refine Keeps.next (L := [.md])
      (md_keeps _ _ (by rfl) (by rfl) (.inl (by rfl)) (by rfl) (.inl (by rfl)) (by exact le_refl _)) (by decide) ?_
    exact (idle_keeps s).mono (by decide)
  · exact l.2.2.2.2.2.2 (l.2.2.2.2.2.1 (by simp [copyReads, h])).2.1

/-! ### Requests of chapter 9 -/

theorem serveSettingsWrite_keeps (c : Cmd) (raw : RawSettings) (f : s.tableLaw → Fresh s c) :
    Keeps [.md, .links, .media, .faults, .scrub, .cmds, .adds] s (s.serveSettingsWrite c raw) := by
  unfold serveSettingsWrite
  split
  · exact (reply_keeps s _ _ _).mono (by decide)
  · rename_i x hx
    split
    · exact (reply_keeps s _ _ _).mono (by decide)
    · have e : Keeps [.md, .links, .media, .faults, .scrub] s
          ((s.withMd { s.md with settings := x }).change.spareLowTest.autoScrub) := by
        refine (autoScrub_keeps _).next (by decide) <|
          (spareLowTest_keeps _).next (by decide) <| (change_keeps _).next (by decide) ?_
        refine Keeps.mono (K := [.md]) (Keeps.ofMd s _ ?_ (fun h => h) (buf_md rfl rfl (.inl rfl))) (by decide)
        rintro ⟨⟨m1, m2, m3, -⟩, m⟩
        exact ⟨⟨m1, m2, m3, settingsOf_ok hx⟩, m⟩
      refine record_and _ (by decide) (e.mono (by decide)) _ fun l => ?_
      have k := (f l).of_narrows (e.recs (by decide) l)
      exact ⟨k.1, k.2⟩

theorem remapLawful_retired (spares : List Spare) {remap : List Remap} (h : remapLawful remap spares) :
    remapLawful [] (spares.filter fun x => decide (x.use = .retired)) := by
  refine ⟨List.nodup_nil, List.nodup_nil, (List.filter_sublist.map _).nodup h.2.2.1, ?_, ?_, ?_⟩
  · exact fun x hx => h.2.2.2.1 x (List.mem_filter.1 hx).1
  · simp
  · rw [List.length_nil, List.countP_eq_zero]
    intro x hx
    simp [of_decide_eq_true (List.mem_filter.1 hx).2]

/-- The operation that the media performs is cut off from its requester, and the Media Engine's tables are emptied. -/
theorem resetSet_keeps : Keeps [.sb, .media, .integ, .scrub, .md, .faults] s s.resetSet := by
  unfold resetSet
  dsimp only
  refine (appendFault_keeps _ _).next (by decide) ?_
  refine Keeps.next (L := [.faults]) (Keeps.ofFaults _ _ fun m => ?_) (by decide) ?_
  · exact ⟨⟨m.1.1, m.1.2.1, ringLawful_nil, m.1.2.2.2⟩, m.2⟩
  refine Keeps.next (L := [.md]) (Keeps.ofMd _ _ (fun m => ?_) (fun h => h) (buf_md rfl rfl (.inl rfl))) (by decide) ?_
  · exact ⟨⟨m.1.1, m.1.2.1, m.1.2.2.1, default_ok⟩, m.2⟩
  refine (setScrub_keeps _ _).next (by decide) ?_
  refine Keeps.next (L := [.integ]) (Keeps.ofInteg _ _ (fun m => ?_) (buf_integ (Nat.zero_le _))) (by decide) ?_
  · exact ⟨⟨List.nodup_nil, m.1.2⟩, m.2⟩
  refine Keeps.next (L := [.media]) (requests_keeps _ _ (by rfl) (by rfl) (by rfl) (.inl (by rfl)) (by rfl)) (by decide) ?_
  have e : Keeps [.sb, .media, .integ, .scrub, .md, .faults] s
      (s.withSb { s.sb with frames := [], progQ := [], clean := [] }) := by
    have g : s.frameLaw → (s.withSb { s.sb with frames := [], progQ := [], clean := [] }).frameLaw := fun _ =>
      ⟨List.Pairwise.nil, by simp, by simp⟩
    exact Keeps.mono (K := [.sb]) (Keeps.ofSb s _ g (buf_sb g (fun _ => by simp [Staging.lawful])
      (fun _ _ => Nat.zero_le _) fun _ => Nat.zero_le _)) (by decide)
  refine e.andMedia (by decide) _ ?_ (fun _ _ => Nat.zero_le _) (fun _ _ => ⟨List.nodup_nil, Nat.zero_le _⟩) fun b =>
    b.trans (buf_ops (le_of_eq ?_) (fun m => ?_) ?_)
  case refine_2 =>
    simp only [copyReads, withMedia_media, withSb_media]
    cases s.media.current with
    | none => simp
    | some o => cases o with | mk op d => cases op <;> simp
  case refine_3 =>
    simp only [writing, withMedia_media, withSb_media]
    cases s.media.current with
    | none => simp
    | some o => cases o with | mk op d => cases op <;> simp
  case refine_4 =>
    simp only [writesCopy, withMedia_media, withSb_media]
    cases s.media.current with
    | none => simp
    | some o => cases o with | mk op d => cases op <;> simp
  rintro - m
  refine ⟨⟨m.1.1, remapLawful_retired _ m.1.2.1, m.1.2.2⟩, ?_, m.2.2.1, m.2.2.2.1, ?_, m.2.2.2.2.2⟩
  · intro sp k
    have k' : s.trialSpare = some sp := by
      revert k
      simp only [trialSpare, withMedia_media, withSb_media]
      cases s.media.current with
      | none => simp
      | some o => cases o with | mk op d => cases op <;> simp
    refine ⟨(m.2.1 sp k').1, fun x hx => (m.2.1 sp k').2 x (List.mem_filter.1 hx).1⟩
  · intro i k
    refine m.2.2.2.2.1 i ?_
    revert k
    simp only [writing, withMedia_media, withSb_media]
    cases s.media.current with
    | none => simp
    | some o => cases o with | mk op d => cases op <;> simp

theorem metadataResetEffect_keeps : Keeps [.sb, .media, .integ, .scrub, .md, .faults] s s.metadataResetEffect := by
  unfold metadataResetEffect
  dsimp only
  refine Keeps.next (L := [.media]) (requests_keeps _ _ (by rfl) (by rfl) (by rfl) (.inl (by rfl)) (by rfl)) (by decide) ?_
  refine Keeps.next (L := [.md]) (Keeps.ofMd _ _ (fun m => ?_) (fun _ => ?_) ⟨id, fun _ => id, fun _ l => ?_⟩) (by decide)
    (resetSet_keeps s)
  · refine ⟨m.1, m.2.1, m.2.2.1, m.2.2.2.1, m.2.2.2.2.1, fun i k => ?_⟩
    cases k
    exact m.1
  · exact ⟨le_refl _, fun n k => by cases k⟩
  · refine ⟨l.1, l.2.1, l.2.2.1, l.2.2.2.1, fun i k => ?_, l.2.2.2.2.2⟩
    cases k
    exact le_trans (Nat.le_add_right _ _) l.1

/-- R165, R125, R152: all that METADATA RESET does when it takes effect, part by part of the state. -/
theorem metadataResetEffect_eq (s : Part) :
    let spares := s.media.spares.filter fun x => decide (x.use = .retired)
    let ring : List FaultRec := [{ seq := 1, ms := s.time.ms, hours := s.time.hours, info := { kind := .metadataReset } }]
    s.metadataResetEffect = { s with
      sb := { frames := [], progQ := [], clean := [], seq := s.sb.seq }
      integ := { poison := [], tally := [] }
      media := { current := s.media.current.map fun o => { o with discard := o.discard || MediaOp.ofBlock o.op },
                 commitReq := some (.resetWrite .a), spares := spares, spareLow := decide (256 - spares.length ≤ 16) }
      scrub := if s.scrub.state = .idle then { s.scrub with autoRef := s.time.hours } else
        { s.scrub.closeCheck with state := .idle, pending := false, lastEnd := .stopped, autoRef := s.time.hours }
      faults := { ring := ring, total := 1 }
      md := { s.md with settings := .default, scrubMark := false, changes := 0, committed := 0, snapshot := none
                        failures := 0, current := none
                        resetImage := some { poison := [], remap := [], spares := spares, ring := ring, total := 1,
                                              settings := .default, scrubMark := false, hours := s.time.hours } } } := by
  simp [metadataResetEffect, resetSet, appendFault, change, setScrub, Config.maxFaultTotal, Config.maxFaults, now,
    MediaEngine.isSpareLow, MediaEngine.freeSpares, Config.spareBlocks, Config.defaultThreshold, image, withMd, withMedia,
    withSb, withInteg, withScrub, withFaults]

theorem serveMetadataReset_keeps (c : Cmd) :
    Keeps [.sb, .media, .integ, .scrub, .md, .faults, .links] s (s.serveMetadataReset c) := by
  unfold serveMetadataReset
  split
  · exact (reply_keeps s _ _ _).mono (by decide)
  · split
    · exact (reply_keeps s _ _ _).mono (by decide)
    · exact (reply_keeps _ _ _ _).next (by decide) <| (metadataResetEffect_keeps s).mono (by decide)

/-- R166, for the image that the copy writes of METADATA RESET carry, while the media performs one. -/
theorem resetWriteSucceeded_keeps (c : CopyId) (m : MetaImage) (h : s.md.resetImage = some m) (hw : s.writesCopy = true) :
    Keeps [.disk, .media, .md] s (s.resetWriteSucceeded c m) := by
  have e : Keeps [.disk, .media, .md] s (s.idle.setCopy c (some (MetaCopy.write 1 m))) :=
    setCopy_and _ (by decide) ((idle_keeps s).mono (by decide)) _ _
      (fun l y k => by cases k; exact l.2.2.2.2.2 m h) fun _ l y k => by cases k; exact l.2.2.2.2.1 m h
  have e' : Keeps [.disk, .media, .md] s ((s.idle.setCopy c (some (MetaCopy.write 1 m))).withMd
      { (s.idle.setCopy c (some (MetaCopy.write 1 m))).md with failures := 0 }) :=
    Keeps.next (L := [.md])
      (md_keeps _ _ (by rfl) (by rfl) (.inl (by rfl)) (by rfl) (.inl (by rfl)) (by exact le_refl _)) (by decide) e
  cases c
  · exact Keeps.next (L := [.media]) (requests_keeps _ _ (by rfl) (by rfl) (by rfl) (.inl (by rfl)) (by rfl)) (by decide) e'
  · refine md_and _ (by decide) e' _ (by rfl) (by rfl) (.inr (by rfl)) (by rfl) (.inl (by rfl)) (by exact le_refl _) fun b =>
      buf_device b (fun _ l => ?_) (.inr (by simp)) (.inr rfl)
    exact Nat.le_zero.1 ((copyReads_idle_le s).trans (le_of_eq (copyReads_of_writesCopy hw l)))

theorem resetWriteFailed_keeps (c : CopyId) : Keeps [.disk, .media, .md, .faults] s (s.resetWriteFailed c) := by
  unfold resetWriteFailed
  dsimp only
  have e : Keeps [.disk, .media, .md, .faults] s (s.idle.setCopy c none) :=
    (loseCopy_keeps _ _).next (by decide) ((idle_keeps s).mono (by decide))
  have hm : (s.idle.setCopy c none).md = s.md := setCopy_md _ c none
  have e' := fun i => (appendFault_keeps _ i).next (by decide) <|
    (md_keeps _ { s.md with failures := s.md.failures + 1 } (by rw [hm]) (by rw [hm]) (.inl (by rw [hm])) (by rw [hm])
      (.inl (by rw [hm])) (by rw [hm]) (by rw [hm]) (by rw [hm])).next (by decide) e
  split
  · exact Keeps.next (L := [.md]) (md_keeps _ _ (by rfl) (by rfl) (.inr (by rfl)) (by rfl) (.inl (by rfl)) (by exact le_refl _)) (by decide) (e' _)
  · exact Keeps.next (L := [.media]) (requests_keeps _ _ (by rfl) (by rfl) (by rfl) (.inl (by rfl)) (by rfl)) (by decide) (e' _)

/-! ### REQUEST frames -/

theorem enqueue_keeps (c : Cmd) (f : s.tableLaw → Fresh s c) : Keeps [.cmds, .adds] s (s.enqueue c) :=
  Keeps.next (L := [.cmds]) (recs_keeps _ _ (by rfl) (List.Sublist.refl _)) (by decide)
    (record_keeps s _ fun l => ⟨(f l).1, (f l).2⟩)

theorem serveRead_keeps (c : Cmd) (start count : Nat) (f : s.tableLaw → Fresh s c) :
    Keeps [.links, .cmds, .adds, .sb, .media, .faults, .md] s (s.serveRead c start count) := by
  unfold serveRead
  dsimp only
  split
  · exact (runRead_keeps _ _).next (by decide) <|
      Keeps.mono (K := [.cmds, .adds]) (record_keeps s _ fun l => ⟨(f l).1, (f l).2⟩) (by decide)
  · exact Keeps.mono (K := [.cmds, .adds]) (record_keeps s _ fun l => ⟨(f l).1, (f l).2⟩) (by decide)

theorem serveFlush_keeps (c : Cmd) (all : Bool) (f : s.tableLaw → Fresh s c) : Keeps [.links, .cmds, .adds] s (s.serveFlush c all) := by
  unfold serveFlush
  dsimp only
  split
  · exact (reply_keeps s _ _ _).mono (by decide)
  · exact Keeps.mono (K := [.cmds, .adds]) (record_keeps s _ fun l => ⟨(f l).1, (f l).2⟩) (by decide)

theorem serveFaultRead_keeps (c : Cmd) (a n : BitVec 8) : Keeps [.links] s (s.serveFaultRead c a n) := by
  unfold serveFaultRead
  split
  · exact reply_keeps s _ _ _
  · exact reply_keeps s _ _ _

/-- R50, R90, R182: a REQUEST frame changes what its serving changes, its port's session deadline, and its link; `serve` is
called with the session OPEN, but for OPEN itself. -/
theorem takeRequest_keeps (k : Key) (code : BitVec 8) (form : Option Status) (serve : Part → Cmd → Part) {K : List Comp}
    (hK : [.links, .sess, .cmds, .adds] ⊆ K)
    (h : ∀ t c, c.key = k → (code ≠ codeOpen → (t.session k.port).state = .opened) → Fresh t c →
      Keeps K t (serve t c)) :
    Keeps K s (s.takeRequest k code form serve) := by
  have sub : ∀ {c : Comp}, c ∈ [Comp.links, .sess, .cmds, .adds] → [c] ⊆ K := fun hc d hd => by
    rw [List.mem_singleton.1 hd]; exact hK hc
  unfold takeRequest
  split
  · exact (countError_keeps s _).mono (sub (by decide))
  · dsimp only
    have e : Keeps K s (s.rearm k.port) := (rearm_keeps s _).mono (sub (by decide))
    split
    · exact (sendCompletion_keeps _ _ _ _ _ _).next (sub (by decide)) e
    · rename_i hs
      split
      · exact (sendCompletion_keeps _ _ _ _ _ _).next (sub (by decide)) e
      · rename_i hr
        refine e.trans (h _ _ rfl ?_ ⟨fun d hd q => ?_, rfl⟩)
        · intro hne
          unfold sessionRefusal at hs
          rw [if_neg hne] at hs
          cases hst : ((s.rearm k.port).session k.port).state <;> rw [hst] at hs <;> first | rfl | cases hs
        · unfold receiptRefusal at hr
          split at hr
          · cases hr
          · rename_i hk
            exact hk (List.find?_isSome.2 ⟨d, hd, decide_eq_true q⟩)

end Part

end Sys2Proof.Machine
end

