-- ==== Sys2Proof/Laws/Events.lean ====
section
/-! SUPPORT. What each event can do: the components it can change, and that it keeps the laws of Safety.lean. One lemma for
each event, then one for `exec` and for `step`. -/

namespace Sys2Proof.Machine

set_option Elab.async false

/-- Everything but the pins, what the media holds, time, the number of free values, the removal of a queued frame, and the
opening of a port. -/
def Own : List Comp := [.links, .sess, .cmds, .adds, .sb, .lease, .media, .integ, .scrub, .md, .faults]

/-- All components. -/
def All : List Comp := [.pins, .drop, .opens, .disk, .time, .free] ++ Own

theorem Keeps.to {K L : List Comp} {s t : Part} (a : Keeps L s t) (h : L ⊆ K := by decide) : Keeps K s t := a.mono h

namespace Part

variable (s : Part) {K : List Comp}

/-- An event changes what its own effect changes, and what the follow-ups can change. -/
theorem event_keeps (hK : Own ⊆ K) (f : Part → Part) (h : Keeps K s (f s)) : Keeps K s (s.event f) := by
  unfold event
  split
  · exact .refl s
  · exact follow_keeps (List.Subset.trans (by decide) hK) h

/-- The same for an event of the transmit queues themselves. -/
theorem eventInPlace_keeps (hK : Own ⊆ K) (f : Part → Part) (h : Keeps K s (f s)) : Keeps K s (s.eventInPlace f) := by
  unfold eventInPlace
  split
  · exact .refl s
  · exact follow_and (List.Subset.trans (by decide) hK) h fun n p => ⟨h.txq n p, List.prefix_refl _⟩

/-- The receive framing and the pins' side of a link controller change. -/
theorem setRx_keeps (p : Port) (l : Lc) (ht : l.txq = (s.lc p).txq) (hh : l.held = (s.lc p).held)
    (hl : l.lost = (s.lc p).lost) : Keeps [.links] s (s.setLc p l) := by
  refine .ofLc s p l ?_ (ht ▸ List.prefix_refl _)
  rintro ⟨a, b, c⟩
  exact ⟨by simpa only [Lc.notices, ht] using a, by rw [hl]; exact b, by rw [hh]; exact c⟩

theorem arrival_keeps (hK : Own ⊆ K) (p : Port) (f : Part → Part)
    (h : Keeps K (s.setLc p { s.lc p with framing := .hunt }) (f (s.setLc p { s.lc p with framing := .hunt }))) :
    Keeps K s (s.arrival p f) := by
  unfold arrival
  split
  · exact .refl s
  · exact event_keeps s hK _ <|
      (Keeps.mono (setRx_keeps s p { s.lc p with framing := .hunt } rfl rfl rfl) (List.Subset.trans (by decide) hK)).trans h

theorem request_keeps (hK : Own ⊆ K) (p : Port) (t : Tag) (code : BitVec 8) (form : Option Status)
    (serve : Part → Cmd → Part)
    (h : ∀ u c, c.key = (⟨p, t⟩ : Key) → (code ≠ codeOpen → (u.session p).state = .opened) → Fresh u c → Keeps K u (serve u c)) :
    Keeps K s (s.request p t code form serve) :=
  arrival_keeps s hK p _ (takeRequest_keeps _ _ _ _ _ (List.Subset.trans (by decide) hK) fun u c hc ho hf => h u c hc ho hf)

/-! ### Requests -/

theorem evOpen_keeps (p : Port) (t : Tag) (x : BitVec 32) (a : BitVec 16) (q r : BitVec 8) :
    Keeps (.opens :: Own) s (s.evOpen p t x a q r) := request_keeps s (by decide) _ _ _ _ _ fun u c _ _ _ => Keeps.to (serveOpen_keeps u c _ _ _ _)

theorem evClose_keeps (p : Port) (t : Tag) : Keeps Own s (s.evClose p t) :=
  request_keeps s (by decide) _ _ _ _ _ fun u c hc ho f => Keeps.to (serveClose_keeps u c (by rw [hc]; exact ho (by decide)) fun _ => f)

theorem evFence_keeps (p : Port) (t : Tag) (x : BitVec 8) : Keeps Own s (s.evFence p t x) :=
  request_keeps s (by decide) _ _ _ _ _ fun u c _ _ _ => Keeps.to (serveFence_keeps u c _)

theorem evUnfence_keeps (p : Port) (t : Tag) (x : BitVec 8) : Keeps Own s (s.evUnfence p t x) :=
  request_keeps s (by decide) _ _ _ _ _ fun u c _ _ _ => Keeps.to (serveUnfence_keeps u c _)

theorem evRead_keeps (p : Port) (t : Tag) (b : BitVec 32) (n : BitVec 8) : Keeps Own s (s.evRead p t b n) :=
  request_keeps s (by decide) _ _ _ _ _ fun u c _ _ f => Keeps.to (serveRead_keeps u c _ _ fun _ => f)

theorem evWrite_keeps (p : Port) (t : Tag) (b : BitVec 32) (n f : BitVec 8) : Keeps Own s (s.evWrite p t b n f) :=
  request_keeps s (by decide) _ _ _ _ _ fun u _ _ _ f => Keeps.to (enqueue_keeps u _ fun _ => ⟨f.1, f.2⟩)

theorem evMark_keeps (p : Port) (t : Tag) (b : BitVec 32) (n k : BitVec 8) : Keeps Own s (s.evMark p t b n k) :=
  request_keeps s (by decide) _ _ _ _ _ fun u _ _ _ f => Keeps.to (enqueue_keeps u _ fun _ => ⟨f.1, f.2⟩)

theorem evFlush_keeps (p : Port) (t : Tag) (x : BitVec 8) : Keeps Own s (s.evFlush p t x) :=
  request_keeps s (by decide) _ _ _ _ _ fun u c _ _ f => Keeps.to (serveFlush_keeps u c _ fun _ => f)

theorem evAbort_keeps (p : Port) (t : Tag) (x : BitVec 8) : Keeps Own s (s.evAbort p t x) := by
  unfold evAbort
  split
  · exact request_keeps s (by decide) _ _ _ _ _ fun u _ _ _ _ => .refl u
  · exact request_keeps s (by decide) _ _ _ _ _ fun u c _ _ _ => Keeps.to (serveAbort_keeps u c _)

theorem evLeaseAcquire_keeps (p : Port) (t : Tag) (b n : BitVec 32) (m : BitVec 8) (d w : BitVec 16) :
    Keeps Own s (s.evLeaseAcquire p t b n m d w) :=
  request_keeps s (by decide) _ _ _ _ _ fun u c hc ho f => Keeps.to (serveAcquire_keeps u c _ (by rw [hc]; exact ho (by decide)) fun _ => f)

theorem evLeaseRenew_keeps (p : Port) (t : Tag) (i d : BitVec 16) : Keeps Own s (s.evLeaseRenew p t i d) :=
  request_keeps s (by decide) _ _ _ _ _ fun u c _ _ _ => Keeps.to (serveRenew_keeps u c _ _)

theorem evLeaseRelease_keeps (p : Port) (t : Tag) (i : BitVec 16) : Keeps Own s (s.evLeaseRelease p t i) :=
  request_keeps s (by decide) _ _ _ _ _ fun u c _ _ _ => Keeps.to (serveRelease_keeps u c _)

theorem evLeaseQuery_keeps (p : Port) (t : Tag) (b n : BitVec 32) : Keeps Own s (s.evLeaseQuery p t b n) :=
  request_keeps s (by decide) _ _ _ _ _ fun u c _ _ _ => Keeps.to (serveQuery_keeps u c _ _)

theorem evScrubStart_keeps (p : Port) (t : Tag) : Keeps Own s (s.evScrubStart p t) :=
  request_keeps s (by decide) _ _ _ _ _ fun u c _ _ f => Keeps.to (serveScrubStart_keeps u c fun _ => f)

theorem evScrubStop_keeps (p : Port) (t : Tag) : Keeps Own s (s.evScrubStop p t) :=
  request_keeps s (by decide) _ _ _ _ _ fun u c _ _ _ => Keeps.to (serveScrubStop_keeps u c)

theorem evSettingsRead_keeps (p : Port) (t : Tag) : Keeps Own s (s.evSettingsRead p t) :=
  request_keeps s (by decide) _ _ _ _ _ fun u c _ _ _ => Keeps.to (reply_keeps u c _ _)

theorem evSettingsWrite_keeps (p : Port) (t : Tag) (r : RawSettings) : Keeps Own s (s.evSettingsWrite p t r) :=
  request_keeps s (by decide) _ _ _ _ _ fun u c _ _ f => Keeps.to (serveSettingsWrite_keeps u c r fun _ => f)

theorem evMetadataReset_keeps (p : Port) (t : Tag) : Keeps Own s (s.evMetadataReset p t) :=
  request_keeps s (by decide) _ _ _ _ _ fun u c _ _ _ => Keeps.to (serveMetadataReset_keeps u c)

theorem evStatus_keeps (p : Port) (t : Tag) : Keeps Own s (s.evStatus p t) :=
  request_keeps s (by decide) _ _ _ _ _ fun u c _ _ _ => Keeps.to (reply_keeps u c _ _)

theorem evInfo_keeps (p : Port) (t : Tag) : Keeps Own s (s.evInfo p t) :=
  request_keeps s (by decide) _ _ _ _ _ fun u c _ _ _ => Keeps.to (reply_keeps u c _ _)

theorem evFaultRead_keeps (p : Port) (t : Tag) (a n : BitVec 8) : Keeps Own s (s.evFaultRead p t a n) :=
  request_keeps s (by decide) _ _ _ _ _ fun u c _ _ _ => Keeps.to (serveFaultRead_keeps u c _ _)

theorem evUndefinedKind_keeps (p : Port) (t : Tag) (x : BitVec 8) : Keeps Own s (s.evUndefinedKind p t x) := by
  unfold evUndefinedKind
  split
  · exact .refl s
  · exact request_keeps s (by decide) _ _ _ _ _ fun u _ _ _ _ => .refl u

/-! ### DATA-IN, KEEPALIVE, received bytes -/

theorem lastBlock_keeps (c : Cmd) : Keeps [.sb, .integ, .cmds, .links] s (s.lastBlock c) := by
  unfold lastBlock
  dsimp only
  have h := (dirtyFilled_keeps c.key c.count s c.start).mono (L := [.sb, .integ, .cmds, .links]) (by decide)
  split
  · exact (emitDecided_keeps _).next (by decide) <| (updCmd_keeps _ _ _).next (by decide) h
  · exact (emitDecided_keeps _).next (by decide) <| (updCmd_keeps _ _ _).next (by decide) h

theorem takeData_keeps (k : Key) (i : BitVec 8) (d : BlockData) :
    Keeps [.sb, .integ, .cmds, .links] s (s.takeData k i d) := by
  unfold takeData
  split
  · exact (countError_keeps s _).mono (by decide)
  · split
    · split
      · unfold acceptBlock
        dsimp only
        have h : ∀ k b r f, (∀ c : Cmd, (f c).name = c.name) →
            Keeps [.sb, .integ, .cmds, .links] s ((s.fillData k b d).updCmd r f) :=
          fun k b r f hf => (updCmd_keeps _ r f hf).next (by decide) <| (fillData_keeps s k b d).mono (by decide)
        split
        · exact h _ _ _ _ fun _ => rfl
        · exact (lastBlock_keeps _ _).next (by decide) (h _ _ _ _ fun _ => rfl)
      · exact (finish_keeps _ _ _ _).next (by decide) <| (endFilling_keeps s _).mono (by decide)
    · exact (countError_keeps s _).mono (by decide)

theorem evDataIn_keeps (p : Port) (t : Tag) (i : BitVec 8) (d : BlockData) : Keeps Own s (s.evDataIn p t i d) :=
  arrival_keeps s (by decide) _ _ ((rearm_keeps _ _).to.trans (takeData_keeps _ _ _ _).to)

theorem evKeepalive_keeps (p : Port) : Keeps Own s (s.evKeepalive p) := arrival_keeps s (by decide) _ _ (rearm_keeps _ _).to

/-- A valid frame that the receiver passes on. -/
theorem passOn_keeps (i : Instr) : Keeps (.opens :: Own) s (s.passOn i) := by
  cases i with
  | openReq => exact evOpen_keeps s _ _ _ _ _ _
  | closeReq => exact (evClose_keeps s _ _).to
  | fence => exact (evFence_keeps s _ _ _).to
  | unfence => exact (evUnfence_keeps s _ _ _).to
  | read => exact (evRead_keeps s _ _ _ _).to
  | write => exact (evWrite_keeps s _ _ _ _ _).to
  | mark => exact (evMark_keeps s _ _ _ _ _).to
  | flush => exact (evFlush_keeps s _ _ _).to
  | abort => exact (evAbort_keeps s _ _ _).to
  | leaseAcquire => exact (evLeaseAcquire_keeps s _ _ _ _ _ _ _).to
  | leaseRenew => exact (evLeaseRenew_keeps s _ _ _ _).to
  | leaseRelease => exact (evLeaseRelease_keeps s _ _ _).to
  | leaseQuery => exact (evLeaseQuery_keeps s _ _ _ _).to
  | scrubStart => exact (evScrubStart_keeps s _ _).to
  | scrubStop => exact (evScrubStop_keeps s _ _).to
  | settingsRead => exact (evSettingsRead_keeps s _ _).to
  | settingsWrite => exact (evSettingsWrite_keeps s _ _ _).to
  | metadataReset => exact (evMetadataReset_keeps s _ _).to
  | status => exact (evStatus_keeps s _ _).to
  | info => exact (evInfo_keeps s _ _).to
  | faultRead => exact (evFaultRead_keeps s _ _ _ _).to
  | undefinedKind => exact (evUndefinedKind_keeps s _ _ _).to
  | dataIn => exact (evDataIn_keeps s _ _ _ _).to
  | keepalive => exact (evKeepalive_keeps s _).to
  | badFrame | characterError | linkReset | breakEnd | pnrdyRise | finishSending | heldFrameEntry | silenceExpiry
  | dataDeadlineExpiry | leaseDeadlineExpiry | waitDeadlineExpiry | waitListGrant | admission | heldReadRelease
  | closeDrainEnd | drainingEnd | mediaGrant | portReadEnd | refreshReadEnd | scrubReadEnd | scrubRoomRetry
  | scrubPassBegin | autoScrubStart | refreshStart | programFirstAttemptEnd | programSecondAttemptEnd | commitEnd
  | commitWaitRelease | waitSetComplete | markComplete | settingsWriteComplete | lifetimeHoursIncrement | powerOn
  | reset | partHeld | copyAReadEnd | copyBReadEnd | resetCopyWriteEnd | pnrdyFall | pnrxdReturns | delimiterReceived
  | heldInputChange => exact .refl s

theorem takeItem_keeps (p : Port) (x : RxItem) : Keeps (.opens :: Own) s (takeItem p s x) := by
  cases x
  · exact (countError_keeps s p).to
  · exact passOn_keeps s _

theorem items_keeps (p : Port) (xs : List RxItem) : ∀ s : Part, Keeps (.opens :: Own) s (xs.foldl (takeItem p) s) := by
  induction xs with
  | nil => exact fun s => .refl s
  | cons x xs ih => exact fun s => (takeItem_keeps s p x).trans (ih _)

theorem evBadFrame_keeps (p : Port) (bs : List Byte) : Keeps (.opens :: Own) s (s.evBadFrame p bs) := by
  unfold evBadFrame
  split
  · exact .refl s
  · exact (items_keeps p _ s).trans (Keeps.to (setRx_keeps _ _ _ rfl rfl rfl))

/-! ### Pins of the link -/

theorem evCharacterError_keeps (p : Port) : Keeps Own s (s.evCharacterError p) := by
  unfold evCharacterError
  split
  · exact .refl s
  · exact event_keeps s (by decide) _ (Keeps.to (setRx_keeps _ _ _ rfl rfl rfl))

theorem evPnrxdReturns_keeps (p : Port) : Keeps Own s (s.evPnrxdReturns p) := by
  refine event_keeps s (by decide) _ ?_
  split
  · exact .refl s
  · have h : Keeps Own s (s.setLc p { s.lc p with charErr := none }) :=
      (setRx_keeps s p { s.lc p with charErr := none } rfl rfl rfl).to
    dsimp only
    split
    · exact h.trans (countError_keeps _ _).to
    · exact h

theorem evDelimiterReceived_keeps (p : Port) : Keeps Own s (s.evDelimiterReceived p) := by
  unfold evDelimiterReceived
  split
  · exact .refl s
  · refine event_keeps s (by decide) _ ?_
    dsimp only
    split
    · exact Keeps.to (setRx_keeps _ _ _ rfl rfl rfl)
    · exact .refl s

theorem evLinkReset_keeps (p : Port) : Keeps (.drop :: Own) s (s.evLinkReset p) := by
  refine eventInPlace_keeps s (by decide) _ ?_
  split
  · exact .refl s
  · have h : Keeps (.drop :: Own) s (s.setLc p (brokenLc (s.lc p))) :=
      (Keeps.ofLcDrop s p _ fun _ => ⟨Nat.zero_le _, Nat.zero_le _, by simp [brokenLc]⟩).to
    dsimp only
    split
    · exact h.trans (abruptEnd_keeps _ _ _ _).to
    · exact h

theorem evBreakEnd_keeps (p : Port) : Keeps Own s (s.evBreakEnd p) := by
  refine event_keeps s (by decide) _ ?_
  split
  · exact Keeps.to (setRx_keeps _ _ _ rfl rfl rfl)
  · exact .refl s

theorem evPnrdyRise_keeps (p : Port) : Keeps Own s (s.evPnrdyRise p) := by
  unfold evPnrdyRise
  dsimp only
  split
  · exact Keeps.to (setRx_keeps _ _ _ rfl rfl rfl)
  · exact Keeps.to (setRx_keeps _ _ _ rfl rfl rfl)

theorem evPnrdyFall_keeps (p : Port) : Keeps Own s (s.evPnrdyFall p) := Keeps.to (setRx_keeps _ _ _ rfl rfl rfl)

theorem evFinishSending_keeps (p : Port) : Keeps (.drop :: Own) s (s.evFinishSending p) := by
  refine eventInPlace_keeps s (by decide) _ ?_
  split
  · dsimp only
    refine Keeps.trans (t := s.setLc p { s.lc p with txq := (s.lc p).txq.drop 1, sending := false }) ?_ ?_
    · refine (Keeps.ofLcDrop s p { s.lc p with txq := (s.lc p).txq.drop 1, sending := false }
        fun h => ⟨?_, h.2.1, h.2.2⟩).to
      exact ((List.drop_sublist _ _).countP_le).trans h.1
    · exact (enterAll_keeps _ p).to.trans (Keeps.to (setRx_keeps _ _ _ rfl rfl rfl))
  · exact .refl s

theorem evHeldFrameEntry_keeps (p : Port) : Keeps Own s (s.evHeldFrameEntry p) := eventInPlace_keeps s (by decide) _ (enterAll_keeps s p).to

/-! ### Deadlines and steps of the blocks -/

theorem evSilenceExpiry_keeps (p : Port) : Keeps Own s (s.evSilenceExpiry p) := by
  refine event_keeps s (by decide) _ ?_
  split
  · exact (abruptEnd_keeps s _ _ _).to
  · exact .refl s

theorem evDataDeadlineExpiry_keeps (p : Port) (t : Tag) : Keeps Own s (s.evDataDeadlineExpiry p t) := by
  refine event_keeps s (by decide) _ ?_
  split
  · exact .refl s
  · split
    · exact (endFilling_keeps s _).to.trans (finish_keeps _ _ _ _).to
    · exact .refl s

theorem evLeaseDeadlineExpiry_keeps (i : BitVec 16) : Keeps Own s (s.evLeaseDeadlineExpiry i) := by
  refine event_keeps s (by decide) _ ?_
  split
  · exact .refl s
  · split
    · exact (lapse_keeps s _).to
    · exact .refl s

theorem evWaitDeadlineExpiry_keeps (p : Port) (t : Tag) : Keeps Own s (s.evWaitDeadlineExpiry p t) := by
  refine event_keeps s (by decide) _ ?_
  split
  · exact .refl s
  · split
    · exact (endWait_keeps s _ _).to
    · exact .refl s

theorem evLifetimeHoursIncrement_keeps : Keeps (.time :: Own) s s.evLifetimeHoursIncrement := by
  refine event_keeps s (by decide) _ ?_
  split
  · exact (Keeps.ofTime s _).to.trans <| (change_keeps _).to.trans (autoScrub_keeps _).to
  · exact .refl s

theorem evWaitListGrant_keeps : Keeps Own s s.evWaitListGrant := event_keeps s (by decide) _ (waitScan_keeps s).to
theorem evAdmission_keeps : Keeps Own s s.evAdmission := event_keeps s (by decide) _ (admission_keeps s).to
theorem evHeldReadRelease_keeps : Keeps Own s s.evHeldReadRelease := event_keeps s (by decide) _ (releaseHeld_keeps s []).to
theorem evCloseDrainEnd_keeps (p : Port) : Keeps Own s (s.evCloseDrainEnd p) := event_keeps s (by decide) _ (drainEnd_keeps s p).to
theorem evDrainingEnd_keeps (p : Port) : Keeps Own s (s.evDrainingEnd p) := event_keeps s (by decide) _ (drainingEnd_keeps s p).to
theorem evMediaGrant_keeps : Keeps Own s s.evMediaGrant := event_keeps s (by decide) _ (grants_keeps s).to
theorem evScrubRoomRetry_keeps : Keeps Own s s.evScrubRoomRetry := event_keeps s (by decide) _ (scrubRetry_keeps s).to
theorem evScrubPassBegin_keeps : Keeps Own s s.evScrubPassBegin :=
  event_keeps s (by decide) _ ((commitDone_keeps s _ _).to.trans (beginPass_keeps _ _).to)
theorem evAutoScrubStart_keeps : Keeps Own s s.evAutoScrubStart := event_keeps s (by decide) _ (autoScrub_keeps s).to
theorem evRefreshStart_keeps : Keeps Own s s.evRefreshStart := event_keeps s (by decide) _ (refreshTry_keeps s).to
theorem evCommitWaitRelease_keeps : Keeps Own s s.evCommitWaitRelease := event_keeps s (by decide) _ (releaseCommitWait_keeps s _).to
theorem evWaitSetComplete_keeps : Keeps Own s s.evWaitSetComplete :=
  event_keeps s (by decide) _ ((setsDone_keeps s).to.trans (emitDecided_keeps _).to)
theorem evMarkComplete_keeps : Keeps Own s s.evMarkComplete :=
  event_keeps s (by decide) _ ((tallyDone_keeps s).to.trans (emitDecided_keeps _).to)
theorem evSettingsWriteComplete_keeps : Keeps Own s s.evSettingsWriteComplete := event_keeps s (by decide) _ (commitDone_keeps s _ _).to

/-! ### Ends of media operations -/

theorem evPortReadEnd_keeps (o : Integrity) : Keeps Own s (s.evPortReadEnd o) := by
  refine event_keeps s (by decide) _ ?_
  split
  · split
    · exact (idle_keeps s).to
    · exact (idle_keeps s).to.trans (portReadEnded_keeps _ _ _ _).to
  · exact .refl s

theorem evRefreshReadEnd_keeps (o : Integrity) : Keeps Own s (s.evRefreshReadEnd o) := by
  refine event_keeps s (by decide) _ ?_
  split
  · split
    · exact (idle_keeps s).to
    · exact (idle_keeps s).to.trans (refreshEnded_keeps _ _ _ _ _).to
  · exact .refl s

theorem evScrubReadEnd_keeps (o : Integrity) : Keeps Own s (s.evScrubReadEnd o) := by
  refine event_keeps s (by decide) _ ?_
  split
  · split
    · exact (idle_keeps s).to
    · exact (idle_keeps s).to.trans (scrubEnded_keeps _ _ _).to
  · exact .refl s

theorem discardedProgram_keeps (loc : Nat) (d : BlockData) (x : Bool) : Keeps (.disk :: .free :: Own) s (s.discardedProgram loc d x) := by
  unfold discardedProgram
  split
  · exact (idle_keeps s).to.trans (mediaWrite_keeps _ _ _).to
  · exact (idle_keeps s).to.trans (mediaSpoil_keeps _ _).to

theorem evProgramFirstAttemptEnd_keeps (x : Bool) : Keeps (.disk :: .free :: Own) s (s.evProgramFirstAttemptEnd x) := by
  refine event_keeps s (by decide) _ ?_
  split
  · split
    · exact discardedProgram_keeps s _ _ _
    · split
      · exact .refl s
      · split
        · exact (firstSucceeded_keeps s _ _ _).to
        · exact (firstFailed_keeps s _ _ _).to
  · exact .refl s

theorem evProgramSecondAttemptEnd_keeps (x : Bool) : Keeps (.disk :: .free :: Own) s (s.evProgramSecondAttemptEnd x) := by
  refine event_keeps s (by decide) _ ?_
  split
  · rename_i hc
    split
    · exact discardedProgram_keeps s _ _ _
    · split
      · exact .refl s
      · split
        · exact (secondSucceeded_keeps s _ _ _ _ (by simp [trialSpare, hc])).to
        · exact (secondFailed_keeps s _ _ _ (by simp [trialSpare, hc])).to
  · exact .refl s

theorem evCommitEnd_keeps (x : Bool) : Keeps (.disk :: Own) s (s.evCommitEnd x) := by
  refine event_keeps s (by decide) _ ?_
  split
  · rename_i hc
    split
    · exact (commitSucceeded_keeps s _ _ _ (by simp [writing, hc])).to
    · exact (commitFailed_keeps s _ _ (by simp [writesCopy, hc])).to
  · exact .refl s

theorem evResetCopyWriteEnd_keeps (x : Bool) : Keeps (.disk :: Own) s (s.evResetCopyWriteEnd x) := by
  refine event_keeps s (by decide) _ ?_
  split
  · rename_i hc hm
    split
    · exact (resetWriteSucceeded_keeps s _ _ hm (by simp [writesCopy, hc])).to
    · exact (resetWriteFailed_keeps s _).to
  · exact .refl s

theorem evCopyAReadEnd_keeps (o : Integrity) : Keeps Own s (s.evCopyAReadEnd o) := by
  refine event_keeps s (by decide) _ ?_
  split
  · rename_i hc
    exact (copyARead_keeps s o hc).to
  · exact .refl s

theorem evCopyBReadEnd_keeps (o : Integrity) : Keeps (.time :: Own) s (s.evCopyBReadEnd o) := by
  refine event_keeps s (by decide) _ ?_
  split
  · rename_i hc
    exact (copyBRead_keeps s o hc).to
  · exact .refl s

/-! ### Power, reset and time -/

/-- R158: the reset values, with what the media holds, keep the laws. -/
theorem cleared_kept (x : Pins) : Kept s (s.cleared x) := by
  refine ⟨fun h => h, fun m => ?_, fun _ p => ?_, fun _ => ?_, fun _ => ?_, fun _ => ?_, fun _ => Nat.zero_le _,
    fun _ => ⟨List.nodup_nil, Nat.zero_le _⟩, fun _ => ⟨le_refl _, fun n k => by cases k⟩,
    fun _ => ⟨List.nodup_nil, List.Pairwise.nil, fun _ h => absurd h List.not_mem_nil⟩,
    ⟨fun _ => ⟨⟨List.Pairwise.nil, fun _ h => absurd h List.not_mem_nil, fun _ h => absurd h List.not_mem_nil⟩, ?_⟩,
      fun _ _ => ⟨fun _ => Nat.zero_le _, Nat.zero_le _⟩, fun _ l => ⟨Nat.zero_le _, l.2.1, l.2.2.1, (fun _ k => by cases k),
        (fun _ k => by cases k), (fun k => absurd k (Nat.lt_irrefl 0)), fun _ => rfl⟩⟩⟩
  · refine ⟨⟨List.nodup_nil, remapLawful_nil, ringLawful_nil, default_ok⟩, (fun _ k => by cases k), m.2.2.1, m.2.2.2.1,
      (fun _ k => by cases k), fun _ k => by cases k⟩
  · cases p <;> exact ⟨Nat.zero_le _, Nat.zero_le _, fun _ h => absurd h List.not_mem_nil⟩
  · exact ⟨List.Pairwise.nil, Nat.zero_le _, Nat.zero_le _⟩
  · exact ⟨fun _ h => absurd h List.not_mem_nil, fun _ h => absurd h List.not_mem_nil, fun p h => by cases p <;> cases h⟩
  · exact ⟨List.Pairwise.nil, fun _ h => absurd h List.not_mem_nil, fun _ h => absurd h List.not_mem_nil⟩
  · show Staging.lawful {}
    simp [Staging.lawful]

theorem cutOff_keeps : Keeps [.disk, .free] s s.cutOff := by
  unfold cutOff
  split
  · refine (Keeps.ofFree _ _).next (by decide) ?_
    split
    · exact (mediaWrite_keeps s _ _).mono (by decide)
    · exact .refl s
  · exact (loseCopy_keeps s _).mono (by decide)
  · exact (loseCopy_keeps s _).mono (by decide)
  · exact .refl s

theorem cleared_keeps (x : Pins) : Keeps ([.pins, .drop, .opens, .time] ++ Own) s (s.cleared x) := by
  constructor
  all_goals first | exact cleared_kept s x | exact fun _ => rfl | exact fun k => absurd (by decide) k

theorem startUp_keeps : Keeps ([.pins, .drop, .opens, .time] ++ Own) s s.startUp := by
  unfold startUp
  dsimp only
  have e : Keeps ([.pins, .drop, .opens, .time] ++ Own) s
      ((s.cleared {}).withMedia { (s.cleared {}).media with commitReq := some (.readCopy .a) }) := by
    refine (cleared_keeps s {}).andMedia (by decide) _ (fun _ m => m) (fun _ m => m) (fun _ m => m) fun b =>
      ⟨b.staging, b.quota, fun k l => ?_⟩
    have m := b.room k l
    exact ⟨m.1, m.2.1, m.2.2.1, m.2.2.2.1, m.2.2.2.2.1, fun _ => ⟨rfl, rfl, rfl, rfl⟩, m.2.2.2.2.2.2⟩
  exact e.trans (grants_keeps _).to

theorem evPowerOn_keeps : Keeps ([.pins, .drop, .opens, .time] ++ Own) s s.evPowerOn := by
  unfold evPowerOn
  split
  · exact startUp_keeps s
  · exact .refl s

theorem evReset_keeps : Keeps ([.pins, .drop, .opens, .time] ++ Own) s s.evReset := by
  unfold evReset
  split
  · exact startUp_keeps s
  · exact .refl s

theorem evPartHeld_keeps (x : Pin) : Keeps All s (s.evPartHeld x) := by
  unfold evPartHeld
  dsimp only
  split
  · exact (Keeps.ofPins s _).to
  · exact ((cutOff_keeps s).to (K := All)).trans ((cleared_keeps s.cutOff _).mono (by decide))

theorem evHeldInputChange_keeps (x : Pin) : Keeps [.pins] s (s.evHeldInputChange x) := by
  unfold evHeldInputChange
  cases x <;> dsimp only <;> split <;> exact Keeps.ofPins s _

theorem passMs_keeps : Keeps [.time] s s.passMs := Keeps.ofTime s _

end Part

/-! ### `exec` and `step` -/

/-- The components that an event can change. -/
def changes : Instr → List Comp
  | .openReq .. | .badFrame .. => .opens :: Own
  | .finishSending _ | .linkReset _ => .drop :: Own
  | .programFirstAttemptEnd _ | .programSecondAttemptEnd _ => .disk :: .free :: Own
  | .commitEnd _ | .resetCopyWriteEnd _ => .disk :: Own
  | .copyBReadEnd _ | .lifetimeHoursIncrement => .time :: Own
  | .powerOn | .reset => [.pins, .drop, .opens, .time] ++ Own
  | .partHeld _ => All
  | .heldInputChange _ => [.pins]
  | _ => Own

theorem of_next {s t : State} {x : Part} {K : List Comp}
    (h : (.next (s.withPart x) : Host.Outcome State Fault Refusal) = .next t) (k : Keeps K s.part x) :
    Keeps K s.part t.part := by cases h; exact k

theorem exec_keeps (i : Instr) (s t : State) (h : exec i s = .next t) : Keeps (changes i) s.part t.part :=
  match i, h with
  | .openReq _ _ _ _ _ _, h => of_next h (Part.evOpen_keeps ..)
  | .closeReq _ _, h => of_next h (Part.evClose_keeps ..)
  | .fence _ _ _, h => of_next h (Part.evFence_keeps ..)
  | .unfence _ _ _, h => of_next h (Part.evUnfence_keeps ..)
  | .read _ _ _ _, h => of_next h (Part.evRead_keeps ..)
  | .write _ _ _ _ _, h => of_next h (Part.evWrite_keeps ..)
  | .mark _ _ _ _ _, h => of_next h (Part.evMark_keeps ..)
  | .flush _ _ _, h => of_next h (Part.evFlush_keeps ..)
  | .abort _ _ _, h => of_next h (Part.evAbort_keeps ..)
  | .leaseAcquire _ _ _ _ _ _ _, h => of_next h (Part.evLeaseAcquire_keeps ..)
  | .leaseRenew _ _ _ _, h => of_next h (Part.evLeaseRenew_keeps ..)
  | .leaseRelease _ _ _, h => of_next h (Part.evLeaseRelease_keeps ..)
  | .leaseQuery _ _ _ _, h => of_next h (Part.evLeaseQuery_keeps ..)
  | .scrubStart _ _, h => of_next h (Part.evScrubStart_keeps ..)
  | .scrubStop _ _, h => of_next h (Part.evScrubStop_keeps ..)
  | .settingsRead _ _, h => of_next h (Part.evSettingsRead_keeps ..)
  | .settingsWrite _ _ _, h => of_next h (Part.evSettingsWrite_keeps ..)
  | .metadataReset _ _, h => of_next h (Part.evMetadataReset_keeps ..)
  | .status _ _, h => of_next h (Part.evStatus_keeps ..)
  | .info _ _, h => of_next h (Part.evInfo_keeps ..)
  | .faultRead _ _ _ _, h => of_next h (Part.evFaultRead_keeps ..)
  | .undefinedKind _ _ _, h => of_next h (Part.evUndefinedKind_keeps ..)
  | .dataIn _ _ _ _, h => of_next h (Part.evDataIn_keeps ..)
  | .keepalive _, h => of_next h (Part.evKeepalive_keeps ..)
  | .badFrame _ _, h => of_next h (Part.evBadFrame_keeps ..)
  | .characterError _, h => of_next h (Part.evCharacterError_keeps ..)
  | .linkReset _, h => of_next h (Part.evLinkReset_keeps ..)
  | .breakEnd _, h => of_next h (Part.evBreakEnd_keeps ..)
  | .pnrdyRise _, h => of_next h (Part.evPnrdyRise_keeps ..)
  | .finishSending _, h => of_next h (Part.evFinishSending_keeps ..)
  | .heldFrameEntry _, h => of_next h (Part.evHeldFrameEntry_keeps ..)
  | .silenceExpiry _, h => of_next h (Part.evSilenceExpiry_keeps ..)
  | .dataDeadlineExpiry _ _, h => of_next h (Part.evDataDeadlineExpiry_keeps ..)
  | .leaseDeadlineExpiry _, h => of_next h (Part.evLeaseDeadlineExpiry_keeps ..)
  | .waitDeadlineExpiry _ _, h => of_next h (Part.evWaitDeadlineExpiry_keeps ..)
  | .waitListGrant, h => of_next h (Part.evWaitListGrant_keeps ..)
  | .admission, h => of_next h (Part.evAdmission_keeps ..)
  | .heldReadRelease, h => of_next h (Part.evHeldReadRelease_keeps ..)
  | .closeDrainEnd _, h => of_next h (Part.evCloseDrainEnd_keeps ..)
  | .drainingEnd _, h => of_next h (Part.evDrainingEnd_keeps ..)
  | .mediaGrant, h => of_next h (Part.evMediaGrant_keeps ..)
  | .portReadEnd _, h => of_next h (Part.evPortReadEnd_keeps ..)
  | .refreshReadEnd _, h => of_next h (Part.evRefreshReadEnd_keeps ..)
  | .scrubReadEnd _, h => of_next h (Part.evScrubReadEnd_keeps ..)
  | .scrubRoomRetry, h => of_next h (Part.evScrubRoomRetry_keeps ..)
  | .scrubPassBegin, h => of_next h (Part.evScrubPassBegin_keeps ..)
  | .autoScrubStart, h => of_next h (Part.evAutoScrubStart_keeps ..)
  | .refreshStart, h => of_next h (Part.evRefreshStart_keeps ..)
  | .programFirstAttemptEnd _, h => of_next h (Part.evProgramFirstAttemptEnd_keeps ..)
  | .programSecondAttemptEnd _, h => of_next h (Part.evProgramSecondAttemptEnd_keeps ..)
  | .commitEnd _, h => of_next h (Part.evCommitEnd_keeps ..)
  | .commitWaitRelease, h => of_next h (Part.evCommitWaitRelease_keeps ..)
  | .waitSetComplete, h => of_next h (Part.evWaitSetComplete_keeps ..)
  | .markComplete, h => of_next h (Part.evMarkComplete_keeps ..)
  | .settingsWriteComplete, h => of_next h (Part.evSettingsWriteComplete_keeps ..)
  | .lifetimeHoursIncrement, h => of_next h (Part.evLifetimeHoursIncrement_keeps ..)
  | .powerOn, h => of_next h (Part.evPowerOn_keeps ..)
  | .reset, h => of_next h (Part.evReset_keeps ..)
  | .partHeld _, h => of_next h (Part.evPartHeld_keeps ..)
  | .copyAReadEnd _, h => of_next h (Part.evCopyAReadEnd_keeps ..)
  | .copyBReadEnd _, h => of_next h (Part.evCopyBReadEnd_keeps ..)
  | .resetCopyWriteEnd _, h => of_next h (Part.evResetCopyWriteEnd_keeps ..)
  | .pnrdyFall _, h => of_next h (Part.evPnrdyFall_keeps ..)
  | .pnrxdReturns _, h => of_next h (Part.evPnrxdReturns_keeps ..)
  | .delimiterReceived _, h => of_next h (Part.evDelimiterReceived_keeps ..)
  | .heldInputChange _, h => of_next h (Part.evHeldInputChange_keeps ..)

/-- Every step keeps every law. -/
theorem step_kept (s t : State) (h : step s = .next t) : Kept s.part t.part := by
  unfold step at h
  split at h
  · cases h
    unfold State.tick
    split
    · exact .refl _
    · exact (Part.passMs_keeps _).laws
  · rename_i c cs _
    exact (exec_keeps c { s with pending := cs } _ h).laws

end Sys2Proof.Machine
end

