-- ==== Sys2Proof/Laws/PerInstr.lean ====
section
/-! SUPPORT. The family WellFormed, one lemma for each event: when its operands make it that event (R24, R50, R179). -/

namespace Sys2Proof.Laws.WellFormed

/-- What the spec asks of an event's operands. -/
def operandsFit : Instr → Prop
  | .undefinedKind _ _ code => code ∉ requestCodes
  | .badFrame _ bytes => bytes ≠ []
  | .leaseDeadlineExpiry id => id ≠ 0#16
  | _ => True

/-- The check of an event's operands decides what the spec asks of them. -/
def Statement (i : Instr) : Prop := i.wellFormed = true ↔ operandsFit i

theorem openReq (p : Port) (tag : Tag) (token : BitVec 32) (silence : BitVec 16) (quota : BitVec 8) (reqLease : BitVec 8) :
    Statement (.openReq p tag token silence quota reqLease) := ⟨fun _ => trivial, fun _ => rfl⟩

theorem closeReq (p : Port) (tag : Tag) : Statement (.closeReq p tag) := ⟨fun _ => trivial, fun _ => rfl⟩

theorem fence (p : Port) (tag : Tag) (target : BitVec 8) :
    Statement (.fence p tag target) := ⟨fun _ => trivial, fun _ => rfl⟩

theorem unfence (p : Port) (tag : Tag) (target : BitVec 8) :
    Statement (.unfence p tag target) := ⟨fun _ => trivial, fun _ => rfl⟩

theorem read (p : Port) (tag : Tag) (start : BitVec 32) (count : BitVec 8) :
    Statement (.read p tag start count) := ⟨fun _ => trivial, fun _ => rfl⟩

theorem write (p : Port) (tag : Tag) (start : BitVec 32) (count : BitVec 8) (flags : BitVec 8) :
    Statement (.write p tag start count flags) := ⟨fun _ => trivial, fun _ => rfl⟩

theorem mark (p : Port) (tag : Tag) (start : BitVec 32) (count : BitVec 8) (kind : BitVec 8) :
    Statement (.mark p tag start count kind) := ⟨fun _ => trivial, fun _ => rfl⟩

theorem flush (p : Port) (tag : Tag) (scope : BitVec 8) :
    Statement (.flush p tag scope) := ⟨fun _ => trivial, fun _ => rfl⟩

theorem abort (p : Port) (tag : Tag) (target : BitVec 8) :
    Statement (.abort p tag target) := ⟨fun _ => trivial, fun _ => rfl⟩

theorem leaseAcquire (p : Port) (tag : Tag) (start : BitVec 32) (len : BitVec 32) (mode : BitVec 8) (duration : BitVec 16) (waitLimit : BitVec 16) :
    Statement (.leaseAcquire p tag start len mode duration waitLimit) := ⟨fun _ => trivial, fun _ => rfl⟩

theorem leaseRenew (p : Port) (tag : Tag) (id : BitVec 16) (duration : BitVec 16) :
    Statement (.leaseRenew p tag id duration) := ⟨fun _ => trivial, fun _ => rfl⟩

theorem leaseRelease (p : Port) (tag : Tag) (id : BitVec 16) :
    Statement (.leaseRelease p tag id) := ⟨fun _ => trivial, fun _ => rfl⟩

theorem leaseQuery (p : Port) (tag : Tag) (start : BitVec 32) (len : BitVec 32) :
    Statement (.leaseQuery p tag start len) := ⟨fun _ => trivial, fun _ => rfl⟩

theorem scrubStart (p : Port) (tag : Tag) : Statement (.scrubStart p tag) := ⟨fun _ => trivial, fun _ => rfl⟩

theorem scrubStop (p : Port) (tag : Tag) : Statement (.scrubStop p tag) := ⟨fun _ => trivial, fun _ => rfl⟩

theorem settingsRead (p : Port) (tag : Tag) : Statement (.settingsRead p tag) := ⟨fun _ => trivial, fun _ => rfl⟩

theorem settingsWrite (p : Port) (tag : Tag) (raw : RawSettings) :
    Statement (.settingsWrite p tag raw) := ⟨fun _ => trivial, fun _ => rfl⟩

theorem metadataReset (p : Port) (tag : Tag) : Statement (.metadataReset p tag) := ⟨fun _ => trivial, fun _ => rfl⟩

theorem status (p : Port) (tag : Tag) : Statement (.status p tag) := ⟨fun _ => trivial, fun _ => rfl⟩

theorem info (p : Port) (tag : Tag) : Statement (.info p tag) := ⟨fun _ => trivial, fun _ => rfl⟩

theorem faultRead (p : Port) (tag : Tag) (startAge : BitVec 8) (maxCount : BitVec 8) :
    Statement (.faultRead p tag startAge maxCount) := ⟨fun _ => trivial, fun _ => rfl⟩

theorem undefinedKind (p : Port) (tag : Tag) (code : BitVec 8) : Statement (.undefinedKind p tag code) := by
  simp [Statement, operandsFit, Instr.wellFormed, definedCode]

theorem dataIn (p : Port) (tag : Tag) (index : BitVec 8) (data : BlockData) :
    Statement (.dataIn p tag index data) := ⟨fun _ => trivial, fun _ => rfl⟩

theorem keepalive (p : Port) : Statement (.keepalive p) := ⟨fun _ => trivial, fun _ => rfl⟩

theorem badFrame (p : Port) (bytes : List Byte) : Statement (.badFrame p bytes) := by
  simp [Statement, operandsFit, Instr.wellFormed]

theorem characterError (p : Port) : Statement (.characterError p) := ⟨fun _ => trivial, fun _ => rfl⟩

theorem linkReset (p : Port) : Statement (.linkReset p) := ⟨fun _ => trivial, fun _ => rfl⟩

theorem breakEnd (p : Port) : Statement (.breakEnd p) := ⟨fun _ => trivial, fun _ => rfl⟩

theorem pnrdyRise (p : Port) : Statement (.pnrdyRise p) := ⟨fun _ => trivial, fun _ => rfl⟩

theorem finishSending (p : Port) : Statement (.finishSending p) := ⟨fun _ => trivial, fun _ => rfl⟩

theorem heldFrameEntry (p : Port) : Statement (.heldFrameEntry p) := ⟨fun _ => trivial, fun _ => rfl⟩

theorem silenceExpiry (p : Port) : Statement (.silenceExpiry p) := ⟨fun _ => trivial, fun _ => rfl⟩

theorem dataDeadlineExpiry (p : Port) (tag : Tag) :
    Statement (.dataDeadlineExpiry p tag) := ⟨fun _ => trivial, fun _ => rfl⟩

theorem leaseDeadlineExpiry (id : BitVec 16) : Statement (.leaseDeadlineExpiry id) := by
  simp [Statement, operandsFit, Instr.wellFormed]

theorem waitDeadlineExpiry (p : Port) (tag : Tag) :
    Statement (.waitDeadlineExpiry p tag) := ⟨fun _ => trivial, fun _ => rfl⟩

theorem waitListGrant : Statement (.waitListGrant) := ⟨fun _ => trivial, fun _ => rfl⟩

theorem admission : Statement (.admission) := ⟨fun _ => trivial, fun _ => rfl⟩

theorem heldReadRelease : Statement (.heldReadRelease) := ⟨fun _ => trivial, fun _ => rfl⟩

theorem closeDrainEnd (p : Port) : Statement (.closeDrainEnd p) := ⟨fun _ => trivial, fun _ => rfl⟩

theorem drainingEnd (p : Port) : Statement (.drainingEnd p) := ⟨fun _ => trivial, fun _ => rfl⟩

theorem mediaGrant : Statement (.mediaGrant) := ⟨fun _ => trivial, fun _ => rfl⟩

theorem portReadEnd (outcome : Integrity) : Statement (.portReadEnd outcome) := ⟨fun _ => trivial, fun _ => rfl⟩

theorem refreshReadEnd (outcome : Integrity) : Statement (.refreshReadEnd outcome) := ⟨fun _ => trivial, fun _ => rfl⟩

theorem scrubReadEnd (outcome : Integrity) : Statement (.scrubReadEnd outcome) := ⟨fun _ => trivial, fun _ => rfl⟩

theorem scrubRoomRetry : Statement (.scrubRoomRetry) := ⟨fun _ => trivial, fun _ => rfl⟩

theorem scrubPassBegin : Statement (.scrubPassBegin) := ⟨fun _ => trivial, fun _ => rfl⟩

theorem autoScrubStart : Statement (.autoScrubStart) := ⟨fun _ => trivial, fun _ => rfl⟩

theorem refreshStart : Statement (.refreshStart) := ⟨fun _ => trivial, fun _ => rfl⟩

theorem programFirstAttemptEnd (success : Bool) :
    Statement (.programFirstAttemptEnd success) := ⟨fun _ => trivial, fun _ => rfl⟩

theorem programSecondAttemptEnd (success : Bool) :
    Statement (.programSecondAttemptEnd success) := ⟨fun _ => trivial, fun _ => rfl⟩

theorem commitEnd (success : Bool) : Statement (.commitEnd success) := ⟨fun _ => trivial, fun _ => rfl⟩

theorem commitWaitRelease : Statement (.commitWaitRelease) := ⟨fun _ => trivial, fun _ => rfl⟩

theorem waitSetComplete : Statement (.waitSetComplete) := ⟨fun _ => trivial, fun _ => rfl⟩

theorem markComplete : Statement (.markComplete) := ⟨fun _ => trivial, fun _ => rfl⟩

theorem settingsWriteComplete : Statement (.settingsWriteComplete) := ⟨fun _ => trivial, fun _ => rfl⟩

theorem lifetimeHoursIncrement : Statement (.lifetimeHoursIncrement) := ⟨fun _ => trivial, fun _ => rfl⟩

theorem powerOn : Statement (.powerOn) := ⟨fun _ => trivial, fun _ => rfl⟩

theorem reset : Statement (.reset) := ⟨fun _ => trivial, fun _ => rfl⟩

theorem partHeld (pin : Pin) : Statement (.partHeld pin) := ⟨fun _ => trivial, fun _ => rfl⟩

theorem copyAReadEnd (outcome : Integrity) : Statement (.copyAReadEnd outcome) := ⟨fun _ => trivial, fun _ => rfl⟩

theorem copyBReadEnd (outcome : Integrity) : Statement (.copyBReadEnd outcome) := ⟨fun _ => trivial, fun _ => rfl⟩

theorem resetCopyWriteEnd (success : Bool) :
    Statement (.resetCopyWriteEnd success) := ⟨fun _ => trivial, fun _ => rfl⟩

theorem pnrdyFall (p : Port) : Statement (.pnrdyFall p) := ⟨fun _ => trivial, fun _ => rfl⟩

theorem pnrxdReturns (p : Port) : Statement (.pnrxdReturns p) := ⟨fun _ => trivial, fun _ => rfl⟩

theorem delimiterReceived (p : Port) : Statement (.delimiterReceived p) := ⟨fun _ => trivial, fun _ => rfl⟩

theorem heldInputChange (pin : Pin) : Statement (.heldInputChange pin) := ⟨fun _ => trivial, fun _ => rfl⟩

end Sys2Proof.Laws.WellFormed
end

