-- ==== Sys2Proof/Laws/Requests.lean ====
section
/-! SUPPORT. What a REQUEST frame does, case by case of its checks (R50, R90, R182): the lemmas a statement about a request
cites in place of unfolding the receiver. -/

namespace Sys2Proof.Machine.Part

variable (s : Part) (p : Port) (t : Tag) (code : BitVec 8) (form : Option Status) (serve : Part → Cmd → Part)

/-- While the part is held an event does nothing. -/
theorem event_held {s : Part} (f : Part → Part) (h : s.isHeld = true) : s.event f = s := if_pos h

theorem event_runs {s : Part} (f : Part → Part) (h : s.isHeld = false) : s.event f = follow s (f s) := by
  unfold event; rw [if_neg (by simp [h])]

theorem eventInPlace_runs {s : Part} (f : Part → Part) (h : s.isHeld = false) :
    s.eventInPlace f = follow (s.withLinks (f s).links) (f s) := by
  unfold eventInPlace; rw [if_neg (by simp [h])]

theorem arrival_runs {s : Part} {p : Port} (f : Part → Part) (h : s.isHeld = false) (l : (s.lc p).low = false) :
    s.arrival p f = follow s (f (s.setLc p { s.lc p with framing := .hunt })) := by
  unfold arrival
  rw [if_neg (by simp [l]), event_runs _ h]

theorem hunt_responses : ((s.setLc p { s.lc p with framing := .hunt }).lc p).responses = (s.lc p).responses := by
  rw [lc_setLc_same]; rfl

/-- R182: a full transmit queue discards the request. -/
theorem request_overrun {s : Part} {p : Port} (h : s.isHeld = false) (l : (s.lc p).low = false)
    (r : Config.maxResponses ≤ (s.lc p).responses) :
    s.request p t code form serve = follow s ((s.setLc p { s.lc p with framing := .hunt }).countError p) := by
  unfold request
  rw [arrival_runs _ h l]
  unfold takeRequest
  rw [if_pos (r.trans_eq (hunt_responses s p).symm)]

/-- The session and the tables do not see the arrival. -/
theorem arrived_session_state (q : Port) : ((s.arrived p).session q).state = (s.session q).state := by
  unfold arrived rearm
  split
  · by_cases e : q = p
    · subst e; rw [session_setSession_same]; rfl
    · rw [session_setSession_ne _ _ _ _ e]; rfl
  · rfl

theorem arrived_cmds : (s.arrived p).cmds = s.cmds := by unfold arrived rearm; split <;> rfl
theorem arrived_md : (s.arrived p).md = s.md := by unfold arrived rearm; split <;> rfl

/-- R90: the session check refuses the request. -/
theorem request_session {s : Part} {p : Port} {code : BitVec 8} (h : s.isHeld = false) (l : (s.lc p).low = false)
    (r : (s.lc p).responses < Config.maxResponses) {st : Status} (k : s.sessionRefusal p code = some st) :
    s.request p t code form serve = follow s (s.answered p t code st .none) := by
  unfold request
  rw [arrival_runs _ h l]
  unfold takeRequest
  rw [if_neg fun q => absurd (q.trans_eq (hunt_responses s p)) (not_le.2 r)]
  have k' : (s.arrived p).sessionRefusal p code = some st := by
    unfold sessionRefusal at k ⊢
    rw [arrived_session_state]; exact k
  simp only [arrived] at k'
  dsimp only
  rw [k']
  rfl

/-- R50: the receipt checks refuse the request. -/
theorem request_receipt {s : Part} {p : Port} {t : Tag} {code : BitVec 8} {form : Option Status} (h : s.isHeld = false)
    (l : (s.lc p).low = false) (r : (s.lc p).responses < Config.maxResponses)
    (o : code = codeOpen ∨ (s.session p).state = .opened) {st : Status}
    (k : s.receiptRefusal ⟨p, t⟩ code form = some st) :
    s.request p t code form serve = follow s (s.answered p t code st .none) := by
  unfold request
  rw [arrival_runs _ h l]
  unfold takeRequest
  rw [if_neg fun q => absurd (q.trans_eq (hunt_responses s p)) (not_le.2 r)]
  have k' : (s.arrived p).sessionRefusal p code = none := by
    unfold sessionRefusal
    rcases o with o | o
    · rw [if_pos o]
    · rw [arrived_session_state, o]; split <;> rfl
  have k'' : (s.arrived p).receiptRefusal ⟨p, t⟩ code form = some st := by
    unfold receiptRefusal at k ⊢
    rw [arrived_cmds, arrived_md]; exact k
  simp only [arrived] at k' k''
  dsimp only
  rw [k']
  dsimp only
  rw [k'']
  rfl

/-- R50, R52: an accepted request is served. -/
theorem request_accepted {s : Part} {p : Port} {t : Tag} {code : BitVec 8} (h : s.accepts p t code)
    (d : definedCode code = true) :
    s.request p t code none serve = follow s (serve (s.arrived p) (s.asked p t code)) := by
  obtain ⟨h, l, r, o, k, m⟩ := h
  unfold request
  rw [arrival_runs _ h l]
  unfold takeRequest
  rw [if_neg fun q => absurd (q.trans_eq (hunt_responses s p)) (not_le.2 r)]
  have k' : (s.arrived p).sessionRefusal p code = none := by
    unfold sessionRefusal
    rcases o with o | o
    · rw [if_pos o]
    · rw [arrived_session_state, o]; split <;> rfl
  have k'' : (s.arrived p).receiptRefusal ⟨p, t⟩ code none = none := by
    unfold receiptRefusal
    rw [arrived_cmds, arrived_md, k, d]
    simp only [Option.isSome_none, Bool.false_eq_true, if_false, Bool.not_true]
    split
    · rename_i q
      have := m q.1
      simp [this] at q
    · rfl
  have e : (s.arrived p).cmds.nextReceipt = s.cmds.nextReceipt := by rw [arrived_cmds]
  simp only [arrived] at k' k'' e
  dsimp only
  rw [k']
  dsimp only
  rw [k'']
  unfold accept asked arrived
  rw [e]

end Sys2Proof.Machine.Part
end

