-- ==== Sys2Proof/Laws/Wire.lean ====
section
/-! SUPPORT. The receiver (R179): what each byte does, whatever the bound on the bytes examined, once it is large enough. -/

namespace Sys2Proof.Machine

/-- Bytes examined at most: in HUNT each discarded delimiter lets every later byte be examined once more; in a frame its
remaining bytes come first. -/
def receiveNeed (fr : Framing) (input : List Byte) : Nat :=
  let n := fr.bytes.length + input.length + 1
  n * n + match fr with | .hunt => 0 | _ => input.length

theorem receiveNeed_le (fr : Framing) (input : List Byte) : receiveNeed fr input ≤ receiveBound fr input := by
  simp only [receiveNeed, receiveBound]
  generalize fr.bytes.length = h
  have e : (h + input.length + 2) * (h + input.length + 2) =
      (h + input.length + 1) * (h + input.length + 1) + 2 * (h + input.length) + 3 := by ring
  rw [e]
  split <;> omega

theorem receiveNeed_hunt_cons (b : Byte) (input : List Byte) :
    receiveNeed .hunt input < receiveNeed .hunt (b :: input) ∧
      receiveNeed (.header []) input < receiveNeed .hunt (b :: input) := by
  simp only [receiveNeed, Framing.bytes, List.length_cons, List.length_nil]
  generalize input.length = k
  constructor <;> nlinarith

/-- A frame in progress takes its next byte, whole or not; or it is given up, and its bytes are hunted again; or it ends. -/
theorem receiveNeed_frame_cons {fr : Framing} (hf : fr ≠ .hunt) (b : Byte) (input : List Byte) :
    (∀ g : Framing, g.bytes = fr.bytes ++ [b] → receiveNeed g input < receiveNeed fr (b :: input)) ∧
      receiveNeed .hunt (fr.bytes ++ [b] ++ input) < receiveNeed fr (b :: input) ∧
      receiveNeed .hunt input < receiveNeed fr (b :: input) := by
  have e : receiveNeed fr (b :: input) = (fr.bytes.length + input.length + 2) * (fr.bytes.length + input.length + 2) +
      (input.length + 1) := by
    cases fr with
    | hunt => exact absurd rfl hf
    | _ => simp only [receiveNeed, List.length_cons]; ring
  have h0 : Framing.bytes .hunt = [] := rfl
  rw [e]
  refine ⟨fun g hg => ?_, ?_, ?_⟩
  · have : receiveNeed g input ≤ (fr.bytes.length + input.length + 2) * (fr.bytes.length + input.length + 2) +
        input.length := by
      simp only [receiveNeed, hg, List.length_append, List.length_singleton]
      have : fr.bytes.length + 1 + input.length + 1 = fr.bytes.length + input.length + 2 := by omega
      rw [this]
      split <;> omega
    omega
  · simp only [receiveNeed, h0, List.length_append, List.length_singleton, List.length_nil]
    have : 0 + (fr.bytes.length + 1 + input.length) + 1 = fr.bytes.length + input.length + 2 := by omega
    rw [this]; omega
  · simp only [receiveNeed, h0, List.length_nil]
    nlinarith [Nat.zero_le fr.bytes.length, Nat.zero_le input.length]

theorem receive_succ (p : Port) (n : Nat) : ∀ (fr : Framing) (input : List Byte), receiveNeed fr input ≤ n →
    receive p (n + 1) fr input = receive p n fr input := by
  induction n with
  | zero =>
    intro fr input h
    cases input with
    | nil => cases fr <;> rfl
    | cons b input =>
      exfalso
      cases fr with
      | hunt => have := (receiveNeed_hunt_cons b input).1; omega
      | header held => have := (receiveNeed_frame_cons (fr := .header held) (by simp) b input).2.2; omega
      | body m held => have := (receiveNeed_frame_cons (fr := .body m held) (by simp) b input).2.2; omega
  | succ n ih =>
    intro fr input h
    cases input with
    | nil => cases fr <;> rfl
    | cons b input =>
      cases fr with
      | hunt =>
        obtain ⟨a, c⟩ := receiveNeed_hunt_cons b input
        unfold receive
        split
        · exact ih _ _ (by omega)
        · exact ih _ _ (by omega)
      | header held =>
        obtain ⟨a, c, -⟩ := receiveNeed_frame_cons (fr := .header held) (by simp) b input
        unfold receive
        dsimp only
        split
        · exact ih _ _ (by have := a (.header (held ++ [b])) rfl; omega)
        · split
          · rw [ih .hunt _ (by simp only [Framing.bytes] at c; omega)]
          · exact ih _ _ (by have := a (.body (ofLe (held ++ [b])) (held ++ [b])) rfl; omega)
      | body m held =>
        obtain ⟨a, c, d⟩ := receiveNeed_frame_cons (fr := .body m held) (by simp) b input
        unfold receive
        dsimp only
        split
        · exact ih _ _ (by have := a (.body m (held ++ [b])) rfl; omega)
        · split
          · rw [ih .hunt _ (by simp only [Framing.bytes] at c; omega)]
          · rw [ih .hunt _ (by omega)]
          · rw [ih .hunt _ (by omega)]

/-- A larger bound finds the same. -/
theorem receive_enough (p : Port) {n : Nat} {fr : Framing} {input : List Byte} (h : receiveNeed fr input ≤ n) :
    receive p n fr input = receive p (receiveBound fr input) fr input := by
  have up : ∀ m, receiveNeed fr input ≤ m → receive p m fr input = receive p (receiveNeed fr input) fr input := fun m hm =>
    Nat.le_induction rfl (fun k hk e => (receive_succ p k fr input hk).trans e) m hm
  rw [up n h, up _ (receiveNeed_le fr input)]

/-- The bound is never 0, so the next byte is taken. -/
theorem receiveBound_succ (p : Port) (fr : Framing) (b : Byte) (input : List Byte) :
    ∃ n, receiveBound fr (b :: input) = n + 1 ∧ ∀ g more, receiveNeed g more < receiveNeed fr (b :: input) →
      receive p n g more = receive p (receiveBound g more) g more := by
  refine ⟨receiveBound fr (b :: input) - 1, ?_, fun g more h => receive_enough p ?_⟩
  · have : 0 < receiveBound fr (b :: input) := Nat.mul_pos (by omega) (by omega)
    omega
  · have := receiveNeed_le fr (b :: input)
    omega

end Sys2Proof.Machine
end

