-- ==== Sys2Proof/Tests/Slice0.lean ====
section
/-! SUPPORT. Tests on small states: the checks of well-formedness, the wire formats, one step of the events, and for every
statement of Certificates/Slice0/Obligations.lean that has hypotheses a state and operands that meet them. -/

namespace Sys2Proof.Tests

set_option maxRecDepth 100000
set_option Elab.async false

open Sys2Proof.Machine

/-! ### Small states -/

/-- A block whose bytes are all `n`. -/
def block (n : Nat) : BlockData := Vector.replicate 512 (BitVec.ofNat 8 n)

/-- A port's session that is OPEN. -/
def open1 : Session := { state := .opened, number := 1, silence := 1000, quota := 32, deadline := some 1000 }

/-- The part READY, with the media idle and P0 and P1 OPEN. -/
def base : Part :=
  (((Part.reset.withMedia {}).withMd { device := .ready, current := some (.a, 1) }).setSession .p0 open1).setSession .p1 open1

def st (x : Part) : State := { part := x, pending := [] }

/-- The part after an event. -/
def run (i : Instr) (x : Part) : Part :=
  match exec i (st x) with
  | .next t => t.part
  | _ => x

def runs (is : List Instr) (x : Part) : Part := is.foldl (fun x i => run i x) x

/-- What port P0 has been sent, or will be. -/
def sent (x : Part) : List TxFrame := (x.lc .p0).txq

/-- The first bytes of the frames of P0. -/
def starts (x : Part) : List (List Byte) := (sent x).map fun f => f.bytes.take 7

/-- `x` with one command record. -/
def having (c : Cmd) (x : Part) : Part := x.withCmds { x.cmds with recs := [c], nextReceipt := 1 }

/-- A record of P0, tag 0. -/
def cmd (code : BitVec 8) (state : CmdState) : Cmd := { key := ⟨.p0, 0⟩, code := code, state := state, receipt := 0 }

/-- A READ of one block that is READING. -/
def reading : Cmd := { cmd codeRead .reading with count := 1, start := 7 }

/-- A staging frame of P0. -/
def frame (i : Nat) (state : FrameState) (b : Nat) : Frame :=
  { idx := i, state := state, block := b, writer := some (.port .p0), cmd := none, content := .data, seq := some 1,
    data := some (block 1) }

def markFrame (i b : Nat) (k : MarkKind) : Frame := { frame i .dirty b with content := .mark k, data := none }

def staged (fs : List Frame) (x : Part) : Part := x.withSb { x.sb with frames := fs }

/-- `x` with a program queue. -/
def queued (is : List Nat) (x : Part) : Part := x.withSb { x.sb with progQ := is }

/-- An EXCLUSIVE lease of a port over blocks 0 to 9. -/
def lease1 (p : Port) (id : BitVec 16) : Lease :=
  { id := id, holder := p, session := 1, start := 0, len := 10, mode := .exclusive, deadline := 1000, granted := 0 }

def leased (l : Lease) (x : Part) : Part := x.withLease { x.lease with table := [l] }

def wait1 (p : Port) : Wait :=
  { key := ⟨p, 0⟩, start := 0, len := 10, mode := .exclusive, duration := 100, deadline := 0 }

def poison1 (b : Nat) (k : PoisonKind) : PoisonEntry := { block := b, kind := k, origin := none, hours := 0, ms := 0 }

def poisoned (k : PoisonKind) (x : Part) : Part := x.withInteg { x.integ with poison := [poison1 7 k] }

/-- `x` with the media busy. -/
def busy (op : MediaOp) (x : Part) : Part := x.withMedia { x.media with current := some { op := op } }

/-- `x` with a device state. -/
def inDevice (d : Device) (x : Part) : Part := x.withMd { x.md with device := d }

/-- `x` with a link controller of P0 changed. -/
def link0 (f : Lc → Lc) (x : Part) : Part := x.setLc .p0 (f (x.lc .p0))

/-- `x` with the session of P0 changed. -/
def sess0 (f : Session → Session) (x : Part) : Part := x.setSession .p0 (f (x.session .p0))

/-- `n` response frames wait in the transmit queue. -/
def loaded (n : Nat) : Part → Part := link0 fun l => { l with txq := List.replicate n (.go 1 1) }

/-- `x` at a time. -/
def atMs (n : Nat) (x : Part) : Part := x.withTime { x.time with ms := n }

/-- `x` with window 0 enabled. -/
def windowed (first last : Nat) (x : Part) : Part :=
  x.withMd { x.md with settings := { Settings.default with w0 := { enabled := true, first := first, last := last } } }

/-- The refresh list filled with `n` entries. -/
def refreshing (n : Nat) (x : Part) : Part :=
  x.withMedia { x.media with refresh := (List.range n).map fun i => { block := 100 + i, origin := .scrub } }

def portReq : PortReq := { key := ⟨.p0, 0⟩, receipt := 0, index := 0, block := 7, seen := block 3 }

/-- A block written to a location. -/
def written (loc : Nat) (x : Part) : Part := x.mediaWrite loc (block 3)

/-! ### Well-formedness: what is refused, and a value that is not -/

theorem test_undefinedKind_with_a_defined_code_is_ill_formed :
    (Instr.undefinedKind .p0 0 0x52).wellFormed = false := by decide
theorem test_undefinedKind_is_well_formed : (Instr.undefinedKind .p0 0 0x53).wellFormed = true := by decide
theorem test_badFrame_without_bytes_is_ill_formed : (Instr.badFrame .p0 []).wellFormed = false := by decide
theorem test_badFrame_is_well_formed : (Instr.badFrame .p0 [0x00]).wellFormed = true := by decide
theorem test_lease_id_0_is_ill_formed : (Instr.leaseDeadlineExpiry 0).wellFormed = false := by decide
theorem test_lease_id_65535_is_well_formed : (Instr.leaseDeadlineExpiry 65535).wellFormed = true := by decide

/-! ### Reset and the words of the table -/

theorem test_no_word_spells_an_event : decodeTableWord 32 0x01020304 = none := by decide
theorem test_withFetchWord_leaves_the_state : State.reset.withFetchWord 32 0x11 = State.reset := rfl
theorem test_power_on_gives_the_reset_state :
    run .powerOn (Part.reset.withPins { resetN := true, pwrGood := false }) = Part.reset := by decide +kernel
theorem test_factory_copy_is_valid : copyValid .good (some MetaCopy.factory) = true := by decide +kernel
theorem test_two_start_up_reads_make_the_part_ready :
    (runs [.copyAReadEnd .good, .copyBReadEnd .good] Part.reset).md.device = .ready ∧
      (runs [.copyAReadEnd .good, .copyBReadEnd .good] Part.reset).md.current = some (.a, 1) := by decide +kernel
theorem test_no_valid_copy_makes_the_part_safe :
    (runs [.copyAReadEnd .uncorrectable, .copyBReadEnd .uncorrectable] Part.reset).md.device = .safe := by decide +kernel

/-! ### Wire formats -/

theorem test_crc32_check_value :
    crc32 [0x31, 0x32, 0x33, 0x34, 0x35, 0x36, 0x37, 0x38, 0x39] = 0xCBF43926 := by decide +kernel
theorem test_keepalive_bytes : (linkFrame 0x03 none []).take 4 = [0xA5, 0x01, 0x00, 0x03] := by decide +kernel
theorem test_go_bytes : (TxFrame.go 5 16).bytes.take 6 = [0xA5, 0x03, 0x00, 0x82, 0x05, 0x10] := by decide +kernel
theorem test_read_frame_is_received :
    receive .p1 400 .hunt (((frameOf (.read .p1 9 0x00012345 16)).map (·.2)).getD []) =
      ([.valid (.read .p1 9 0x00012345 16)], .hunt) := by decide +kernel
theorem test_bad_length_is_hunted_again : receive .p0 100 .hunt [0xA5, 0x00, 0x00] = ([.bad], .hunt) := by decide +kernel
theorem test_bad_crc_is_counted :
    receive .p0 100 .hunt [0xA5, 0x01, 0x00, 0x03, 0x00, 0x00, 0x00, 0x00] = ([.bad], .hunt) := by decide +kernel
theorem test_record_sizes :
    (base.statusOf .p0).bytes.length = 84 ∧ infoBytes.length = 40 ∧ Settings.default.bytes.length = 40 ∧
      (FaultRec.bytes { seq := 1, ms := 0, hours := 0, info := { kind := .metadataReset } }).length = 64 := by
  decide +kernel

/-! ### One step of an event -/

theorem test_OPEN : sent (run (.openReq .p0 3 7 20 0 1) (sess0 (fun _ => {}) base)) =
    [.completion 3 .ok codeOpen (.opened 1 32 20 0)] := by decide +kernel
theorem test_CLOSE_drains_at_once : sent (run (.closeReq .p0 3) base) = [.completion 3 .ok codeClose .none] ∧
    ((run (.closeReq .p0 3) base).session .p0).state = .closed := by decide +kernel
theorem test_FENCE : ((run (.fence .p0 3 1) base).session .p1).state = .closed ∧
    ((run (.fence .p0 3 1) base).session .p1).fenced = true := by decide +kernel
theorem test_UNFENCE : ((runs [.fence .p0 3 1, .unfence .p0 3 1] base).session .p1).fenced = false := by decide +kernel
theorem test_READ_of_a_staged_block : starts (run (.read .p0 2 7 1) (staged [frame 0 .dirty 7] base)) =
    [[0xA5, 0x03, 0x02, 0x83, 0x02, 0x00, 0x01], [0xA5, 0x06, 0x00, 0x81, 0x02, 0x00, 0x10]] := by decide +kernel
theorem test_READ_of_the_media : ((run (.read .p0 0 7 1) (written 7 base)).media.current.map fun o =>
    match o.op with
    | .portRead r l => [r.index, r.block, r.seen[511].toNat, l]
    | _ => []) = some [0, 7, 3, 7] := by decide +kernel
theorem test_WRITE_is_admitted : sent (run (.write .p0 2 7 2 0) base) = [.go 2 2] ∧
    (run (.write .p0 2 7 2 0) base).sb.count .filling = 2 := by decide +kernel
theorem test_WRITE_is_programmed :
    (storeGet (runs [.write .p0 2 7 1 0, .dataIn .p0 2 0 (block 9), .programFirstAttemptEnd true] base).disk.store 7).map
      (·[511]) = some 9 := by decide +kernel
theorem test_MARK_waits_for_the_commit :
    ((run (.mark .p0 2 7 1 1) base).poisonOf 7).map (·.kind) = some .reported ∧
      (run (.mark .p0 2 7 1 1) base).cmds.recs.map (·.state) = [.settling] := by decide +kernel
theorem test_FLUSH_of_nothing : sent (run (.flush .p0 2 1) base) = [.completion 2 .ok codeFlush (.flush 0 0)] := by
  decide +kernel
theorem test_ABORT_of_a_free_tag : sent (run (.abort .p0 2 3) base) = [.completion 2 .noSuchTag codeAbort .none] := by
  decide +kernel
theorem test_ABORT_of_a_filling_write : sent (runs [.write .p0 3 7 1 0, .abort .p0 2 3] base) =
    [.go 3 1, .completion 3 .aborted codeWrite .none, .completion 2 .ok codeAbort .none] := by decide +kernel
theorem test_LEASE_ACQUIRE : sent (run (.leaseAcquire .p0 2 0 10 2 5 0) base) =
    [.completion 2 .ok codeLeaseAcquire (.leaseAcquire 1 0 50)] := by decide +kernel
theorem test_LEASE_ACQUIRE_waits : (run (.leaseAcquire .p0 2 5 1 1 5 9) (leased (lease1 .p1 1) base)).lease.waits.length = 1 :=
  by decide +kernel
theorem test_LEASE_RENEW : sent (run (.leaseRenew .p0 2 1 200) (leased (lease1 .p0 1) base)) =
    [.completion 2 .ok codeLeaseRenew (.leaseRenew 2000)] := by decide +kernel
theorem test_LEASE_RELEASE : (run (.leaseRelease .p0 2 1) (leased (lease1 .p0 1) base)).lease.table = [] := by decide +kernel
theorem test_LEASE_QUERY_of_no_lease : sent (run (.leaseQuery .p0 2 20 1) (leased (lease1 .p1 1) base)) =
    [.completion 2 .ok codeLeaseQuery (.leaseQuery [])] := by decide +kernel
theorem test_SCRUB_START : (run (.scrubStart .p0 2) (windowed 7 9 base)).scrub.state = .running ∧
    (run (.scrubStart .p0 2) (windowed 7 9 base)).scrub.pending = true := by decide +kernel
theorem test_a_scrub_pass : sent (runs [.scrubStart .p0 2, .commitEnd true, .scrubReadEnd .good, .scrubReadEnd .good]
    (windowed 7 8 base)) = [.completion 2 .ok codeScrubStart .none,
      .notice 0 0 (.scrubEnded { reason := .completed, startedBy := some (.port .p0), counts := { checked := 2 } })] := by
  decide +kernel
theorem test_SCRUB_STOP_without_a_pass : sent (run (.scrubStop .p0 2) base) =
    [.completion 2 .notRunning codeScrubStop .none] := by decide +kernel
theorem test_SETTINGS_READ : sent (run (.settingsRead .p0 2) base) =
    [.completion 2 .ok codeSettingsRead (.settings .default)] := by decide +kernel
theorem test_SETTINGS_WRITE : sent (runs [.settingsWrite .p0 2 ⟨5, 0, ⟨0, 0, 9⟩, ⟨0, 0, 9⟩, ⟨0, 0, 9⟩, ⟨0, 0, 9⟩⟩,
    .commitEnd true] base) = [.completion 2 .ok codeSettingsWrite .none] := by decide +kernel
theorem test_METADATA_RESET_outside_SAFE : sent (run (.metadataReset .p0 2) base) =
    [.completion 2 .notSafe codeMetadataReset .none] := by decide +kernel
theorem test_METADATA_RESET_in_SAFE : (runs [.metadataReset .p0 2, .resetCopyWriteEnd true, .resetCopyWriteEnd true]
    (inDevice .safe base)).md.device = .ready := by decide +kernel
theorem test_STATUS : sent (run (.status .p0 2) base) =
    [.completion 2 .ok codeStatus (.status (base.statusOf .p0))] := by decide +kernel
theorem test_INFO : sent (run (.info .p0 2) base) = [.completion 2 .ok codeInfo .info] := by decide +kernel
theorem test_FAULT_READ : sent (run (.faultRead .p0 2 0 32) base) =
    [.completion 2 .ok codeFaultRead (.faultRead 0 0 [])] := by decide +kernel
theorem test_an_undefined_kind : sent (run (.undefinedKind .p0 2 0x53) base) = [.completion 2 .invalid 0x53 .none] := by
  decide +kernel
theorem test_DATA_IN_without_a_WRITE : ((run (.dataIn .p0 2 0 (block 0)) base).lc .p0).errors = 1 := by decide +kernel
theorem test_DATA_IN_completes_a_WRITE : sent (runs [.write .p0 2 7 1 0, .dataIn .p0 2 0 (block 9)] base) =
    [.go 2 1, .completion 2 .ok codeWrite (.write 1 0)] := by decide +kernel
theorem test_KEEPALIVE : ((run (.keepalive .p0) (atMs 5 base)).session .p0).deadline = some 1005 := by decide +kernel
theorem test_BAD_FRAME : ((run (.badFrame .p0 [0xA5, 0x00, 0x00]) base).lc .p0).errors = 1 := by decide +kernel
theorem test_a_character_error_in_a_frame : ((runs [.delimiterReceived .p0, .characterError .p0, .pnrxdReturns .p0]
    base).lc .p0).errors = 1 := by decide +kernel
theorem test_LINK_RESET : ((run (.linkReset .p0) base).session .p0).state = .closed := by decide +kernel
theorem test_BREAK_END : ((runs [.linkReset .p0, .breakEnd .p0] base).lc .p0).breakHeld = false := by decide +kernel
theorem test_PnRDY : ((run (.pnrdyRise .p0) base).lc .p0).rdy = true ∧
    ((runs [.pnrdyRise .p0, .pnrdyFall .p0] base).lc .p0).rdy = false := by decide +kernel
theorem test_FINISH_SENDING : sent (runs [.pnrdyRise .p0, .info .p0 2, .finishSending .p0] base) = [] := by decide +kernel
theorem test_HELD_FRAME_ENTRY : (sent (run (.heldFrameEntry .p0)
    (link0 (fun l => { l with held := [{ frame := .go 2 1 }] }) base))) = [.go 2 1] := by decide +kernel
theorem test_SILENCE_EXPIRY : ((run (.silenceExpiry .p0) (atMs 1000 base)).session .p0).state = .closed ∧
    ((run (.silenceExpiry .p0) (atMs 999 base)).session .p0).state = .opened := by decide +kernel
theorem test_DATA_DEADLINE_EXPIRY : sent (runs [.write .p0 2 7 1 0, .dataDeadlineExpiry .p0 2] base) = [.go 2 1] ∧
    sent (run (.dataDeadlineExpiry .p0 2) (atMs 250 (run (.write .p0 2 7 1 0) base))) =
      [.go 2 1, .completion 2 .dataTimeout codeWrite .none] := by decide +kernel
theorem test_LEASE_DEADLINE_EXPIRY : sent (run (.leaseDeadlineExpiry 1) (atMs 1000 (leased (lease1 .p0 1) base))) =
    [.notice 0 1000 (.leaseLapsed 1 0 10 .exclusive 1000)] := by decide +kernel
theorem test_WAIT_DEADLINE_EXPIRY : sent (run (.waitDeadlineExpiry .p0 2)
    (atMs 9 (run (.leaseAcquire .p0 2 5 1 1 5 9) (leased (lease1 .p1 1) base)))) =
      [.completion 2 .leaseWaitExpired codeLeaseAcquire .none] := by decide +kernel
theorem test_a_release_grants_a_wait : sent (runs [.leaseAcquire .p0 2 5 1 1 5 9, .leaseRelease .p1 0 1]
    (leased (lease1 .p1 1) base)) = [.completion 2 .ok codeLeaseAcquire (.leaseAcquire 1 0 50)] := by decide +kernel
theorem test_LIFETIME_HOURS_INCREMENT : (run .lifetimeHoursIncrement (atMs 3600000 base)).time.hours = 1 ∧
    (run .lifetimeHoursIncrement (atMs 3599999 base)).time.hours = 0 := by decide +kernel
theorem test_PORT_READ_END : starts (run (.portReadEnd .good) (run (.read .p0 2 7 1) (written 7 base))) =
    [[0xA5, 0x03, 0x02, 0x83, 0x02, 0x00, 0x03], [0xA5, 0x06, 0x00, 0x81, 0x02, 0x00, 0x10]] := by decide +kernel
theorem test_PORT_READ_END_uncorrectable : sent (runs [.read .p0 2 7 1, .portReadEnd .uncorrectable] base) =
    [.completion 2 .unreadable codeRead (.read 0 none)] := by decide +kernel
/-- R70: the eighth read in a row lets the program of the block through before the read. -/
theorem test_a_READ_delivers_what_its_lookup_found :
    let x := having { reading with inProgress := some 0 } (busy (.refreshRead 9 9 9) (queued [0] (staged [frame 0 .dirty 7]
      (base.withMedia { portReads := [portReq], readRun := 8 }))))
    let y := runs [.refreshReadEnd .good, .programFirstAttemptEnd true, .portReadEnd .good] x
    (storeGet y.disk.store 7).map (·[511]) = some 1 ∧ (starts y).map (·.drop 6) = [[0x03], [0x10]] := by decide +kernel
/-- R60: an event releases the READ of tag 3, and its scan, which fails the WRITE of tag 0, the older READ of tag 2. -/
theorem test_READs_are_released_in_order_of_receipt :
    let c := fun (t : Tag) code q start hs =>
      { cmd code q with key := ⟨.p0, t⟩, receipt := t.val, start := start, count := 1, holdSet := hs }
    let x := (leased (lease1 .p1 1) (staged [{ frame 0 .filling 8 with cmd := some ⟨.p0, 1⟩, data := none }] base)).withCmds
      { recs := [c 0 codeWrite .queued 7 [], c 1 codeWrite .filling 8 [], c 2 codeRead .held 7 [0], c 3 codeRead .held 8 [1]]
        queue := [⟨.p0, 0⟩], nextReceipt := 4 }
    let y := run (.abort .p0 9 1) x
    y.media.portReads.map (·.receipt) = [3] ∧ (y.cmds.byReceipt 2).map (·.inProgress) = some (some 0) ∧
      sent y = [.completion 0 .leaseConflict codeWrite .none, .completion 1 .aborted codeWrite .none,
        .completion 9 .ok codeAbort .none] := by decide +kernel
/-- R60: the same where the older READ is set free by a later round: the scan fails the last WRITE of a CLOSING port, whose
drain gives up its lease, a waiting lease is granted, and the WRITE that holds the older READ fails on it. -/
theorem test_READs_of_two_rounds_are_released_in_order_of_receipt :
    let c := fun (p : Port) (t : Tag) code q r start hs n =>
      { cmd code q with key := ⟨p, t⟩, receipt := r, start := start, count := n, holdSet := hs }
    let frames := { frame 0 .filling 60 with cmd := some ⟨.p0, 1⟩, data := none } ::
      ((List.range 120).map fun i => { frame (i + 1) .dirty (100 + i) with writer := some (.port .p2), data := none })
    let x := ((((staged frames base).setSession .p1 { open1 with state := .closing }).setSession .p2 open1).setSession .p3
      open1).withCmds
        { recs := [c .p1 0 codeWrite .queued 0 20 [] 1, c .p0 0 codeWrite .queued 1 45 [] 16, c .p0 1 codeWrite .filling 2 60 [] 1,
            c .p0 2 codeRead .held 3 45 [1] 1, c .p0 3 codeRead .held 4 60 [2] 1, c .p1 1 codeClose .settling 5 0 [] 0,
            c .p3 0 codeLeaseAcquire .waiting 6 0 [] 0]
          queue := [⟨.p1, 0⟩, ⟨.p0, 0⟩], nextReceipt := 7 }
    let y := run (.abort .p0 9 1) (x.withLease { x.lease with
      table := [{ lease1 .p1 1 with start := 40, len := 1 }, { lease1 .p2 2 with start := 20 }]
      waits := [{ wait1 .p3 with start := 40 }] })
    y.media.portReads.map (·.receipt) = [4] ∧ (y.cmds.byReceipt 3).map (·.inProgress) = some (some 0) ∧
      (y.session .p1).state = .closed ∧ y.lease.table.map (·.holder) = [.p2, .p3] ∧
      sent y = [.completion 0 .leaseConflict codeWrite .none, .completion 1 .aborted codeWrite .none,
        .completion 9 .ok codeAbort .none] := by decide +kernel
theorem test_a_refresh : (runs [.portReadEnd .corrected, .refreshReadEnd .good]
    (run (.read .p0 2 7 1) (written 7 base))).sb.frames.map (fun f => (f.block, f.state, f.writer)) =
      [(7, .programming, some .refresh)] := by decide +kernel
theorem test_a_remap : (runs [.write .p0 2 7 1 0, .dataIn .p0 2 0 (block 9)] base).media.locate 7 = 7 ∧
    (run (.programSecondAttemptEnd true) (busy (.program 0 7 262144 (block 9) (some 0))
      (staged [frame 0 .programming 7] base))).media.locate 7 = 262144 := by decide +kernel
theorem test_third_commit_failure_makes_the_part_safe : (runs [.mark .p0 2 7 1 1, .commitEnd false, .commitEnd false,
    .commitEnd false] base).md.device = .safe := by decide +kernel
theorem test_MARK_completes_with_its_commit : sent (runs [.mark .p0 2 7 1 1, .commitEnd true] base) =
    [.completion 2 .ok codeMark (.mark 1 0)] := by decide +kernel
theorem test_the_part_is_held : (run (.partHeld .pwrGood) base).isHeld = true ∧
    ((run (.partHeld .pwrGood) base).session .p0).state = .closed ∧
    run (.keepalive .p0) (run (.partHeld .pwrGood) base) = run (.partHeld .pwrGood) base := by decide +kernel
theorem test_RESET : (runs [.partHeld .resetN, .reset] base).md.device = .starting ∧
    (runs [.partHeld .resetN, .partHeld .pwrGood, .heldInputChange .pwrGood, .reset] base).isHeld = false := by
  decide +kernel
theorem test_a_millisecond_passes : (st base).tick = st (atMs 1 base) ∧
    (st (atMs 999 base)).tick.pending = [.silenceExpiry .p0, .silenceExpiry .p1] := by decide +kernel

/-! ### Witnesses: states and operands that meet the hypotheses of the statements -/

/-- A part that keeps every law with something in every table. -/
def rich : Part :=
  ((leased (lease1 .p0 1) (queued [0] (staged [frame 0 .dirty 7] (having { cmd codeFlush .settling with
    waitSet := [{ block := 7, seq := 1 }] } (poisoned .media base))))).withMedia
      { refresh := [{ block := 9, origin := .read }], readRun := 8 })

theorem rich_steps : ∃ t, step { part := rich, pending := [.keepalive .p0] } = .next t := ⟨_, rfl⟩

theorem witness_IdleStepPassesAMillisecond : base.isHeld = false ∧ (run (.partHeld .resetN) base).isHeld = true := by
  decide +kernel

theorem witness_StepKeepsMetaLaw : rich.metaLaw := by
  unfold Part.metaLaw MetaImage.lawful remapLawful ringLawful
  refine ⟨by decide +kernel, by decide +kernel, fun x h => ?_, fun x h => ?_, fun m h => ?_, fun m h => ?_⟩
  · cases h; decide +kernel
  · cases h; decide +kernel
  · exact absurd h (by rw [show rich.writing = none by decide +kernel]; simp)
  · exact absurd h (by rw [show rich.md.resetImage = none by decide +kernel]; simp)

theorem witness_StepKeepsLeaseLaw : rich.leaseLaw := by unfold Part.leaseLaw Lease.apart; decide +kernel

theorem witness_StepKeepsSessionLaw : rich.sessionLaw := by
  unfold Part.sessionLaw
  refine ⟨by decide +kernel, by decide +kernel, fun p => ?_⟩
  cases p <;> decide +kernel

theorem witness_StepKeepsMetaLaw_of_the_room : rich.roomLaw := by
  unfold Part.roomLaw Part.startLaw
  refine ⟨by decide +kernel, fun x h => ?_, fun x h => ?_, fun m h => ?_, fun m h => ?_, by decide +kernel, by decide +kernel⟩
  · cases h; decide +kernel
  · cases h; decide +kernel
  · exact absurd h (by rw [show rich.writing = none by decide +kernel]; simp)
  · exact absurd h (by rw [show rich.md.resetImage = none by decide +kernel]; simp)

theorem witness_StepKeepsTableLaw : rich.tableLaw := by unfold Part.tableLaw; decide +kernel

theorem witness_StepKeepsFrameLaw : rich.frameLaw := by unfold Part.frameLaw; decide +kernel

theorem witness_StepKeepsFrameLaw_of_the_lists : rich.stagingLaw ∧ rich.quotaLaw := by
  refine ⟨⟨witness_StepKeepsFrameLaw, ?_, by decide +kernel, fun i => ?_, by decide +kernel, fun i => ?_, ?_⟩, fun p => ?_, ?_⟩
  · intro f hf g hg n
    rw [show rich.sb.frames = [frame 0 .dirty 7] from rfl, List.mem_singleton] at hf hg
    exact absurd (by rw [hf, hg]) n
  · show i ∈ [0] ↔ ∃ f ∈ [frame 0 .dirty 7], f.idx = i ∧ f.state = .dirty
    simp [frame, eq_comm]
  · show i ∈ [] ↔ ∃ f ∈ [frame 0 .dirty 7], f.idx = i ∧ f.state = .clean
    simp [frame]
  · show ∀ f ∈ [frame 0 .dirty 7], f.state = .filling → f.isMark = false
    simp [frame]
  · cases p <;> decide +kernel
  · decide +kernel

theorem witness_StepKeepsLimits :
    rich.linkLaw ∧ rich.storeLaw ∧ rich.readRunLaw ∧ rich.refreshLaw ∧ rich.commitLaw := by
  refine ⟨fun p => ?_, by unfold Part.storeLaw; decide +kernel, by unfold Part.readRunLaw; decide +kernel,
    by unfold Part.refreshLaw; decide +kernel, by decide +kernel, fun n h => absurd h ?_⟩
  · unfold Lc.lawful HeldFrame.lawful
    cases p <;> exact ⟨by decide +kernel, by decide +kernel, fun h hh => by cases hh⟩
  · simp [rich, leased, staged, having, poisoned, base, Part.withMedia, Part.withMd, Part.withLease, Part.withSb, Part.withCmds,
      Part.withInteg, Part.setSession, Part.withSess, queued]

theorem witness_MediaPinsAndTimeFrame : (∃ t, exec (.keepalive .p0) (st rich) = .next t) ∧
    ∃ t, exec (.commitEnd true) (st rich) = .next t := ⟨⟨_, rfl⟩, ⟨_, rfl⟩⟩

theorem witness_QueuesAndSessionsFrame : (∃ t, exec (.linkReset .p0) (st (loaded 1 rich)) = .next t) ∧
    (rich.session .p2).state = .closed ∧ ((sess0 (fun x => { x with state := .draining }) rich).session .p0).state = .draining :=
  ⟨⟨_, rfl⟩, by decide +kernel⟩

theorem witness_FollowUpsFrame : rich.isHeld = false ∧ rich.md.device = .ready ∧ Part.reset.md.device ≠ .ready ∧ (rich.session .p2).state = .closed ∧
    ((sess0 (fun x => { x with state := .draining }) rich).session .p0).state = .draining := by decide +kernel

theorem witness_FollowUpsFrame_of_a_quiet_event : waitScanDue base base = false ∧ admissionDue base base = false ∧
    (∀ c ∈ (having (cmd codeFlush .settling) base).cmds.recs, c.state ≠ .held) ∧ base.media.refresh = [] ∧
    base.scrub.phase ≠ .waitingRoom ∧ base.md.changes ≤ base.md.committed ∧
    (busy (.scrubRead 7 7) base).media.current ≠ none ∧ base.media.portReads = [] ∧ base.media.commitReq = none ∧
    base.sb.head = none ∧ base.media.refreshReads = [] ∧ base.media.scrubReq = none := by decide +kernel

theorem witness_FollowUpsFrame_of_the_sessions :
    ∀ p, (base.session p).state = .closed ∨ (base.session p).state = .opened := by
  intro p; cases p <;> decide +kernel

theorem witness_OverrunAndSessionCheck : requestFields (.info .p0 15) = some (.p0, 15, codeInfo, []) ∧
    (Instr.info .p0 15).wellFormed = true ∧ base.isHeld = false ∧ (base.lc .p0).low = false ∧
    32 ≤ ((loaded 32 base).lc .p0).responses ∧ ((loaded 31 base).lc .p0).responses < 32 ∧ codeInfo ≠ codeOpen ∧
    ((sess0 (fun _ => {}) (loaded 31 base)).session .p0).state ≠ .opened := by decide +kernel

theorem witness_ReceiptChecksRefuse : requestFields (.undefinedKind .p0 0 5) = some (.p0, 0, 5, []) ∧
    (Instr.undefinedKind .p0 0 5).wellFormed = true ∧ requestFields (.status .p0 0) = some (.p0, 0, codeStatus, []) ∧
    requestFields (.flush .p0 0 1) = some (.p0, 0, codeFlush, [1]) ∧ (base.session .p0).state = .opened ∧
    (∃ c ∈ (having (cmd codeFlush .settling) base).cmds.recs, c.key = ⟨.p0, 0⟩) := by decide +kernel

theorem witness_ReceiptChecksRefuse_without_the_tag : (¬ ∃ c ∈ base.cmds.recs, c.key = ⟨.p0, 0⟩) ∧ (5 : BitVec 8) ∉ requestCodes ∧ codeFlush ∈ requestCodes ∧
    (inDevice .safe base).md.device = .safe ∧
    codeFlush ∉ [codeInfo, codeStatus, codeFaultRead, codeOpen, codeClose, codeMetadataReset] := by decide +kernel

/-- Every request reaches the block that serves it from `base`; METADATA RESET too when the device is SAFE. -/
theorem witness_accepts : (∀ code ∈ requestCodes, base.accepts .p0 0 code ∧ base.accepts .p0 15 code) ∧
    (inDevice .safe base).accepts .p0 0 codeMetadataReset := by
  unfold Part.accepts; decide +kernel

theorem witness_BlockFieldsRefuse :
    let low := sess0 (fun x => { x with quota := 15 }) base
    (low.accepts .p0 0 codeWrite ∧ low.accepts .p0 0 codeMark ∧ base.accepts .p0 0 codeRead) ∧ 16 < (17#8).toNat ∧
      (16#8).toNat = 16 ∧ 262144 < (262129#32).toNat + 16 ∧ (262128#32).toNat + 16 ≤ 262144 ∧ (low.session .p0).quota < 16 := by
  unfold Part.accepts; decide +kernel

theorem witness_OpenMakesTheSession :
    let x := sess0 (fun _ => { quota := 1 }) (staged [frame 0 .dirty 7, frame 1 .dirty 8] base)
    let y := sess0 (fun _ => { fenced := true }) base
    x.accepts .p0 0 codeOpen ∧ y.accepts .p0 0 codeOpen ∧ (inDevice .starting base).accepts .p0 0 codeOpen ∧
      (inDevice .starting base).md.device = .starting ∧ (y.session .p0).fenced = true ∧ (base.session .p0).state = .opened ∧
      ((sess0 (fun x => { x with state := .draining }) base).session .p0).state = .draining ∧
      (x.session .p0).state = .closed ∧ x.sb.attr (.port .p0) = 2 ∧ (20#16).toNat = 20 ∧ (10000#16).toNat = 10000 ∧
      (96#8).toNat = 96 := by
  unfold Part.accepts; decide +kernel

theorem witness_CloseBeginsTheDrain : rich.accepts .p0 9 codeClose := by unfold Part.accepts; decide +kernel

theorem witness_FenceEndsTheTarget : base.accepts .p0 0 codeFence ∧ 4 ≤ (4#8).toNat ∧ (0#8).toNat = Port.p0.toNat ∧
    (3#8).toNat = Port.p3.toNat ∧ (base.session .p3).fenced = false ∧ ((run (.fence .p1 0 3) base).session .p3).fenced = true ∧
    (run (.fence .p1 0 3) base).accepts .p0 0 codeFence := by unfold Part.accepts; decide +kernel

theorem witness_UnfenceClearsTheFlag : base.isHeld = false ∧ (base.lc .p0).low = false ∧ (base.lc .p0).responses < 32 ∧
    (base.lc .p2).responses < 32 ∧ (base.session .p2).state ≠ .opened ∧ (base.session .p0).state = .opened ∧
    base.cmds.at? ⟨.p0, 0⟩ = none ∧ (inDevice .safe base).md.device = .safe ∧ base.md.device ≠ .safe ∧
    ((run (.fence .p1 0 3) base).session .p3).fenced = true ∧ (base.session .p3).fenced = false ∧
    (3#8).toNat = Port.p3.toNat ∧ (0#8).toNat = Port.p0.toNat ∧ 4 ≤ (4#8).toNat := by decide +kernel

theorem witness_ReadIsHeldOrReads : base.accepts .p0 1 codeRead ∧
    (having { cmd codeWrite .queued with count := 16 } base).accepts .p0 1 codeRead ∧ 1 ≤ (16#8).toNat ∧ (16#8).toNat ≤ 16 ∧
    (0#32).toNat + 16 ≤ 262144 ∧ overlaps 0 16 (15#32).toNat 1 = true := by unfold Part.accepts; decide +kernel

theorem witness_ReadTakesItsNextBlock :
    let y := having { reading with count := 2 } (staged [{ frame 0 .dirty 7 with data := none }] base)
    let x := having reading base
    let m := fun k => having reading (staged [markFrame 0 7 k] base)
    let e := fun k => having reading (poisoned k base)
    (x.cmds.byReceipt 0 = some reading ∧ reading.state = .reading ∧ reading.inProgress = none ∧ reading.dataPending = none) ∧
      x.lookup 7 = .media ∧ (m .quiet).lookup 7 = .mark .quiet (some .p0) ∧
      (m .reported).lookup 7 = .mark .reported (some .p0) ∧ (e .media).lookup 7 = .poison (poison1 7 .media) ∧
      (e .quiet).lookup 7 = .poison (poison1 7 .quiet) ∧ (e .reported).lookup 7 = .poison (poison1 7 .reported) ∧
      y.cmds.byReceipt 0 = some { reading with count := 2 } := by decide +kernel

theorem witness_ReadTakesItsNextBlock_of_a_delivery :
    let c := { reading with count := 2 }
    let at' := fun n => ((loaded n (having c base)).deliver c (block 1)).lc .p0
    ((loaded 31 base).lc .p0).responses = 31 ∧ ((at' 31).txq.length, (at' 31).held.length) = (32, 0) ∧
      ((at' 32).txq.length, (at' 32).held.length) = (32, 1) ∧ c.next + 1 < c.count ∧ reading.count ≤ reading.next + 1 := by
  decide +kernel

theorem witness_a_lookup_finds_data : ∃ d, (having reading (staged [frame 0 .dirty 7] base)).lookup 7 = .data d := ⟨_, rfl⟩

theorem witness_LookupFindsTheVisibleCopy :
    let x := staged [frame 0 .dirty 7, frame 1 .programming 8, frame 2 .clean 9] base
    (x.sb.inState .dirty 7).isSome = true ∧ (x.sb.inState .dirty 8).isSome = false ∧
      (x.sb.inState .programming 8).isSome = true ∧ (x.sb.inState .dirty 9).isSome = false ∧
      (x.sb.inState .programming 9).isSome = false ∧ (x.sb.inState .clean 9).isSome = true ∧
      (x.sb.inState .clean 10).isSome = false := by decide +kernel

theorem witness_LookupFindsTheVisibleCopy_of_a_frame : (frame 0 .dirty 7).content = .data ∧ (markFrame 0 7 .quiet).content = .mark .quiet ∧
    (markFrame 0 7 .quiet).writer = some (.port .p0) ∧
    (((staged [frame 2 .clean 9] base).withSb { frames := [frame 2 .clean 9], clean := [2, 5] }).touch 9).sb.clean = [5, 2] := by
  decide +kernel

theorem witness_WriteAndMarkAreQueued : base.accepts .p0 0 codeWrite ∧ base.accepts .p0 0 codeMark ∧
    (16#8).toNat ≤ ((sess0 (fun x => { x with quota := 16 }) base).session .p0).quota ∧
    (262128#32).toNat + (16#8).toNat ≤ 262144 := by unfold Part.accepts; decide +kernel

theorem witness_FlushWaitsOnItsSet : base.accepts .p0 0 codeFlush ∧
    (staged [frame 0 .dirty 7] base).accepts .p0 0 codeFlush ∧ base.sb.frames = [] ∧
    (staged [frame 0 .dirty 7] base).sb.frames.countP (fun f => decide (f.state = .dirty) && decide (f.writer = some (.port .p0)))
      = 1 := by unfold Part.accepts; decide +kernel

theorem witness_AbortEndsItsTarget : (∀ q ∈ [CmdState.queued, .held, .waiting, .filling, .reading, .settling, .sending],
      (having (cmd codeRead q) base).accepts .p0 15 codeAbort ∧
        (having (cmd codeRead q) base).cmds.at? ⟨.p0, 0⟩ = some (cmd codeRead q)) ∧
    (having { reading with inProgress := some 0 } base).accepts .p0 15 codeAbort ∧ 16 ≤ (16#8).toNat ∧
    (15#8).toNat = (15 : Tag).val ∧ (0#8).toNat = (0 : Tag).val ∧ base.cmds.at? ⟨.p0, 0⟩ = none := by
  unfold Part.accepts; decide +kernel

theorem witness_CompletionEntersTheQueue :
    let x := link0 (fun l => { l with held := [{ frame := .go 0 1 }] }) (having (cmd codeWrite .filling) base)
    (∀ h ∈ (base.lc .p0).held, h.frame.tag ≠ some 0) ∧ (∃ h ∈ (x.lc .p0).held, h.frame.tag = some 0) ∧
      (∃ d ∈ x.cmds.recs, d.receipt = 0) := by decide +kernel

/-- Two completions of two commands, with a notice between them. -/
theorem test_completions_stand_in_the_order_of_receipt :
    let done := fun t => TxFrame.completion t .ok codeInfo .info
    let n := TxFrame.notice 0 0 (.dataLost 0 0)
    arrange (fun t => some t.val) [done 1, n, done 0] = [done 0, done 1, n] ∧
      arrange (fun t => if t = 0 then none else some 9) [done 0, done 1] = [done 1, done 0] := by decide +kernel

/-- R54: a GO stays behind the completions of its scan that are queued before it, and before those queued after it. -/
theorem test_the_frames_of_a_scan_stand_in_queue_order :
    let done := fun t => TxFrame.completion t .ok codeInfo .info
    arrange (fun t => some t.val) [done 2, .go 0 1, done 1] = [.go 0 1, done 1, done 2] ∧
      arrange (fun t => some t.val) [done 5, done 7, .go 8 1, done 6] = [done 5, done 6, done 7, .go 8 1] := by decide +kernel

theorem witness_CompletionEntersTheQueue_of_a_pair :
    let done := TxFrame.completion 1 .ok codeInfo .info
    [TxFrame.go 0 1, done].Sublist [.go 0 1, done, .go 2 1] ∧ [done, TxFrame.go 2 1].Sublist [.go 0 1, done, .go 2 1] ∧
      ((0 : Tag).val ≤ (1 : Tag).val ∧ ¬ (2 : Tag).val ≤ (1 : Tag).val) := by decide +kernel

/-- 32 leases of P1, one block each from block 100 on. -/
def fullTable (x : Part) : Part :=
  x.withLease { x.lease with table := (List.range 32).map fun i =>
    { lease1 .p1 (BitVec.ofNat 16 (i + 1)) with start := 100 + i, len := 1 } }

/-- 16 entries of P1 wait. -/
def fullWaits (x : Part) : Part :=
  x.withLease { x.lease with waits := (List.range 16).map fun i => { wait1 .p1 with start := 200 + i, len := 1 } }

theorem witness_LeaseAcquireOutcomes :
    (base.accepts .p0 0 codeLeaseAcquire ∧ (fullTable base).accepts .p0 0 codeLeaseAcquire ∧
      (fullWaits (fullTable base)).accepts .p0 0 codeLeaseAcquire ∧
      (leased (lease1 .p0 1) base).accepts .p0 0 codeLeaseAcquire) ∧
      (60000#16).toNat = 60000 ∧ (60001#16).toNat = 60001 ∧ (10000#16).toNat ≤ 10000 ∧ 262144 < (262144#32).toNat + (1#32).toNat ∧
      (0#32).toNat + (262144#32).toNat ≤ 262144 := by
  unfold Part.accepts; decide +kernel

theorem witness_LeaseAcquireOutcomes_of_the_tables :
    let x := leased (lease1 .p1 1) base
    x.leaseBlocked .p0 9 1 .exclusive = true ∧ x.leaseBlocked .p0 10 1 .exclusive = false ∧ x.lease.waits.length < 16 ∧
      overlaps 0 10 (9#32).toNat (1#32).toNat = true ∧
      (fullTable base).leaseBlocked .p0 0 1 .shared = false ∧ 32 ≤ (fullTable base).lease.table.length ∧
      16 ≤ (fullWaits (fullTable base)).lease.waits.length ∧
      (fullWaits base).leaseBlocked .p0 0 1 .shared = false ∧
      (let w := staged [frame 0 .filling 5] base
       w.leaseBlocked .p0 5 1 .shared = true ∧ w.leaseBlocked .p0 5 1 .exclusive = false ∧
         w.leaseBlocked .p1 5 1 .exclusive = true ∧ w.leaseBlocked .p0 4 1 .shared = false) ∧
      (∀ e ∈ (fullWaits base).lease.waits, e.against 0 1 .shared = false) := by decide +kernel

theorem witness_LeaseRenewAndRelease :
    let x := leased (lease1 .p0 1) base
    (x.accepts .p0 0 codeLeaseRenew ∧ x.accepts .p0 0 codeLeaseRelease) ∧ (∃ l ∈ x.lease.table, l.id = 1 ∧ l.holder = .p0) ∧
      (∀ l ∈ x.lease.table, l.id ≠ 2) ∧ (60000#16).toNat ≤ 60000 ∧ 60000 < (60001#16).toNat := by
  unfold Part.accepts; decide +kernel

theorem witness_LeaseQueryReports : rich.accepts .p0 9 codeLeaseQuery ∧ (0#32).toNat + (262144#32).toNat ≤ 262144 ∧
    (262144#32).toNat ≠ 0 ∧ 262144 < (1#32).toNat + (262144#32).toNat := by unfold Part.accepts; decide +kernel

theorem witness_ScrubStartAndStop :
    let x := windowed 7 7 base
    let y := run (.scrubStart .p1 0) x
    (x.accepts .p0 0 codeScrubStart ∧ x.accepts .p0 0 codeScrubStop ∧ y.accepts .p0 0 codeScrubStart ∧
      y.accepts .p0 0 codeScrubStop) ∧ x.scrub.state = .idle ∧ y.scrub.state ≠ .idle ∧
      base.md.settings.enabledFrom 0 = none ∧ x.md.settings.enabledFrom 0 = some 0 ∧
      x.md.settings.window 0 = some { enabled := true, first := 7, last := 7 } := by unfold Part.accepts; decide +kernel

theorem test_the_end_of_a_pass_is_recorded :
    let x := (base.withScrub { state := .running, counts := { checked := 2 } }).endPass .stopped
    let n := ({ reason := .stopped, startedBy := none, counts := { checked := 2 } } : ScrubSummary)
    sent x = [.notice 0 0 (.scrubEnded n)] ∧ x.faults.ring.map (·.info.kind) = [.scrubPass] ∧ x.md.changes = 2 := by
  decide +kernel

theorem witness_ScrubPassStops : base.scrub.state ≠ .running ∧
    ∀ q ∈ [CheckPhase.absent, .requested, .reading, .waitingRoom],
      (base.withScrub { state := .running, phase := q }).scrub.state = .running ∧
        (base.withScrub { state := .running, phase := q }).scrub.phase = q := by decide +kernel

/-- The largest settings, with window 0 enabled. -/
def rawSettings : RawSettings :=
  { threshold := 255, period := 168, w0 := ⟨1, 0, 262143⟩, w1 := ⟨0, 0, 262143⟩, w2 := ⟨0, 0, 262143⟩, w3 := ⟨0, 0, 262143⟩ }

theorem witness_SettingsReadAndWrite :
    let y := run (.scrubStart .p1 0) (windowed 7 7 base)
    (base.accepts .p0 0 codeSettingsRead ∧ base.accepts .p0 0 codeSettingsWrite ∧ y.accepts .p0 0 codeSettingsWrite) ∧
      (settingsOf rawSettings).isSome = true ∧ settingsOf { rawSettings with threshold := 256 } = none ∧
      settingsOf { rawSettings with period := 169 } = none ∧ settingsOf { rawSettings with w3 := ⟨0, 1, 262144⟩ } = none ∧
      y.scrub.state ≠ .idle ∧ (settingsOf rawSettings).map (·.w0) ≠ some y.md.settings.w0 ∧ base.scrub.state = .idle := by
  unfold Part.accepts; decide +kernel

theorem witness_SettingsReadAndWrite_of_the_ranges :
    (rawSettings.threshold.toNat = 255 ∧ rawSettings.period.toNat = 168 ∧
      ∀ w ∈ [rawSettings.w0, rawSettings.w1, rawSettings.w2, rawSettings.w3],
        (w.enabled = 0 ∨ w.enabled = 1) ∧ w.first.toNat ≤ w.last.toNat ∧ w.last.toNat = 262143) ∧
      settingsOf { rawSettings with w0 := ⟨2, 0, 0⟩ } = none ∧ settingsOf { rawSettings with w2 := ⟨0, 1, 0⟩ } = none ∧
      (settingsOf { rawSettings with w1 := ⟨0, 5, 5⟩ }).isSome = true := by decide +kernel

theorem witness_MetadataResetTakesEffect :
    let x := inDevice .safe base
    let y := run (.metadataReset .p1 0) x
    (base.accepts .p0 0 codeMetadataReset ∧ x.accepts .p0 0 codeMetadataReset ∧ y.accepts .p0 0 codeMetadataReset) ∧
      base.md.device ≠ .safe ∧ x.md.device = .safe ∧ x.md.resetImage = none ∧ y.md.device = .safe ∧ y.md.resetImage ≠ none := by
  unfold Part.accepts; decide +kernel

theorem witness_MetadataResetTakesEffect_of_an_operation : (inDevice .safe base).media.current = none ∧
    ∀ op, (busy op (inDevice .safe base)).media.current = some { op := op, discard := false } := ⟨rfl, fun _ => rfl⟩

theorem witness_StatusReportsTheState : rich.accepts .p0 9 codeStatus ∧ rich.frameLaw ∧ rich.sb.frames ≠ [] := by
  unfold Part.accepts Part.frameLaw; decide +kernel

theorem witness_InfoIsFixed : base.isHeld = false ∧ (base.lc .p0).low = false ∧ ((loaded 31 base).lc .p0).responses < 32 ∧
    (base.session .p0).state = .opened ∧ base.cmds.at? ⟨.p0, 15⟩ = none := by decide +kernel

theorem witness_FaultReadReturnsRecords :
    let x := (inDevice .safe base).appendFault { kind := .metadataReset }
    (x.isHeld = false ∧ (x.lc .p0).low = false ∧ (x.lc .p0).responses < 32 ∧ (x.session .p0).state = .opened ∧
      x.cmds.at? ⟨.p0, 0⟩ = none ∧ x.faults.ring.length = 1) ∧ (31#8).toNat ≤ 31 ∧ 1 ≤ (32#8).toNat ∧ (32#8).toNat ≤ 32 ∧
      31 < (32#8).toNat ∧ (0#8).toNat = 0 ∧ 32 < (33#8).toNat := by decide +kernel

theorem witness_FaultRecordsAndNotices :
    let x := link0 (fun l => { l with txq := List.replicate 8 (.notice 0 0 (.dataLost 0 0)), lost := 65535 }) base
    (base.lc .p0).notices < 8 ∧ 8 ≤ (x.lc .p0).notices ∧ (base.session .p0).state = .opened ∧ (base.session .p2).state ≠ .opened := by
  decide +kernel

theorem witness_DataFramesAndKeepalive :
    let c := fun (n : Nat) (d : Bool) => { cmd codeWrite .filling with count := 2, next := n, durable := d }
    (∀ n ∈ [0, 1], ∀ d ∈ [false, true], (having (c n d) base).cmds.at? ⟨.p0, 0⟩ = some (c n d)) ∧ (c 0 false).code = codeWrite ∧
      base.isHeld = false ∧ ((run (.linkReset .p0) base).lc .p0).low = true ∧ (base.lc .p0).low = false ∧
      (∀ e ∈ base.cmds.recs, e.key ≠ ⟨.p0, 0⟩) := by decide +kernel

/-- The bytes of a frame of length 1 and kind 0x04, which the part does not take, with its CRC. -/
def badKind : List Byte := le 2 1 ++ [0x04] ++ le 4 (crc32 (le 2 1 ++ [0x04])).toNat

theorem witness_ReceivedBytesAreExamined :
    base.isHeld = false ∧ (base.lc .p0).low = false ∧ (badKind.take 6).length + 1 = 2 + 1 + 4 ∧
      checkFrame .p0 1 (badKind.take 6 ++ badKind.drop 6) = .bad ∧ (frameOf (.keepalive .p0)).isSome = true ∧
      (link0 (fun l => { l with framing := .body 1 (badKind.take 6) }) base).links.p0.framing = .body 1 (badKind.take 6) := by
  decide +kernel

/-- A frame's bytes after its delimiter, with its CRC. -/
def spelt (body : List Byte) : List Byte :=
  let covered := le 2 body.length ++ body
  covered ++ le 4 (crc32 covered).toNat

theorem witness_ReceivedBytesAreExamined_of_a_check :
    let is := fun n body => checkFrame .p0 n (spelt body)
    is 1 [0x03] = .valid (.keepalive .p0) ∧ checkFrame .p0 1 (le 2 1 ++ [0x03] ++ le 4 0) = .badCrc ∧ is 2 [0x03, 0] = .bad ∧
      is 3 [0x01, 15, 0x50] = .valid (.status .p0 15) ∧ is 3 [0x01, 16, 0x50] = .bad ∧ is 4 [0x01, 15, 0x50, 0] = .bad ∧
      is 2 [0x01, 15] = .bad ∧ is 3 [0x02, 0, 0] = .bad ∧ is 4 [0x01, 0, 0x53, 0] = .valid (.undefinedKind .p0 0 0x53) := by
  decide +kernel

theorem witness_ReceivedBytesAreExamined_of_a_length :
    (receive .p0 9 (.header [0x00]) [0x00], receive .p0 9 (.header [0x04]) [0x02]) = (([.bad], .hunt), ([.bad], .hunt)) ∧
      receive .p0 9 (.header [0x01]) [0x00] = ([], .body 1 [0x01, 0x00]) ∧
      receive .p0 9 (.header [0x03]) [0x02] = ([], .body 515 [0x03, 0x02]) ∧
      receive .p0 9 (.header [0xA5]) [0xA5] = ([.bad], .header [0xA5]) := by decide +kernel

theorem witness_LinkPinEvents :
    let e := fun (o : Option Bool) => link0 (fun l => { l with charErr := o }) base
    base.isHeld = false ∧ (base.lc .p0).low = false ∧ (base.lc .p0).framing = .hunt ∧ (base.lc .p0).breakHeld = false ∧
      ((e (some true)).lc .p0).low = true ∧ ((e (some true)).lc .p0).charErr = some true ∧
      ((e (some false)).lc .p0).charErr = some false ∧ ((run (.linkReset .p0) base).lc .p0).breakHeld = true := by
  decide +kernel

theorem witness_SendingAndHeldFrames :
    let x := link0 (fun l => { l with held := [{ frame := .go 0 1 }] }) (having (cmd codeWrite .filling) (loaded 31 base))
    x.isHeld = false ∧ ((run (.info .p0 2) (run (.pnrdyRise .p0) base)).lc .p0).sending = true ∧ (base.lc .p0).held = [] ∧
      (x.lc .p0).held = [{ frame := .go 0 1 }] ∧ (x.lc .p0).responses < 32 ∧ 32 ≤ ((loaded 32 x).lc .p0).responses ∧
      x.cmds.at? ⟨.p0, 0⟩ = some (cmd codeWrite .filling) ∧
      (having (cmd codeRead .sending) base).cmds.at? ⟨.p0, 0⟩ = some (cmd codeRead .sending) := by decide +kernel

theorem witness_ReachedDeadlines :
    let c := { cmd codeWrite .filling with deadline := some 250 }
    let w := { cmd codeLeaseAcquire .waiting with receipt := 0 }
    let x := having c (leased (lease1 .p0 1) (atMs 3600000 base))
    let y := having w (base.withLease { base.lease with waits := [wait1 .p0] })
    x.isHeld = false ∧ (x.session .p0).state = .opened ∧ (x.session .p0).deadline = some 1000 ∧
      ((atMs 1000 base).session .p0).deadline = some (atMs 1000 base).time.ms ∧ x.cmds.at? ⟨.p0, 0⟩ = some c ∧
      (x.lease.table.find? fun l => decide (l.id = 1)) = some (lease1 .p0 1) ∧ (lease1 .p0 1).deadline ≤ x.time.ms ∧
      (y.lease.waits.find? fun w => decide (w.key = ⟨.p0, 0⟩)) = some (wait1 .p0) ∧ (wait1 .p0).deadline ≤ y.time.ms ∧
      y.cmds.at? ⟨.p0, 0⟩ = some w ∧ x.time.hourDone < x.time.ms / 3600000 := by decide +kernel

theorem witness_WaitListScanGrants :
    let y := having (cmd codeLeaseAcquire .waiting) base
    base.isHeld = false ∧ base.md.device = .ready ∧ Part.reset.md.device ≠ .ready ∧
      (leased (lease1 .p1 1) base).leaseBlocked .p0 0 10 .exclusive = true ∧ (wait1 .p1).against 0 10 .exclusive = true ∧
      (staged [frame 0 .filling 9] base).leaseBlocked .p0 0 10 .shared = true ∧
      (staged [frame 0 .filling 9] base).leaseBlocked .p0 0 10 .exclusive = false ∧
      32 ≤ (fullTable base).lease.table.length ∧ y.leaseBlocked .p0 0 10 .exclusive = false ∧ y.lease.table.length < 32 ∧
      y.cmds.at? (wait1 .p0).key = some (cmd codeLeaseAcquire .waiting) := by decide +kernel

theorem witness_AdmissionOfOneEntry :
    let c := { cmd codeWrite .queued with count := 16 }
    let x := (having c base).withCmds { recs := [c], queue := [⟨.p0, 0⟩], nextReceipt := 1 }
    let m := { cmd codeMark .queued with count := 16 }
    let full := fun (n : Nat) => x.withInteg { poison := List.replicate n (poison1 7 .media) }
    x.isHeld = false ∧ x.md.device = .ready ∧ Part.reset.md.device ≠ .ready ∧ x.cmds.queue = [⟨.p0, 0⟩] ∧
      x.cmds.at? ⟨.p0, 0⟩ = some c ∧ (having m x).cmds.at? ⟨.p0, 0⟩ = some m ∧
      ((sess0 (fun x => { x with quota := 15 }) x).session .p0).quota < x.sb.attr (.port .p0) + 16 ∧
      x.sb.attr (.port .p0) + 16 ≤ ((sess0 (fun x => { x with quota := 16 }) x).session .p0).quota ∧
      x.rightsQuery .p0 0 16 = none ∧ (leased (lease1 .p1 1) x).rightsQuery .p0 0 16 = some .leaseConflict ∧
      512 < (full 497).integ.poison.length + x.sb.markFrames + 16 ∧ (full 496).integ.poison.length + x.sb.markFrames + 16 ≤ 512 := by
  decide +kernel

theorem witness_AdmissionOfOneEntry_of_the_frames :
    let few := staged ((List.range 113).map fun i => frame i .dirty (100 + i)) base
    few.sb.available < 16 ∧ 16 ≤ (staged ((List.range 112).map fun i => frame i .dirty (100 + i)) base).sb.available ∧
      ((loaded 31 base).lc .p0).responses < 32 ∧ 32 ≤ ((loaded 32 base).lc .p0).responses := by decide +kernel

/-- R55 to R57: one entry waits for quota, holds back one of its port that overlaps it, and a later entry is admitted. -/
theorem test_the_admission_scan_goes_on :
    let c := fun (t : Tag) start n => { cmd codeWrite .queued with key := ⟨.p0, t⟩, receipt := t.val, start := start, count := n }
    let x := (sess0 (fun x => { x with quota := 15 }) base).withCmds
      { recs := [c 0 0 16, c 1 15 1, c 2 20 1], queue := [⟨.p0, 0⟩, ⟨.p0, 1⟩, ⟨.p0, 2⟩], nextReceipt := 3 }
    sent (run .admission x) = [.go 2 1] ∧ (run .admission x).cmds.queue = [⟨.p0, 0⟩, ⟨.p0, 1⟩] := by decide +kernel

theorem witness_AdmissionOfOneEntry_of_a_step :
    let c := { cmd codeWrite .queued with count := 16 }
    let d := { cmd codeWrite .queued with key := ⟨.p0, 1⟩, receipt := 1, start := 15, count := 1 }
    let x := base.withCmds { recs := [c, d], queue := [⟨.p0, 0⟩, ⟨.p0, 1⟩], nextReceipt := 2 }
    x.cmds.at? ⟨.p0, 2⟩ = none ∧ x.cmds.at? d.key = some d ∧ overlaps c.start c.count d.start d.count = true ∧
      overlaps c.start c.count 16 1 = false ∧ x.sb.attr (.port .p0) + d.count ≤ (x.session .p0).quota ∧
      x.rightsQuery .p0 15 1 = none ∧ (leased { lease1 .p1 1 with len := 16 } x).rightsQuery .p0 15 1 = some .leaseConflict ∧
      (x.lc .p0).responses < 32 ∧ 32 ≤ ((loaded 32 x).lc .p0).responses := by decide +kernel

theorem witness_HeldReadsAndDrains :
    let c := { cmd codeRead .held with holdSet := [1] }
    let q := { cmd codeWrite .queued with receipt := 1 }
    let x := sess0 (fun x => { x with state := .closing }) (having (cmd codeClose .settling) base)
    let y := sess0 (fun x => { x with state := .draining }) base
    (having c base).cmds.recs = [c] ∧ c.state = .held ∧
      (base.withCmds { recs := [c, q] }).cmds.byReceipt 0 = some c ∧
      (base.withCmds { recs := [c, q] }).cmds.byReceipt 1 = some q ∧ q.state = .queued ∧ (x.session .p0).state = .closing ∧
      (x.cmds.recs.filter fun d => decide (d.key.port = .p0)) = [cmd codeClose .settling] ∧
      (y.session .p0).state = .draining ∧ (∀ d ∈ y.cmds.recs, d.key.port ≠ .p0) := by decide +kernel

theorem witness_ScrubAndRefreshSteps :
    let wr := fun (x : Part) => x.withScrub { state := .running, phase := .waitingRoom, inCheck := some 100 }
    let p := windowed 7 7 (base.withScrub { state := .running, pending := true, change := 0 })
    let a := windowed 7 7 (base.withTime { base.time with hours := 168 })
    let b := a.withMd { a.md with settings := { a.md.settings with period := 168 } }
    ((wr base).scrub.phase = .waitingRoom ∧ (wr base).scrub.inCheck = some 100) ∧
      (∃ e ∈ (wr (refreshing 8 base)).media.refresh, e.block = 100) ∧
      (∀ e ∈ (refreshing 7 base).media.refresh, e.block ≠ 107) ∧ (refreshing 7 base).media.refresh.length < 8 ∧
      8 ≤ (refreshing 8 base).media.refresh.length ∧ (∀ e ∈ (refreshing 8 base).media.refresh, e.block ≠ 108) ∧
      (p.scrub.state = .running ∧ p.scrub.pending = true ∧ p.scrub.change ≤ p.md.committed) ∧
      (b.md.device = .ready ∧ b.md.settings.period ≠ 0 ∧ b.scrub.autoRef + b.md.settings.period ≤ b.time.hours ∧
        b.scrub.state = .idle ∧ b.md.settings.enabledFrom 0 = some 0 ∧
        b.md.settings.window 0 = some { enabled := true, first := 7, last := 7 }) := by decide +kernel

theorem witness_ScrubAndRefreshSteps_of_a_refresh :
    let x := refreshing 1 base
    let y := staged [frame 0 .dirty 100] x
    x.media.refresh = [{ block := 100, origin := .scrub }] ∧ x.md.device = .ready ∧ x.sb.attr .refresh < 8 ∧ 1 ≤ x.sb.available ∧
      x.stopped = false ∧ (x.sb.freeIdx ++ x.sb.clean).head? = some 0 ∧ (y.sb.freeIdx ++ y.sb.clean).head? = some 1 ∧
      (∃ f ∈ y.sb.frames, f.state ≠ .clean ∧ f.writer = some (.port .p0) ∧ f.block = 100) ∧
      (windowed 7 7 (x.withScrub { next := 7 })).scrub.remains (windowed 7 7 x).md.settings = true ∧
      (windowed 7 7 (x.withScrub { next := 8 })).scrub.remains (windowed 7 7 x).md.settings = false ∧
      (∃ f ∈ (staged [frame 0 .dirty 7] x).sb.frames, f.state ≠ .clean ∧ f.block = 7) := by decide +kernel

/-- R122: the oldest entry of origin READ is started before those of origin SCRUB. -/
theorem test_refreshes_start_in_order :
    let x := base.withMedia { refresh := [⟨100, .scrub, none⟩, ⟨101, .read, none⟩, ⟨102, .read, none⟩] }
    x.refreshTry.media.refreshReads.map (·.block) = [101, 102, 100] ∧ x.sb.attr .refresh = 0 ∧
      (x.media.refresh.filter fun e => e.started.isNone).find? (fun e => decide (e.origin = .read)) = some ⟨101, .read, none⟩ ∧
      (refreshing 1 base).media.refresh.head? = some ⟨100, .scrub, none⟩ ∧
      (staged ((List.range 8).map fun i => { frame i .filling i with writer := some .refresh }) base).sb.attr .refresh = 8 ∧
      (base.withCmds { queue := [⟨.p0, 0⟩], stop := some ⟨.p0, 0⟩ }).stopped = true := by decide +kernel

theorem witness_ScrubAndRefreshSteps_of_the_windows :
    let st := { Settings.default with
      w0 := { enabled := true, first := 3, last := 5 }, w2 := { enabled := true, first := 9, last := 9 } }
    let x := fun (w n : Nat) => ({ state := .running, window := w, next := n } : Scrub)
    (st.enabledFrom 0, st.enabledFrom 1, st.enabledFrom 3, st.enabledFrom 4) = (some 0, some 2, none, none) ∧
      (x 0 4).advance st 4 = x 0 5 ∧ (x 0 5).advance st 5 = x 2 9 ∧ (x 2 9).advance st 9 = x 2 10 ∧
      (x 2 9).remains st = true ∧ (x 2 10).remains st = false := by decide +kernel

theorem witness_CompletionSteps :
    let w : CommitWait := { frame := 0, outcome := .ok, change := 0 }
    let c := { cmd codeFlush .settling with waitSet := [{ block := 7, seq := 1, res := .lost }] }
    let m := cmd codeMark .settling
    let x := having m (base.withInteg { tally := [{ key := ⟨.p0, 0⟩, blocks := 1, frames := [], superseded := 0 }] })
    ((base.withMedia { commitWait := [w] }).media.commitWait = [w] ∧ w.change ≤ base.md.committed) ∧
      (having c base).cmds.recs = [c] ∧ c.state = .settling ∧
      (∀ h ∈ ((having c base).lc .p0).held, h.frame.tag ≠ some 0) ∧ c.waitSet ≠ [] ∧ (∀ e ∈ c.waitSet, e.res ≠ .pending) ∧
      c.result = none ∧ ((sess0 (fun x => { x with state := .draining }) base).session .p0).state = .draining ∧
      (base.session .p0).state ≠ .draining ∧ x.cmds.recs = [m] ∧ x.integ.tally.map (·.frames) = [[]] ∧ m.code = codeMark ∧
      (cmd codeSettingsWrite .settling).change ≤ base.md.committed := by decide +kernel

/-- R21, R61: two FLUSHes that one event decides, and one that still waits. -/
theorem test_wait_sets_complete_together :
    let c := fun (t : Tag) (r : Resolution) => { cmd codeFlush .settling with
      key := ⟨.p0, t⟩, receipt := t.val, waitSet := [{ block := 7, seq := 1, res := r }] }
    let x := base.withCmds { recs := [c 0 .lost, c 1 .pending, c 2 .ok], nextReceipt := 3 }
    sent (run .waitSetComplete x) = [.completion 0 .flushIncomplete codeFlush (.flush 1 1),
      .completion 2 .ok codeFlush (.flush 1 0)] ∧ (run .waitSetComplete x).cmds.recs = [c 1 .pending] := by decide +kernel

theorem witness_StagingFramesMove :
    let x := staged [frame 0 .dirty 7, frame 1 .clean 8, frame 2 .filling 9, frame 3 .programming 10,
      { markFrame 4 11 .quiet with state := .programming }] base
    ((x.sb.at? 0).map (·.state), (x.sb.at? 3).map (fun f => (f.state, f.content))) =
        (some .dirty, some (.programming, .data)) ∧ (x.sb.at? 4).map (·.state) = some .programming ∧
      (x.sb.inState .dirty 10).isNone = true ∧ (x.sb.inState .dirty 9).isNone = true ∧ (x.sb.inState .dirty 7).map (·.idx) = some 0 ∧
      (x.sb.inState .clean 8).map (·.idx) = some 1 ∧ (x.sb.at? 2).map (·.idx) = some 2 ∧
      ((0x80000000 : BitVec 32) - 1).toNat < 2147483648 ∧ ¬ ((0x80000001 : BitVec 32) - 1).toNat < 2147483648 ∧
      (markFrame 0 7 .quiet).content ≠ .data := by decide +kernel

/-- R18, R134: the MARK frame of one block is superseded, the other freed by its outcome; R20: a FLUSH waits on one of them. -/
theorem test_MARK_frames_leave_the_tally :
    let m := { cmd codeMark .settling with start := 7, count := 2 }
    let f := fun i b (st : FrameState) => { markFrame i b .quiet with state := st, cmd := some ⟨.p0, 0⟩ }
    let x := having m (queued [0] (staged [f 0 7 .dirty, f 1 8 .programming] (base.withInteg
      { tally := [{ key := ⟨.p0, 0⟩, blocks := 2, frames := [(7, 1), (8, 1)], superseded := 0 }] })))
    let y := x.stageDirty { frame 2 .dirty 7 with seq := none }
    y.integ.tally.map (fun t => (t.frames, t.superseded)) = [([(8, 1)], 1)] ∧ y.sb.progQ = [2] ∧
      sent (y.outcome 1 .ok) = [.completion 0 .ok codeMark (.mark 2 1)] ∧ (y.outcome 1 .ok).integ.tally = [] := by decide +kernel

theorem witness_StagingFramesMove_of_the_frames :
    let k : Key := ⟨.p0, 0⟩
    let x := (base.fillFrames k 7 [4, 2]).dirtyFilled k 7 2
    ((base.fillFrames k 7 [4, 2]).sb.frames.find? fun g => decide (g.state = .filling ∧ g.cmd = some k ∧ g.block = 8)).map
        (·.idx) = some 2 ∧ x.sb.progQ = [4, 2] ∧ (x.sb.inState .dirty 8).map (·.seq) = some (some 2) ∧
      x.writeSet k 7 2 = [{ block := 7, seq := 1 }, { block := 8, seq := 2 }] ∧ x.markList 7 2 = [(7, 1), (8, 2)] ∧
      (base.markFrames k .quiet 7 [4, 2]).sb.progQ = [4, 2] ∧ (markFrame 0 7 .quiet).content = .mark .quiet := by decide +kernel

theorem witness_PoisonMapTakesFailures :
    let e := fun k => poisoned k base
    (∀ k ∈ [PoisonKind.media, .quiet], (e k).poisonOf 7 = some (poison1 7 k)) ∧ base.poisonOf 7 = none ∧
      base.integ.poison.length + base.sb.markFrames < 512 ∧
      (let f := base.withInteg { poison := List.replicate 512 (poison1 8 .media) }
       f.poisonOf 7 = none ∧ ¬ f.integ.poison.length + f.sb.markFrames < 512) := by decide +kernel

/-- A program waits after `n` reads in a row, with the media idle. -/
def ready2 (f : Frame) (n : Nat) : Part :=
  (base.withSb { base.sb with frames := [f], progQ := [f.idx] }).withMedia { base.media with readRun := n }

theorem witness_MediaGrants :
    let x := ready2 { frame 0 .dirty 7 with data := none } 8
    let m := ready2 (markFrame 0 7 .reported) 0
    base.isHeld = false ∧ base.md.changes ≤ base.md.committed ∧ base.media.current = none ∧
      (busy (.scrubRead 0 0) base).media.current ≠ none ∧ base.sb.head = none ∧ base.media.portReads = [] ∧
      base.media.commitReq = none ∧ (x.sb.head ≠ none ∧ x.md.device ≠ .safe ∧ 8 ≤ x.media.readRun) ∧
      (m.sb.head = some (markFrame 0 7 .reported) ∧ m.sb.progQ = [0] ∧ m.sb.at? 0 = some (markFrame 0 7 .reported) ∧
        m.media.current = none ∧ m.media.portReads = [] ∧ m.media.commitReq = none) := by decide +kernel

theorem witness_MediaGrants_of_a_read : (base.withMedia { portReads := [portReq], readRun := 7 }).media.portReads = [portReq] := rfl

theorem witness_MediaGrants_of_a_program : ∃ f d, (ready2 (frame 0 .dirty 7) 8).sb.head = some f ∧ f.content = .data ∧
    f.data = some d := ⟨_, _, rfl, rfl, rfl⟩

theorem witness_MediaGrants_of_the_commit_request :
    let x := base.withMd { base.md with changes := 1 }
    let at' := fun c g => (base.withMd { base.md with current := some (c, g) }).commitTarget
    (x.requestCommit.media.commitReq = some .commit ∧ x.requestCommit.media.current = none ∧
      base.requestCommit.media.commitReq = none) ∧
      ((busy (.scrubRead 7 7) x).requestCommit.media.commitReq = some .commit ∧
        (busy (.commit .b 2 .blank) x).requestCommit.media.commitReq = none ∧
        (inDevice .starting x).requestCommit.media.commitReq = none ∧
        ((inDevice .starting x).withMd { x.md with device := .starting, startUp := some 1 }).requestCommit.media.commitReq =
          some .commit) ∧
      (base.withMd { base.md with current := none }).commitTarget = (.a, 1) ∧ at' .a 1 = (.b, 2) ∧ at' .b 4294967295 = (.a, 1) ∧
      (x.grants.media.current.map (·.op)) = some (.commit .b 2 x.image) := by decide +kernel

theorem witness_MediaReadsEnd :
    let c := { reading with inProgress := some 0 }
    let x := having c base
    x.isHeld = false ∧ (x.cmds.byReceipt portReq.receipt = some c ∧ c.state = .reading ∧ c.inProgress = some portReq.index) ∧
      base.cmds.byReceipt portReq.receipt = none ∧
      (busy (.scrubRead 7 7) x).media.current = some { op := .scrubRead 7 7, discard := false } ∧
      (busy (.refreshRead 0 7 7) x).media.current = some { op := .refreshRead 0 7 7, discard := false } ∧
      (∃ e ∈ ([{ block := 7, origin := .read, started := some 0 }] : List RefreshEntry), e.started = some 0) ∧
      (let z := staged [frame 0 .filling 7, frame 1 .dirty 8] (x.withMedia
          { x.media with refresh := [{ block := 7, origin := .read, started := some 0 }] })
       (z.sb.at? 0).map (·.state) = some .filling ∧ (z.sb.at? 1).map (·.state) = some .dirty ∧
         (∃ e ∈ z.media.refresh, e.started = some 0) ∧ ∀ e ∈ z.media.refresh, e.started ≠ some 1) ∧
      x.settledOtherwise 7 = false ∧ (poisoned .media x).settledOtherwise 7 = true := by decide +kernel

theorem witness_MediaReadsEnd_of_a_read :
    (busy (.portRead portReq 7) base).media.current = some { op := .portRead portReq 7, discard := false } := rfl

theorem witness_MediaReadsEnd_of_room :
    8 ≤ (refreshing 8 base).media.refresh.length ∧ (refreshing 7 base).media.refresh.length < 8 ∧
      (∃ e ∈ (refreshing 7 base).media.refresh, e.block = 106) ∧ (¬ ∃ e ∈ (refreshing 8 base).media.refresh, e.block = 7) ∧
      (base.withScrub { state := .stopping }).scrub.state = .stopping ∧ base.scrub.state ≠ .stopping ∧
      (base.sb.freeIdx ++ base.sb.clean).head? = some 0 ∧
      (∃ f ∈ (staged [frame 0 .dirty 7] base).sb.frames, f.state ≠ .filling ∧ f.block = 7) ∧
      (staged ((List.range 128).map fun i => { frame i .dirty i with data := none }) base).sb.freeIdx = [] := by decide +kernel

theorem witness_ProgramsEnd :
    let f := frame 0 .programming 7
    let x := fun sp => busy (.program 0 7 7 (block 9) sp) (staged [f] base)
    let full := base.withMedia { spares := (List.range 256).map fun i => { idx := i, use := .retired } }
    (x none).isHeld = false ∧ ((x none).sb.at? 0).map (·.idx) = some 0 ∧ f.ofPort = true ∧
      (∃ e ∈ (poisoned .quiet (x none)).integ.poison, e.block = f.block) ∧ base.media.lowestFree = some 0 ∧
      full.media.lowestFree = none ∧
      (base.withMedia { remap := [⟨7, 3⟩], spares := [⟨3, .inUse⟩] }).media.remap.find? (fun r => decide (r.block = 7)) =
        some ⟨7, 3⟩ := by decide +kernel

theorem witness_ProgramsEnd_of_a_loss :
    let f := frame 0 .programming 7
    let low := fun n => base.withMedia { spares := (List.range n).map fun i => { idx := i, use := .retired } }
    (∃ g ∈ (staged [f, frame 1 .dirty 7] base).sb.frames, g.state = .dirty ∧ g.block = f.block) ∧
      (∀ g ∈ (staged [f] base).sb.frames, ¬ (g.state = .dirty ∧ g.block = f.block)) ∧ f.writer = some (.port .p0) ∧
      base.md.settings.threshold = 16 ∧ (low 239).media.freeSpares = 17 ∧ (low 240).media.freeSpares = 16 ∧
      (low 240).media.spareLow = false ∧ ((low 240).spareLowTest).media.spareLow = true ∧
      sent (low 240).spareLowTest = [.notice 0 0 (.sparesLow 16 16)] ∧ sent (low 239).spareLowTest = [] ∧
      sent (low 240).spareLowTest.spareLowTest = [.notice 0 0 (.sparesLow 16 16)] := by decide +kernel

theorem witness_ProgramsEnd_of_the_operation : ∀ sp,
    (busy (.program 0 7 7 (block 9) sp) base).media.current = some { op := .program 0 7 7 (block 9) sp, discard := false } :=
  fun _ => rfl

theorem witness_CommitsEnd :
    let x := busy (.commit .b 2 .blank) (base.withMd { base.md with changes := 1, snapshot := some 1, failures := 2 })
    let u := x.withMd { x.md with device := .starting, startUp := some 1 }
    let r := busy (.resetWrite .a) (base.withMd { device := .safe, resetImage := some .blank, failures := 1 })
    (x.isHeld = false ∧ x.media.current = some { op := .commit .b 2 .blank } ∧ x.md.snapshot = some 1 ∧ x.cmds.recs = [] ∧
      x.media.commitWait = [] ∧ x.scrub.state = .idle ∧ x.md.device = .ready ∧ 3 ≤ x.md.failures + 1) ∧
      (u.md.device = .starting ∧ u.md.startUp = some 1) ∧
      (r.md.resetImage = some .blank ∧ r.media.current = some { op := .resetWrite .a } ∧ r.md.failures + 1 < 3) := by
  decide +kernel

/-- R61: a SETTINGS WRITE and a FLUSH received after it complete with one commit, in this order. -/
theorem test_a_commit_completes_in_the_order_of_receipt : (sent (runs [.write .p0 1 7 1 0, .dataIn .p0 1 0 (block 9),
    .settingsWrite .p0 3 ⟨5, 0, ⟨0, 0, 9⟩, ⟨0, 0, 9⟩, ⟨0, 0, 9⟩, ⟨0, 0, 9⟩⟩, .flush .p0 2 1, .programFirstAttemptEnd false, .programSecondAttemptEnd true,
    .commitEnd true] base)).map (·.tag) = [some 1, some 1, some 3, some 2] := by decide +kernel

theorem witness_CommitsEnd_of_waiting_commands :
    let c := { cmd codeSettingsWrite .settling with change := 1 }
    let w : CommitWait := { frame := 0, outcome := .lost, change := 1 }
    let x := having c (busy (.commit .b 2 .blank) (staged [frame 0 .programming 7] (base.withMd
      { base.md with changes := 2, snapshot := some 1 })))
    let y := x.withMedia { x.media with commitWait := [w, { w with change := 2 }] }
    y.media.current = some { op := .commit .b 2 .blank } ∧ y.md.snapshot = some 1 ∧ y.cmds.recs = [c] ∧
      (y.media.commitWait.filter fun v => decide (1 < v.change)) = [{ w with change := 2 }] ∧ y.md.device = .ready ∧
      (run (.commitEnd true) y).cmds.recs = [] ∧ (run (.commitEnd true) y).sb.frames = [] := by decide +kernel

theorem witness_CommitsEnd_of_a_record :
    let f := { frame 0 .programming 7 with cmd := some ⟨.p0, 0⟩ }
    let y := staged [f] (base.withMedia { commitWait := [{ frame := 0, outcome := .lost, change := 1 }] })
    let flush := { cmd codeFlush .settling with waitSet := [{ block := 7, seq := 1 }] }
    let mark := y.withInteg { tally := [{ key := ⟨.p0, 0⟩, blocks := 1, frames := [(7, 1)], superseded := 0 }] }
    let ends := fun (x : Part) (b : Bool) (c : Cmd) => (x.safeRecord b c).map fun c => c.result.map (·.1)
    ends y true flush = some (some .metadataFailed) ∧ ends y false flush = some (some .safeMode) ∧
      ends base true flush = some (some .safeMode) ∧ ends mark true (cmd codeMark .settling) = some (some .metadataFailed) ∧
      ends y true (cmd codeMark .settling) = some (some .safeMode) ∧
      ends base true (cmd codeScrubStart .settling) = some (some .metadataFailed) ∧
      ends base true (cmd codeClose .settling) = some none ∧ ends base true (cmd codeRead .sending) = some none ∧
      ends base true reading = some (some .safeMode) ∧
      ends (sess0 (fun x => { x with state := .draining }) base) true flush = none := by decide +kernel

theorem test_a_copy_with_a_wrong_checksum_is_invalid :
    copyValid .good (some { MetaCopy.factory with checksum := MetaCopy.factory.checksum + 1 }) = false ∧
      copyValid .corrected (some (MetaCopy.write 0 MetaCopy.factory.image)) = false := by decide +kernel

theorem witness_StartUpReads :
    let x := busy (.copyRead .b) (Part.reset.withMd { verdictA := some true })
    Part.reset.isHeld = false ∧ Part.reset.media.current = some { op := .copyRead .a } ∧
      (x.media.current = some { op := .copyRead .b } ∧ x.md.verdictA = some true ∧ x.disk.copyA = some .factory ∧
        x.disk.copyB = some .factory ∧ copyValid .good x.disk.copyB = true ∧
        copyValid .uncorrectable x.disk.copyB = false ∧ x.scrub.state = .idle) ∧
      seqGt 1 1 = false ∧ seqGt 2 1 = true ∧ seqGt 1 0xFFFFFFFF = true ∧ MetaImage.blank.scrubMark = false := by
  decide +kernel

theorem witness_PowerAndReset :
    let held := fun p q => base.withPins { resetN := p, pwrGood := q }
    base.isHeld = false ∧ (held true false).isHeld = true ∧ (held false true).isHeld = true ∧
      (held true false).pins = { resetN := true, pwrGood := false } ∧
      (held false true).pins = { resetN := false, pwrGood := true } ∧
      (held false false).pins = { resetN := false, pwrGood := false } := by decide +kernel

theorem witness_PowerAndReset_of_an_operation :
    let cut := fun op => (busy op (base.withDisk { base.disk with copyB := some .factory })).cutOff
    ((cut (.commit .b 2 .blank)).disk.copyB, (cut (.resetWrite .a)).disk.copyA) = (none, none) ∧
      (cut (.copyRead .b)).disk.copyB = some .factory ∧ (cut (.copyRead .b)).free = 0 ∧ base.media.current = none := by
  decide +kernel

theorem witness_PowerAndReset_of_a_program :
    (busy (.program 0 7 7 (block 9) none) base).media.current =
      some { op := .program 0 7 7 (block 9) none, discard := false } := rfl

theorem witness_FramesDecode : (Instr.settingsWrite .p3 15 rawSettings).wellFormed = true ∧
    ((frameOf (.settingsWrite .p3 15 rawSettings)).map fun x => receive x.1 (receiveBound .hunt x.2) .hunt x.2) =
      some ([.valid (.settingsWrite .p3 15 rawSettings)], .hunt) := by decide +kernel

end Sys2Proof.Tests
end

section
/-! PROOFS. The Staging Buffer (chapter 1): its laws at reset and under every step, the lookup, the moves of its frames, the
steps that complete a command, and the ends of the media's reads. -/

namespace Sys2Proof.Machine

/-! ### Reset and the laws of the part -/

/-- Settles O10: the laws of frames, lists and quotas are among those that `step_kept` carries through a step. -/
theorem stepKeepsFrameLaw : Obligations.StepKeepsFrameLaw := by
  unfold Obligations.StepKeepsFrameLaw
  intro s t h
  have k : Kept s.part t.part := step_kept s t h
  exact ⟨k.frame, k.buf.staging, k.buf.quota⟩

theorem Part.reset_session (p : Port) : Part.reset.session p = {} := PerPort.get_all _ p

theorem Part.reset_lc (p : Port) : Part.reset.lc p = {} := PerPort.get_all _ p

/-- Settles O4: every value is read off the record of the reset state, and each port holds the default of its record. -/
theorem resetValues : Obligations.ResetValues := by
  unfold Obligations.ResetValues
  refine ⟨rfl, rfl, rfl, rfl, rfl, rfl, rfl, fun p => ?_, rfl, rfl, rfl, rfl, rfl, rfl, rfl, rfl, rfl, rfl, rfl, rfl, rfl,
    rfl, rfl, rfl, rfl, rfl, rfl, rfl, rfl, rfl, rfl, rfl, rfl, rfl⟩
  simp only [State.reset, Part.reset_session, Part.reset_lc]
  decide

/-- The empty metadata set is lawful. -/
theorem MetaImage.blank_lawful : MetaImage.blank.lawful :=
  ⟨List.nodup_nil, Part.remapLawful_nil, Part.ringLawful_nil, Part.default_ok⟩

/-- A Staging Buffer with no frame listed is lawful. -/
theorem Staging.empty_lawful : Staging.lawful {} := by
  simp [Staging.lawful]

namespace Part

/-- The copies that a new part holds carry the empty set. -/
theorem reset_copy {x : MetaCopy} (h : some MetaCopy.factory = some x) : x.image = .blank := by
  cases h; rfl

theorem reset_metaLaw : Part.reset.metaLaw := by
  refine ⟨MetaImage.blank_lawful, fun _ k => ?_, fun x k => ?_, fun x k => ?_, fun _ k => ?_, fun _ k => ?_⟩
  · cases k
  · rw [reset_copy k]; exact MetaImage.blank_lawful
  · rw [reset_copy k]; exact MetaImage.blank_lawful
  · cases k
  · cases k

theorem reset_linkLaw : Part.reset.linkLaw := by
  intro p
  rw [reset_lc]
  exact ⟨Nat.zero_le _, Nat.zero_le _, fun _ h => absurd h List.not_mem_nil⟩

theorem reset_sessionLaw : Part.reset.sessionLaw := by
  refine ⟨fun _ h => absurd h List.not_mem_nil, fun _ h => absurd h List.not_mem_nil, fun p _ => ?_⟩
  rw [reset_session]
  exact .inl rfl

theorem reset_stagingLaw : Part.reset.stagingLaw :=
  ⟨⟨List.Pairwise.nil, fun _ h => absurd h List.not_mem_nil, fun _ h => absurd h List.not_mem_nil⟩,
    Staging.empty_lawful⟩

/-- R159: the read of copy A, granted in the reset event, is the one start-up read, and the device is STARTING. -/
theorem reset_startLaw : Part.reset.startLaw := ⟨fun _ => ⟨rfl, rfl, rfl, rfl⟩, fun _ => rfl⟩

theorem reset_roomLaw : Part.reset.roomLaw := by
  refine ⟨Nat.zero_le _, fun x k => ?_, fun x k => ?_, fun _ k => ?_, fun _ k => ?_, reset_startLaw⟩
  · rw [reset_copy k]; exact Nat.zero_le _
  · rw [reset_copy k]; exact Nat.zero_le _
  · cases k
  · cases k

end Part

/-- Settles O5: a list that is empty keeps its law, and the two copies of a new part carry the empty set. -/
theorem resetKeepsTheLaws : Obligations.ResetKeepsTheLaws := by
  unfold Obligations.ResetKeepsTheLaws
  have lease : Part.reset.leaseLaw := ⟨List.Pairwise.nil, Nat.zero_le _, Nat.zero_le _⟩
  have table : Part.reset.tableLaw := ⟨List.nodup_nil, List.Pairwise.nil, fun _ h => absurd h List.not_mem_nil⟩
  have refresh : Part.reset.refreshLaw := ⟨List.nodup_nil, Nat.zero_le _⟩
  have commit : Part.reset.commitLaw := ⟨le_refl _, fun _ k => by cases k⟩
  have quota : Part.reset.quotaLaw := ⟨fun _ => Nat.zero_le _, Nat.zero_le _⟩
  exact ⟨rfl, Part.reset_metaLaw, Part.reset_linkLaw, lease, Part.reset_sessionLaw, table, Part.reset_stagingLaw.1,
    Nat.zero_le _, refresh, commit, Part.reset_stagingLaw, quota, Part.reset_roomLaw⟩

/-! ### The lookup (R11, R14) -/

namespace Part

variable {s : Part} {b : Nat} {f : Frame}

theorem lookup_dirty (h : s.sb.inState .dirty b = some f) : s.lookup b = f.look := by
  unfold lookup; rw [h]

theorem lookup_programming (hd : s.sb.inState .dirty b = none) (h : s.sb.inState .programming b = some f) :
    s.lookup b = f.look := by
  unfold lookup; rw [hd, h]

theorem lookup_clean (hd : s.sb.inState .dirty b = none) (hp : s.sb.inState .programming b = none)
    (h : s.sb.inState .clean b = some f) : s.lookup b = f.look := by
  unfold lookup; rw [hd, hp, h]

/-- R11: with no visible frame, an entry of the poison map answers. -/
theorem lookup_poison (hd : s.sb.inState .dirty b = none) (hp : s.sb.inState .programming b = none)
    (hc : s.sb.inState .clean b = none) {e : PoisonEntry} (h : s.poisonOf b = some e) : s.lookup b = .poison e := by
  unfold lookup; rw [hd, hp, hc]; dsimp only; rw [h]

theorem lookup_media (hd : s.sb.inState .dirty b = none) (hp : s.sb.inState .programming b = none)
    (hc : s.sb.inState .clean b = none) (h : s.poisonOf b = none) : s.lookup b = .media := by
  unfold lookup; rw [hd, hp, hc]; dsimp only; rw [h]

theorem touch_clean (hd : s.sb.inState .dirty b = none) (hp : s.sb.inState .programming b = none)
    (h : s.sb.inState .clean b = some f) :
    s.touch b = s.withSb { s.sb with clean := s.sb.clean.filter (fun i => decide (i ≠ f.idx)) ++ [f.idx] } := by
  unfold touch; rw [hd, hp, h]

/-- R14: a lookup that no CLEAN frame answers moves no frame. -/
theorem touch_other
    (h : s.sb.inState .dirty b ≠ none ∨ s.sb.inState .programming b ≠ none ∨ s.sb.inState .clean b = none) : s.touch b = s := by
  unfold touch
  split
  · rename_i hd hp hc
    rw [hd, hp, hc] at h
    simp at h
  · rfl

end Part

theorem Frame.look_data {f : Frame} {d : BlockData} (hc : f.content = .data) (hd : f.data = some d) :
    f.look = .data d := by
  unfold Frame.look; rw [hc, hd]

theorem Frame.look_mark {f : Frame} {k : MarkKind} {p : Port} (hc : f.content = .mark k)
    (hw : f.writer = some (.port p)) : f.look = .mark k (some p) := by
  unfold Frame.look Frame.port?; rw [hc, hw]

/-- Settles O25, answer by answer of the lookup. -/
theorem lookupFindsTheVisibleCopy : Obligations.LookupFindsTheVisibleCopy := by
  unfold Obligations.LookupFindsTheVisibleCopy
  refine ⟨fun f => ⟨fun d => Frame.look_data, fun k p => Frame.look_mark⟩, fun s b => ⟨fun f => Part.touch_clean,
    Part.touch_other, fun f => Part.lookup_dirty, fun f => Part.lookup_programming, fun f => Part.lookup_clean,
    fun hd hp hc => ?_⟩⟩
  cases h : s.poisonOf b with
  | some e => rw [Part.lookup_poison hd hp hc h, show s.integ.poison.find? _ = some e from h]
  | none => rw [Part.lookup_media hd hp hc h, show s.integ.poison.find? _ = none from h]

/-! ### The steps that complete a command (R21, R117, R134, R164) -/

theorem Lc.holds_false {l : Lc} {t : Tag} (h : ∀ x ∈ l.held, x.frame.tag ≠ some t) : l.holds t = false := by
  unfold Lc.holds
  rw [List.any_eq_false]
  exact fun x hx => by simpa using h x hx

/-- R21: the wait set is done when it has an entry, and no PENDING one. -/
theorem Cmd.setDone_iff (c : Cmd) : c.setDone = true ↔ c.waitSet ≠ [] ∧ ∀ e ∈ c.waitSet, e.res ≠ .pending := by
  simp [Cmd.setDone]

theorem Cmd.setResult_flush {c : Cmd} (h : c.code = codeFlush) :
    c.setResult = (if c.setLost = 0 then .ok else .flushIncomplete, .flush c.waitSet.length c.setLost) := if_pos h

theorem Cmd.setResult_write {c : Cmd} (h : c.code = codeWrite) :
    c.setResult = (if c.setLost = 0 then .ok else .dataLost, .write c.count c.setLost) :=
  if_neg (by rw [h]; decide)

namespace Part

variable {s : Part} {c : Cmd}

/-! What a decided record gives. -/

theorem emitDecided_nil (h : s.cmds.recs = []) : s.emitDecided = s := by
  unfold emitDecided decided
  rw [h]
  rfl

/-- R49, R61: the only record has a result, and nothing of its command is held: its completion enters the queue, and the
record is removed. -/
theorem emitDecided_one (h : s.cmds.recs = [c]) {st : Status} {r : Result} (hr : c.result = some (st, r))
    (hh : ∀ x ∈ (s.lc c.key.port).held, x.frame.tag ≠ some c.key.tag) :
    s.emitDecided = (s.sendCompletion c.key.port c.key.tag c.code st r).setRecs [] := by
  have decided : s.decided = [(c.receipt, st, r)] := by simp [Part.decided, h, hr]
  have found : s.cmds.byReceipt c.receipt = some c := by simp [CommandTable.byReceipt, h]
  have finished : s.finish c st r =
      (s.sendCompletion c.key.port c.key.tag c.code st r).dropCmd c.receipt := by
    unfold finish
    dsimp only
    rw [Lc.holds_false hh, if_neg Bool.false_ne_true]
  have dropped : (s.sendCompletion c.key.port c.key.tag c.code st r).cmds.recs.filter
      (fun d => decide (d.receipt ≠ c.receipt)) = [] := by
    rw [show (s.sendCompletion c.key.port c.key.tag c.code st r).cmds.recs = [c] from h]
    simp
  unfold emitDecided
  rw [decided]
  simp only [List.foldl_cons, List.foldl_nil, finishAt, found, finished]
  unfold dropCmd
  rw [dropped]

/-- The same for a record whose result an event has just decided. -/
theorem emitDecided_answered {st : Status} {r : Result}
    (hh : ∀ x ∈ (s.lc c.key.port).held, x.frame.tag ≠ some c.key.tag) :
    (s.setRecs [{ c with state := .sending, result := some (st, r) }]).emitDecided =
      (s.sendCompletion c.key.port c.key.tag c.code st r).setRecs [] :=
  emitDecided_one (c := { c with state := .sending, result := some (st, r) }) rfl rfl hh

/-! Wait sets (R21). -/

/-- What the end of its wait set makes of a record: `none` ends it without a completion (R99). -/
theorem setsDone_eq (s : Part) : s.setsDone = s.setRecs (s.cmds.recs.filterMap fun c =>
    if c.state = .settling ∧ c.waitSet ≠ [] ∧ ∀ e ∈ c.waitSet, e.res ≠ .pending then
      if (s.session c.key.port).state = .draining then none
      else some { c with state := .sending, result := some c.setResult }
    else some c) := by
  unfold setsDone
  simp only [Cmd.setDone_iff]

/-- The record of a DRAINING port ends with its wait set, without a completion. -/
theorem setsDone_draining (h : s.cmds.recs = [c]) (hs : c.state = .settling) (hw : c.waitSet ≠ [])
    (hn : ∀ e ∈ c.waitSet, e.res ≠ .pending) (hd : (s.session c.key.port).state = .draining) :
    s.setsDone = s.setRecs [] := by
  rw [setsDone_eq, h, List.filterMap_cons_none (by rw [if_pos ⟨hs, hw, hn⟩, if_pos hd]), List.filterMap_nil]

theorem setsDone_one (h : s.cmds.recs = [c]) (hs : c.state = .settling) (hw : c.waitSet ≠ [])
    (hn : ∀ e ∈ c.waitSet, e.res ≠ .pending) (hd : (s.session c.key.port).state ≠ .draining) :
    s.setsDone = s.setRecs [{ c with state := .sending, result := some c.setResult }] := by
  rw [setsDone_eq, h, List.filterMap_cons_some (by rw [if_pos ⟨hs, hw, hn⟩, if_neg hd]), List.filterMap_nil]

/-! The mark tally (R134). -/

theorem tallyDone_eq (s : Part) : s.tallyDone =
    (s.withInteg { s.integ with tally := s.integ.tally.filter fun m => decide (m.frames ≠ []) }).setRecs
      (s.cmds.recs.map fun c => match s.integ.tally.find? fun m => decide (m.frames = [] ∧ m.key = c.key) with
        | some m => if c.code = codeMark ∧ c.state = .settling then
            { c with state := .sending, result := some (.ok, .mark m.blocks m.superseded) } else c
        | none => c) := by
  have left : (fun m : Tally => !m.frames.isEmpty) = fun m => decide (m.frames ≠ []) := by
    funext m; cases m.frames <;> rfl
  have found : ∀ k : Key, (s.integ.tally.filter fun m => m.frames.isEmpty).find? (fun m => decide (m.key = k)) =
      s.integ.tally.find? fun m => decide (m.frames = [] ∧ m.key = k) := by
    intro k; rw [List.find?_filter]; simp
  unfold tallyDone
  rw [left]
  exact congrArg (setRecs _) (List.map_congr_left fun c _ => found c.key ▸ rfl)

/-- R134: the only record is a MARK whose tally has emptied. -/
theorem tallyDone_one (h : s.cmds.recs = [c]) {m : Tally} (ht : s.integ.tally = [m]) (hf : m.frames = [])
    (hk : m.key = c.key) (hc : c.code = codeMark) (hs : c.state = .settling) :
    s.tallyDone = (s.withInteg { s.integ with tally := [] }).setRecs
      [{ c with state := .sending, result := some (.ok, .mark m.blocks m.superseded) }] := by
  have kept : s.integ.tally.filter (fun m => decide (m.frames ≠ [])) = [] := by simp [ht, hf]
  have found : s.integ.tally.find? (fun m => decide (m.frames = [] ∧ m.key = c.key)) = some m := by simp [ht, hf, hk]
  rw [tallyDone_eq, kept, h]
  simp only [List.map_cons, List.map_nil, found, hc, hs, and_self, if_true]

/-! Commands that wait on a change (R164), and the commit wait list (R117). -/

theorem decideCommit_one (h : s.cmds.recs = [c]) {code : BitVec 8} {n : Nat} (hc : c.code = code)
    (hs : c.state = .settling) (hn : c.change ≤ n) :
    s.decideCommit code n = s.setRecs [{ c with state := .sending, result := some (.ok, .none) }] := by
  unfold decideCommit
  rw [h]
  simp only [List.map_cons, List.map_nil, hc, hs, hn, and_self, if_true]

/-- R117: the entries whose change is committed report their outcomes in list order; the others stay. -/
theorem releaseCommitWait_eq (s : Part) (n : Nat) : s.releaseCommitWait n =
    (s.media.commitWait.filter fun w => decide (w.change ≤ n)).foldl (fun z w => z.outcome w.frame w.outcome)
      (s.withMedia { s.media with commitWait := s.media.commitWait.filter fun w => decide (n < w.change) }) := by
  have stay : (fun w : CommitWait => !decide (w.change ≤ n)) = fun w => decide (n < w.change) := by
    funext w; rw [← decide_not]; exact decide_eq_decide.2 Nat.not_le
  unfold releaseCommitWait
  simp only [stay]

theorem releaseCommitWait_one {w : CommitWait} {n : Nat} (h : s.media.commitWait = [w]) (hn : w.change ≤ n) :
    s.releaseCommitWait n = (s.withMedia { s.media with commitWait := [] }).outcome w.frame w.outcome := by
  have go : [w].filter (fun w => decide (w.change ≤ n)) = [w] := by simp [hn]
  have stay : [w].filter (fun w => decide (n < w.change)) = [] := by simp [hn]
  rw [releaseCommitWait_eq, h, go, stay]
  rfl

end Part

/-! The events: each answers with its own effect and the follow-ups after it. -/

section Events

variable {s : State}

theorem exec_commitWaitRelease (h : s.part.isHeld = false) : exec .commitWaitRelease s =
    .next (s.withPart (Part.follow s.part (s.part.releaseCommitWait s.part.md.committed))) :=
  congrArg (fun x => Host.Outcome.next (s.withPart x)) (Part.event_runs _ h)

theorem exec_waitSetComplete (h : s.part.isHeld = false) : exec .waitSetComplete s =
    .next (s.withPart (Part.follow s.part s.part.setsDone.emitDecided)) :=
  congrArg (fun x => Host.Outcome.next (s.withPart x)) (Part.event_runs _ h)

theorem exec_markComplete (h : s.part.isHeld = false) : exec .markComplete s =
    .next (s.withPart (Part.follow s.part s.part.tallyDone.emitDecided)) :=
  congrArg (fun x => Host.Outcome.next (s.withPart x)) (Part.event_runs _ h)

theorem exec_settingsWriteComplete (h : s.part.isHeld = false) : exec .settingsWriteComplete s =
    .next (s.withPart (Part.follow s.part (s.part.decideCommit codeSettingsWrite s.part.md.committed).emitDecided)) :=
  congrArg (fun x => Host.Outcome.next (s.withPart x)) (Part.event_runs _ h)

end Events

/-- Settles O51: each event is its own effect, and a single record or entry is the case of one in the general effect. -/
theorem completionSteps : Obligations.CompletionSteps := by
  unfold Obligations.CompletionSteps
  intro s c held x gives sent
  have commit := exec_commitWaitRelease held
  have waitSet := exec_waitSetComplete held
  have mark := exec_markComplete held
  have settings := exec_settingsWriteComplete held
  refine ⟨fun w hw hn => ?_, fun hr hs hh => ⟨fun hw hn _ => ⟨fun hd => ?_, fun hd hc => ?_, fun hd hc => ?_⟩,
    fun m ht hf hk hc => ?_, fun hc hn => ?_⟩, ?_, waitSet, mark, settings, Part.setsDone_eq x, Part.tallyDone_eq x⟩
  · rw [Part.releaseCommitWait_one hw hn] at commit
    exact commit
  · rw [Part.setsDone_draining hr hs hw hn hd, Part.emitDecided_nil rfl] at waitSet
    exact waitSet
  · rw [Part.setsDone_one hr hs hw hn hd, Cmd.setResult_flush hc,
      Part.emitDecided_answered hh] at waitSet
    exact waitSet
  · rw [Part.setsDone_one hr hs hw hn hd, Cmd.setResult_write hc,
      Part.emitDecided_answered hh] at waitSet
    exact waitSet
  · rw [Part.tallyDone_one hr ht hf hk hc hs,
      Part.emitDecided_answered (s := x.withInteg { x.integ with tally := [] }) hh] at mark
    exact mark
  · rw [Part.decideCommit_one hr hc hs hn, Part.emitDecided_answered hh] at settings
    exact settings
  · rw [Part.releaseCommitWait_eq] at commit
    exact commit

/-! ### Frames of the Staging Buffer (R4, R9, R13, R19) -/

theorem self_mem_insertFrame (f : Frame) (fs : List Frame) : f ∈ insertFrame f fs := by
  induction fs with
  | nil => exact List.mem_singleton_self f
  | cons x fs ih =>
    simp only [insertFrame]
    split
    · exact List.mem_cons_self
    · split
      · exact List.mem_cons_self
      · exact List.mem_cons_of_mem x ih

/-- A frame of another index stays listed. -/
theorem mem_insertFrame_of_ne {f g : Frame} {fs : List Frame} (hg : g ∈ fs) (h : g.idx ≠ f.idx) :
    g ∈ insertFrame f fs := by
  induction fs with
  | nil => exact absurd hg List.not_mem_nil
  | cons x fs ih =>
    simp only [insertFrame]
    split
    · exact List.mem_cons_of_mem f hg
    · split
      · rename_i e
        rcases List.mem_cons.1 hg with k | k
        · exact absurd (k ▸ e.symm) h
        · exact List.mem_cons_of_mem f k
      · rcases List.mem_cons.1 hg with k | k
        · exact k ▸ List.mem_cons_self
        · exact List.mem_cons_of_mem x (ih k)

theorem seqGe_iff (a b : BitVec 32) : seqGe a b = true ↔ (a - b).toNat < 2147483648 := decide_eq_true_iff

theorem seqGt_iff (a b : BitVec 32) : seqGt a b = true ↔ seqGe a b = true ∧ a ≠ b := by
  simp [seqGt]

namespace Staging

variable {b : Staging} {x : Frame}

/-! A frame becomes DIRTY (R9). -/

theorem dirtied_mem : { x with state := .dirty, seq := some (nextSeq b.seq) } ∈ (b.dirtied x).frames :=
  self_mem_insertFrame _ _

theorem dirtied_progQ_none (h : b.inState .dirty x.block = none) : (b.dirtied x).progQ = b.progQ ++ [x.idx] := by
  unfold dirtied; dsimp only; rw [h]

theorem dirtied_progQ_some {g : Frame} (h : b.inState .dirty x.block = some g) :
    (b.dirtied x).progQ = b.progQ.map fun i => if i = g.idx then x.idx else i := by
  unfold dirtied; dsimp only; rw [h]

/-- Of the frames listed before, neither the superseded one nor the CLEAN one of the block is left. -/
theorem of_mem_dirtied {h : Frame} (m : h ∈ (b.dirtied x).frames) : h.idx = x.idx ∨
    (h ∈ b.frames ∧ (b.inState .dirty x.block).map (·.idx) ≠ some h.idx ∧
      (b.inState .clean x.block).map (·.idx) ≠ some h.idx) := by
  rcases mem_insertFrame m with e | e
  · exact .inl (by rw [e])
  · simpa [List.mem_filter] using Or.inr (List.mem_filter.1 e)

/-- The superseded frame is FREE: nothing is listed at its index. -/
theorem dirtied_old_free {g : Frame} (h : b.inState .dirty x.block = some g) (n : g.idx ≠ x.idx) :
    (b.dirtied x).Fresh g.idx := by
  intro f hf e
  rcases of_mem_dirtied hf with k | ⟨-, k, -⟩
  · exact n (e.symm.trans k)
  · exact k (by rw [h, e]; rfl)

theorem dirtied_clean_free {g : Frame} (h : b.inState .clean x.block = some g) (n : g.idx ≠ x.idx) :
    (b.dirtied x).Fresh g.idx := by
  intro f hf e
  rcases of_mem_dirtied hf with k | ⟨-, -, k⟩
  · exact n (e.symm.trans k)
  · exact k (by rw [h, e]; rfl)

theorem dirtied_clean_left {g : Frame} (h : b.inState .clean x.block = some g) : g.idx ∉ (b.dirtied x).clean := by
  intro k
  have := (List.mem_filter.1 k).2
  simp [h] at this

/-- Every other frame stays. -/
theorem mem_dirtied_of_ne {g : Frame} (hg : g ∈ b.frames) (n : g.idx ≠ x.idx)
    (hd : ∀ h, b.inState .dirty x.block = some h → h.idx ≠ g.idx)
    (hc : ∀ h, b.inState .clean x.block = some h → h.idx ≠ g.idx) : g ∈ (b.dirtied x).frames := by
  refine mem_insertFrame_of_ne (List.mem_filter.2 ⟨hg, ?_⟩) n
  simpa using ⟨hd, hc⟩

end Staging

/-! ### Wait set entries (R20) -/

theorem SetEntry.resolve_takes {e : SetEntry} {b : Nat} {q : BitVec 32} (o : ProgOutcome)
    (h : e.res = .pending ∧ e.block = b ∧ (q - e.seq).toNat < 2147483648) :
    e.resolve b q o = { e with res := match o with | .ok => .ok | .lost => .lost } :=
  if_pos ⟨h.1, h.2.1, (seqGe_iff _ _).2 h.2.2⟩

theorem SetEntry.resolve_leaves {e : SetEntry} {b : Nat} {q : BitVec 32} (o : ProgOutcome)
    (h : ¬ (e.res = .pending ∧ e.block = b ∧ (q - e.seq).toNat < 2147483648)) : e.resolve b q o = e :=
  if_neg fun k => h ⟨k.1, k.2.1, (seqGe_iff _ _).1 k.2.2⟩

namespace Part

variable {s : Part} {f : Frame}

/-! ### Supersession and the mark tally (R9, R18, R134) -/

theorem stageDirty_fresh (h : s.sb.inState .dirty f.block = none) : s.stageDirty f = s.withSb (s.stageDirty f).sb := by
  have e := stageDirty_eq s f
  rw [h] at e
  rw [(stageDirty_same s f).1]
  exact e

/-- R18: the superseded frame is reported to the mark tally. -/
theorem stageDirty_supersedes {g : Frame} (h : s.sb.inState .dirty f.block = some g) :
    s.stageDirty f = (s.withSb (s.stageDirty f).sb).tallyReport g true := by
  have e := stageDirty_eq s f
  rw [h] at e
  rw [(stageDirty_same s f).1]
  exact e

theorem tallyReport_data (h : f.content = .data) (b : Bool) : s.tallyReport f b = s := by
  unfold tallyReport; rw [h]

theorem tallyReport_mark {m : MarkKind} {k : Key} {q : BitVec 32} (hm : f.content = .mark m) (hk : f.cmd = some k)
    (hq : f.seq = some q) (b : Bool) : s.tallyReport f b =
      (s.withInteg { s.integ with tally := s.integ.tally.map fun e =>
        if e.key = k ∧ (f.block, q) ∈ e.frames then
          { e with frames := e.frames.filter fun x => decide (x ≠ (f.block, q)),
                   superseded := e.superseded + (if b then 1 else 0) }
        else e }).tallyDone := by
  unfold tallyReport
  rw [hm, hk, hq]
  cases b <;> simp only [List.contains_iff_mem, if_true, Bool.false_eq_true, if_false, Nat.add_zero]

/-! ### Wait sets of a WRITE, and the frame list of a MARK (R19, R134) -/

theorem writeSet_succ {b : Nat} {q : BitVec 32} (h : s.sb.inState .dirty b = some f) (hq : f.seq = some q) (k : Key)
    (n : Nat) : s.writeSet k b (n + 1) = { block := b, seq := q } :: s.writeSet k (b + 1) n := by
  rw [writeSet, h, Option.bind_some, hq]; rfl

theorem markList_succ {b : Nat} {q : BitVec 32} (h : s.sb.inState .dirty b = some f) (hq : f.seq = some q) (n : Nat) :
    s.markList b (n + 1) = (b, q) :: s.markList (b + 1) n := by
  rw [markList, h, Option.bind_some, hq]; rfl

/-- R6: the FILLING frame of the command's next block becomes DIRTY. -/
theorem dirtyFilled_succ {k : Key} {b : Nat}
    (h : (s.sb.frames.find? fun g => decide (g.state = .filling ∧ g.cmd = some k ∧ g.block = b)) = some f) (n : Nat) :
    s.dirtyFilled k b (n + 1) = (s.stageDirty f).dirtyFilled k (b + 1) n := by
  have found : s.fillingFrame k b = some f := by
    rw [← h]
    unfold fillingFrame
    simp only [Bool.decide_and, Bool.and_assoc]
  rw [dirtyFilled, found]

/-! ### A program's outcome (R13, R20) -/

/-- R13: the PROGRAMMING frame of an OK outcome stays as a CLEAN copy. -/
def keepsCopy (s : Part) (f : Frame) (o : ProgOutcome) : Prop :=
  o = .ok ∧ f.content = .data ∧ s.sb.inState .dirty f.block = none

/-- R20, R21: an outcome is applied to the wait sets, and what it decides is handed on. -/
def resolveAll (s : Part) (f : Frame) (o : ProgOutcome) : Part :=
  (s.setRecs (s.cmds.recs.map fun c =>
    { c with waitSet := c.waitSet.map fun e => e.resolve f.block (f.seq.getD 0) o })).setsDone.emitDecided

theorem resolveAll_sb (s : Part) (f : Frame) (o : ProgOutcome) : (s.resolveAll f o).sb = s.sb := by
  unfold resolveAll
  rw [(emitDecided_keeps _).sb (by decide), (setsDone_keeps _).sb (by decide)]
  rfl

/-- A frame that is not PROGRAMMING has no outcome. -/
theorem outcome_other (h : s.sb.at? f.idx = some f) (n : f.state ≠ .programming) (o : ProgOutcome) :
    s.outcome f.idx o = s := by
  unfold outcome
  rw [h, Option.filter_some_neg (by simpa using n)]

theorem outcome_kept (h : s.sb.at? f.idx = some f) (p : f.state = .programming) {o : ProgOutcome}
    (k : s.keepsCopy f o) : s.outcome f.idx o =
      (((s.listFrame { f with state := .clean, writer := none, cmd := none }).withSb
        { (s.listFrame { f with state := .clean, writer := none, cmd := none }).sb with
          clean := s.sb.clean ++ [f.idx] }).tallyReport f false).resolveAll f o := by
  obtain ⟨ok, data, alone⟩ := k
  unfold outcome
  rw [h, Option.filter_some_pos (by simpa using p)]
  simp only [ok, data, alone, Option.isNone_none, and_self, if_true]
  rfl

theorem outcome_freed (h : s.sb.at? f.idx = some f) (p : f.state = .programming) {o : ProgOutcome}
    (k : ¬ s.keepsCopy f o) : s.outcome f.idx o =
      (if o = .ok then (s.freeFrame f.idx).tallyReport f false else s.freeFrame f.idx).resolveAll f o := by
  unfold outcome
  rw [h, Option.filter_some_pos (by simpa using p)]
  simp only [Option.isNone_iff_eq_none,
    if_neg (show ¬ (o = .ok ∧ f.content = .data ∧ s.sb.inState .dirty f.block = none) from k)]
  rfl

/-- R13: the copy of an OK outcome stands at its index, at the tail of the clean list. -/
theorem outcome_kept_sb (h : s.sb.at? f.idx = some f) (p : f.state = .programming) {o : ProgOutcome}
    (k : s.keepsCopy f o) :
    { f with state := .clean, writer := none, cmd := none } ∈ (s.outcome f.idx o).sb.frames ∧
      (s.outcome f.idx o).sb.clean = s.sb.clean ++ [f.idx] := by
  rw [outcome_kept h p k, resolveAll_sb, (tallyReport_same _ _ _).1]
  exact ⟨self_mem_insertFrame _ _, rfl⟩

/-- R13: else the frame is FREE, and the clean list stays. -/
theorem outcome_freed_sb (h : s.sb.at? f.idx = some f) (p : f.state = .programming) {o : ProgOutcome}
    (k : ¬ s.keepsCopy f o) :
    (s.outcome f.idx o).sb.frames = s.sb.frames.filter (fun g => decide (g.idx ≠ f.idx)) ∧
      (s.outcome f.idx o).sb.clean = s.sb.clean := by
  have told : (if o = .ok then (s.freeFrame f.idx).tallyReport f false else s.freeFrame f.idx).sb =
      (s.freeFrame f.idx).sb := by
    split
    · exact (tallyReport_same _ _ _).1
    · rfl
  rw [outcome_freed h p k, resolveAll_sb, told]
  exact ⟨rfl, rfl⟩

/-! ### Power-on, METADATA RESET, and frames that leave FREE (R4, R8) -/

/-- R22: power-on and RESET leave every frame FREE and the counter at 0. -/
theorem startUp_sb (s : Part) : s.startUp.sb = {} := rfl

/-- R8, R23: METADATA RESET leaves the counter as it is. -/
theorem metadataResetEffect_seq (s : Part) : s.metadataResetEffect.sb.seq = s.sb.seq := rfl

end Part

/-- Settles O52, move by move: the Staging Buffer after a frame has become DIRTY is `Staging.dirtied`, and a program's
outcome is told by whether its frame stays as a copy. -/
theorem stagingFramesMove : Obligations.StagingFramesMove := by
  unfold Obligations.StagingFramesMove
  refine ⟨fun a b => ⟨seqGe_iff a b, seqGt_iff a b⟩, rfl,
    fun x => ⟨congrArg Staging.seq (Part.startUp_sb x), Part.metadataResetEffect_seq x⟩, fun s f => ?_,
    fun e b q o => ⟨fun hr hb hq => SetEntry.resolve_takes o ⟨hr, hb, hq⟩, SetEntry.resolve_leaves o⟩, fun s f => ?_,
    fun s f b => ⟨fun h => Part.tallyReport_data h b, fun m k q hm hk hq => Part.tallyReport_mark hm hk hq b⟩,
    fun s k m b n i is => ⟨rfl, rfl, rfl, rfl, rfl, rfl, rfl, fun f h => Part.dirtyFilled_succ h n,
      fun f q h hq => ⟨Part.writeSet_succ h hq k n, Part.markList_succ h hq n⟩⟩, fun s f => ?_, fun s f o h => ?_⟩
  case refine_1 =>
    intro q old t
    have sb : t.sb = s.sb.dirtied f := (Part.stageDirty_same s f).1
    rw [sb]
    exact ⟨rfl, Staging.dirtied_mem, Staging.dirtied_progQ_none, fun g hg => ⟨Staging.dirtied_progQ_some hg,
      Staging.dirtied_old_free hg⟩, fun g hg => ⟨Staging.dirtied_clean_left hg, Staging.dirtied_clean_free hg⟩,
      fun g hg => Staging.mem_dirtied_of_ne hg⟩
  case refine_2 =>
    cases h : s.sb.inState .dirty f.block with
    | some g => exact Part.stageDirty_supersedes h
    | none => exact Part.stageDirty_fresh h
  case refine_3 =>
    exact ⟨insertFrame f s.sb.frames, rfl, self_mem_insertFrame _ _, fun g hg => mem_insertFrame hg,
      fun g hg n => mem_insertFrame_of_ne hg n⟩
  case refine_4 =>
    intro t
    refine ⟨fun p => ?_, fun n => Part.outcome_other h n o,
      fun p ok data alone => Part.outcome_kept_sb h p ⟨ok, data, alone⟩, fun p k => Part.outcome_freed_sb h p ?_⟩
    · intro kept moved moved' told
      have e : t = told.resolveAll f o := by
        by_cases k : s.keepsCopy f o
        · have same : told = Part.tallyReport _ f false := if_pos k.1
          rw [same, show moved' = _ from if_pos k, show moved = _ from if_pos k]
          exact Part.outcome_kept h p k
        · have same : moved' = s.freeFrame f.idx := (if_neg k).trans (if_neg k)
          have same' : told = if o = .ok then (s.freeFrame f.idx).tallyReport f false else s.freeFrame f.idx :=
            congrArg (fun m : Part => if o = .ok then m.tallyReport f false else m) same
          rw [same']
          exact Part.outcome_freed h p k
      exact e
    · rintro ⟨ok, data, alone⟩
      rcases k with k | k | k
      · rw [ok] at k; cases k
      · exact k data
      · exact k alone

/-- R72: the READ has the block of the request in progress still. -/
def Cmd.awaits (c : Cmd) (r : PortReq) : Prop := c.state = .reading ∧ c.inProgress = some r.index

namespace Part

variable {s : Part}

/-! ### Read caching and the refresh list (R15, R121) -/

/-- R11: a frame of the block is visible. -/
def shows (s : Part) (b : Nat) : Prop := ∃ f ∈ s.sb.frames, f.state ≠ .filling ∧ f.block = b

theorem shows_iff (s : Part) (b : Nat) : ((s.sb.inState .dirty b).isSome || (s.sb.inState .programming b).isSome ||
    (s.sb.inState .clean b).isSome) = true ↔ s.shows b := by
  have one : ∀ st, (s.sb.inState st b).isSome = true ↔ ∃ f ∈ s.sb.frames, f.state = st ∧ f.block = b := fun st => by
    simp [Staging.inState, List.find?_isSome]
  rw [Bool.or_eq_true, Bool.or_eq_true, one, one, one]
  constructor
  · rintro ((⟨f, hf, hs, hb⟩ | ⟨f, hf, hs, hb⟩) | ⟨f, hf, hs, hb⟩) <;> exact ⟨f, hf, by rw [hs]; decide, hb⟩
  · rintro ⟨f, hf, hs, hb⟩
    cases h : f.state with
    | filling => exact absurd h hs
    | dirty => exact .inl (.inl ⟨f, hf, h, hb⟩)
    | programming => exact .inl (.inr ⟨f, hf, h, hb⟩)
    | clean => exact .inr ⟨f, hf, h, hb⟩

/-- R15: the data of a block that a frame shows is not cached. -/
theorem cacheRead_shown {b : Nat} (h : s.shows b) (d : BlockData) : s.cacheRead b d = s :=
  if_pos ((shows_iff s b).2 h)

/-- R3, R15: with no frame available nothing is cached. -/
theorem cacheRead_full {b : Nat} (h : ¬ s.shows b) (e : s.sb.freeIdx ++ s.sb.clean = []) (d : BlockData) :
    s.cacheRead b d = s := by
  have none : s.allocIdx 1 = [] := by rw [allocIdx, e]; rfl
  unfold cacheRead
  rw [if_neg ((shows_iff s b).not.2 h), none]

/-- R3, R15: the first available frame becomes the CLEAN copy, at the tail of the clean list. -/
theorem cacheRead_cached {b i : Nat} (h : ¬ s.shows b) (e : (s.sb.freeIdx ++ s.sb.clean).head? = some i) (d : BlockData) :
    let y := (s.reclaim [i]).listFrame
      { idx := i, state := .clean, block := b, writer := none, cmd := none, content := .data, seq := some 0,
        data := some d }
    s.cacheRead b d = y.withSb { y.sb with clean := y.sb.clean ++ [i] } := by
  obtain ⟨is, e⟩ := List.head?_eq_some_iff.1 e
  have one : s.allocIdx 1 = [i] := by rw [allocIdx, e]; rfl
  unfold cacheRead
  rw [if_neg ((shows_iff s b).not.2 h), one]

theorem holds_refresh_iff (s : Part) (b : Nat) :
    s.media.refresh.any (fun e => decide (e.block = b)) = true ↔ ∃ e ∈ s.media.refresh, e.block = b := by
  simp

/-- R121: the refresh list takes an offer of the block, or already holds it. -/
theorem refreshTakes_iff (s : Part) (b : Nat) : s.refreshTakes b = true ↔
    (∃ e ∈ s.media.refresh, e.block = b) ∨ s.media.refresh.length < 8 := by
  rw [refreshTakes, Bool.or_eq_true, holds_refresh_iff, decide_eq_true_iff]
  rfl

theorem offerRefresh_refused {b : Nat} (h : (∃ e ∈ s.media.refresh, e.block = b) ∨ 8 ≤ s.media.refresh.length)
    (o : Origin) : s.offerRefresh b o = s := by
  unfold offerRefresh
  rcases h with h | h
  · rw [if_pos ((holds_refresh_iff s b).2 h)]
  · rw [if_neg (c := s.media.refresh.length < Config.maxRefresh) (not_lt.2 h), ite_self]

theorem offerRefresh_taken {b : Nat} (h : ∀ e ∈ s.media.refresh, e.block ≠ b) (r : s.media.refresh.length < 8)
    (o : Origin) : s.offerRefresh b o =
      s.withMedia { s.media with refresh := s.media.refresh ++ [{ block := b, origin := o }] } := by
  unfold offerRefresh
  rw [if_neg ((holds_refresh_iff s b).not.2 fun ⟨e, he, k⟩ => h e he k)]
  exact if_pos r

/-! ### The end of a port's read (R72, R112) -/

/-- What a read that succeeded does for itself: its data is offered for caching, and a weak block for refresh. -/
def readFound (s : Part) (b : Nat) (d : BlockData) (o : Integrity) : Part :=
  if o = .corrected then (s.cacheRead b d).offerRefresh b .read else s.cacheRead b d

theorem awaiting_none {r : PortReq} (h : ∀ c, s.cmds.byReceipt r.receipt = some c → ¬ c.awaits r) :
    (s.cmds.byReceipt r.receipt).filter (fun c => decide (c.state = .reading) && decide (c.inProgress = some r.index)) =
      none := by
  rw [Option.filter_eq_none_iff]
  intro c hc
  simpa [Cmd.awaits] using h c hc

theorem awaiting_some {r : PortReq} {c : Cmd} (h : s.cmds.byReceipt r.receipt = some c) (a : c.awaits r) :
    (s.cmds.byReceipt r.receipt).filter (fun c => decide (c.state = .reading) && decide (c.inProgress = some r.index)) =
      some c := by
  rw [h, Option.filter_some_pos]
  simpa [Cmd.awaits] using a

variable {r : PortReq} {loc : Nat} {o : Integrity} {c : Cmd}

theorem portReadEnded_failed_alone (h : ∀ c, s.cmds.byReceipt r.receipt = some c → ¬ c.awaits r) :
    s.portReadEnded r loc .uncorrectable = s.mediaFailure r.block .portRead := by
  unfold portReadEnded
  simp only [if_true, awaiting_none h]

theorem portReadEnded_failed (h : s.cmds.byReceipt r.receipt = some c) (a : c.awaits r) :
    s.portReadEnded r loc .uncorrectable = (s.mediaFailure r.block .portRead).finish c
      (if c.aborted then .aborted else .unreadable) (.read c.next none) := by
  unfold portReadEnded
  simp only [if_true, awaiting_some h a]
  split <;> rfl

theorem portReadEnded_found_alone (n : o ≠ .uncorrectable)
    (h : ∀ c, s.cmds.byReceipt r.receipt = some c → ¬ c.awaits r) :
    s.portReadEnded r loc o = s.readFound r.block (s.mediaRead loc) o := by
  unfold portReadEnded readFound
  simp only [n, if_false, awaiting_none h]

theorem portReadEnded_found (n : o ≠ .uncorrectable) (h : s.cmds.byReceipt r.receipt = some c) (a : c.awaits r) :
    s.portReadEnded r loc o = ((s.readFound r.block (s.mediaRead loc) o).deliver c r.seen).runRead c.receipt := by
  unfold portReadEnded readFound
  simp only [n, if_false, awaiting_some h a]

/-! ### The end of a refresh read (R123, R124) -/

variable {i b : Nat} {f : Frame}

theorem started_iff (s : Part) (i : Nat) : s.media.refresh.any (fun e => decide (e.started = some i)) = true ↔
    ∃ e ∈ s.media.refresh, e.started = some i := by
  simp

/-- R124: a refresh that has been dropped has no entry, or its frame is FILLING no more: its read ends without effect. -/
theorem refreshEnded_dropped
    (h : (∀ e ∈ s.media.refresh, e.started ≠ some i) ∨ ∀ f, s.sb.at? i = some f → f.state ≠ .filling) :
    s.refreshEnded i b loc o = s := by
  unfold refreshEnded
  rcases h with h | h
  · split
    · rfl
    · exact if_neg ((started_iff s i).not.2 fun ⟨e, he, k⟩ => h e he k)
  · rw [Option.filter_eq_none_iff.2 fun f hf => by simpa using h f hf]

/-- R123: the three ends of the read of a refresh that goes on. -/
theorem refreshEnded_running (he : ∃ e ∈ s.media.refresh, e.started = some i) (hf : s.sb.at? i = some f)
    (hs : f.state = .filling) : s.refreshEnded i b loc o =
      if o = .uncorrectable then ((s.freeFrame i).dropRefresh b).mediaFailure b .refreshRead
      else if s.settledOtherwise b then (s.freeFrame i).dropRefresh b
      else ((s.stageDirty { f with data := some (s.mediaRead loc) }).dropRefresh b).emitDecided := by
  unfold refreshEnded
  rw [hf, Option.filter_some_pos (by simpa using hs)]
  exact if_pos ((started_iff s i).2 he)

/-! ### The end of a scrub read (R146) -/

/-- R136: a failure of the block is recorded where it has an entry, or the map has room. -/
theorem failureRecorded_iff (s : Part) (b : Nat) : s.failureRecorded b = true ↔
    (s.poisonOf b).isSome ∨ s.integ.poison.length + s.sb.markFrames < 512 := by
  rw [failureRecorded, Bool.or_eq_true, roomForMedia, decide_eq_true_iff]
  rfl

/-- The block has been read: it counts as checked. -/
def checked (s : Part) : Part := s.countScrub fun n => { n with checked := n.checked + 1 }

/-- The block was weak: it counts as corrected too. -/
def corrected (s : Part) : Part := s.checked.countScrub fun n => { n with corrected := n.corrected + 1 }

theorem scrubEnded_good (s : Part) (b : Nat) : s.scrubEnded b .good = s.checked.checkEnded := rfl

theorem scrubEnded_corrected (s : Part) (b : Nat) : s.scrubEnded b .corrected =
    if s.refreshTakes b then (s.corrected.offerRefresh b .scrub).checkEnded
    else if s.scrub.state = .stopping then s.corrected.checkEnded
    else s.corrected.setScrub { s.corrected.scrub with phase := .waitingRoom } := rfl

theorem scrubEnded_uncorrectable (s : Part) (b : Nat) : s.scrubEnded b .uncorrectable =
    let fails := s.checked.mediaFailure b .scrubRead
    let n := s.checked.scrub.counts
    (fails.withScrub { fails.scrub with
      counts := if (s.checked.poisonOf b).isSome ∨ s.checked.integ.poison.length + s.checked.sb.markFrames < 512 then
        { n with poisoned := n.poisoned + 1 } else { n with unrecorded := n.unrecorded + 1 } }).checkEnded := by
  have scrub : (s.checked.mediaFailure b .scrubRead).scrub = s.checked.scrub :=
    (mediaFailure_keeps s.checked b .scrubRead).scrub (by decide)
  have made := failureRecorded_iff s.checked b
  show ((s.checked.mediaFailure b .scrubRead).countScrub fun n => if s.checked.failureRecorded b then
    { n with poisoned := n.poisoned + 1 } else { n with unrecorded := n.unrecorded + 1 }).checkEnded = _
  simp only [countScrub, setScrub, made, scrub]

/-! ### The events

A read ends with its effect and the follow-ups, or, cut off by a METADATA RESET, with the follow-ups only (R125). -/

theorem evPortReadEnd_ends (h : s.isHeld = false)
    (hc : s.media.current = some { op := .portRead r loc, discard := false }) (o : Integrity) :
    s.evPortReadEnd o = follow s (s.idle.portReadEnded r loc o) := by
  rw [evPortReadEnd, event_runs _ h]
  simp only [hc, Bool.false_eq_true, if_false]

theorem evPortReadEnd_cut (h : s.isHeld = false)
    (hc : s.media.current = some { op := .portRead r loc, discard := true }) (o : Integrity) :
    s.evPortReadEnd o = follow s s.idle := by
  rw [evPortReadEnd, event_runs _ h]
  simp only [hc, if_true]

theorem evRefreshReadEnd_ends (h : s.isHeld = false)
    (hc : s.media.current = some { op := .refreshRead i b loc, discard := false }) (o : Integrity) :
    s.evRefreshReadEnd o = follow s (s.idle.refreshEnded i b loc o) := by
  rw [evRefreshReadEnd, event_runs _ h]
  simp only [hc, Bool.false_eq_true, if_false]

theorem evRefreshReadEnd_cut (h : s.isHeld = false)
    (hc : s.media.current = some { op := .refreshRead i b loc, discard := true }) (o : Integrity) :
    s.evRefreshReadEnd o = follow s s.idle := by
  rw [evRefreshReadEnd, event_runs _ h]
  simp only [hc, if_true]

theorem evScrubReadEnd_ends (h : s.isHeld = false)
    (hc : s.media.current = some { op := .scrubRead b loc, discard := false }) (o : Integrity) :
    s.evScrubReadEnd o = follow s (s.idle.scrubEnded b o) := by
  rw [evScrubReadEnd, event_runs _ h]
  simp only [hc, Bool.false_eq_true, if_false]

theorem evScrubReadEnd_cut (h : s.isHeld = false)
    (hc : s.media.current = some { op := .scrubRead b loc, discard := true }) (o : Integrity) :
    s.evScrubReadEnd o = follow s s.idle := by
  rw [evScrubReadEnd, event_runs _ h]
  simp only [hc, if_true]

end Part

section Events

variable {s : State} {o : Integrity} {z : Part}

theorem exec_portReadEnd_ends {r : PortReq} {loc : Nat} (h : s.part.isHeld = false)
    (hc : s.part.media.current = some { op := .portRead r loc, discard := false })
    (e : s.part.idle.portReadEnded r loc o = z) :
    exec (.portReadEnd o) s = .next (s.withPart (Part.follow s.part z)) :=
  congrArg (fun x => Host.Outcome.next (s.withPart x))
    ((Part.evPortReadEnd_ends h hc o).trans (congrArg (Part.follow s.part) e))

theorem exec_refreshReadEnd_ends {i b loc : Nat} (h : s.part.isHeld = false)
    (hc : s.part.media.current = some { op := .refreshRead i b loc, discard := false })
    (e : s.part.idle.refreshEnded i b loc o = z) :
    exec (.refreshReadEnd o) s = .next (s.withPart (Part.follow s.part z)) :=
  congrArg (fun x => Host.Outcome.next (s.withPart x))
    ((Part.evRefreshReadEnd_ends h hc o).trans (congrArg (Part.follow s.part) e))

theorem exec_scrubReadEnd_ends {b loc : Nat} (h : s.part.isHeld = false)
    (hc : s.part.media.current = some { op := .scrubRead b loc, discard := false })
    (e : s.part.idle.scrubEnded b o = z) :
    exec (.scrubReadEnd o) s = .next (s.withPart (Part.follow s.part z)) :=
  congrArg (fun x => Host.Outcome.next (s.withPart x))
    ((Part.evScrubReadEnd_ends h hc o).trans (congrArg (Part.follow s.part) e))

/-- R125: the three ends of a read that a METADATA RESET has cut off. -/
theorem exec_readEnd_cut {op : MediaOp} (h : s.part.isHeld = false)
    (hc : s.part.media.current = some { op := op, discard := true }) :
    (∀ r loc, op = .portRead r loc →
      exec (.portReadEnd o) s = .next (s.withPart (Part.follow s.part s.part.idle))) ∧
    (∀ i b loc, op = .refreshRead i b loc →
      exec (.refreshReadEnd o) s = .next (s.withPart (Part.follow s.part s.part.idle))) ∧
    ∀ b loc, op = .scrubRead b loc →
      exec (.scrubReadEnd o) s = .next (s.withPart (Part.follow s.part s.part.idle)) := by
  refine ⟨?_, ?_, ?_⟩
  · rintro r loc rfl
    exact congrArg (fun x => Host.Outcome.next (s.withPart x)) (Part.evPortReadEnd_cut h hc o)
  · rintro i b loc rfl
    exact congrArg (fun x => Host.Outcome.next (s.withPart x)) (Part.evRefreshReadEnd_cut h hc o)
  · rintro b loc rfl
    exact congrArg (fun x => Host.Outcome.next (s.withPart x)) (Part.evScrubReadEnd_cut h hc o)

end Events

/-- Settles O55: each read ends by the case of its outcome, and of what still waits for it. -/
theorem mediaReadsEnd : Obligations.MediaReadsEnd := by
  unfold Obligations.MediaReadsEnd
  refine ⟨fun s o held => ?_, fun x b d o => ?_⟩
  · intro x y gives
    refine ⟨fun r loc hc => ?_, fun i b loc f hc he hf hs => ?_, fun i b loc hc h => ?_, fun b loc hc => ?_,
      fun op hc => exec_readEnd_cut held hc⟩
    case refine_1 =>
      refine ⟨fun ho => ⟨fun h => ?_, fun c h hs hp => ?_⟩, fun ho => ⟨fun h => ?_, fun c h hs hp => ?_⟩⟩
      · subst ho
        exact exec_portReadEnd_ends held hc (Part.portReadEnded_failed_alone h)
      · subst ho
        exact exec_portReadEnd_ends held hc (Part.portReadEnded_failed h ⟨hs, hp⟩)
      · exact exec_portReadEnd_ends held hc (Part.portReadEnded_found_alone ho h)
      · exact exec_portReadEnd_ends held hc (Part.portReadEnded_found ho h ⟨hs, hp⟩)
    case refine_2 =>
      have ends := Part.refreshEnded_running (s := y) (b := b) (loc := loc) (o := o) he hf hs
      refine ⟨fun ho => ?_, fun ho settled => ?_, fun ho settled => ?_⟩
      · exact exec_refreshReadEnd_ends held hc (ends.trans (if_pos ho))
      · exact exec_refreshReadEnd_ends held hc (ends.trans ((if_neg ho).trans (if_pos settled)))
      · exact exec_refreshReadEnd_ends held hc
          (ends.trans ((if_neg ho).trans (if_neg (Bool.eq_false_iff.1 settled))))
    case refine_3 => exact exec_refreshReadEnd_ends held hc (Part.refreshEnded_dropped h)
    case refine_4 =>
      intro n z one two inList room
      have takes := Part.refreshTakes_iff y b
      have weak := Part.scrubEnded_corrected y b
      refine ⟨fun ho => ?_, fun ho h => ?_, fun ho h k hs => ?_, fun ho h k hs => ?_, fun ho => ?_⟩ <;> subst ho
      · exact exec_scrubReadEnd_ends held hc (Part.scrubEnded_good y b)
      · exact exec_scrubReadEnd_ends held hc (weak.trans (if_pos (takes.2 h)))
      · exact exec_scrubReadEnd_ends held hc
          (weak.trans ((if_neg (takes.not.2 (not_or.2 ⟨h, k⟩))).trans (if_pos hs)))
      · exact exec_scrubReadEnd_ends held hc
          (weak.trans ((if_neg (takes.not.2 (not_or.2 ⟨h, k⟩))).trans (if_neg hs)))
      · exact exec_scrubReadEnd_ends held hc (Part.scrubEnded_uncorrectable y b)
  · exact ⟨fun h => Part.cacheRead_shown h d, fun h e => Part.cacheRead_full h e d,
      fun i h e => Part.cacheRead_cached h e d, fun h => Part.offerRefresh_refused h o,
      fun h r => Part.offerRefresh_taken h r o⟩

end Sys2Proof.Machine
end

section
/-! PROOFS. The Lease Unit (chapter 2), the ends of sessions, the deadlines, the follow-ups of an event, and the ends of
commits. -/

namespace Sys2Proof.Machine

/-! ### What an event answers -/

section Answers

variable {s : State} {z : Part}

/-- An event of a block, in a part that is not held: its own effect, and the follow-ups. -/
theorem event_answers {f : Part → Part} (held : s.part.isHeld = false) (e : f s.part = z) :
    (.next (s.withPart (s.part.event f)) : Host.Outcome State Fault Refusal) =
      .next (s.withPart (Part.follow s.part z)) := by
  rw [Part.event_runs f held, e]

/-- A request that is accepted: what serves it, and the follow-ups. -/
theorem request_answers {p : Port} {t : Tag} {code : BitVec 8} {serve : Part → Cmd → Part}
    (ok : s.part.accepts p t code) (defined : definedCode code = true)
    (e : serve (s.part.arrived p) (s.part.asked p t code) = z) :
    (.next (s.withPart (s.part.request p t code none serve)) : Host.Outcome State Fault Refusal) =
      .next (s.withPart (Part.follow s.part z)) := by
  rw [Part.request_accepted serve ok defined, e]

end Answers

/-! ### The laws of leases and sessions -/

/-- Settles O7: the law of the Lease Unit is among those that `step_kept` carries through a step. -/
theorem stepKeepsLeaseLaw : Obligations.StepKeepsLeaseLaw := by
  unfold Obligations.StepKeepsLeaseLaw
  intro s t h
  have k : Kept s.part t.part := step_kept s t h
  exact k.lease

/-- Settles O8: so is the law of sessions. -/
theorem stepKeepsSessionLaw : Obligations.StepKeepsSessionLaw := by
  unfold Obligations.StepKeepsSessionLaw
  intro s t h
  have k : Kept s.part t.part := step_kept s t h
  exact k.session

/-! ### The arrival of a frame: what it leaves of the blocks behind the links (R91, R179) -/

namespace Part

variable (s : Part) (p : Port)

theorem arrived_lease : (s.arrived p).lease = s.lease := by unfold arrived rearm; split <;> rfl
theorem arrived_sb : (s.arrived p).sb = s.sb := by unfold arrived rearm; split <;> rfl
theorem arrived_time : (s.arrived p).time = s.time := by unfold arrived rearm; split <;> rfl

end Part

/-! ### CLOSE (R95) -/

/-- Settles O19: CLOSE has no refusal of its own. -/
theorem closeBeginsTheDrain : Obligations.CloseBeginsTheDrain := by
  unfold Obligations.CloseBeginsTheDrain
  intro s p t ok x
  have served : (s.part.arrived p).serveClose (s.part.asked p t codeClose) =
      (x.setSession p { x.session p with state := .closing }).record
        { key := ⟨p, t⟩, code := codeClose, state := .settling, receipt := s.part.cmds.nextReceipt } := by
    unfold Part.serveClose
    rw [Part.arrived_lease]
    rfl
  exact request_answers ok rfl served

/-! ### The abrupt end of a session (R44, R62, R98, R99) -/

namespace Part

/-- R62: what survives an abrupt end of its port's session. -/
theorem survives_iff (c : Cmd) :
    survives c = true ↔ c.code = codeWrite ∧ c.durable = true ∧ c.state = .settling := by
  simp [survives, and_assoc]

section AbruptEnd

variable (s : Part) (p : Port) (kind : FaultKind) (o : Option Port)

theorem mem_recs_abruptEnd (c : Cmd) : c ∈ (s.abruptEnd p kind o).cmds.recs ↔ c ∈ s.cmds.recs ∧
    (c.key.port ≠ p ∨ (c.code = codeWrite ∧ c.durable = true ∧ c.state = .settling)) := by
  rw [← survives_iff]
  show c ∈ s.cmds.recs.filter (fun c => decide (c.key.port ≠ p) || survives c) ↔ _
  simp

theorem lc_abruptEnd_same : (s.abruptEnd p kind o).lc p = { s.lc p with held := [] } := lc_setLc_same ..

/-- An abrupt end leaves the other ports as they are. -/
theorem abruptEnd_other {q : Port} (h : q ≠ p) :
    (s.abruptEnd p kind o).lc q = s.lc q ∧ (s.abruptEnd p kind o).session q = s.session q :=
  ⟨lc_setLc_ne _ _ _ _ h, session_setSession_ne _ _ _ _ h⟩

/-- R99: the port has no record left where none of its commands survives. -/
theorem ofPort_abruptEnd : ((s.abruptEnd p kind o).cmds.ofPort p).isEmpty =
    !(s.cmds.recs.any fun c => decide (c.key.port = p) && decide (c.code = codeWrite) && c.durable &&
      decide (c.state = .settling)) := by
  have mine : ∀ c : Cmd, (decide (c.key.port = p) && (decide (c.key.port ≠ p) || survives c)) =
      (decide (c.key.port = p) && decide (c.code = codeWrite) && c.durable && decide (c.state = .settling)) := fun c => by
    by_cases h : c.key.port = p <;> simp [h, survives]
  have left : (s.abruptEnd p kind o).cmds.ofPort p = s.cmds.recs.filter fun c => decide (c.key.port = p) &&
      decide (c.code = codeWrite) && c.durable && decide (c.state = .settling) := by
    simp only [← mine]
    exact List.filter_filter
  rw [left, Bool.eq_iff_iff, List.isEmpty_iff, List.filter_eq_nil_iff, Bool.not_eq_true', List.any_eq_false]

/-- R99: a command that survives keeps the port DRAINING. -/
theorem session_abruptEnd_same : (s.abruptEnd p kind o).session p =
    { s.session p with
      deadline := none
      state := if (s.cmds.recs.any fun c => decide (c.key.port = p) && decide (c.code = codeWrite) && c.durable &&
        decide (c.state = .settling)) then .draining else .closed } := by
  have ends : (s.abruptEnd p kind o).session p = { s.session p with
      state := if ((s.abruptEnd p kind o).cmds.ofPort p).isEmpty then .closed else .draining
      deadline := none } := session_setSession_same ..
  rw [ends, ofPort_abruptEnd]
  cases s.cmds.recs.any _ <;> rfl

/-- R98: the last record of the Fault List is the abrupt end's. -/
theorem fault_abruptEnd : ∃ r, r ∈ (s.abruptEnd p kind o).faults.ring ∧ r.seq = (s.abruptEnd p kind o).faults.total ∧
    r.info = { kind := kind, port := some p, otherPort := o, session := some (s.session p).number } := by
  refine ⟨_, List.mem_append_right _ (List.mem_singleton_self _), rfl, ?_⟩
  have number : ((s.abruptEnd p kind o).session p).number = (s.session p).number := by rw [session_abruptEnd_same]
  exact congrArg (fun n => ({ kind := kind, port := some p, otherPort := o, session := some n } : FaultInfo)) number

end AbruptEnd

end Part

/-- Settles O22, component by component. -/
theorem abruptEndLeaves : Obligations.AbruptEndLeaves := by
  unfold Obligations.AbruptEndLeaves
  intro s p kind o x
  exact ⟨rfl, rfl, rfl, Part.mem_recs_abruptEnd s p kind o, rfl, rfl, Part.lc_abruptEnd_same s p kind o,
    fun q => Part.abruptEnd_other s p kind o, Part.session_abruptEnd_same s p kind o, Part.fault_abruptEnd s p kind o,
    rfl, rfl, rfl, rfl, rfl, rfl, rfl, rfl, rfl, rfl, rfl, rfl, rfl, rfl⟩

/-! ### Rights (R26) -/

theorem LeaseMode.ne_shared {m : LeaseMode} (h : m ≠ .shared) : m = .exclusive := by
  cases m
  · exact absurd rfl h
  · rfl

namespace Part

variable {s : Part} {p : Port} {b n : Nat}

/-- R26: a held lease bars the command: a SHARED one, or an EXCLUSIVE one of another port. -/
theorem barred_iff : (s.lease.table.any fun l => overlaps l.start l.len b n &&
      (decide (l.mode = .shared) || (decide (l.mode = .exclusive) && decide (l.holder ≠ p)))) = true ↔
    ∃ l ∈ s.lease.table, overlaps l.start l.len b n = true ∧ (l.mode = .shared ∨ l.holder ≠ p) := by
  have mode : ∀ l : Lease,
      l.mode = .shared ∨ (l.mode = .exclusive ∧ l.holder ≠ p) ↔ l.mode = .shared ∨ l.holder ≠ p :=
    fun l => or_congr_right' fun h => and_iff_right (LeaseMode.ne_shared h)
  simp only [List.any_eq_true, Bool.and_eq_true, Bool.or_eq_true, decide_eq_true_eq, mode]

/-- R26: REQUIRE_LEASE is set, and a block lies in no EXCLUSIVE lease of the port. -/
theorem bare_iff : ((s.session p).reqLease && !(List.range n).all (fun i => s.lease.table.any fun l =>
      decide (l.holder = p) && decide (l.mode = .exclusive) && inRange (b + i) l.start l.len)) = true ↔
    (s.session p).reqLease = true ∧ ∃ i < n, ∀ l ∈ s.lease.table, l.holder = p → l.mode = .exclusive →
      ¬ (l.start ≤ b + i ∧ b + i < l.start + l.len) := by
  simp [inRange]

/-- An answer chosen by two tests names the test that chose it. -/
theorem rightsQuery_cases {barred bare : Prop} [Decidable barred] [Decidable bare]
    (e : s.rightsQuery p b n = if barred then some .leaseConflict else if bare then some .notLeased else none) :
    (s.rightsQuery p b n = some .leaseConflict ↔ barred) ∧
      (s.rightsQuery p b n = some .notLeased ↔ ¬ barred ∧ bare) ∧
      (s.rightsQuery p b n = none ↔ ¬ barred ∧ ¬ bare) := by
  rw [e]
  by_cases hb : barred
  · simp [hb]
  · by_cases hn : bare <;> simp [hb, hn]

end Part

/-- Settles O33: the query tests what bars the command first, and what the command lacks then. -/
theorem rightsQueryDecides : Obligations.RightsQueryDecides := by
  unfold Obligations.RightsQueryDecides
  intro s p b n barred bare
  have decides := Part.rightsQuery_cases (s := s) (p := p) (b := b) (n := n) rfl
  rw [Part.barred_iff, Part.bare_iff] at decides
  exact decides

/-! ### LEASE QUERY (R40) -/

namespace LeaseReport

/-- R40: the one report stands no later than the other. -/
def upTo (x y : LeaseReport) : Prop := x.start < y.start ∨ (x.start = y.start ∧ x.id.toNat ≤ y.id.toNat)

theorem upTo_of_before {x y : LeaseReport} (h : x.before y = true) : x.upTo y := by
  simp only [before, Bool.or_eq_true, Bool.and_eq_true, decide_eq_true_eq] at h
  exact h.imp_right fun ⟨e, l⟩ => ⟨e, l.le⟩

theorem upTo_of_not_before {x y : LeaseReport} (h : x.before y = false) : y.upTo x := by
  simp only [before, Bool.or_eq_false_iff, Bool.and_eq_false_iff, decide_eq_false_iff_not] at h
  unfold upTo
  omega

theorem upTo_trans {x y z : LeaseReport} (h : x.upTo y) (k : y.upTo z) : x.upTo z := by
  unfold upTo at *
  omega

end LeaseReport

theorem insertReport_perm (x : LeaseReport) (ys : List LeaseReport) : (insertReport x ys).Perm (x :: ys) := by
  induction ys with
  | nil => exact .refl _
  | cons y ys ih =>
    unfold insertReport
    split
    · exact .refl _
    · exact (ih.cons y).trans (.swap x y ys)

theorem insertReport_sorted (x : LeaseReport) {ys : List LeaseReport} (h : ys.Pairwise LeaseReport.upTo) :
    (insertReport x ys).Pairwise LeaseReport.upTo := by
  induction ys with
  | nil => exact List.pairwise_singleton _ _
  | cons y ys ih =>
    obtain ⟨head, tail⟩ := List.pairwise_cons.1 h
    unfold insertReport
    split
    case isTrue first =>
      have le := LeaseReport.upTo_of_before first
      exact List.pairwise_cons.2 ⟨List.forall_mem_cons.2 ⟨le, fun z hz => LeaseReport.upTo_trans le (head z hz)⟩, h⟩
    case isFalse later =>
      have le := LeaseReport.upTo_of_not_before (Bool.eq_false_iff.2 later)
      refine List.pairwise_cons.2 ⟨fun z hz => ?_, ih tail⟩
      rcases List.mem_cons.1 ((insertReport_perm x ys).mem_iff.1 hz) with rfl | hz
      · exact le
      · exact head z hz

theorem insertReports_perm (xs : List LeaseReport) : (xs.foldr insertReport []).Perm xs := by
  induction xs with
  | nil => exact .refl _
  | cons x xs ih => exact (insertReport_perm x _).trans (ih.cons x)

theorem insertReports_sorted (xs : List LeaseReport) : (xs.foldr insertReport []).Pairwise LeaseReport.upTo := by
  induction xs with
  | nil => exact List.Pairwise.nil
  | cons x xs ih => exact insertReport_sorted x ih

theorem rangeOk_iff {b n : Nat} : rangeOk b n = true ↔ b + n ≤ 262144 := decide_eq_true_iff

namespace Part

variable (s : Part) (p : Port)

theorem serveQuery_empty {c : Cmd} {b n : BitVec 32} (h : n.toNat = 0) : s.serveQuery c b n = s.reply c .invalid .none :=
  if_pos h

theorem serveQuery_outside {c : Cmd} {b n : BitVec 32} (h : n.toNat ≠ 0) (k : 262144 < b.toNat + n.toNat) :
    s.serveQuery c b n = s.reply c .outOfRange .none := by
  have out : rangeOk b.toNat n.toNat = false := by rw [← Bool.not_eq_true, rangeOk_iff]; omega
  unfold serveQuery
  rw [if_neg h, out, Bool.not_false, if_pos rfl]

theorem serveQuery_reports {c : Cmd} {b n : BitVec 32} (h : n.toNat ≠ 0) (k : b.toNat + n.toNat ≤ 262144) :
    s.serveQuery c b n = s.reply c .ok (.leaseQuery (s.leasesIn b.toNat n.toNat)) := by
  unfold serveQuery
  rw [if_neg h, rangeOk_iff.2 k, Bool.not_true, if_neg Bool.false_ne_true]

/-- R91: the arrival of a frame changes nothing of a session but its silence deadline. -/
theorem arrived_session (q : Port) : ∃ d, (s.arrived p).session q = { s.session q with deadline := d } := by
  unfold arrived rearm
  split
  · by_cases e : q = p
    · subst e; exact ⟨_, session_setSession_same ..⟩
    · exact ⟨_, session_setSession_ne _ _ _ _ e⟩
  · exact ⟨_, rfl⟩

theorem arrived_reportLease (l : Lease) : (s.arrived p).reportLease l = s.reportLease l := by
  obtain ⟨d, e⟩ := s.arrived_session p l.holder
  unfold reportLease
  rw [e]

theorem arrived_leasesIn (b n : Nat) : (s.arrived p).leasesIn b n = s.leasesIn b n := by
  unfold leasesIn
  rw [arrived_lease, funext (s.arrived_reportLease p)]

end Part

/-- Settles O32: what each of its checks makes of a LEASE QUERY, and the reports sorted by insertion. -/
theorem leaseQueryReports : Obligations.LeaseQueryReports := by
  unfold Obligations.LeaseQueryReports
  intro s p t b n ok answer
  refine ⟨fun empty => ?_, fun blocks out => ?_, fun blocks fits => ⟨s.part.leasesIn b.toNat n.toNat, ?_, ?_, ?_⟩⟩
  · exact request_answers ok rfl (Part.serveQuery_empty _ empty)
  · exact request_answers ok rfl (Part.serveQuery_outside _ blocks out)
  · refine request_answers ok rfl ?_
    rw [Part.serveQuery_reports _ blocks fits, Part.arrived_leasesIn]
    rfl
  · exact insertReports_sorted _
  · exact insertReports_perm _

/-! ### LEASE RENEW and LEASE RELEASE (R38, R39) -/

theorem durationOk_iff {d : BitVec 16} : durationOk d = true ↔ 1 ≤ d.toNat ∧ d.toNat ≤ 60000 := by
  simp only [durationOk, Bool.and_eq_true, decide_eq_true_eq]
  rfl

namespace Part

variable (s : Part) {c : Cmd} {p : Port} {id d : BitVec 16}

theorem ownLease_none (h : ¬ ∃ l ∈ s.lease.table, l.id = id ∧ l.holder = p) : s.ownLease p id = none := by
  unfold ownLease
  rw [List.find?_eq_none]
  exact fun l hl k => h ⟨l, hl, by simpa using k⟩

theorem ownLease_some (h : ∃ l ∈ s.lease.table, l.id = id ∧ l.holder = p) : ∃ l, s.ownLease p id = some l := by
  obtain ⟨l, hl, k⟩ := h
  exact Option.isSome_iff_exists.1 (List.find?_isSome.2 ⟨l, hl, by simpa using k⟩)

theorem serveRenew_invalid (h : ¬ (1 ≤ d.toNat ∧ d.toNat ≤ 60000)) :
    s.serveRenew c id d = s.reply c .invalid .none := by
  unfold serveRenew
  rw [if_pos]
  rw [Bool.not_eq_true', ← Bool.not_eq_true, durationOk_iff]
  exact h

/-- R38: RENEW finds no lease with the id that the port holds. -/
theorem serveRenew_none (h : 1 ≤ d.toNat ∧ d.toNat ≤ 60000)
    (k : ¬ ∃ l ∈ s.lease.table, l.id = id ∧ l.holder = c.key.port) :
    s.serveRenew c id d = s.reply c .noSuchLease .none := by
  unfold serveRenew
  rw [durationOk_iff.2 h, s.ownLease_none k]
  rfl

theorem serveRenew_renews (h : 1 ≤ d.toNat ∧ d.toNat ≤ 60000)
    (k : ∃ l ∈ s.lease.table, l.id = id ∧ l.holder = c.key.port) :
    let at' := s.now + 10 * d.toNat
    s.serveRenew c id d = (s.withLease { s.lease with
      table := s.lease.table.map fun l => if l.id = id then { l with deadline := at' } else l }).reply c .ok
        (.leaseRenew at') := by
  obtain ⟨l, found⟩ := s.ownLease_some k
  unfold serveRenew
  rw [durationOk_iff.2 h, found]
  rfl

theorem serveRelease_none (k : ¬ ∃ l ∈ s.lease.table, l.id = id ∧ l.holder = c.key.port) :
    s.serveRelease c id = s.reply c .noSuchLease .none := by
  unfold serveRelease
  rw [s.ownLease_none k]

theorem serveRelease_releases (k : ∃ l ∈ s.lease.table, l.id = id ∧ l.holder = c.key.port) :
    s.serveRelease c id = (s.removeLease id).reply c .ok .none := by
  obtain ⟨l, found⟩ := s.ownLease_some k
  unfold serveRelease
  rw [found]

end Part

/-- Settles O31: the checks of each request in their order. -/
theorem leaseRenewAndRelease : Obligations.LeaseRenewAndRelease := by
  unfold Obligations.LeaseRenewAndRelease
  intro s p t id d x owned
  have table : (x.arrived p).lease = x.lease := x.arrived_lease p
  have now : (x.arrived p).now = x.time.ms := congrArg Timebase.ms (x.arrived_time p)
  refine ⟨fun ok => ⟨fun bad => ?_, fun low high missing => ?_, fun low high own => ?_⟩,
    fun ok => ⟨fun missing => ?_, fun own => ?_⟩⟩
  · exact request_answers ok rfl (Part.serveRenew_invalid _ (by omega))
  · exact request_answers ok rfl (Part.serveRenew_none _ ⟨low, high⟩ (by rw [table]; exact missing))
  · refine request_answers ok rfl ((Part.serveRenew_renews _ ⟨low, high⟩ (by rw [table]; exact own)).trans ?_)
    rw [table, now]
    rfl
  · exact request_answers ok rfl (Part.serveRelease_none _ (by rw [table]; exact missing))
  · refine request_answers ok rfl ((Part.serveRelease_releases _ (by rw [table]; exact own)).trans ?_)
    unfold Part.removeLease Part.setLeases
    rw [table]
    rfl

/-! ### What stands against a lease (R29) -/

theorem Lease.against_iff {l : Lease} {p : Port} {b n : Nat} {m : LeaseMode} : l.against p b n m = true ↔
    overlaps l.start l.len b n = true ∧ (l.holder = p ∨ l.mode = .exclusive ∨ m = .exclusive) := by
  simp [Lease.against, or_assoc]

theorem Wait.against_iff {w : Wait} {b n : Nat} {m : LeaseMode} :
    w.against b n m = true ↔ overlaps w.start w.len b n = true ∧ (w.mode = .exclusive ∨ m = .exclusive) := by
  simp [Wait.against]

theorem Frame.ofPort_iff {f : Frame} : f.ofPort = true ↔ ∃ q, f.writer = some (.port q) := by
  unfold Frame.ofPort
  split <;> simp_all

theorem Frame.port?_eq {f : Frame} {q : Port} (h : f.writer = some (.port q)) : f.port? = some q := by
  unfold Frame.port?
  rw [h]

theorem Frame.against_iff {f : Frame} {p : Port} {b n : Nat} {m : LeaseMode} : f.against p b n m = true ↔
    ∃ q, f.state = .filling ∧ f.writer = some (.port q) ∧ b ≤ f.block ∧ f.block < b + n ∧
      (m = .shared ∨ q ≠ p) := by
  simp only [Frame.against, inRange, Bool.and_eq_true, Bool.or_eq_true, decide_eq_true_eq, Frame.ofPort_iff]
  constructor
  · rintro ⟨⟨⟨filling, q, writer⟩, from', below⟩, mode⟩
    rw [Frame.port?_eq writer, Ne, Option.some_inj] at mode
    exact ⟨q, filling, writer, from', below, mode⟩
  · rintro ⟨q, filling, writer, from', below, mode⟩
    rw [Frame.port?_eq writer, Ne, Option.some_inj]
    exact ⟨⟨⟨filling, q, writer⟩, from', below⟩, mode⟩

namespace Part

/-- R29: a held lease, a WRITE in FILLING or one of the entries `ahead` stands against a request of port `p`. -/
def clashes (s : Part) (ahead : List Wait) (p : Port) (b n : Nat) (m : LeaseMode) : Prop :=
  (∃ l ∈ s.lease.table, overlaps l.start l.len b n = true ∧
      (l.holder = p ∨ l.mode = .exclusive ∨ m = .exclusive)) ∨
    (∃ f ∈ s.sb.frames, ∃ q, f.state = .filling ∧ f.writer = some (.port q) ∧ b ≤ f.block ∧ f.block < b + n ∧
      (m = .shared ∨ q ≠ p)) ∨
    ∃ w ∈ ahead, overlaps w.start w.len b n = true ∧ (w.mode = .exclusive ∨ m = .exclusive)

variable {s : Part} {ahead : List Wait} {p : Port} {b n : Nat} {m : LeaseMode}

theorem clashes_iff :
    (s.leaseBlocked p b n m || ahead.any fun w => w.against b n m) = true ↔ s.clashes ahead p b n m := by
  simp only [leaseBlocked, Bool.or_eq_true, List.any_eq_true, Lease.against_iff, Frame.against_iff, Wait.against_iff,
    clashes, or_assoc]

/-- R32, R35: a request is granted where nothing stands against it and the table has room. -/
theorem grantable_iff :
    s.grantable ahead p b n m = true ↔ ¬ s.clashes ahead p b n m ∧ s.lease.table.length < 32 := by
  rw [← clashes_iff, Bool.not_eq_true, Bool.or_eq_false_iff, grantable, Bool.and_eq_true, Bool.and_eq_true,
    Bool.not_eq_true', Bool.not_eq_true', decide_eq_true_eq]
  rfl

theorem grantable_false (h : s.clashes ahead p b n m ∨ 32 ≤ s.lease.table.length) :
    s.grantable ahead p b n m = false := by
  rw [← Bool.not_eq_true, grantable_iff, not_and_or, not_not, not_lt]
  exact h

theorem arrived_clashes (q : Port) : (s.arrived q).clashes ahead p b n m ↔ s.clashes ahead p b n m := by
  unfold clashes
  rw [arrived_lease, arrived_sb]

theorem arrived_newLease (q : Port) (d : Nat) : (s.arrived q).newLease p b n m d = s.newLease p b n m d := by
  obtain ⟨_, e⟩ := s.arrived_session q p
  unfold newLease now
  rw [arrived_lease, arrived_time, e]

theorem arrived_overlapsOwn (q : Port) : (s.arrived q).overlapsOwn p b n = s.overlapsOwn p b n := by
  unfold overlapsOwn
  rw [arrived_lease]

/-! ### LEASE ACQUIRE (R30 to R34) -/

theorem overlapsOwn_iff : s.overlapsOwn p b n = true ↔
    (∃ l ∈ s.lease.table, l.holder = p ∧ overlaps l.start l.len b n = true) ∨
      ∃ w ∈ s.lease.waits, w.key.port = p ∧ overlaps w.start w.len b n = true := by
  simp [overlapsOwn]

section Acquire

variable {c : Cmd} {x : LeaseParams}

theorem acquire_grants (h : ¬ s.clashes s.lease.waits c.key.port x.start x.len x.mode) (k : s.lease.table.length < 32) :
    let l := s.newLease c.key.port x.start x.len x.mode x.duration
    s.acquire c x = (s.addLease l).reply c .ok (.leaseAcquire l.id l.granted l.deadline) :=
  if_pos (grantable_iff.2 ⟨h, k⟩)

theorem acquire_not_granted (h : s.clashes s.lease.waits c.key.port x.start x.len x.mode ∨ 32 ≤ s.lease.table.length) :
    ¬ s.grantable s.lease.waits c.key.port x.start x.len x.mode = true := Bool.eq_false_iff.1 (grantable_false h)

/-- R33: without a wait limit, a request that something stands against is refused. -/
theorem acquire_conflict (h : s.clashes s.lease.waits c.key.port x.start x.len x.mode) (w : x.waitLimit = 0) :
    s.acquire c x = s.reply c .leaseConflict .none :=
  (if_neg (acquire_not_granted (.inl h))).trans <| (if_pos w).trans <|
    congrArg (fun st => s.reply c st .none) (if_pos (clashes_iff.2 h))

/-- R33: and so is one that only the table's limit stands against. -/
theorem acquire_tableFull (h : ¬ s.clashes s.lease.waits c.key.port x.start x.len x.mode)
    (k : 32 ≤ s.lease.table.length) (w : x.waitLimit = 0) : s.acquire c x = s.reply c .leaseTableFull .none :=
  (if_neg (acquire_not_granted (.inr k))).trans <| (if_pos w).trans <|
    congrArg (fun st => s.reply c st .none) (if_neg (clashes_iff.not.2 h))

theorem acquire_listFull (h : s.clashes s.lease.waits c.key.port x.start x.len x.mode ∨ 32 ≤ s.lease.table.length)
    (w : x.waitLimit ≠ 0) (k : 16 ≤ s.lease.waits.length) : s.acquire c x = s.reply c .waitListFull .none :=
  (if_neg (acquire_not_granted h)).trans <| (if_neg w).trans <| if_neg (not_lt.2 k)

/-- R34: with a wait limit it waits, where the wait list has room. -/
theorem acquire_waits (h : s.clashes s.lease.waits c.key.port x.start x.len x.mode ∨ 32 ≤ s.lease.table.length)
    (w : x.waitLimit ≠ 0) (k : s.lease.waits.length < 16) :
    s.acquire c x = (s.setWaits (s.lease.waits ++
      [{ key := c.key, start := x.start, len := x.len, mode := x.mode, duration := x.duration,
         deadline := s.now + x.waitLimit }])).record { c with state := .waiting, lease := some x } :=
  (if_neg (acquire_not_granted h)).trans <| (if_neg w).trans <| if_pos k

theorem serveAcquire_own (h : s.overlapsOwn c.key.port x.start x.len = true) :
    s.serveAcquire c (.ok x) = s.reply c .overlapSelf .none := if_pos h

theorem serveAcquire_other (h : s.overlapsOwn c.key.port x.start x.len = false) :
    s.serveAcquire c (.ok x) = s.acquire c x := if_neg (Bool.eq_false_iff.1 h)

end Acquire

end Part

/-- R30: the operands of a LEASE ACQUIRE that INVALID does not refuse. -/
def AcquireForm (m : BitVec 8) (n : BitVec 32) (d w : BitVec 16) : Prop :=
  (m = 1 ∨ m = 2) ∧ n.toNat ≠ 0 ∧ 1 ≤ d.toNat ∧ d.toNat ≤ 60000 ∧ w.toNat ≤ 10000

/-- The parameters of a LEASE ACQUIRE whose operands pass R30. -/
def acquireParams (b n : BitVec 32) (m : BitVec 8) (d w : BitVec 16) : LeaseParams :=
  { start := b.toNat, len := n.toNat, mode := if m = 1 then .shared else .exclusive, duration := d.toNat,
    waitLimit := w.toNat }

section Params

variable {b n : BitVec 32} {m : BitVec 8} {d w : BitVec 16}

theorem leaseModeOf_eq (h : m = 1 ∨ m = 2) : leaseModeOf m = some (if m = 1 then .shared else .exclusive) := by
  rcases h with rfl | rfl <;> rfl

theorem leaseModeOf_none (h : ¬ (m = 1 ∨ m = 2)) : leaseModeOf m = none := by
  obtain ⟨one, two⟩ := not_or.1 h
  unfold leaseModeOf
  rw [if_neg one, if_neg two]

theorem leaseParamsOf_invalid (h : ¬ AcquireForm m n d w) : leaseParamsOf b n m d w = .error .invalid := by
  unfold leaseParamsOf
  by_cases mode : m = 1 ∨ m = 2
  · rw [leaseModeOf_eq mode]
    refine if_pos ?_
    rw [Bool.not_eq_true', ← Bool.not_eq_true, durationOk_iff]
    by_contra k
    simp only [not_or, not_not, Config.maxWaitLimit] at k
    exact h ⟨mode, k.1, k.2.1.1, k.2.1.2, not_lt.1 k.2.2⟩
  · rw [leaseModeOf_none mode]

theorem leaseParamsOf_form (h : AcquireForm m n d w) : leaseParamsOf b n m d w =
    if !rangeOk b.toNat n.toNat then .error .outOfRange else .ok (acquireParams b n m d w) := by
  obtain ⟨mode, blocks, low, high, wait⟩ := h
  unfold leaseParamsOf
  rw [leaseModeOf_eq mode]
  refine if_neg ?_
  rw [durationOk_iff.2 ⟨low, high⟩]
  simp [blocks, Config.maxWaitLimit, wait]

theorem leaseParamsOf_outside (h : AcquireForm m n d w) (k : 262144 < b.toNat + n.toNat) :
    leaseParamsOf b n m d w = .error .outOfRange := by
  rw [leaseParamsOf_form h, if_pos]
  rw [Bool.not_eq_true', ← Bool.not_eq_true, rangeOk_iff]
  omega

theorem leaseParamsOf_ok (h : AcquireForm m n d w) (k : b.toNat + n.toNat ≤ 262144) :
    leaseParamsOf b n m d w = .ok (acquireParams b n m d w) := by
  rw [leaseParamsOf_form h, rangeOk_iff.2 k, Bool.not_true, if_neg Bool.false_ne_true]

end Params

section Exec

variable {s : State} {p : Port} {t : Tag} {b n : BitVec 32} {m : BitVec 8} {d w : BitVec 16} {z : Part}

theorem exec_leaseAcquire (ok : s.part.accepts p t codeLeaseAcquire)
    (e : (s.part.arrived p).serveAcquire (s.part.asked p t codeLeaseAcquire) (leaseParamsOf b n m d w) = z) :
    exec (.leaseAcquire p t b n m d w) s = .next (s.withPart (Part.follow s.part z)) :=
  request_answers (serve := fun s c => s.serveAcquire c (leaseParamsOf b n m d w)) ok rfl e

/-- A LEASE ACQUIRE that passes R30 and R31. -/
theorem exec_leaseAcquire_acquires (ok : s.part.accepts p t codeLeaseAcquire) (form : AcquireForm m n d w)
    (fits : b.toNat + n.toNat ≤ 262144) (others : ¬ s.part.overlapsOwn p b.toNat n.toNat = true)
    (e : (s.part.arrived p).acquire (s.part.asked p t codeLeaseAcquire) (acquireParams b n m d w) = z) :
    exec (.leaseAcquire p t b n m d w) s = .next (s.withPart (Part.follow s.part z)) := by
  refine exec_leaseAcquire ok ?_
  rw [leaseParamsOf_ok form fits, Part.serveAcquire_other, e]
  rw [Part.arrived_overlapsOwn]
  exact Bool.eq_false_iff.2 others

end Exec

/-- Settles O30: the operands, the port's own leases and waits, and what stands against the request, in this order. -/
theorem leaseAcquireOutcomes : Obligations.LeaseAcquireOutcomes := by
  unfold Obligations.LeaseAcquireOutcomes
  intro s p t b n m d w ok x no good mode own clash
  have lease : (x.arrived p).lease = x.lease := x.arrived_lease p
  have now : (x.arrived p).now = x.time.ms := congrArg Timebase.ms (x.arrived_time p)
  have zero : w = 0 ↔ w.toNat = 0 := by rw [← BitVec.toNat_inj]; rfl
  refine ⟨fun bad => ?_, fun form out => ?_, fun form fits mine => ?_, fun form fits others => ?_⟩
  · exact exec_leaseAcquire ok (by rw [leaseParamsOf_invalid bad]; rfl)
  · exact exec_leaseAcquire ok (by rw [leaseParamsOf_outside form out]; rfl)
  · refine exec_leaseAcquire ok ?_
    rw [leaseParamsOf_ok form fits, Part.serveAcquire_own]
    · rfl
    · rw [Part.arrived_overlapsOwn]
      exact Part.overlapsOwn_iff.2 mine
  have acquires {z : Part} := exec_leaseAcquire_acquires (z := z) ok form fits (Part.overlapsOwn_iff.not.2 others)
  have stands : (x.arrived p).clashes (x.arrived p).lease.waits p b.toNat n.toNat mode ↔ clash :=
    (Part.arrived_clashes p).trans (by rw [lease]; rfl)
  have blocked : clash ∨ 32 ≤ x.lease.table.length →
      (x.arrived p).clashes (x.arrived p).lease.waits p b.toNat n.toNat mode ∨ 32 ≤ (x.arrived p).lease.table.length :=
    Or.imp stands.2 fun k => by rw [lease]; exact k
  refine ⟨?grants, fun clash limit => ?conflict, fun free full limit => ?tableFull, fun h limit full => ?listFull,
    fun h limit room => ?waits⟩
  case grants =>
    intro free room id at'
    refine acquires ((Part.acquire_grants (x := acquireParams b n m d w) (stands.not.2 free)
      (by rw [lease]; exact room)).trans ?_)
    rw [Part.arrived_newLease]
    unfold Part.addLease
    rw [lease]
    rfl
  case conflict => exact acquires (Part.acquire_conflict (x := acquireParams b n m d w) (stands.2 clash) (zero.1 limit))
  case tableFull =>
    exact acquires (Part.acquire_tableFull (x := acquireParams b n m d w) (stands.not.2 free) (by rw [lease]; exact full)
      (zero.1 limit))
  case listFull =>
    exact acquires (Part.acquire_listFull (x := acquireParams b n m d w) (blocked h) (zero.not.1 limit)
      (by rw [lease]; exact full))
  case waits =>
    refine acquires ((Part.acquire_waits (x := acquireParams b n m d w) (blocked h) (zero.not.1 limit)
      (by rw [lease]; exact room)).trans ?_)
    unfold Part.setWaits
    rw [lease, now]
    rfl

/-! ### The wait list scan (R35) -/

namespace Part

variable {s : Part} {ahead ws : List Wait} {w : Wait} {c : Cmd}

theorem waitScan_ready (h : s.md.device = .ready) : s.waitScan = scanWaits [] s.lease.waits s := if_pos h

theorem waitScan_not_ready (h : s.md.device ≠ .ready) : s.waitScan = s := if_neg h

/-- R35: an entry that something stands against is passed over. -/
theorem scanWaits_passes
    (h : s.clashes ahead w.key.port w.start w.len w.mode ∨ 32 ≤ s.lease.table.length) :
    scanWaits ahead (w :: ws) s = scanWaits (ahead ++ [w]) ws s :=
  if_neg (Bool.eq_false_iff.1 (grantable_false h))

theorem scanWaits_grants
    (h : ¬ s.clashes ahead w.key.port w.start w.len w.mode) (k : s.lease.table.length < 32) :
    scanWaits ahead (w :: ws) s = scanWaits ahead ws (s.grantWait w) := if_pos (grantable_iff.2 ⟨h, k⟩)

/-- R35: the command of a granted entry completes. -/
theorem grantWait_finishes (h : s.cmds.at? w.key = some c) :
    let l := s.newLease w.key.port w.start w.len w.mode w.duration
    s.grantWait w = (s.moveWait w l).finish c .ok (.leaseAcquire l.id l.granted l.deadline) := by
  unfold grantWait
  rw [h]

end Part

/-- Settles O47: an entry is passed over or granted, as `Part.clashes` and the table's limit say. -/
theorem waitListScanGrants : Obligations.WaitListScanGrants := by
  unfold Obligations.WaitListScanGrants
  refine ⟨fun s held => ⟨fun ready => ?_, fun waits => ?_⟩, ?entry⟩
  · exact event_answers held (Part.waitScan_ready ready)
  · exact event_answers held (Part.waitScan_not_ready waits)
  case entry =>
    intro x ahead ws w stands
    have stands_iff : stands ↔ x.clashes ahead w.key.port w.start w.len w.mode ∨ 32 ≤ x.lease.table.length := by
      simp only [stands, Part.clashes, or_assoc]
    refine ⟨rfl, fun h => Part.scanWaits_passes (stands_iff.1 h), fun c h found => ?_⟩
    obtain ⟨free, room⟩ := not_or.1 (stands_iff.not.1 h)
    rw [Part.scanWaits_grants free (not_le.1 room), Part.grantWait_finishes found]
    rfl

/-! ### Deadlines (R36, R37, R80, R92, R154) -/

namespace Part

variable {s : Part} {p : Port} {t : Tag} {c : Cmd} {n : Nat}

theorem reached_of_le {d : Option Nat} (h : d = some n) (k : n ≤ s.now) : s.reached d = true := by
  unfold reached
  rw [h]
  exact decide_eq_true k

theorem armsSilence_iff : s.armsSilence p = true ↔ (s.session p).state = .opened ∨ (s.session p).state = .closing := by
  simp [armsSilence]

/-- R7, R76: what the end of a WRITE in FILLING takes away. -/
theorem endFilling_eq (s : Part) (c : Cmd) : s.endFilling c =
    (s.setFrames (s.sb.frames.filter fun f => !(decide (f.state = .filling) && decide (f.cmd = some c.key)))).setLc
      c.key.port { s.lc c.key.port with
        held := (s.lc c.key.port).held.filter fun h => !(h.frame.isGo && decide (h.frame.tag = some c.key.tag)) } := rfl

theorem endWait_finishes {k : Key} (h : s.cmds.at? k = some c) (st : Status) :
    s.endWait k st = (s.setWaits (s.lease.waits.filter fun w => decide (w.key ≠ k))).finish c st .none := by
  unfold endWait
  dsimp only
  rw [show ∀ ws, (s.setWaits ws).cmds = s.cmds from fun _ => rfl, h]

end Part

section Expiries

variable {s : State} {p : Port} {t : Tag}

/-- R92 -/
theorem exec_silenceExpiry {d : Nat} (held : s.part.isHeld = false)
    (live : (s.part.session p).state = .opened ∨ (s.part.session p).state = .closing)
    (armed : (s.part.session p).deadline = some d) (due : d ≤ s.part.now) :
    exec (.silenceExpiry p) s = .next (s.withPart (Part.follow s.part (s.part.abruptEnd p .portLapsed none))) := by
  refine event_answers held (if_pos ?_)
  rw [Part.armsSilence_iff.2 live, Part.reached_of_le armed due]
  rfl

/-- R80 -/
theorem exec_dataDeadlineExpiry {c : Cmd} {d : Nat} (held : s.part.isHeld = false)
    (found : s.part.cmds.at? ⟨p, t⟩ = some c) (filling : c.state = .filling) (armed : c.deadline = some d) (due : d ≤ s.part.now) :
    exec (.dataDeadlineExpiry p t) s =
      .next (s.withPart (Part.follow s.part ((s.part.endFilling c).finish c .dataTimeout .none))) := by
  refine event_answers held ?_
  simp only [found, filling, Part.reached_of_le armed due, and_self, if_true]

/-- R37 -/
theorem exec_leaseDeadlineExpiry {id : BitVec 16} {l : Lease} (held : s.part.isHeld = false)
    (found : (s.part.lease.table.find? fun l => decide (l.id = id)) = some l) (due : l.deadline ≤ s.part.now) :
    exec (.leaseDeadlineExpiry id) s = .next (s.withPart (Part.follow s.part (s.part.lapse l))) := by
  refine event_answers held ?_
  simp only [found, due, if_true]

/-- R36 -/
theorem exec_waitDeadlineExpiry {w : Wait} (held : s.part.isHeld = false)
    (found : (s.part.lease.waits.find? fun w => decide (w.key = ⟨p, t⟩)) = some w) (due : w.deadline ≤ s.part.now) :
    exec (.waitDeadlineExpiry p t) s =
      .next (s.withPart (Part.follow s.part (s.part.endWait ⟨p, t⟩ .leaseWaitExpired))) := by
  have name : w.key = ⟨p, t⟩ := by simpa using List.find?_some found
  refine event_answers held ?_
  simp only [found, due, name, if_true]

/-- R154 -/
theorem exec_lifetimeHoursIncrement (held : s.part.isHeld = false)
    (behind : s.part.time.hourDone < s.part.now / Config.msPerHour) :
    exec .lifetimeHoursIncrement s = .next (s.withPart (Part.follow s.part ((s.part.withTime { s.part.time with
      hours := (s.part.time.hours + 1) % 4294967296, hourDone := s.part.time.hourDone + 1 }).change).autoScrub)) :=
  event_answers held (if_pos behind)

end Expiries

/-- Settles O46, deadline by deadline. -/
theorem reachedDeadlines : Obligations.ReachedDeadlines := by
  unfold Obligations.ReachedDeadlines
  intro s held x gives
  refine ⟨fun p d live armed due => exec_silenceExpiry held live armed due,
    fun p t c d found filling armed due => ⟨exec_dataDeadlineExpiry held found filling armed due, x.endFilling_eq c⟩,
    fun id l found due => ?_, fun p t w c found due record => ?_, fun behind => exec_lifetimeHoursIncrement held behind⟩
  · have name : l.id = id := by simpa using List.find?_some found
    subst name
    exact exec_leaseDeadlineExpiry held found due
  · have expires := exec_waitDeadlineExpiry held found due
    rw [Part.endWait_finishes record] at expires
    exact expires

/-! ### The release of HELD READs, and the ends of drains (R60, R97, R99) -/

namespace Part

variable {s : Part} {p : Port} {c : Cmd} {r : Nat}

/-- R60: a command in a hold set that still holds the READ. -/
theorem stillHolds_eq (s : Part) : s.stillHolds = fun r => (s.cmds.byReceipt r).any fun d =>
    decide (d.state = .queued ∨ d.state = .filling) := by
  funext r
  unfold stillHolds Cmd.holdsReads
  simp only [Bool.decide_or]

theorem releaseOne_held (h : s.cmds.byReceipt r = some c) (k : c.state = .held) : s.releaseOne r =
    let still := c.holdSet.filter fun r => (s.cmds.byReceipt r).any fun d => decide (d.state = .queued ∨ d.state = .filling)
    if still.isEmpty then (s.updCmd r fun c => { c with state := .reading, holdSet := [] }).runRead r
    else s.updCmd r fun c => { c with holdSet := still } := by
  unfold releaseOne
  rw [h, stillHolds_eq]
  exact if_pos k

/-- R60: with one record, a READ that is HELD, nothing holds it. -/
theorem releaseHeld_one (h : s.cmds.recs = [c]) (k : c.state = .held) : releaseHeld [] s =
    (s.setRecs [{ c with state := .reading, holdSet := [] }]).runRead c.receipt := by
  have found : s.cmds.byReceipt c.receipt = some c := by simp [CommandTable.byReceipt, h]
  have empty : (c.holdSet.filter fun r => (s.cmds.byReceipt r).any fun d =>
      decide (d.state = .queued ∨ d.state = .filling)) = [] := by
    refine List.filter_eq_nil_iff.2 fun r _ => ?_
    simp only [CommandTable.byReceipt, h, List.find?_singleton]
    split <;> simp [k]
  have one : releaseHeld [] s = s.releaseOne c.receipt := by
    unfold releaseHeld
    rw [h]
    rfl
  rw [one, releaseOne_held found k, empty]
  unfold updCmd
  rw [h]
  simp

theorem drained_close (h : (s.session p).state = .closing) (k : (s.cmds.recs.filter fun d => decide (d.key.port = p)) = [c])
    (hc : c.code = codeClose) : s.drained p = some c := by
  unfold drained CommandTable.ofPort
  rw [if_pos h, k]
  exact if_pos hc

theorem drainEnd_close (h : s.drained p = some c) : s.drainEnd p =
    ((s.setLeases (s.lease.table.filter fun l => decide (l.holder ≠ p))).setSession p
      { s.session p with state := .closed, deadline := none }).finish c .ok .none := by
  unfold drainEnd
  rw [h]
  rfl

theorem drainingEnd_last (h : (s.session p).state = .draining) (k : ∀ d ∈ s.cmds.recs, d.key.port ≠ p) :
    s.drainingEnd p = s.setSession p { s.session p with state := .closed } := by
  refine if_pos ⟨h, ?_⟩
  unfold CommandTable.ofPort
  rw [List.isEmpty_iff, List.filter_eq_nil_iff]
  exact fun d hd => by simpa using k d hd

end Part

/-- Settles O49: the release of one READ, and the two drains with their last record. -/
theorem heldReadsAndDrains : Obligations.HeldReadsAndDrains := by
  unfold Obligations.HeldReadsAndDrains
  intro s c p held x
  refine ⟨fun one read => ?_, ?release, fun closing last close => ?_, fun draining empty => ?_⟩
  · exact event_answers held (Part.releaseHeld_one one read)
  case release =>
    intro found read still
    have release := Part.releaseOne_held found read
    exact ⟨fun holds => release.trans (if_neg (List.isEmpty_iff.not.2 holds)),
      fun empty => release.trans (if_pos (List.isEmpty_iff.2 empty))⟩
  · exact event_answers held (Part.drainEnd_close (Part.drained_close closing last close))
  · exact event_answers held (Part.drainingEnd_last draining empty)

/-! ### The follow-ups of an event -/

section Due

variable {a b : Part}

/-- R26, R38: a lease record goes on in another that differs at most in the deadline. -/
theorem Lease.same_iff {l m : Lease} : m.same l = true ↔ { m with deadline := l.deadline } = l := by
  obtain ⟨id, holder, session, start, len, mode, deadline, granted⟩ := l
  obtain ⟨id', holder', session', start', len', mode', deadline', granted'⟩ := m
  simp [Lease.same]

theorem leaseRemoved_iff : leaseRemoved a b = true ↔
    ∃ l ∈ a.lease.table, ∀ m ∈ b.lease.table, { m with deadline := l.deadline } ≠ l := by
  simp only [leaseRemoved, List.any_eq_true, Bool.not_eq_true', ← Bool.not_eq_true, Lease.same_iff, not_exists, not_and,
    ne_eq]

theorem leaseChanged_iff : leaseChanged a b = true ↔ leaseRemoved a b = true ∨ leaseRemoved b a = true :=
  Bool.or_eq_true_iff ..

theorem fillingEnded_iff : fillingEnded a b = true ↔
    ∃ c ∈ a.cmds.recs, c.state = .filling ∧ ∀ d ∈ b.cmds.recs, d.receipt = c.receipt → d.state ≠ .filling := by
  simp [fillingEnded]

theorem waitGone_iff : waitGone a b = true ↔ ∃ w ∈ a.lease.waits, w ∉ b.lease.waits := by
  simp [waitGone]

theorem attrFell_iff : attrFell a b = true ↔ ∃ p, b.sb.attr (.port p) < a.sb.attr (.port p) := by
  simp only [attrFell, List.any_eq_true, decide_eq_true_eq]
  exact exists_congr fun p => and_iff_right (by cases p <;> decide)

theorem waitScanDue_iff : waitScanDue a b = true ↔ leaseRemoved a b = true ∨
    (∃ c ∈ a.cmds.recs, c.state = .filling ∧ ∀ d ∈ b.cmds.recs, d.receipt = c.receipt → d.state ≠ .filling) ∨
    ∃ w ∈ a.lease.waits, w ∉ b.lease.waits := by
  rw [waitScanDue, Bool.or_eq_true, Bool.or_eq_true, fillingEnded_iff, waitGone_iff, or_assoc]

theorem admissionDue_iff : admissionDue a b = true ↔ a.cmds.queue ≠ b.cmds.queue ∨ a.sb.available < b.sb.available ∨
    (∃ p, b.sb.attr (.port p) < a.sb.attr (.port p)) ∨ leaseChanged a b = true ∨
    a.integ.poison.length ≠ b.integ.poison.length := by
  simp only [admissionDue, framesFreed, Bool.or_eq_true, decide_eq_true_eq, attrFell_iff, or_assoc]

theorem leaseChanged_self (s : Part) : leaseChanged s s = false := by
  rw [leaseChanged, Part.leaseRemoved_self]
  rfl

end Due

namespace Part

/-! What the follow-ups leave. -/

/-- The follow-ups, up to the order of receipt. -/
theorem follow_eq (a b : Part) : follow a b = inReceiptOrder a (inTurn b.cmds.recs.length [] a b) := rfl

/-- The follow-ups take no frame out of a transmit queue. -/
theorem follow_txq_perm (a b : Part) (p : Port) : ∃ fs, ((follow a b).lc p).txq.Perm ((b.lc p).txq ++ fs) := by
  obtain ⟨fs, added⟩ := (inTurn_keeps b.cmds.recs.length [] a b).txq (by decide) p
  exact ⟨fs, by rw [follow_eq, added]; exact txq_inReceiptOrder_perm a _ p⟩

/-- R61: what stood in a transmit queue before the event stays at its head. -/
theorem follow_txq_prefix {a b : Part} {p : Port} (h : (a.lc p).txq <+: (b.lc p).txq) :
    (a.lc p).txq <+: ((follow a b).lc p).txq :=
  txq_inReceiptOrder _ _ p (h.trans ((inTurn_keeps b.cmds.recs.length [] a b).txq (by decide) p))

/-! An event that leaves nothing due. -/

section Still

variable {s : Part}

theorem releaseOne_still (h : ∀ c ∈ s.cmds.recs, c.state ≠ .held) (r : Nat) : s.releaseOne r = s := by
  unfold releaseOne
  split
  case h_1 => rfl
  case h_2 c found => exact if_neg (h c (List.mem_of_find?_eq_some found))

theorem releaseHeld_still (h : ∀ c ∈ s.cmds.recs, c.state ≠ .held) (wait : List Nat) : releaseHeld wait s = s := by
  have one : ∀ r, releaseInTurn wait s r = s := fun r => by
    unfold releaseInTurn
    rw [releaseOne_still h, ite_self]
  unfold releaseHeld
  induction s.cmds.recs.map (·.receipt) with
  | nil => rfl
  | cons r rs ih => rw [List.foldl_cons, one, ih]

theorem isHeldRead_still (h : ∀ c ∈ s.cmds.recs, c.state ≠ .held) (r : Nat) : s.isHeldRead r = false := by
  unfold isHeldRead
  cases found : s.cmds.byReceipt r with
  | none => rfl
  | some c => exact decide_eq_false (h c (List.mem_of_find?_eq_some found))

theorem isFreeRead_still (h : ∀ c ∈ s.cmds.recs, c.state ≠ .held) (r : Nat) : s.isFreeRead r = false := by
  unfold isFreeRead
  cases found : s.cmds.byReceipt r with
  | none => rfl
  | some c => rw [Option.any_some, decide_eq_false (h c (List.mem_of_find?_eq_some found)), Bool.false_and]

/-- R96, R99: a port that is neither CLOSING nor DRAINING has no drain. -/
theorem drain_still {p : Port} (h : (s.session p).state = .closed ∨ (s.session p).state = .opened) :
    (s.drainEnd p).drainingEnd p = s := by
  have closing : (s.session p).state ≠ .closing := by rcases h with h | h <;> rw [h] <;> decide
  have draining : (s.session p).state ≠ .draining := by rcases h with h | h <;> rw [h] <;> decide
  have ends : s.drainEnd p = s := by
    unfold drainEnd drained
    rw [if_neg closing]
  rw [ends]
  exact if_neg fun k => draining k.1

theorem drains_still (h : ∀ p, (s.session p).state = .closed ∨ (s.session p).state = .opened) : s.drains = s := by
  unfold drains Port.all
  simp only [List.foldl_cons, List.foldl_nil, drain_still (h _)]

theorem settle_still (h : ∀ c ∈ s.cmds.recs, c.state ≠ .held)
    (k : ∀ p, (s.session p).state = .closed ∨ (s.session p).state = .opened) (wait : List Nat) : settle wait s = s := by
  unfold settle
  rw [releaseHeld_still h, drains_still k]

theorem scanDue_self (s : Part) : scanDue s s = false := by
  rw [scanDue, waitScanDue_self, admissionDue_self]
  rfl

/-- R35, R54: where the event's changes call for no scan, none is made. -/
theorem scans_still {settled : Part → Part} (h : settled s = s) {a : Part} (w : waitScanDue a s = false)
    (q : admissionDue a s = false) (n : Nat) : scans settled n a s = s := by
  cases n with
  | zero => rfl
  | succ n =>
    have once : scanOnce a s = s := by
      simp only [scanOnce, waitScanAfter, admissionAfter, w, q, leaseChanged_self, Bool.or_false, Bool.false_eq_true,
        if_false]
    unfold scans
    simp only [h, once, scanDue_self, Bool.false_eq_true, if_false]

theorem refreshTry_still (h : s.media.refresh = []) : s.refreshTry = s := by
  have noEntry : s.nextRefresh = none := by simp [nextRefresh, h]
  unfold refreshTry
  rw [h]
  unfold startRefreshes
  rw [noEntry]

theorem scrubRetry_still (h : s.scrub.phase ≠ .waitingRoom) : s.scrubRetry = s := by
  unfold scrubRetry
  split
  case h_1 phase _ => exact absurd phase h
  case h_2 => rfl

theorem requestCommit_still (h : s.md.changes ≤ s.md.committed) : s.requestCommit = s :=
  if_neg fun k => absurd k.2.2.2 (not_lt.2 h)

theorem choose_none (h : s.media.portReads = [] ∧ s.media.commitReq = none ∧ s.sb.head = none ∧
    s.media.refreshReads = [] ∧ s.media.scrubReq = none) : s.choose = none := by
  obtain ⟨reads, commit, head, refresh, scrub⟩ := h
  simp [choose, programWaits, reads, commit, head, refresh, scrub]

/-- R111: while the media is busy, or has no request, nothing is granted. -/
theorem grants_still (h : s.md.changes ≤ s.md.committed) (k : s.media.current ≠ none ∨ s.media.portReads = [] ∧
    s.media.commitReq = none ∧ s.sb.head = none ∧ s.media.refreshReads = [] ∧ s.media.scrubReq = none) :
    s.grants = s := by
  unfold grants
  simp only [requestCommit_still h]
  split
  case isTrue => rfl
  case isFalse idle =>
    have noChoice := choose_none (k.resolve_left fun busy => idle (Option.isSome_iff_ne_none.2 busy))
    have marks : grantMarks (s.sb.progQ.length + 1) s = s := by
      unfold grantMarks markNext
      rw [noChoice]
      rfl
    simp only [marks, requestCommit_still h, noChoice]

/-- An event that leaves nothing due has no follow-ups. -/
theorem follow_still {a : Part} (w : waitScanDue a s = false) (q : admissionDue a s = false)
    (reads : ∀ c ∈ s.cmds.recs, c.state ≠ .held)
    (ports : ∀ p, (s.session p).state = .closed ∨ (s.session p).state = .opened) (refresh : s.media.refresh = [])
    (scrub : s.scrub.phase ≠ .waitingRoom) (commit : s.md.changes ≤ s.md.committed)
    (media : s.media.current ≠ none ∨ s.media.portReads = [] ∧ s.media.commitReq = none ∧ s.sb.head = none ∧
      s.media.refreshReads = [] ∧ s.media.scrubReq = none) : follow a s = inReceiptOrder a s := by
  have round : followUps s.rounds [] a s = s := by
    obtain ⟨n, rounds⟩ : ∃ n, s.rounds = n + 1 := ⟨s.rounds - 1, by unfold rounds; omega⟩
    have noRead : (s.cmds.recs.any fun c => s.isFreeRead c.receipt) = false :=
      List.any_eq_false.2 fun c _ => Bool.eq_false_iff.1 (isFreeRead_still reads c.receipt)
    rw [rounds]
    unfold followUps scanAll
    simp only [scans_still (settle_still reads ports []) w q, refreshTry_still refresh, scrubRetry_still scrub,
      grants_still commit media, scanDue_self, noRead, Bool.false_eq_true, if_false]
  have turn : inTurn s.cmds.recs.length [] a s = s := by
    have unreleased : released s s = [] := by simp [released, isHeldRead_still reads]
    cases s.cmds.recs.length with
    | zero => exact round
    | succ n =>
      unfold inTurn
      simp only [round, unreleased, List.all_nil, if_true]
  rw [follow_eq, turn]

end Still

end Part

/-- Settles O14: what the follow-ups keep, and when there are none; their rounds are those of `Part.inTurn`, `Part.followUps`,
`Part.scans` and `Part.settle` by definition. -/
theorem followUpsFrame : Obligations.FollowUpsFrame := by
  unfold Obligations.FollowUpsFrame
  refine ⟨fun a b => ?frame, fun a b => Part.follow_still, ?turns, fun _ _ _ _ => rfl, fun _ _ _ _ => rfl, fun _ _ => rfl,
    fun a b => ⟨leaseRemoved_iff, leaseChanged_iff, waitScanDue_iff, admissionDue_iff⟩, ?events⟩
  case frame =>
    have keeps := Part.inTurn_keeps b.cmds.recs.length [] a b
    exact ⟨keeps.pins (by decide), keeps.disk (by decide), keeps.time (by decide), keeps.free (by decide), fun p =>
      ⟨Part.follow_txq_perm a b p, Part.follow_txq_prefix, keeps.shut (by decide) p⟩⟩
  case turns =>
    intro a b n wait f held released
    have bound : 16 ≤ b.rounds := by unfold Part.rounds; omega
    exact ⟨Part.follow_eq a b, bound, rfl, rfl⟩
  case events =>
    intro s held x gives
    exact ⟨event_answers held rfl, event_answers held rfl, event_answers held rfl,
      fun p => ⟨event_answers held rfl, event_answers held rfl⟩, event_answers held rfl, event_answers held rfl,
      event_answers held rfl, rfl⟩

/-! ### The end of a commit (R117, R142, R143, R156, R157, R161, R164) -/

namespace Part

variable {s : Part} {n : Nat}

/-- What the end of a commit's write leaves first: the copy, its number and its generation (R156). -/
def copied (s : Part) (c : CopyId) (g : BitVec 32) (m : MetaImage) (n : Nat) : Part :=
  (s.idle.setCopy c (some (MetaCopy.write g m))).withMd
    { s.md with current := some (c, g), committed := n, snapshot := none, failures := 0 }

/-- The waiters on changes up to `n` have their results: the frames, the SCRUB STARTs and the SETTINGS WRITEs. -/
def waitersDone (s : Part) (n : Nat) : Part :=
  (((s.releaseCommitWait n).decideCommit codeScrubStart n).decideCommit codeSettingsWrite n).emitDecided

theorem commitSucceeded_eq (c : CopyId) (g : BitVec 32) (m : MetaImage) (h : s.md.snapshot = some n) :
    s.commitSucceeded c g m = (((s.copied c g m n).waitersDone n).beginPass n).startUpDone n := by
  unfold commitSucceeded copied waitersDone
  rw [h]
  simp only [setCopy_md]
  rfl

theorem copied_cmds (s : Part) (c : CopyId) (g : BitVec 32) (m : MetaImage) (n : Nat) :
    (s.copied c g m n).cmds = s.cmds := by cases c <;> rfl

theorem copied_media (s : Part) (c : CopyId) (g : BitVec 32) (m : MetaImage) (n : Nat) :
    (s.copied c g m n).media = { s.media with current := none } := setCopy_media s.idle c _

theorem copied_scrub (s : Part) (c : CopyId) (g : BitVec 32) (m : MetaImage) (n : Nat) :
    (s.copied c g m n).scrub = s.scrub := by cases c <;> rfl

theorem copied_time (s : Part) (c : CopyId) (g : BitVec 32) (m : MetaImage) (n : Nat) :
    (s.copied c g m n).time = s.time := by cases c <;> rfl

/-- The commands of two kinds whose changes are committed are decided in one pass over the records. -/
theorem decideCommit_both (s : Part) (a b : BitVec 8) (n : Nat) : (s.decideCommit a n).decideCommit b n =
    s.setRecs (s.cmds.recs.map fun c =>
      if (c.code = a ∨ c.code = b) ∧ c.state = .settling ∧ c.change ≤ n then
        { c with state := .sending, result := some (.ok, .none) } else c) := by
  refine congrArg s.setRecs ?_
  show (s.cmds.recs.map _).map _ = _
  rw [List.map_map]
  refine List.map_congr_left fun c _ => ?_
  by_cases due : c.state = .settling ∧ c.change ≤ n
  · by_cases first : c.code = a <;> simp [first, due]
  · simp [due]

theorem waitersDone_keeps (s : Part) (n : Nat) : Keeps [.media, .sb, .integ, .cmds, .links] s (s.waitersDone n) :=
  (emitDecided_keeps _).next (by decide) <| (decideCommit_keeps _ _ _).next (by decide) <|
    (decideCommit_keeps _ _ _).next (by decide) (releaseCommitWait_keeps s n)

/-- Nothing waits on a commit. -/
theorem waitersDone_none (hr : s.cmds.recs = []) (hw : s.media.commitWait = []) : s.waitersDone n = s := by
  have list : ({ s.media with commitWait := [] } : MediaEngine) = s.media := by rw [← hw]
  have table : ({ s.cmds with recs := [] } : CommandTable) = s.cmds := by rw [← hr]
  have released : s.releaseCommitWait n = s := by
    rw [releaseCommitWait_eq, hw]
    exact congrArg s.withMedia list
  have decided : (s.decideCommit codeScrubStart n).decideCommit codeSettingsWrite n = s := by
    rw [decideCommit_both, hr]
    exact congrArg s.withCmds table
  unfold waitersDone
  rw [released, decided, emitDecided_nil hr]

/-- R117, R142, R164: the frames of the commit wait list first, then the commands in order of receipt. -/
theorem waitersDone_copied (s : Part) (c : CopyId) (g : BitVec 32) (m : MetaImage) (n : Nat) :
    let told := (s.media.commitWait.filter fun w => decide (w.change ≤ n)).foldl (fun z w => z.outcome w.frame w.outcome)
      ((s.copied c g m n).withMedia { s.idle.media with
        commitWait := s.media.commitWait.filter fun w => decide (n < w.change) })
    (s.copied c g m n).waitersDone n = (told.setRecs (told.cmds.recs.map fun c =>
      if (c.code = codeScrubStart ∨ c.code = codeSettingsWrite) ∧ c.state = .settling ∧ c.change ≤ n then
        { c with state := .sending, result := some (.ok, .none) } else c)).emitDecided := by
  unfold waitersDone
  rw [decideCommit_both, releaseCommitWait_eq, copied_media]
  rfl

theorem beginPass_idle (h : s.scrub.state ≠ .running) : s.beginPass n = s := if_neg fun k => h k.1

/-- R143: whether the pending pass begins does not depend on the waiters. -/
theorem beginPass_copied (s : Part) (c : CopyId) (g : BitVec 32) (m : MetaImage) (n : Nat) :
    let done := (s.copied c g m n).waitersDone n
    done.beginPass n = if s.scrub.state = .running ∧ s.scrub.pending = true ∧ s.scrub.change ≤ n then
      (done.withScrub { s.scrub with pending := false }).scrubNext else done := by
  intro done
  have scrub : done.scrub = s.scrub :=
    ((waitersDone_keeps _ n).scrub (by decide)).trans (copied_scrub s c g m n)
  unfold beginPass
  rw [scrub]
  rfl

/-- R156: a success that nothing waits on. -/
theorem commitSucceeded_none (c : CopyId) (g : BitVec 32) (m : MetaImage) (h : s.md.snapshot = some n)
    (hr : s.cmds.recs = []) (hw : s.media.commitWait = []) (hs : s.scrub.state = .idle) :
    s.commitSucceeded c g m = (s.copied c g m n).startUpDone n := by
  have recs : (s.copied c g m n).cmds.recs = [] := by rw [copied_cmds, hr]
  have frames : (s.copied c g m n).media.commitWait = [] := by rw [copied_media, hw]
  have pass : (s.copied c g m n).scrub.state ≠ .running := by
    rw [copied_scrub, hs]
    decide
  rw [commitSucceeded_eq c g m h, waitersDone_none recs frames, beginPass_idle pass]

/-- R157: a failure leaves the copy undefined, and the third in a row enters SAFE. -/
theorem commitFailed_eq (s : Part) (c : CopyId) (g : BitVec 32) :
    let failed := (((s.idle.setCopy c none).withMd
      { s.md with snapshot := none, failures := s.md.failures + 1 }).appendFault
        { kind := .metadataCommitFailed, copy := some c, generation := some g })
    s.commitFailed c g = if 3 ≤ s.md.failures + 1 then failed.safeEntry true else failed := by
  unfold commitFailed
  simp only [setCopy_md]
  rfl

/-- R166: the same of a copy write of METADATA RESET, which is made again instead. -/
theorem resetWriteFailed_eq (s : Part) (c : CopyId) :
    let failed := (((s.idle.setCopy c none).withMd { s.md with failures := s.md.failures + 1 }).appendFault
      { kind := .metadataCommitFailed, copy := some c, generation := some 1 })
    s.resetWriteFailed c = if 3 ≤ s.md.failures + 1 then failed.withMd { failed.md with resetImage := none }
      else failed.withMedia { failed.media with commitReq := some (.resetWrite c) } := rfl

/-! A pass that begins leaves the device state and what the start-up waits on. -/

/-- The device state, and the change that READY waits on. -/
def readiness (s : Part) : Device × Option Nat := (s.md.device, s.md.startUp)

theorem readiness_endPass (s : Part) (r : EndReason) : (s.endPass r).readiness = s.readiness := by
  have notices : ∀ (x : Part) b, (x.noticeAll b).md = x.md := fun x b => (noticeAll_keeps x b).md (by decide)
  unfold endPass readiness
  simp only [setScrub, withScrub_md, notices]
  rfl

theorem readiness_takeScrub (k : Nat) : ∀ s : Part, (takeScrub k s).readiness = s.readiness := by
  induction k with
  | zero => exact fun s => rfl
  | succ k ih =>
    intro s
    unfold takeScrub
    dsimp only
    split
    · split
      · exact ih _
      · rfl
    · exact readiness_endPass s _

theorem readiness_beginPass (s : Part) (n : Nat) : (s.beginPass n).readiness = s.readiness := by
  unfold beginPass
  split
  · exact readiness_takeScrub _ _
  · rfl

/-- The waiters, and a pass that begins, leave the device state and the time. -/
theorem readiness_copied (s : Part) (c : CopyId) (g : BitVec 32) (m : MetaImage) (n : Nat) :
    let began := ((s.copied c g m n).waitersDone n).beginPass n
    began.readiness = s.readiness ∧ began.time = s.time := by
  have done := waitersDone_keeps (s.copied c g m n) n
  have same := congrArg (fun md : MetaUnit => (md.device, md.startUp)) (done.md (by decide))
  refine ⟨(readiness_beginPass _ n).trans same, ?_⟩
  rw [(beginPass_keeps _ n).time (by decide), done.time (by decide), copied_time]

theorem startUpDone_ready (h : s.md.device = .ready) : s.startUpDone n = s :=
  if_neg fun k => by rw [h] at k; exact absurd k.1 (by decide)

/-- R161: the start-up commit is still to come. -/
theorem startUpDone_waits (h : ∀ k, s.md.startUp = some k → n < k) : s.startUpDone n = s := by
  refine if_neg fun k => ?_
  cases wait : s.md.startUp with
  | none =>
    rw [wait] at k
    cases k.2
  | some j =>
    rw [wait] at k
    exact absurd (of_decide_eq_true k.2) (not_le.2 (h j wait))

theorem startUpDone_reads {k : Nat} (h : s.md.device = .starting) (hk : s.md.startUp = some k) (le : k ≤ n) :
    s.startUpDone n = s.readyFromStartUp := by
  refine if_pos ⟨h, ?_⟩
  rw [hk]
  exact decide_eq_true le

/-- R161: what the end of a commit makes of the device state, in a part whose device state and time are those of `x`. -/
theorem startUpDone_cases {x : Part} (h : s.readiness = x.readiness) (ht : s.time = x.time) :
    (x.md.device = .ready → s.startUpDone n = s) ∧
    (x.md.device = .starting → (∀ k, x.md.startUp = some k → n < k) → s.startUpDone n = s) ∧
    ∀ k, x.md.device = .starting → x.md.startUp = some k → k ≤ n → s.startUpDone n =
      (s.withMd { s.md with device := .ready, startUp := none }).withScrub { s.scrub with autoRef := x.time.hours } := by
  obtain ⟨device, startUp⟩ := Prod.ext_iff.1 h
  refine ⟨fun ready => startUpDone_ready (Eq.trans device ready), fun _ later => startUpDone_waits fun k hk => ?_,
    fun k starting hk le => ?_⟩
  · exact later k (Eq.trans startUp.symm hk)
  · rw [startUpDone_reads (Eq.trans device starting) (Eq.trans startUp hk) le, ← ht]
    rfl

end Part

section CommitEnd

variable {s : State} {c : CopyId} {g : BitVec 32} {m : MetaImage} {z : Part}

theorem exec_commitEnd_succeeds (held : s.part.isHeld = false) (hc : s.part.media.current = some { op := .commit c g m })
    (e : s.part.commitSucceeded c g m = z) :
    exec (.commitEnd true) s = .next (s.withPart (Part.follow s.part z)) := by
  refine event_answers held ?_
  simp only [hc, if_true]
  exact e

/-- R156, R161: a success whose effect, up to the end of start-up, is `z`. -/
theorem exec_commitEnd_succeeds_cases {n : Nat} (held : s.part.isHeld = false)
    (hc : s.part.media.current = some { op := .commit c g m }) (e : s.part.commitSucceeded c g m = z.startUpDone n)
    (h : z.readiness = s.part.readiness) (ht : z.time = s.part.time) :
    let gives := fun (z : Part) => exec (.commitEnd true) s = .next (s.withPart (Part.follow s.part z))
    (s.part.md.device = .ready → gives z) ∧
    (s.part.md.device = .starting → (∀ k, s.part.md.startUp = some k → n < k) → gives z) ∧
    ∀ k, s.part.md.device = .starting → s.part.md.startUp = some k → k ≤ n → gives
      ((z.withMd { z.md with device := .ready, startUp := none }).withScrub
        { z.scrub with autoRef := s.part.time.hours }) := by
  obtain ⟨ready, later, reads⟩ := Part.startUpDone_cases (n := n) h ht
  exact ⟨fun h => exec_commitEnd_succeeds held hc (e.trans (ready h)),
    fun h k => exec_commitEnd_succeeds held hc (e.trans (later h k)),
    fun k h hk le => exec_commitEnd_succeeds held hc (e.trans (reads k h hk le))⟩

theorem exec_commitEnd_fails (held : s.part.isHeld = false) (hc : s.part.media.current = some { op := .commit c g m })
    (e : s.part.commitFailed c g = z) :
    exec (.commitEnd false) s = .next (s.withPart (Part.follow s.part z)) := by
  refine event_answers held ?_
  simp only [hc, Bool.false_eq_true, if_false]
  exact e

theorem exec_resetCopyWriteEnd_succeeds (held : s.part.isHeld = false)
    (hc : s.part.media.current = some { op := .resetWrite c }) (hm : s.part.md.resetImage = some m)
    (e : s.part.resetWriteSucceeded c m = z) :
    exec (.resetCopyWriteEnd true) s = .next (s.withPart (Part.follow s.part z)) := by
  refine event_answers held ?_
  simp only [hc, hm, if_true]
  exact e

theorem exec_resetCopyWriteEnd_fails (held : s.part.isHeld = false)
    (hc : s.part.media.current = some { op := .resetWrite c }) (hm : s.part.md.resetImage = some m)
    (e : s.part.resetWriteFailed c = z) :
    exec (.resetCopyWriteEnd false) s = .next (s.withPart (Part.follow s.part z)) := by
  refine event_answers held ?_
  simp only [hc, hm, Bool.false_eq_true, if_false]
  exact e

end CommitEnd

/-! ### SAFE entry (R45, R63, R76, R99, R135, R163) -/

namespace Part

variable {s : Part} {c : Cmd} {b : Bool}

/-- R163: a frame on the commit wait list. -/
theorem waitsCommit_iff {P : Frame → Bool} : s.waitsCommit P = true ↔
    ∃ f, (∃ w ∈ s.media.commitWait, s.sb.at? w.frame = some f) ∧ P f = true := by
  simp only [waitsCommit, List.any_eq_true, Option.any_eq_true]
  exact ⟨fun ⟨w, hw, f, hf, h⟩ => ⟨f, ⟨w, hw, hf⟩, h⟩, fun ⟨f, ⟨w, hw, hf⟩, h⟩ => ⟨w, hw, f, hf, h⟩⟩

theorem safeRecord_sending (h : c.state = .sending) : s.safeRecord b c = some c := by
  unfold safeRecord
  rw [h]

theorem safeRecord_open (h : c.state ≠ .sending) (k : c.state ≠ .settling) :
    s.safeRecord b c = some { c with state := .sending, result := some (.safeMode, .none) } := by
  unfold safeRecord
  split
  case h_1 sending => exact absurd sending h
  case h_2 settling => exact absurd settling k
  case h_3 => rfl

theorem safeRecord_settling (h : c.state = .settling) : s.safeRecord b c =
    if c.code = codeClose then some c
    else if (s.session c.key.port).state = .draining then none
    else some { c with
      state := .sending, result := some (if b && s.awaitsCommit c then .metadataFailed else .safeMode, .none) } := by
  unfold safeRecord
  rw [h]

/-- R163, R135: a command in SETTLING that waits on a commit. -/
theorem awaitsCommit_iff (s : Part) (c : Cmd) : s.awaitsCommit c = true ↔
    let gated := fun f : Frame => ∃ w ∈ s.media.commitWait, s.sb.at? w.frame = some f
    if c.code = codeScrubStart ∨ c.code = codeSettingsWrite then True
    else if c.code = codeMark then ∃ m ∈ s.integ.tally, m.key = c.key ∧ ∃ k ∈ m.frames, ∃ f, gated f ∧
      f.cmd = some c.key ∧ f.block = k.1 ∧ f.seq = some k.2
    else ∃ e ∈ c.waitSet, e.res = .pending ∧ ∃ f q, gated f ∧ f.block = e.block ∧ f.seq = some q ∧
      (q - e.seq).toNat < 2147483648 := by
  have later : ∀ (f : Frame) (e : SetEntry), (f.seq.any fun q => seqGe q e.seq) = true ↔
      ∃ q, f.seq = some q ∧ (q - e.seq).toNat < 2147483648 := fun f e => by
    cases f.seq <;> simp [seqGe]
  unfold awaitsCommit
  split_ifs
  · simp
  · simp only [List.any_eq_true, Bool.and_eq_true, decide_eq_true_eq, waitsCommit_iff, and_assoc]
  · simp only [List.any_eq_true, Bool.and_eq_true, decide_eq_true_eq, waitsCommit_iff, later]
    refine exists_congr fun e => and_congr_right fun _ => and_congr_right fun _ => exists_congr fun f => ?_
    rw [← exists_and_left, ← exists_and_left]

/-- What SAFE entry makes of the part before the completions and the end of the pass (R163). -/
theorem safeEntry_eq (s : Part) (b : Bool) :
    let ended := s.cmds.recs.filter fun c => decide (c.state ≠ .sending)
    s.safeEntry b = stopPass (emitDecided
      { s with
        links := ⟨withoutGos ended .p0 (s.lc .p0), withoutGos ended .p1 (s.lc .p1), withoutGos ended .p2 (s.lc .p2),
          withoutGos ended .p3 (s.lc .p3)⟩
        md := { s.md with device := .safe, startUp := none }
        cmds := { s.cmds with recs := s.cmds.recs.filterMap (s.safeRecord b), queue := [], stop := none }
        sb := { s.sb with frames := s.sb.frames.filter fun f => decide (f.state ≠ .filling) }
        lease := { s.lease with table := [], waits := [] }
        integ := { s.integ with tally := [] }
        media := { s.media with
          refresh := s.media.refresh.filter fun e => e.started.isNone
          refreshReads := [] } }) := by
  unfold safeEntry
  rw [dropGos_eq]
  rfl

/-- The completions of decided results touch no entry of the admission queue. -/
theorem emitDecided_queue (s : Part) : s.emitDecided.cmds.queue = s.cmds.queue := by
  have one : ∀ (x : Part) r st res, (x.finishAt r st res).cmds.queue = x.cmds.queue := fun x r st res => by
    unfold finishAt finish
    split
    · dsimp only
      split <;> rfl
    · rfl
  unfold emitDecided
  induction s.decided generalizing s with
  | nil => rfl
  | cons r rs ih => exact (ih _).trans (one s _ _ _)

theorem readiness_stopPass (s : Part) : s.stopPass.readiness = s.readiness := by
  unfold stopPass
  split
  · split
    · exact readiness_endPass s _
    · exact readiness_endPass _ _
    · rfl
    · exact readiness_endPass s _
  · rfl

/-- What the part holds after SAFE entry. -/
theorem safeEntry_leaves (s : Part) (b : Bool) :
    (s.safeEntry b).md.device = .safe ∧ (s.safeEntry b).cmds.queue = [] ∧ (s.safeEntry b).lease.table = [] ∧
      (s.safeEntry b).lease.waits = [] ∧ (s.safeEntry b).integ.tally = [] ∧ (s.safeEntry b).disk = s.disk ∧
      (s.safeEntry b).sb.frames = s.sb.frames.filter (fun f => decide (f.state ≠ .filling)) ∧
      ∀ p, (s.safeEntry b).session p = s.session p := by
  rw [safeEntry_eq]
  generalize hx : ({ s with links := _, md := _, cmds := _, sb := _, lease := _, integ := _, media := _ } : Part) = x
  have done : Keeps [.links, .cmds] x x.emitDecided := emitDecided_keeps x
  have stop := stopPass_keeps x.emitDecided
  have device : x.emitDecided.stopPass.md.device = x.md.device :=
    (congrArg Prod.fst (readiness_stopPass x.emitDecided)).trans (congrArg MetaUnit.device (done.md (by decide)))
  rw [device, stop.cmds (by decide), emitDecided_queue, (stop.lease (by decide)).trans (done.lease (by decide)),
    (stop.integ (by decide)).trans (done.integ (by decide)), (stop.disk (by decide)).trans (done.disk (by decide)),
    (stop.sb (by decide)).trans (done.sb (by decide))]
  have session : ∀ p, x.emitDecided.stopPass.session p = x.session p := fun p =>
    congrArg (PerPort.get · p) ((stop.sess (by decide)).trans (done.sess (by decide)))
  simp only [session]
  subst hx
  exact ⟨rfl, rfl, rfl, rfl, rfl, rfl, rfl, fun _ => rfl⟩

end Part

/-- Settles O57: a success with its waiters, of which the one without any is the case of empty lists; a failure; and SAFE
entry, component by component and record by record. -/
theorem commitsEnd : Obligations.CommitsEnd := by
  unfold Obligations.CommitsEnd
  intro s held x y gives failed
  refine ⟨fun c g m writes => ⟨fun n snapshot recs frames idle => ?plain, ?failure⟩, fun m image c writes => ?reset,
    fun c g m n writes snapshot => ?waiters, rfl, fun b => Part.safeEntry_eq x b, fun b c => ?record,
    fun b => Part.safeEntry_leaves x b⟩
  case plain =>
    intro z
    have time : z.time = x.time := Part.copied_time x c g m n
    have ends := Part.commitSucceeded_none c g m snapshot recs frames idle
    have cases := exec_commitEnd_succeeds_cases (z := z) held writes ends rfl time
    rw [show s.part.time = z.time from time.symm] at cases
    exact cases
  case failure =>
    intro z
    have fails := Part.commitFailed_eq x c g
    exact ⟨fun few => exec_commitEnd_fails held writes (fails.trans (if_neg (not_le.2 few))),
      fun third => exec_commitEnd_fails held writes (fails.trans (if_pos third))⟩
  case reset =>
    refine ⟨fun a => ?_, fun b => ?_, ?_⟩
    · subst a
      exact exec_resetCopyWriteEnd_succeeds held writes image rfl
    · subst b
      exact exec_resetCopyWriteEnd_succeeds held writes image rfl
    · intro z
      have fails := Part.resetWriteFailed_eq x c
      exact ⟨fun few => exec_resetCopyWriteEnd_fails held writes image (fails.trans (if_neg (not_le.2 few))),
        fun third => exec_resetCopyWriteEnd_fails held writes image (fails.trans (if_pos third))⟩
  case waiters =>
    intro z told done began
    have waiters : (x.copied c g m n).waitersDone n = done := Part.waitersDone_copied x c g m n
    have pass : ((x.copied c g m n).waitersDone n).beginPass n = began := by
      rw [Part.beginPass_copied, waiters]
    have ends : x.commitSucceeded c g m = began.startUpDone n := by
      rw [Part.commitSucceeded_eq c g m snapshot, pass]
    obtain ⟨readiness, time⟩ := Part.readiness_copied x c g m n
    rw [pass] at readiness time
    exact exec_commitEnd_succeeds_cases held writes ends readiness time
  case record =>
    intro gated awaits ends
    have awaits_iff : x.awaitsCommit c = true ↔ awaits := Part.awaitsCommit_iff x c
    refine ⟨Part.safeRecord_sending, Part.safeRecord_open, fun settling close => ?_, fun settling close draining => ?_,
      fun settling close live => ?_⟩ <;> rw [Part.safeRecord_settling settling]
    · exact if_pos close
    · rw [if_neg close, if_pos draining]
    · rw [if_neg close, if_neg live]
      refine ⟨fun commit waits => ?_, fun other => ?_⟩
      · rw [commit, awaits_iff.2 waits]
        rfl
      · have unmet : (b && x.awaitsCommit c) = false := by
          rw [Bool.and_eq_false_iff, ← Bool.not_eq_true (x.awaitsCommit c), awaits_iff]
          exact other
        rw [unmet]
        rfl

end Sys2Proof.Machine
end

section
/-! PROOFS. The Command Table (chapter 3): its law under every step, the receipt checks, and what an accepted WRITE, MARK,
READ, FLUSH or ABORT makes of it. -/

namespace Sys2Proof.Machine

/-! ### The law of the Command Table -/

/-- Settles O9: the law of the Command Table is among those that `step_kept` carries through a step. -/
theorem stepKeepsTableLaw : Obligations.StepKeepsTableLaw := by
  unfold Obligations.StepKeepsTableLaw
  intro s t h
  have k : Kept s.part t.part := step_kept s t h
  exact k.table

/-! ### The receipt checks (R50) -/

theorem definedCode_iff {code : BitVec 8} : definedCode code = true ↔ code ∈ requestCodes := List.contains_iff_mem

theorem definedCode_false {code : BitVec 8} (h : code ∉ requestCodes) : definedCode code = false := by
  rw [← Bool.not_eq_true, definedCode_iff]
  exact h

theorem servedInSafe_iff {code : BitVec 8} : servedInSafe code = true ↔
    code ∈ [codeInfo, codeStatus, codeFaultRead, codeOpen, codeClose, codeMetadataReset] := List.contains_iff_mem

namespace CommandTable

/-- R47: the place of a port and tag holds a record. -/
theorem at?_isSome_iff {t : CommandTable} {k : Key} : (t.at? k).isSome = true ↔ ∃ c ∈ t.recs, c.key = k := by
  simp [at?, List.find?_isSome]

theorem at?_none {t : CommandTable} {k : Key} (h : ¬ ∃ c ∈ t.recs, c.key = k) : t.at? k = none := by
  rw [← Option.not_isSome_iff_eq_none, at?_isSome_iff]
  exact h

end CommandTable

namespace Part

variable {s : Part} {p : Port} {t : Tag} {k : Key} {code : BitVec 8} {form : Option Status} {st : Status}

theorem receiptRefusal_used (h : (s.cmds.at? k).isSome = true) : s.receiptRefusal k code form = some .tagInUse :=
  if_pos h

theorem receiptRefusal_free (h : s.cmds.at? k = none) : s.receiptRefusal k code form =
    if !definedCode code then some .invalid
    else if s.md.device = .safe ∧ !servedInSafe code then some .safeMode
    else form := by
  unfold receiptRefusal
  rw [h]
  rfl

theorem receiptRefusal_undefined (h : s.cmds.at? k = none) (d : code ∉ requestCodes) :
    s.receiptRefusal k code form = some .invalid := by
  rw [receiptRefusal_free h, definedCode_false d]
  rfl

theorem receiptRefusal_defined (h : s.cmds.at? k = none) (d : code ∈ requestCodes) : s.receiptRefusal k code form =
    if s.md.device = .safe ∧ !servedInSafe code then some .safeMode else form := by
  rw [receiptRefusal_free h, definedCode_iff.2 d]
  rfl

theorem receiptRefusal_safe (h : s.cmds.at? k = none) (d : code ∈ requestCodes) (safe : s.md.device = .safe)
    (unserved : servedInSafe code = false) : s.receiptRefusal k code form = some .safeMode := by
  rw [receiptRefusal_defined h d]
  exact if_pos ⟨safe, by rw [unserved]; rfl⟩

/-- R50: a request that checks 1 to 3 let through is refused or accepted by its own fields. -/
theorem receiptRefusal_form (h : s.accepts p t code) (d : code ∈ requestCodes) :
    s.receiptRefusal ⟨p, t⟩ code form = form := by
  obtain ⟨-, -, -, -, free, served⟩ := h
  rw [receiptRefusal_defined free d]
  refine if_neg fun ⟨safe, unserved⟩ => ?_
  rw [served safe] at unserved
  exact absurd unserved (by decide)

/-- R50, checks 4 to 6: the request's own fields refuse it. -/
theorem request_refused {serve : Part → Cmd → Part} (h : s.accepts p t code) (d : code ∈ requestCodes)
    (e : form = some st) : s.request p t code form serve = follow s (s.answered p t code st .none) := by
  have refused : s.receiptRefusal ⟨p, t⟩ code form = some st := (receiptRefusal_form h d).trans e
  obtain ⟨held, line, room, session, -, -⟩ := h
  exact request_receipt serve held line room session refused

theorem evAbort_request (s : Part) (p : Port) (t : Tag) (x : BitVec 8) :
    ∃ form serve, s.evAbort p t x = s.request p t codeAbort form serve := by
  unfold evAbort
  split
  · exact ⟨_, _, rfl⟩
  · exact ⟨_, _, rfl⟩

theorem evUndefinedKind_request (s : Part) (p : Port) (t : Tag) (h : definedCode code = false) :
    s.evUndefinedKind p t code = s.request p t code none fun s _ => s := by
  unfold evUndefinedKind
  rw [if_neg (by rw [h]; decide)]

end Part

/-- Every REQUEST frame goes through the receipt checks, with its port, tag and request-kind code. -/
theorem exec_request {i : Instr} {p : Port} {t : Tag} {code : BitVec 8} {f : List Byte}
    (h : requestFields i = some (p, t, code, f)) (w : i.wellFormed = true) (s : State) :
    ∃ form serve, exec i s = .next (s.withPart (s.part.request p t code form serve)) := by
  unfold requestFields at h
  split at h
  case h_9 x =>
    cases h
    obtain ⟨form, serve, e⟩ := s.part.evAbort_request p t x
    exact ⟨form, serve, congrArg (fun y => Host.Outcome.next (s.withPart y)) e⟩
  case h_22 =>
    cases h
    have undefined : definedCode code = false := by simpa [Instr.wellFormed] using w
    exact ⟨_, _, congrArg (fun y => Host.Outcome.next (s.withPart y)) (s.part.evUndefinedKind_request p t undefined)⟩
  case h_23 => cases h
  all_goals
    cases h
    exact ⟨_, _, rfl⟩

/-- Settles O16: each check refuses what those before it have let through. -/
theorem receiptChecksRefuse : Obligations.ReceiptChecksRefuse := by
  unfold Obligations.ReceiptChecksRefuse
  intro i s p t code f fields formed held line room session used no
  obtain ⟨form, serve, answers⟩ := exec_request fields formed s
  have refuses : ∀ {st}, s.part.receiptRefusal ⟨p, t⟩ code form = some st → no st := fun refused => by
    rw [Part.request_receipt serve held line room session refused] at answers
    exact answers
  refine ⟨fun taken => ?_, fun free undefined => ?_, fun free defined safe unserved => ?_⟩
  · exact refuses (Part.receiptRefusal_used (CommandTable.at?_isSome_iff.2 taken))
  · exact refuses (Part.receiptRefusal_undefined (CommandTable.at?_none free) undefined)
  · exact refuses (Part.receiptRefusal_safe (CommandTable.at?_none free) defined safe
      (Bool.eq_false_iff.2 (servedInSafe_iff.not.2 unserved)))

/-! ### The fields of READ, WRITE and MARK (R50, checks 4 to 6) -/

theorem countOk_iff {n : BitVec 8} : countOk n = true ↔ 1 ≤ n.toNat ∧ n.toNat ≤ 16 := by
  simp [countOk]

/-- R187: the kind that a MARK's field spells. -/
theorem markKindOf_eq {x : BitVec 8} (h : x = 1 ∨ x = 2) : markKindOf x = some (if x = 1 then .reported else .quiet) := by
  rcases h with rfl | rfl <;> rfl

theorem markKindOf_none {x : BitVec 8} (h : ¬ (x = 1 ∨ x = 2)) : markKindOf x = none := by
  obtain ⟨one, two⟩ := not_or.1 h
  unfold markKindOf
  rw [if_neg one, if_neg two]

theorem markOk_iff {n x : BitVec 8} : (countOk n && (markKindOf x).isSome) = true ↔
    (1 ≤ n.toNat ∧ n.toNat ≤ 16) ∧ (x = 1 ∨ x = 2) := by
  rw [Bool.and_eq_true, countOk_iff]
  refine and_congr_right fun _ => ⟨fun h => ?_, fun h => by rw [markKindOf_eq h]; rfl⟩
  by_contra k
  rw [markKindOf_none k] at h
  cases h

section Blocks

variable {form : Bool} {b : BitVec 32} {n : BitVec 8} {quota : Option Nat}

theorem blocksCheck_invalid (h : ¬ form = true) : blocksCheck form b n quota = some .invalid := by
  unfold blocksCheck
  rw [Bool.eq_false_iff.2 h]
  rfl

theorem blocksCheck_outside (h : form = true) (k : 262144 < b.toNat + n.toNat) :
    blocksCheck form b n quota = some .outOfRange := by
  have out : rangeOk b.toNat n.toNat = false := by rw [← Bool.not_eq_true, rangeOk_iff]; omega
  unfold blocksCheck
  rw [h, out]
  rfl

theorem blocksCheck_fits (h : form = true) (k : b.toNat + n.toNat ≤ 262144) : blocksCheck form b n quota =
    if quota.any (fun q => decide (q < n.toNat)) then some .quotaExceeded else none := by
  unfold blocksCheck
  rw [h, rangeOk_iff.2 k]
  rfl

theorem blocksCheck_quota {q : Nat} (h : form = true) (k : b.toNat + n.toNat ≤ 262144) (exceeds : q < n.toNat) :
    blocksCheck form b n (some q) = some .quotaExceeded := by
  rw [blocksCheck_fits h k]
  exact if_pos (decide_eq_true exceeds)

theorem blocksCheck_passes (h : form = true) (k : b.toNat + n.toNat ≤ 262144) (within : ∀ q ∈ quota, n.toNat ≤ q) :
    blocksCheck form b n quota = none := by
  rw [blocksCheck_fits h k]
  refine if_neg ?_
  rw [Option.any_eq_true]
  rintro ⟨q, hq, exceeds⟩
  exact absurd (of_decide_eq_true exceeds) (not_lt.2 (within q hq))

end Blocks

section Answers

variable {s : State} {p : Port} {t : Tag} {code : BitVec 8} {form : Option Status} {serve : Part → Cmd → Part}

/-- R50: a request whose own fields refuse it, with the follow-ups. -/
theorem request_refuses {st : Status} (ok : s.part.accepts p t code) (defined : code ∈ requestCodes) (e : form = some st) :
    (.next (s.withPart (s.part.request p t code form serve)) : Host.Outcome State Fault Refusal) =
      .next (s.withPart (Part.follow s.part (s.part.answered p t code st .none))) := by
  rw [Part.request_refused ok defined e]

/-- R50: a request whose own fields pass: what serves it, and the follow-ups. -/
theorem request_serves {z : Part} (ok : s.part.accepts p t code) (defined : code ∈ requestCodes) (passes : form = none)
    (e : serve (s.part.arrived p) (s.part.asked p t code) = z) :
    (.next (s.withPart (s.part.request p t code form serve)) : Host.Outcome State Fault Refusal) =
      .next (s.withPart (Part.follow s.part z)) := by
  subst passes
  exact request_answers ok (definedCode_iff.2 defined) e

end Answers

/-- Settles O17: each check refuses what those before it have let through. -/
theorem blockFieldsRefuse : Obligations.BlockFieldsRefuse := by
  unfold Obligations.BlockFieldsRefuse
  intro s p t b n x
  refine ⟨fun ok => ⟨fun bad => ?_, fun low high out => ?_⟩,
    fun ok => ⟨fun bad => ?_, fun low high out => ?_, fun low high fits exceeds => ?_⟩,
    fun ok => ⟨fun bad => ?_, fun low high kind out => ?_, fun low high kind fits exceeds => ?_⟩⟩
  · exact request_refuses ok (by decide) (blocksCheck_invalid (countOk_iff.not.2 (by omega)))
  · exact request_refuses ok (by decide) (blocksCheck_outside (countOk_iff.2 ⟨low, high⟩) out)
  · exact request_refuses ok (by decide) (blocksCheck_invalid (countOk_iff.not.2 (by omega)))
  · exact request_refuses ok (by decide) (blocksCheck_outside (countOk_iff.2 ⟨low, high⟩) out)
  · exact request_refuses ok (by decide) (blocksCheck_quota (countOk_iff.2 ⟨low, high⟩) fits exceeds)
  · refine request_refuses ok (by decide) (blocksCheck_invalid (markOk_iff.not.2 fun ⟨⟨low, high⟩, kind⟩ => ?_))
    rcases bad with zero | many | ⟨one, two⟩
    · omega
    · omega
    · exact kind.elim one two
  · exact request_refuses ok (by decide) (blocksCheck_outside (markOk_iff.2 ⟨⟨low, high⟩, kind⟩) out)
  · exact request_refuses ok (by decide) (blocksCheck_quota (markOk_iff.2 ⟨⟨low, high⟩, kind⟩) fits exceeds)

/-! ### WRITE and MARK (R51, R53) -/

/-- Settles O26. -/
theorem writeAndMarkAreQueued : Obligations.WriteAndMarkAreQueued := by
  unfold Obligations.WriteAndMarkAreQueued
  intro s p t b n x low high fits within queued
  have quota : ∀ q ∈ some (s.part.session p).quota, n.toNat ≤ q := fun q hq => Option.mem_some.1 hq ▸ within
  refine ⟨fun ok => ?_, fun ok kind => ?_⟩
  · exact request_serves ok (by decide) (blocksCheck_passes (countOk_iff.2 ⟨low, high⟩) fits quota) rfl
  · refine request_serves ok (by decide) (blocksCheck_passes (markOk_iff.2 ⟨⟨low, high⟩, kind⟩) fits quota) ?_
    rw [markKindOf_eq kind]
    rfl

/-! ### READ (R51, R59) -/

namespace Part

variable {s : Part} {p : Port} {c : Cmd} {b n : Nat}

/-- R59: what a READ of port `p` waits for, in one pass over the records. -/
theorem holdSetOf_eq (s : Part) (p : Port) (b n : Nat) : s.holdSetOf p b n =
    (s.cmds.recs.filter fun c => decide (c.key.port = p) && (decide (c.code = codeWrite) || decide (c.code = codeMark)) &&
      (decide (c.state = .queued) || decide (c.state = .filling)) && overlaps c.start c.count b n).map (·.receipt) := by
  unfold holdSetOf CommandTable.ofPort Cmd.holdsReads
  simp only [List.filter_filter, Bool.and_assoc, Bool.and_comm, Bool.and_left_comm]

theorem arrived_holdSetOf (s : Part) (p q : Port) (b n : Nat) : (s.arrived q).holdSetOf p b n = s.holdSetOf p b n := by
  unfold holdSetOf
  rw [arrived_cmds]

theorem serveRead_held (h : s.holdSetOf c.key.port b n ≠ []) : s.serveRead c b n =
    s.record { c with start := b, count := n, holdSet := s.holdSetOf c.key.port b n, state := .held } :=
  if_neg (List.isEmpty_iff.not.2 h)

theorem serveRead_reads (h : s.holdSetOf c.key.port b n = []) : s.serveRead c b n =
    (s.record { c with start := b, count := n, holdSet := s.holdSetOf c.key.port b n, state := .reading }).runRead
      c.receipt :=
  if_pos (List.isEmpty_iff.2 h)

end Part

/-- Settles O23: the arrival of the READ leaves the records that its hold set is made of. -/
theorem readIsHeldOrReads : Obligations.ReadIsHeldOrReads := by
  unfold Obligations.ReadIsHeldOrReads
  intro s p t b n ok low high fits hs c
  have passes : blocksCheck (countOk n) b n none = none :=
    blocksCheck_passes (countOk_iff.2 ⟨low, high⟩) fits (fun _ h => nomatch h)
  have waits : (s.part.arrived p).holdSetOf p b.toNat n.toNat = hs := by
    rw [Part.arrived_holdSetOf, Part.holdSetOf_eq]
  refine ⟨fun behind => ?_, fun free => ?_⟩
  · refine request_serves ok (by decide) passes ((Part.serveRead_held (ne_of_eq_of_ne waits behind)).trans ?_)
    rw [show (s.part.asked p t codeRead).key.port = p from rfl, waits]
    rfl
  · refine request_serves ok (by decide) passes ((Part.serveRead_reads (waits.trans free)).trans ?_)
    rw [show (s.part.asked p t codeRead).key.port = p from rfl, waits]
    rfl

/-! ### FLUSH (R85) -/

theorem flushScopeOf_eq {x : BitVec 8} (h : x = 1 ∨ x = 2) : flushScopeOf x = some (decide (x = 2)) := by
  rcases h with rfl | rfl <;> rfl

theorem flushScopeOf_none {x : BitVec 8} (h : x ≠ 1 ∧ x ≠ 2) : flushScopeOf x = none := by
  unfold flushScopeOf
  rw [if_neg h.1, if_neg h.2]

namespace Part

variable {s : Part} {c : Cmd} {all : Bool}

theorem arrived_flushSet (s : Part) (p q : Port) (all : Bool) : (s.arrived q).flushSet p all = s.flushSet p all := by
  unfold flushSet
  rw [arrived_sb]

theorem serveFlush_empty (h : s.flushSet c.key.port all = []) : s.serveFlush c all = s.reply c .ok (.flush 0 0) :=
  if_pos (List.isEmpty_iff.2 h)

theorem serveFlush_waits (h : s.flushSet c.key.port all ≠ []) : s.serveFlush c all =
    s.record { c with state := .settling, scopeAll := all, waitSet := s.flushSet c.key.port all } :=
  if_neg (List.isEmpty_iff.not.2 h)

end Part

/-- Settles O27: the arrival of the FLUSH leaves the frames that its wait set is made of. -/
theorem flushWaitsOnItsSet : Obligations.FlushWaitsOnItsSet := by
  unfold Obligations.FlushWaitsOnItsSet
  intro s p t x ok set
  have waits : (s.part.arrived p).flushSet p (decide (x = 2)) = set := s.part.arrived_flushSet p p _
  have served {z : Part} (known : x = 1 ∨ x = 2)
      (e : (s.part.arrived p).serveFlush (s.part.asked p t codeFlush) (decide (x = 2)) = z) :
      exec (.flush p t x) s = .next (s.withPart (Part.follow s.part z)) := by
    refine request_serves ok (by decide) (by rw [flushScopeOf_eq known]; rfl) ?_
    rw [flushScopeOf_eq known]
    exact e
  refine ⟨fun unknown => ?_, fun known empty => ?_, fun known staged => ?_⟩
  · exact request_refuses ok (by decide) (by rw [flushScopeOf_none unknown]; rfl)
  · exact served known (Part.serveFlush_empty (waits.trans empty))
  · refine served known ((Part.serveFlush_waits (ne_of_eq_of_ne waits staged)).trans ?_)
    rw [show (s.part.asked p t codeFlush).key.port = p from rfl, waits]
    rfl

/-! ### ABORT (R64 to R67) -/

theorem tagOf_none {x : BitVec 8} (h : 16 ≤ x.toNat) : tagOf x = none := dif_neg (not_lt.2 h)

theorem tagOf_eq {x : BitVec 8} {k : Tag} (h : x.toNat = k.val) : tagOf x = some k := by
  unfold tagOf
  rw [dif_pos (h ▸ k.isLt)]
  exact congrArg some (Fin.ext h)

namespace Part

variable {s : Part} {c d : Cmd} {k : Tag}

/-- R64: the place of the target is empty. -/
theorem serveAbort_none (h : s.cmds.at? ⟨c.key.port, k⟩ = none) : s.serveAbort c k = s.reply c .noSuchTag .none := by
  unfold serveAbort
  rw [h]

theorem serveAbort_finds (h : s.cmds.at? ⟨c.key.port, k⟩ = some d) {z : Part} {st : Status}
    (e : s.abortTarget d = (z, st)) : s.serveAbort c k = z.reply c st .none := by
  unfold serveAbort
  rw [h]
  dsimp only
  rw [e]

/-! What an ABORT makes of its target, by the target's state (R65 to R67). -/

theorem abortTarget_queued (h : d.state = .queued) :
    s.abortTarget d = ((s.dequeue d.key).finish d .aborted .none, .ok) := by unfold abortTarget; rw [h]

theorem abortTarget_held (h : d.state = .held) : s.abortTarget d = (s.finish d .aborted (.read d.next none), .ok) := by
  unfold abortTarget; rw [h]

theorem abortTarget_waiting (h : d.state = .waiting) : s.abortTarget d = (s.endWait d.key .aborted, .ok) := by
  unfold abortTarget; rw [h]

theorem abortTarget_filling (h : d.state = .filling) :
    s.abortTarget d = ((s.endFilling d).finish d .aborted .none, .ok) := by unfold abortTarget; rw [h]

theorem abortTarget_reading (h : d.state = .reading) (idle : d.inProgress = none) :
    s.abortTarget d = (s.finish d .aborted (.read d.next none), .ok) := by
  unfold abortTarget; rw [h]; dsimp only; rw [idle]

/-- R66: a block in progress is read to its end. -/
theorem abortTarget_busy (h : d.state = .reading) (busy : d.inProgress ≠ none) : s.abortTarget d =
    (s.updCmd d.receipt fun d => { d with count := d.next + 1, aborted := true }, .ok) := by
  obtain ⟨i, hi⟩ := Option.ne_none_iff_exists'.1 busy
  unfold abortTarget; rw [h]; dsimp only; rw [hi]

theorem abortTarget_late (h : d.state = .settling ∨ d.state = .sending) : s.abortTarget d = (s, .tooLate) := by
  unfold abortTarget
  rcases h with h | h <;> rw [h]

end Part

section Exec

variable {s : State} {p : Port} {t : Tag} {x : BitVec 8}

/-- R50: an ABORT of its own tag, or of none. -/
theorem exec_abort_invalid (ok : s.part.accepts p t codeAbort) (h : 16 ≤ x.toNat ∨ x.toNat = t.val) :
    exec (.abort p t x) s = .next (s.withPart (Part.follow s.part (s.part.answered p t codeAbort .invalid .none))) := by
  show Host.Outcome.next (s.withPart (s.part.evAbort p t x)) = _
  unfold Part.evAbort
  rcases h with outside | own
  · rw [tagOf_none outside]
    exact request_refuses ok (by decide) rfl
  · rw [tagOf_eq own]
    exact request_refuses ok (by decide) (if_pos rfl)

/-- R64: an ABORT of another tag of its port. -/
theorem exec_abort {k : Tag} (ok : s.part.accepts p t codeAbort) (h : x.toNat = k.val) (other : k ≠ t) {z : Part}
    (e : (s.part.arrived p).serveAbort (s.part.asked p t codeAbort) k = z) :
    exec (.abort p t x) s = .next (s.withPart (Part.follow s.part z)) := by
  show Host.Outcome.next (s.withPart (s.part.evAbort p t x)) = _
  unfold Part.evAbort
  rw [tagOf_eq h]
  exact request_serves ok (by decide) (if_neg other) e

end Exec

/-- Settles O28: the state in which the ABORT finds its target tells what becomes of it. -/
theorem abortEndsItsTarget : Obligations.AbortEndsItsTarget := by
  unfold Obligations.AbortEndsItsTarget
  intro s p t x ok a gives
  refine ⟨fun bad => exec_abort_invalid ok bad, fun k tag other => ⟨fun free => ?_, fun d found => ?_⟩⟩
  · exact exec_abort ok tag other (Part.serveAbort_none (by rw [Part.arrived_cmds]; exact free))
  · have ends {z : Part} {st : Status} (e : a.abortTarget d = (z, st)) : gives z st :=
      exec_abort ok tag other (Part.serveAbort_finds (by rw [Part.arrived_cmds]; exact found) e)
    exact ⟨fun queued => ends (Part.abortTarget_queued queued), fun held => ends (Part.abortTarget_held held),
      fun waiting => ends (Part.abortTarget_waiting waiting), fun filling => ends (Part.abortTarget_filling filling),
      fun reading idle => ends (Part.abortTarget_reading reading idle),
      fun reading busy => ends (Part.abortTarget_busy reading busy), fun late => ends (Part.abortTarget_late late)⟩

end Sys2Proof.Machine
end

section
/-! PROOFS. How a READ takes its blocks (chapter 4), and how completions enter the transmit queues (R49, R61, R183). -/

namespace Sys2Proof.Machine

/-! ### How a READ takes its blocks (R69 to R73) -/

namespace Part

variable {s : Part} {r : Nat} {c : Cmd}

/-- R49: a record whose completion has been handed on is gone, or it is SENDING. -/
theorem byReceipt_finish {st : Status} {res : Result} {d : Cmd}
    (h : (s.finish c st res).cmds.byReceipt c.receipt = some d) : d.state = .sending := by
  have place : d.receipt = c.receipt := by simpa using List.find?_some h
  have listed : d ∈ (s.finish c st res).cmds.recs := List.mem_of_find?_eq_some h
  unfold finish at listed
  dsimp only at listed
  split at listed
  case isTrue =>
    obtain ⟨e, -, made⟩ := List.mem_map.1 listed
    split at made
    case isTrue => rw [← made]
    case isFalse other => exact absurd (made ▸ place) other
  case isFalse => exact absurd place (of_decide_eq_true (List.mem_filter.1 listed).2)

/-- R69: a READ that has ended takes no further block. -/
theorem takeBlocks_finish (n : Nat) (s : Part) (c : Cmd) (st : Status) (res : Result) :
    takeBlocks n c.receipt (s.finish c st res) = s.finish c st res := by
  cases n with
  | zero => rfl
  | succ n =>
    unfold takeBlocks
    split
    case h_1 => rfl
    case h_2 d found =>
      refine if_neg fun ⟨reading, _⟩ => ?_
      rw [byReceipt_finish found] at reading
      cases reading

/-- R71, R66: the part after a block's DATA-OUT has entered the queue or is held, and the READ's index has risen. -/
def dataSent (s : Part) (c : Cmd) (d : BlockData) : Part :=
  let l := s.lc c.key.port
  let enters := l.responses < 32
  (s.setLc c.key.port
    (if enters then
      { l with txq := l.txq ++ [.dataOut c.key.tag c.next d], sending := l.sending || (l.rdy && !l.breakHeld) }
    else { l with held := l.held ++ [{ frame := .dataOut c.key.tag c.next d }] })).updCmd c.receipt fun _ =>
      { c with next := c.next + 1, inProgress := none, dataPending := if enters then none else some c.next }

theorem deliver_eq (s : Part) (c : Cmd) (d : BlockData) : s.deliver c d =
    if c.next + 1 < c.count then s.dataSent c d
    else (s.dataSent c d).finish
      { c with next := c.next + 1, inProgress := none,
               dataPending := if (s.lc c.key.port).responses < 32 then none else some c.next }
      (if c.aborted then .aborted else .ok) (.read (c.next + 1) none) := by
  unfold deliver dataSent
  dsimp only
  by_cases enters : (s.lc c.key.port).responses < 32
  · rw [show decide ((s.lc c.key.port).responses < Config.maxResponses) = true from decide_eq_true enters]
    simp only [if_true, enters]
    rfl
  · rw [show decide ((s.lc c.key.port).responses < Config.maxResponses) = false from decide_eq_false enters]
    simp only [Bool.false_eq_true, if_false, enters]

/-- What a completion is made of: the names and the kind of its record. -/
theorem finish_congr {d : Cmd} (key : d.key = c.key) (code : d.code = c.code) (receipt : d.receipt = c.receipt) (st : Status)
    (res : Result) : s.finish d st res = s.finish c st res := by
  unfold finish
  rw [key, code, receipt]

theorem deliver_more (h : c.next + 1 < c.count) (d : BlockData) : s.deliver c d = s.dataSent c d :=
  (deliver_eq s c d).trans (if_pos h)

theorem deliver_last (h : c.count ≤ c.next + 1) (d : BlockData) : s.deliver c d =
    (s.dataSent c d).finish c (if c.aborted then .aborted else .ok) (.read (c.next + 1) none) :=
  (deliver_eq s c d).trans <| (if_neg (not_lt.2 h)).trans (finish_congr rfl rfl rfl _ _)

/-- R69: the READ may take a block: it is READING, with no block in progress and no DATA-OUT pending. -/
structure Takes (s : Part) (r : Nat) (c : Cmd) : Prop where
  found : s.cmds.byReceipt r = some c
  reading : c.state = .reading
  idle : c.inProgress = none
  sent : c.dataPending = none

namespace Takes

theorem receipt (h : s.Takes r c) : c.receipt = r := by simpa using List.find?_some h.found

/-- R70: the READ looks its next block up. -/
theorem runRead_eq (h : s.Takes r c) : s.runRead r =
    match s.lookup (c.start + c.next) with
    | .data d => takeBlocks 16 r ((s.touch (c.start + c.next)).deliver c d)
    | .mark k w =>
      let s' := s.failRead c .poisoned (some k)
      if k = .reported then s'.poisonReadReported (c.start + c.next) c.key.port w none else s'
    | .poison e =>
      match e.kind with
      | .media => s.failRead c .unreadable none
      | .quiet => s.failRead c .poisoned (some .quiet)
      | .reported =>
        (s.failRead c .poisoned (some .reported)).poisonReadReported (c.start + c.next) c.key.port e.origin
          (some (e.hours, e.ms))
    | .media =>
      (s.withMedia { s.media with
        portReads := s.media.portReads ++
          [{ key := c.key, receipt := r, index := c.next, block := c.start + c.next,
             seen := s.mediaRead (s.media.locate (c.start + c.next)) }] }).updCmd r
        fun c => { c with inProgress := some c.next } := by
  rw [runRead, takeBlocks, h.found]
  exact if_pos ⟨h.reading, h.idle, h.sent⟩

variable {d : BlockData} {w : Option Port} {e : PoisonEntry}

theorem data (h : s.Takes r c) (k : s.lookup (c.start + c.next) = .data d) :
    s.runRead r = takeBlocks 16 r ((s.touch (c.start + c.next)).deliver c d) := by
  rw [h.runRead_eq, k]

/-- R71: the last block ends the READ. -/
theorem lastData (h : s.Takes r c) (k : s.lookup (c.start + c.next) = .data d) (last : c.count ≤ c.next + 1) :
    s.runRead r = (s.touch (c.start + c.next)).deliver c d := by
  rw [h.data k, deliver_last last, ← h.receipt]
  exact takeBlocks_finish _ _ _ _ _

theorem quietMark (h : s.Takes r c) (k : s.lookup (c.start + c.next) = .mark .quiet w) :
    s.runRead r = s.finish c .poisoned (.read c.next (some .quiet)) := by
  rw [h.runRead_eq, k]
  exact if_neg (by decide)

/-- R130 -/
theorem reportedMark (h : s.Takes r c) (k : s.lookup (c.start + c.next) = .mark .reported w) : s.runRead r =
    (s.finish c .poisoned (.read c.next (some .reported))).poisonReadReported (c.start + c.next) c.key.port w none := by
  rw [h.runRead_eq, k]
  exact if_pos rfl

theorem mediaEntry (h : s.Takes r c) (k : s.lookup (c.start + c.next) = .poison e) (kind : e.kind = .media) :
    s.runRead r = s.finish c .unreadable (.read c.next none) := by
  rw [h.runRead_eq, k]
  dsimp only
  rw [kind]
  rfl

theorem quietEntry (h : s.Takes r c) (k : s.lookup (c.start + c.next) = .poison e) (kind : e.kind = .quiet) :
    s.runRead r = s.finish c .poisoned (.read c.next (some .quiet)) := by
  rw [h.runRead_eq, k]
  dsimp only
  rw [kind]
  rfl

/-- R130 -/
theorem reportedEntry (h : s.Takes r c) (k : s.lookup (c.start + c.next) = .poison e) (kind : e.kind = .reported) :
    s.runRead r = (s.finish c .poisoned (.read c.next (some .reported))).poisonReadReported (c.start + c.next) c.key.port
      e.origin (some (e.hours, e.ms)) := by
  rw [h.runRead_eq, k]
  dsimp only
  rw [kind]
  rfl

/-- R70, R72: the block must be read from the media, and what the media holds at the lookup is kept. -/
theorem media (h : s.Takes r c) (k : s.lookup (c.start + c.next) = .media) : s.runRead r =
    (s.withMedia { s.media with
      portReads := s.media.portReads ++
        [{ key := c.key, receipt := r, index := c.next, block := c.start + c.next,
           seen := s.mediaRead (s.media.locate (c.start + c.next)) }] }).updCmd r
      fun c => { c with inProgress := some c.next } := by
  rw [h.runRead_eq, k]

end Takes

end Part

/-- Settles O24, answer by answer of the lookup; then the delivery of one block. -/
theorem readTakesItsNextBlock : Obligations.ReadTakesItsNextBlock := by
  unfold Obligations.ReadTakesItsNextBlock
  refine ⟨fun s r c found reading idle sent => ?_, fun s c d => ⟨fun more => ?_, fun last => ?_⟩⟩
  · have takes : s.Takes r c := ⟨found, reading, idle, sent⟩
    exact ⟨fun d data _ => takes.data data, fun d data last => takes.lastData data last, fun w => takes.quietMark,
      fun w => takes.reportedMark, fun e => takes.mediaEntry, fun e => takes.quietEntry, fun e => takes.reportedEntry,
      takes.media⟩
  · exact Part.deliver_more more d
  · exact Part.deliver_last last d

/-! ### The entry of completions, and their order (R49, R61, R183) -/

theorem Lc.holds_true {l : Lc} {t : Tag} (h : ∃ x ∈ l.held, x.frame.tag = some t) : l.holds t = true := by
  simpa [Lc.holds] using h

namespace Part

variable {s : Part} {c : Cmd} {st : Status} {r : Result}

theorem finish_enters (h : ∀ x ∈ (s.lc c.key.port).held, x.frame.tag ≠ some c.key.tag) : s.finish c st r =
    (s.sendCompletion c.key.port c.key.tag c.code st r).dropCmd c.receipt := by
  unfold finish
  dsimp only
  rw [Lc.holds_false h, if_neg Bool.false_ne_true]

/-- R183: the completion waits behind a held frame of its command. -/
theorem finish_behind (h : ∃ x ∈ (s.lc c.key.port).held, x.frame.tag = some c.key.tag) : s.finish c st r =
    (s.setLc c.key.port ((s.lc c.key.port).putBehind c.key.tag (.completion c.key.tag st c.code r))).updCmd c.receipt
      fun d => { d with state := .sending, result := none, deadline := none } := by
  unfold finish
  dsimp only
  rw [Lc.holds_true h, if_pos rfl]

theorem finish_enters_txq (h : ∀ x ∈ (s.lc c.key.port).held, x.frame.tag ≠ some c.key.tag) :
    ((s.finish c st r).lc c.key.port).txq = (s.lc c.key.port).txq ++ [.completion c.key.tag st c.code r] := by
  rw [finish_enters h]
  exact congrArg Lc.txq (lc_setLc_same ..)

theorem finish_behind_lc (h : ∃ x ∈ (s.lc c.key.port).held, x.frame.tag = some c.key.tag) :
    (s.finish c st r).lc c.key.port =
      (s.lc c.key.port).putBehind c.key.tag (.completion c.key.tag st c.code r) := by
  rw [finish_behind h]
  exact lc_setLc_same ..

/-- R183: the record stays in SENDING. -/
theorem finish_behind_recs (h : ∃ x ∈ (s.lc c.key.port).held, x.frame.tag = some c.key.tag) {d : Cmd}
    (hd : d ∈ s.cmds.recs) (place : d.receipt = c.receipt) :
    { d with state := .sending, result := none, deadline := none } ∈ (s.finish c st r).cmds.recs := by
  rw [finish_behind h]
  exact List.mem_map.2 ⟨d, hd, if_pos place⟩

/-- A completion goes to its own port. -/
theorem finish_other {q : Port} (h : q ≠ c.key.port) : (s.finish c st r).lc q = s.lc q := by
  unfold finish
  dsimp only
  split
  · exact lc_setLc_ne _ _ _ _ h
  · exact lc_setLc_ne _ _ _ _ h

/-- R61: the order of receipt changes nothing but the transmit queues. -/
theorem inReceiptOrder_links (a b : Part) : ∃ l : PerPort Lc, inReceiptOrder a b = b.withLinks l ∧ ∀ q, l.get q =
    { b.lc q with
      txq := (b.lc q).txq.take (a.lc q).txq.length ++
        arrange (a.receiptOf q) ((b.lc q).txq.drop (a.lc q).txq.length) } :=
  ⟨_, rfl, lc_inReceiptOrder a b⟩

end Part

/-- R49: a DATA-OUT stays before its command's completion. -/
theorem arrange_dataOut (rc : Tag → Option Nat) {fs : List TxFrame} {t : Tag} {st : Status} {code : BitVec 8} {r : Result}
    {i : Nat} {d : BlockData} (h : [.dataOut t i d, .completion t st code r].Sublist fs) :
    [TxFrame.dataOut t i d, .completion t st code r].Sublist (arrange rc fs) :=
  arrange_precedes rc (fun _ _ => by simp [TxFrame.precedes]) fs h

/-- R54: a GO of a command received no later stays before the completion. -/
theorem arrange_go_before (rc : Tag → Option Nat) {fs : List TxFrame} {t u : Tag} {st : Status} {code : BitVec 8}
    {r : Result} {n : Nat} (le : placeLe (rc u) (rc t)) (h : [.go u n, .completion t st code r].Sublist fs) :
    [TxFrame.go u n, .completion t st code r].Sublist (arrange rc fs) := by
  refine arrange_precedes rc (fun j place => ?_) fs h
  obtain ⟨i, hi, le⟩ := le j place
  simpa [TxFrame.precedes, hi] using le

/-- Settles O29: where the completion of one record goes, then the order of an event's frames. -/
theorem completionEntersTheQueue : Obligations.CompletionEntersTheQueue := by
  unfold Obligations.CompletionEntersTheQueue
  intro s c st r p behind
  refine ⟨fun free => ⟨Part.finish_enters_txq free, ?_⟩, fun held => ⟨Part.finish_behind_lc held, ?_⟩, fun q =>
    Part.finish_other, Part.inReceiptOrder_links, fun rc fs => ?order⟩
  · rw [Part.finish_enters free]
    rfl
  · exact fun d hd place => Part.finish_behind_recs held hd place
  case order =>
    intro places inOrder
    have places_eq : places = fun gs => gs.filterMap (·.place rc) := by
      funext gs
      refine congrArg (List.filterMap · gs) (funext fun f => ?_)
      cases f <;> rfl
    have inOrder_eq : inOrder = fun gs => (gs.filterMap (·.place rc)).Pairwise placeLe := by
      simp only [inOrder, places_eq]
      rfl
    rw [inOrder_eq]
    refine ⟨arrange_perm rc fs, arrange_inOrder rc fs, arrange_notices rc fs, arrange_of_inOrder, fun t st code r => ?_⟩
    exact ⟨fun i d => arrange_dataOut rc, fun u n => ⟨arrange_go_before rc, fun later => arrange_go_after rc later fs⟩⟩

end Sys2Proof.Machine
end

section
/-! PROOFS. The Admission Unit (chapter 3, section 3.3): the tests of an entry, what an admission makes, and the scans. -/

namespace Sys2Proof.Machine

/-! ### The tests of the admission scan (R55, R56) -/

namespace Part

variable {s : Part} {skipped : List Cmd} {lowered : Bool} {k : Key} {ks : List Key} {c : Cmd} {st : Status}

/-- R55: the entry waits for quota, or for a skipped entry of its port that it overlaps. -/
theorem skips_iff : s.skips skipped c = true ↔ (s.session c.key.port).quota < s.sb.attr (.port c.key.port) + c.count ∨
    ∃ d ∈ skipped, d.key.port = c.key.port ∧ overlaps d.start d.count c.start c.count = true := by
  simp [skips]

theorem skips_false (h : ¬ ((s.session c.key.port).quota < s.sb.attr (.port c.key.port) + c.count ∨
    ∃ d ∈ skipped, d.key.port = c.key.port ∧ overlaps d.start d.count c.start c.count = true)) :
    s.skips skipped c = false := by
  rw [← Bool.not_eq_true, skips_iff]
  exact h

/-- R56: a MARK that the poison map has no room for. -/
def noRoomFor (s : Part) (c : Cmd) : Prop :=
  c.code = codeMark ∧ 512 < s.integ.poison.length + s.sb.markFrames + c.count

theorem admissionFailure_rights (h : s.rightsQuery c.key.port c.start c.count = some st) :
    s.admissionFailure c = some st := by
  unfold admissionFailure
  rw [h]

theorem admissionFailure_full (h : s.rightsQuery c.key.port c.start c.count = none) (full : s.noRoomFor c) :
    s.admissionFailure c = some .poisonMapFull := by
  unfold admissionFailure
  rw [h]
  exact if_pos full

theorem admissionFailure_none (h : s.rightsQuery c.key.port c.start c.count = none) (room : ¬ s.noRoomFor c) :
    s.admissionFailure c = none := by
  unfold admissionFailure
  rw [h]
  exact if_neg room

/-! ### The admission scan, entry by entry (R54 to R58) -/

theorem scanQueue_empty (h : s.cmds.at? k = none) : scanQueue skipped lowered (k :: ks) s = scanQueue skipped lowered ks s := by
  rw [scanQueue, h]

/-- R55: the entry stays, and holds back later ones. -/
theorem scanQueue_skips (found : s.cmds.at? k = some c) (h : s.skips skipped c = true) :
    scanQueue skipped lowered (k :: ks) s = scanQueue (skipped ++ [c]) lowered ks s := by
  rw [scanQueue, found]
  exact if_pos h

/-- R55: the entry has a record and is not skipped. -/
structure Tested (s : Part) (skipped : List Cmd) (k : Key) (c : Cmd) : Prop where
  found : s.cmds.at? k = some c
  unskipped : s.skips skipped c = false

namespace Tested

theorem scanQueue_eq (h : s.Tested skipped k c) : scanQueue skipped lowered (k :: ks) s =
    match s.admissionFailure c with
    | some st => scanQueue skipped lowered ks (s.admitFail c st)
    | none =>
      if s.sb.available < c.count then (s.withCmds { s.cmds with stop := some k }, lowered)
      else if c.code = codeMark then scanQueue skipped (lowered || attrFell s (s.admitMark c)) ks (s.admitMark c)
      else scanQueue skipped lowered ks (s.admitWrite c) := by
  rw [scanQueue, h.found]
  exact if_neg (Bool.eq_false_iff.1 h.unskipped)

/-- R56 -/
theorem fails (h : s.Tested skipped k c) (failure : s.admissionFailure c = some st) :
    scanQueue skipped lowered (k :: ks) s = scanQueue skipped lowered ks (s.admitFail c st) := by
  rw [h.scanQueue_eq, failure]

/-- R57 -/
theorem stops (h : s.Tested skipped k c) (passes : s.admissionFailure c = none) (few : s.sb.available < c.count) :
    scanQueue skipped lowered (k :: ks) s = (s.withCmds { s.cmds with stop := some k }, lowered) := by
  rw [h.scanQueue_eq, passes]
  exact if_pos few

/-- R58 -/
theorem marks (h : s.Tested skipped k c) (passes : s.admissionFailure c = none) (enough : c.count ≤ s.sb.available)
    (mark : c.code = codeMark) : scanQueue skipped lowered (k :: ks) s =
      scanQueue skipped (lowered || attrFell s (s.admitMark c)) ks (s.admitMark c) := by
  rw [h.scanQueue_eq, passes]
  exact (if_neg (not_lt.2 enough)).trans (if_pos mark)

/-- R58 -/
theorem writes (h : s.Tested skipped k c) (passes : s.admissionFailure c = none) (enough : c.count ≤ s.sb.available)
    (write : c.code ≠ codeMark) :
    scanQueue skipped lowered (k :: ks) s = scanQueue skipped lowered ks (s.admitWrite c) := by
  rw [h.scanQueue_eq, passes]
  exact (if_neg (not_lt.2 enough)).trans (if_neg write)

end Tested

/-! ### The GO of an admitted WRITE (R76) -/

theorem sendGo_enters (h : (s.lc c.key.port).responses < 32) : s.sendGo c =
    (s.setLc c.key.port ((s.lc c.key.port).push (.go c.key.tag c.count))).updCmd c.receipt fun c =>
      { c with deadline := some (s.time.ms + 250) } := if_pos h

theorem sendGo_held (h : 32 ≤ (s.lc c.key.port).responses) : s.sendGo c =
    s.setLc c.key.port
      { s.lc c.key.port with held := (s.lc c.key.port).held ++ [{ frame := .go c.key.tag c.count }] } :=
  if_neg (not_lt.2 h)

/-- R4: the frames of a WRITE become FILLING, and nothing changes but the Staging Buffer. -/
theorem fillFrames_sb (k : Key) (ids : List Nat) : ∀ (s : Part) (b : Nat), ∃ x, s.fillFrames k b ids = s.withSb x := by
  induction ids with
  | nil => exact fun s _ => ⟨s.sb, rfl⟩
  | cons i ids ih =>
    intro s b
    obtain ⟨x, e⟩ := ih (s.listFrame { idx := i, state := .filling, block := b, writer := some (.port k.port),
                                       cmd := some k, content := .data, seq := none, data := none }) (b + 1)
    exact ⟨x, e⟩

/-- R58: the frames of a WRITE are FILLING, and its command is. -/
def filled (s : Part) (c : Cmd) : Part :=
  (((s.dequeue c.key).reclaim (s.allocIdx c.count)).fillFrames c.key c.start (s.allocIdx c.count)).updCmd c.receipt
    fun c => { c with state := .filling, next := 0 }

theorem admitWrite_eq (s : Part) (c : Cmd) : s.admitWrite c = (s.filled c).sendGo c := rfl

/-- R58: the frames and the command of an admitted WRITE are in the Staging Buffer and the Command Table. -/
theorem filled_blocks (s : Part) (c : Cmd) : ∃ x y, s.filled c = (s.withCmds x).withSb y := by
  obtain ⟨y, e⟩ := fillFrames_sb c.key (s.allocIdx c.count) ((s.dequeue c.key).reclaim (s.allocIdx c.count)) c.start
  unfold filled
  rw [e]
  exact ⟨_, y, rfl⟩

theorem filled_lc (s : Part) (c : Cmd) (p : Port) : (s.filled c).lc p = s.lc p := by
  obtain ⟨x, y, e⟩ := s.filled_blocks c
  rw [e]
  rfl

theorem filled_time (s : Part) (c : Cmd) : (s.filled c).time = s.time := by
  obtain ⟨x, y, e⟩ := s.filled_blocks c
  rw [e]
  rfl

theorem admitWrite_enters (h : (s.lc c.key.port).responses < 32) : s.admitWrite c =
    ((s.filled c).setLc c.key.port ((s.lc c.key.port).push (.go c.key.tag c.count))).updCmd c.receipt fun c =>
      { c with deadline := some (s.time.ms + 250) } := by
  rw [admitWrite_eq, sendGo_enters (by rw [filled_lc]; exact h), filled_lc, filled_time]

theorem admitWrite_held (h : 32 ≤ (s.lc c.key.port).responses) : s.admitWrite c = (s.filled c).setLc c.key.port
    { s.lc c.key.port with held := (s.lc c.key.port).held ++ [{ frame := .go c.key.tag c.count }] } := by
  rw [admitWrite_eq, sendGo_held (by rw [filled_lc]; exact h), filled_lc]

end Part

/-! ### What an admission leaves of the queue (R53, R57) -/

/-- The admission queue, and the entry at which its last scan stopped. -/
def CommandTable.line (t : CommandTable) : List Key × Option Key := (t.queue, t.stop)

namespace Part

variable {s : Part} {k : Key} {c : Cmd}

theorem finishAt_line (s : Part) (r : Nat) (st : Status) (res : Result) : (s.finishAt r st res).cmds.line = s.cmds.line := by
  unfold finishAt finish
  split
  · dsimp only
    split <;> rfl
  · rfl

theorem emitDecided_line (s : Part) : s.emitDecided.cmds.line = s.cmds.line := by
  unfold emitDecided
  induction s.decided generalizing s with
  | nil => rfl
  | cons x xs ih => exact (ih _).trans (finishAt_line s _ _ _)

theorem tallyReport_line (s : Part) (f : Frame) (b : Bool) : (s.tallyReport f b).cmds.line = s.cmds.line := by
  unfold tallyReport
  split <;> rfl

theorem stageDirty_line (s : Part) (f : Frame) : (s.stageDirty f).cmds.line = s.cmds.line := by
  rw [stageDirty_eq]
  split
  · exact tallyReport_line _ _ _
  · rfl

theorem markFrames_line (k : Key) (m : MarkKind) (ids : List Nat) :
    ∀ (s : Part) (b : Nat), (s.markFrames k m b ids).cmds.line = s.cmds.line := by
  induction ids with
  | nil => exact fun _ _ => rfl
  | cons i ids ih => exact fun s b => (ih _ _).trans (stageDirty_line s _)

/-- R58: a MARK's entry leaves the queue, and no other does. -/
theorem admitMark_line (s : Part) (c : Cmd) : (s.admitMark c).cmds.line = (s.dequeue c.key).cmds.line :=
  (emitDecided_line _).trans (markFrames_line c.key c.kind _ ((s.dequeue c.key).reclaim (s.allocIdx c.count)) c.start)

theorem dequeue_one (h : s.cmds.queue = [k]) : s.dequeue k = s.withCmds { s.cmds with queue := [] } := by
  unfold dequeue
  rw [h, List.filter_cons_of_neg (by simp)]
  rfl

/-! ### The scans (R54, R58) -/

theorem admission_ready (h : s.md.device = .ready) : s.admission = admitScans (s.cmds.queue.length + 1) s := if_pos h

theorem admission_not_ready (h : s.md.device ≠ .ready) : s.admission = s := if_neg h

theorem admitScans_succ (n : Nat) (s : Part) : admitScans (n + 1) s =
    let r := scanQueue [] false s.cmds.queue (s.withCmds { s.cmds with stop := none })
    if r.2 then admitScans n r.1 else r.1 := rfl

/-- A scan of an empty queue finds nothing. -/
theorem admitScans_still (h : s.cmds.line = ([], none)) (n : Nat) : admitScans (n + 1) s = s := by
  obtain ⟨queue, stop⟩ := Prod.mk.inj h
  have still : s.withCmds { s.cmds with stop := none } = s := by
    show s.withCmds ⟨s.cmds.recs, s.cmds.queue, s.cmds.nextReceipt, none⟩ = s
    rw [← stop]
    rfl
  rw [admitScans_succ, queue, still]
  rfl

/-- The admission of a queue of one entry is one scan of it: a further one finds the queue empty. -/
theorem admission_one (ready : s.md.device = .ready) (one : s.cmds.queue = [k]) {y : Part} {lowered : Bool}
    (e : scanQueue [] false [k] (s.withCmds { s.cmds with stop := none }) = (y, lowered))
    (still : lowered = true → y.cmds.line = ([], none)) : s.admission = y := by
  rw [admission_ready ready, admitScans_succ, one, e]
  dsimp only
  split
  case isTrue lowers => exact admitScans_still (still lowers) _
  case isFalse => rfl

end Part

/-- R54 to R58: the scan as an event, over a queue of one entry. -/
theorem exec_admission_one {s : State} {k : Key} (held : s.part.isHeld = false) (ready : s.part.md.device = .ready)
    (one : s.part.cmds.queue = [k]) {y : Part} {lowered : Bool}
    (e : Part.scanQueue [] false [k] (s.part.withCmds { s.part.cmds with stop := none }) = (y, lowered))
    (still : lowered = true → y.cmds.line = ([], none)) :
    exec .admission s = .next (s.withPart (Part.follow s.part y)) :=
  event_answers held (Part.admission_one ready one e still)

/-- Settles O48: the tests of one entry in their order, in a queue of its own and at the head of any queue; then the GO and
the further scan. -/
theorem admissionOfOneEntry : Obligations.AdmissionOfOneEntry := by
  unfold Obligations.AdmissionOfOneEntry
  refine ⟨fun s k c held => ⟨fun waits => ?_, fun ready single found name => ?alone⟩, fun x skipped lowered k ks => ?head,
    fun x c => ⟨Part.sendGo_enters, Part.sendGo_held⟩,
    fun x n => ⟨Part.admission_not_ready, Part.admission_ready, Part.admitScans_succ n x⟩⟩
  · exact event_answers held (Part.admission_not_ready waits)
  case alone =>
    subst name
    intro x gives full
    have queue : x.dequeue c.key = x.withCmds { x.cmds with queue := [] } := Part.dequeue_one single
    have one {y : Part} (e : Part.scanQueue [] false [c.key] x = (y, false)) : gives y :=
      exec_admission_one held ready single e (fun h => nomatch h)
    refine ⟨fun exceeds => one (Part.scanQueue_skips found (Part.skips_iff.2 (.inl exceeds))), fun within => ?_⟩
    have tested : x.Tested [] c.key c :=
      ⟨found, Part.skips_false (not_or.2 ⟨not_lt.2 within, fun ⟨_, h, _⟩ => absurd h List.not_mem_nil⟩)⟩
    refine ⟨fun st rights => one (tested.fails (Part.admissionFailure_rights rights)),
      fun rights full => one (tested.fails (Part.admissionFailure_full rights full)), fun rights room => ?_⟩
    have passes : x.admissionFailure c = none := Part.admissionFailure_none rights room
    refine ⟨fun few => one (tested.stops passes few), fun enough => ?_⟩
    intro taken y
    refine ⟨fun write room => ?_, fun write full => ?_, fun mark => ?_⟩
    · refine one ((tested.writes passes enough write).trans ?_)
      rw [Part.admitWrite_enters room]
      unfold Part.filled
      rw [queue]
      rfl
    · refine one ((tested.writes passes enough write).trans ?_)
      rw [Part.admitWrite_held full]
      unfold Part.filled
      rw [queue]
      rfl
    · have left : (x.admitMark c).cmds.line = ([], none) := by
        rw [Part.admitMark_line, queue]
        rfl
      have admitted : gives (x.admitMark c) :=
        exec_admission_one held ready single (tested.marks passes enough mark) fun _ => left
      unfold Part.admitMark at admitted
      rw [queue] at admitted
      exact admitted
  case head =>
    intro on
    refine ⟨rfl, Part.scanQueue_empty, fun c found name => ?_⟩
    subst name
    intro gives skip full
    refine ⟨fun skip => Part.scanQueue_skips found (Part.skips_iff.2 skip), fun free => ?_⟩
    have tested : x.Tested skipped c.key c := ⟨found, Part.skips_false free⟩
    refine ⟨fun st rights => tested.fails (Part.admissionFailure_rights rights),
      fun rights full => tested.fails (Part.admissionFailure_full rights full), fun rights room => ?_⟩
    have passes : x.admissionFailure c = none := Part.admissionFailure_none rights room
    exact ⟨tested.stops passes, fun enough => ⟨tested.writes passes enough, tested.marks passes enough⟩⟩

end Sys2Proof.Machine
end

section
/-! PROOFS. DATA-IN and KEEPALIVE frames (chapter 4), the end of sending, and the entry of held frames (chapter 11). -/

namespace Sys2Proof.Machine

theorem CommandTable.key_of_at? {t : CommandTable} {k : Key} {c : Cmd} (h : t.at? k = some c) : c.key = k := by
  simpa using List.find?_some h

theorem CommandTable.mem_of_at? {t : CommandTable} {k : Key} {c : Cmd} (h : t.at? k = some c) : c ∈ t.recs :=
  List.mem_of_find?_eq_some h

/-! ### Frames that arrive (R90, R91, log 17) -/

section Arrivals

variable {s : State} {p : Port} {z : Part}

/-- Nothing arrives while the line is held at 0 (log 17). -/
theorem arrival_low (f : Part → Part) (low : (s.part.lc p).low = true) :
    (.next (s.withPart (s.part.arrival p f)) : Host.Outcome State Fault Refusal) = .next s := by
  rw [show s.part.arrival p f = s.part from if_pos low]
  rfl

/-- A frame that arrives: its own effect on the part it has arrived at, and the follow-ups. -/
theorem arrival_answers {f : Part → Part} (held : s.part.isHeld = false) (up : (s.part.lc p).low = false)
    (e : f (s.part.setLc p { s.part.lc p with framing := .hunt }) = z) :
    (.next (s.withPart (s.part.arrival p f)) : Host.Outcome State Fault Refusal) =
      .next (s.withPart (Part.follow s.part z)) := by
  rw [Part.arrival_runs f held up, e]

/-- R91 -/
theorem exec_keepalive (held : s.part.isHeld = false) (up : (s.part.lc p).low = false) :
    exec (.keepalive p) s = .next (s.withPart (Part.follow s.part (s.part.arrived p))) :=
  arrival_answers held up rfl

/-- R77, R91 -/
theorem exec_dataIn {t : Tag} {idx : BitVec 8} {d : BlockData} (held : s.part.isHeld = false)
    (up : (s.part.lc p).low = false) (e : (s.part.arrived p).takeData ⟨p, t⟩ idx d = z) :
    exec (.dataIn p t idx d) s = .next (s.withPart (Part.follow s.part z)) :=
  arrival_answers (f := fun s => (s.rearm p).takeData ⟨p, t⟩ idx d) held up e

end Arrivals

/-! ### DATA-IN (R77 to R81) -/

namespace Part

variable {s : Part} {k : Key} {c : Cmd} {idx : BitVec 8} {d : BlockData}

/-- R77: no WRITE in FILLING awaits the frame. -/
theorem takeData_discards (h : ∀ c ∈ s.cmds.recs, c.key = k → ¬ (c.code = codeWrite ∧ c.state = .filling)) :
    s.takeData k idx d = s.countError k.port := by
  unfold takeData
  split
  case h_1 => rfl
  case h_2 c found => exact if_neg (h c (CommandTable.mem_of_at? found) (CommandTable.key_of_at? found))

/-- R77: the frame belongs to a WRITE in FILLING, and its index decides (R78, R79). -/
theorem takeData_matches (found : s.cmds.at? k = some c) (write : c.code = codeWrite) (filling : c.state = .filling) :
    s.takeData k idx d = if idx.toNat = c.next then s.acceptBlock c d else s.dataSequence c := by
  unfold takeData
  rw [found]
  exact if_pos ⟨write, filling⟩

/-- R79: the part after the expected block has been taken, before it is known whether it is the last. -/
def blockTaken (s : Part) (c : Cmd) (d : BlockData) : Part :=
  (s.fillData c.key (c.start + c.next) d).updCmd c.receipt fun x =>
    { x with next := c.next + 1, deadline := c.deadline.map fun _ => s.time.ms + 250 }

theorem acceptBlock_more (h : c.next + 1 < c.count) : s.acceptBlock c d = s.blockTaken c d := if_pos h

theorem acceptBlock_last (h : c.count ≤ c.next + 1) : s.acceptBlock c d = (s.blockTaken c d).lastBlock c :=
  if_neg (not_lt.2 h)

/-- R81: a WRITE that is not DURABLE is decided by its last block. -/
theorem lastBlock_decided (h : c.durable = false) : s.lastBlock c =
    ((s.dirtyFilled c.key c.start c.count).updCmd c.receipt fun x =>
      { x with state := .sending, deadline := none, result := some (.ok, .write c.count 0) }).emitDecided := by
  unfold lastBlock
  rw [h]
  rfl

/-- R81: a DURABLE WRITE waits in SETTLING for its frames. -/
theorem lastBlock_durable (h : c.durable = true) : s.lastBlock c =
    ((s.dirtyFilled c.key c.start c.count).updCmd c.receipt fun x =>
      { x with state := .settling, deadline := none,
               waitSet := (s.dirtyFilled c.key c.start c.count).writeSet c.key c.start c.count }).emitDecided := by
  unfold lastBlock
  rw [h]
  rfl

end Part

/-- Settles O42: no arrival on a line at 0; KEEPALIVE; DATA-IN without its WRITE, out of order, in order and last. -/
theorem dataFramesAndKeepalive : Obligations.DataFramesAndKeepalive := by
  unfold Obligations.DataFramesAndKeepalive
  intro s p t idx d held
  refine ⟨fun low => ⟨arrival_low _ low, arrival_low _ low⟩, fun up => ?_⟩
  intro a gives
  have taken {z : Part} (e : a.takeData ⟨p, t⟩ idx d = z) : gives z := exec_dataIn held up e
  have cmds : a.cmds = s.part.cmds := Part.arrived_cmds ..
  refine ⟨exec_keepalive held up, fun stray => taken (Part.takeData_discards (by rwa [cmds])),
    fun c found write filling => ?_⟩
  have named : c.key = ⟨p, t⟩ := CommandTable.key_of_at? found
  have matched := Part.takeData_matches (s := a) (idx := idx) (d := d) (by rwa [cmds]) write filling
  refine ⟨fun wrong => taken (matched.trans (if_neg wrong)), fun expected => ?_⟩
  have accepted : a.takeData ⟨p, t⟩ idx d = a.acceptBlock c d := matched.trans (if_pos expected)
  intro y
  have block : a.blockTaken c d = y := by
    unfold Part.blockTaken Part.fillData
    rw [named, Part.arrived_time]
  refine ⟨fun more => taken ?_, fun last => ?_⟩
  · rw [accepted, Part.acceptBlock_more more, block]
  · intro z
    have ended : a.takeData ⟨p, t⟩ idx d = y.lastBlock c := by rw [accepted, Part.acceptBlock_last last, block]
    have dirty : y.dirtyFilled c.key c.start c.count = z := by rw [named]
    refine ⟨fun plain => taken ?_, fun durable => taken ?_⟩
    · rw [ended, Part.lastBlock_decided plain, dirty]
    · rw [ended, Part.lastBlock_durable durable, dirty, named]

/-! ### The entry of held frames (R49, R69, R76, R183) -/

namespace Part

variable {s : Part} {p : Port} {t : Tag} {c : Cmd} {h : HeldFrame} {hs : List HeldFrame}

/-- Two updates of one link controller: the second stands. -/
theorem setLc_setLc (s : Part) (p : Port) (l m : Lc) : (s.setLc p l).setLc p m = s.setLc p m := by
  unfold setLc
  rw [withLinks_links, PerPort.set_set]
  rfl

/-- R183: no frame is held, or the queue has no room. -/
theorem enterHeld_stays (n : Nat) (stays : (s.lc p).held = [] ∨ 32 ≤ (s.lc p).responses) : enterHeld n p s = s := by
  cases n with
  | zero => rfl
  | succ n =>
    unfold enterHeld
    dsimp only
    split
    case h_1 => rfl
    case h_2 h hs oldest => exact if_neg (not_lt.2 (stays.resolve_left (oldest ▸ List.cons_ne_nil h hs)))

/-- R183: the oldest held frame leaves the hold and joins the queue. -/
def oldestEnters (s : Part) (p : Port) (h : HeldFrame) (hs : List HeldFrame) : Part :=
  s.setLc p { (s.lc p).push h.frame with held := hs }

theorem enterHeld_enters (n : Nat) (oldest : (s.lc p).held = h :: hs) (room : (s.lc p).responses < 32) :
    enterHeld (n + 1) p s = enterHeld n p ((s.oldestEnters p h hs).heldEntered p h) := by
  rw [enterHeld]
  dsimp only
  rw [oldest]
  exact if_pos room

/-- R76: the data deadline of the WRITE is armed. -/
def dataArmed (s : Part) (c : Cmd) : Part :=
  s.updCmd c.receipt fun c => { c with deadline := some (s.time.ms + 250) }

theorem goEntered_arms (found : s.cmds.at? ⟨p, t⟩ = some c) (filling : c.state = .filling) :
    s.goEntered ⟨p, t⟩ = s.dataArmed c := by
  unfold goEntered
  rw [found]
  exact if_pos filling

/-- R69 -/
theorem dataEntered_takes (found : s.cmds.at? ⟨p, t⟩ = some c) : s.dataEntered ⟨p, t⟩ =
    (s.updCmd c.receipt fun c => { c with dataPending := none }).runRead c.receipt := by
  unfold dataEntered
  rw [found]

/-- R49 -/
theorem behindEntered_drops (found : s.cmds.at? ⟨p, t⟩ = some c) (sending : c.state = .sending) :
    s.behindEntered ⟨p, t⟩ = s.dropCmd c.receipt := by
  unfold behindEntered
  rw [found]
  exact if_pos sending

/-- R183, R76: the one held frame, a GO, enters and arms the data deadline of its WRITE. -/
theorem enterAll_go {n : Nat} (only : (s.lc p).held = [{ frame := .go t n }]) (room : (s.lc p).responses < 32)
    (found : s.cmds.at? ⟨p, t⟩ = some c) (filling : c.state = .filling) :
    s.enterAll p = (s.oldestEnters p { frame := .go t n } []).dataArmed c := by
  have armed : (s.oldestEnters p { frame := .go t n } []).heldEntered p { frame := .go t n } =
      (s.oldestEnters p { frame := .go t n } []).dataArmed c := goEntered_arms found filling
  have empty : (((s.oldestEnters p { frame := .go t n } []).dataArmed c).lc p).held = [] :=
    congrArg Lc.held (lc_setLc_same ..)
  calc s.enterAll p = enterHeld 32 p ((s.oldestEnters p { frame := .go t n } []).heldEntered p { frame := .go t n }) :=
        enterHeld_enters 32 only room
    _ = (s.oldestEnters p { frame := .go t n } []).dataArmed c := by rw [armed, enterHeld_stays 32 (.inl empty)]

/-! ### The end of sending (R184) -/

/-- R184: the sent frame has left the queue, and held frames have entered. -/
def sentLeaves (s : Part) (p : Port) : Part :=
  (s.setLc p { s.lc p with txq := (s.lc p).txq.tail, sending := false }).enterAll p

/-- R184: with no frame held the next frame of the queue begins. -/
theorem sentLeaves_begin (unheld : (s.lc p).held = []) :
    (s.sentLeaves p).setLc p ((s.sentLeaves p).lc p).begin = s.setLc p
      { s.lc p with
        txq := (s.lc p).txq.tail
        sending := (s.lc p).rdy && !(s.lc p).breakHeld && !(s.lc p).txq.tail.isEmpty } := by
  have left : s.sentLeaves p = s.setLc p { s.lc p with txq := (s.lc p).txq.tail, sending := false } :=
    enterHeld_stays 33 (.inl ((congrArg Lc.held (lc_setLc_same ..)).trans unheld))
  rw [left, lc_setLc_same, setLc_setLc]
  rfl

end Part

section Sending

variable {s : State} {p : Port}

/-- An event of the transmit queues, in a part that is not held: what it puts there stands as it is put. -/
theorem eventInPlace_answers {f : Part → Part} {z : Part} (held : s.part.isHeld = false) (e : f s.part = z) :
    (.next (s.withPart (s.part.eventInPlace f)) : Host.Outcome State Fault Refusal) =
      .next (s.withPart (Part.follow (s.part.withLinks z.links) z)) := by
  rw [Part.eventInPlace_runs f held, e]

/-- R184 -/
theorem exec_finishSending {z : Part} (held : s.part.isHeld = false) (sending : (s.part.lc p).sending = true)
    (e : (s.part.sentLeaves p).setLc p ((s.part.sentLeaves p).lc p).begin = z) :
    exec (.finishSending p) s = .next (s.withPart (Part.follow (s.part.withLinks z.links) z)) := by
  refine eventInPlace_answers held ((if_pos sending).trans ?_)
  rw [List.drop_one]
  exact e

/-- R183 -/
theorem exec_heldFrameEntry {z : Part} (held : s.part.isHeld = false) (e : s.part.enterAll p = z) :
    exec (.heldFrameEntry p) s = .next (s.withPart (Part.follow (s.part.withLinks z.links) z)) :=
  eventInPlace_answers held e

end Sending

/-- Settles O45: the end of sending and the entry as events; then the entry of one frame, and what each kind brings. -/
theorem sendingAndHeldFrames : Obligations.SendingAndHeldFrames := by
  unfold Obligations.SendingAndHeldFrames
  refine ⟨fun s p held => ⟨fun sending => ⟨?_, fun unheld => ?_⟩, ?_, fun t n c only room found filling => ?_⟩,
    fun x p => ⟨Part.enterHeld_stays 33, fun h hs oldest room => ?_, fun t i d c found => ?_,
      fun t i d g c found sending => ?_⟩⟩
  · exact exec_finishSending held sending rfl
  · exact exec_finishSending held sending (Part.sentLeaves_begin unheld)
  · exact exec_heldFrameEntry held rfl
  · exact exec_heldFrameEntry held (Part.enterAll_go only room found filling)
  · exact Part.enterHeld_enters 32 oldest room
  · exact Part.dataEntered_takes found
  · exact Part.behindEntered_drops found sending

end Sys2Proof.Machine
end

section
/-! PROOFS. What a REQUEST frame meets before its checks, the sessions that OPEN makes and FENCE and UNFENCE work on
(chapter 5), and the events of a port's pins (chapter 11). -/

namespace Sys2Proof.Machine

/-! ### The session check and the overrun (R90, R182) -/

namespace Part

variable {s : Part} {p : Port} {code : BitVec 8}

/-- R90: without an OPEN session every request but OPEN is refused. -/
theorem sessionRefusal_unopened (request : code ≠ codeOpen) (unopened : (s.session p).state ≠ .opened) :
    s.sessionRefusal p code = some (if (s.session p).state = .closing then .closing else .noSession) := by
  unfold sessionRefusal
  rw [if_neg request]
  cases state : (s.session p).state with
  | opened => exact absurd state unopened
  | closing => rfl
  | closed => rfl
  | draining => rfl

/-- R181: an error counted at a link controller that has just been set. -/
theorem countError_setLc (s : Part) (p : Port) (l : Lc) : (s.setLc p l).countError p = s.setLc p l.countError := by
  unfold countError
  rw [lc_setLc_same, setLc_setLc]

end Part

section Exec

variable {i : Instr} {s : State} {p : Port} {t : Tag} {code : BitVec 8} {f : List Byte}

/-- R182: a REQUEST frame that finds a full transmit queue. -/
theorem exec_request_overrun (fields : requestFields i = some (p, t, code, f)) (formed : i.wellFormed = true)
    (held : s.part.isHeld = false) (up : (s.part.lc p).low = false) (full : 32 ≤ (s.part.lc p).responses) :
    exec i s = .next (s.withPart (Part.follow s.part
      (s.part.setLc p { s.part.lc p with framing := .hunt, errors := (s.part.lc p).errors + 1 }))) := by
  obtain ⟨form, serve, answers⟩ := exec_request fields formed s
  rw [answers, Part.request_overrun t code form serve held up full, Part.countError_setLc]
  rfl

/-- R90: a REQUEST frame that needs a session and finds none. -/
theorem exec_request_unopened (fields : requestFields i = some (p, t, code, f)) (formed : i.wellFormed = true)
    (held : s.part.isHeld = false) (up : (s.part.lc p).low = false) (room : (s.part.lc p).responses < 32)
    (request : code ≠ codeOpen) (unopened : (s.part.session p).state ≠ .opened) :
    exec i s = .next (s.withPart (Part.follow s.part (s.part.answered p t code
      (if (s.part.session p).state = .closing then .closing else .noSession) .none))) := by
  obtain ⟨form, serve, answers⟩ := exec_request fields formed s
  rw [answers, Part.request_session t form serve held up room (Part.sessionRefusal_unopened request unopened)]

end Exec

/-- Settles O15: the overrun comes before the session check, and neither looks at the request's fields. -/
theorem overrunAndSessionCheck : Obligations.OverrunAndSessionCheck := by
  unfold Obligations.OverrunAndSessionCheck
  intro i s p t code f fields formed held up
  exact ⟨exec_request_overrun fields formed held up, exec_request_unopened fields formed held up⟩

/-! ### OPEN (R93, R94) -/

/-- R187: the value of a field that is 0 or 1. -/
theorem flagOf_eq {x : BitVec 8} (h : x = 0 ∨ x = 1) : flagOf x = some (decide (x = 1)) := by
  rcases h with rfl | rfl <;> rfl

theorem flagOf_isSome_iff {x : BitVec 8} : (flagOf x).isSome = true ↔ x = 0 ∨ x = 1 := by
  refine ⟨fun known => ?_, fun h => by rw [flagOf_eq h]; rfl⟩
  by_contra h
  obtain ⟨zero, one⟩ := not_or.1 h
  rw [flagOf, if_neg zero, if_neg one] at known
  cases known

/-- R93, condition 5. -/
theorem openParamsOk_iff {silence : BitVec 16} {quota reqLease : BitVec 8} : openParamsOk silence quota reqLease = true ↔
    20 ≤ silence.toNat ∧ silence.toNat ≤ 10000 ∧ quota.toNat ≤ 96 ∧ (reqLease = 0 ∨ reqLease = 1) := by
  simp only [openParamsOk, Bool.and_eq_true, decide_eq_true_eq, flagOf_isSome_iff, and_assoc]
  rfl

namespace Part

section OpenRefusal

variable {s : Part} {p : Port} {silence : BitVec 16} {quota reqLease : BitVec 8}

/-- R91, R93: the arrival of the OPEN changes nothing that can refuse it. -/
theorem arrived_openRefusal (s : Part) (p : Port) (silence : BitVec 16) (quota reqLease : BitVec 8) :
    (s.arrived p).openRefusal p silence quota reqLease = s.openRefusal p silence quota reqLease := by
  obtain ⟨d, same⟩ := s.arrived_session p p
  unfold openRefusal
  rw [arrived_md, arrived_sb, same]

theorem openRefusal_starting (starting : s.md.device = .starting) :
    s.openRefusal p silence quota reqLease = some .notReady := if_pos starting

theorem openRefusal_fenced (started : s.md.device ≠ .starting) (fenced : (s.session p).fenced = true) :
    s.openRefusal p silence quota reqLease = some .fenced := (if_neg started).trans (if_pos fenced)

section Unfenced

variable (started : s.md.device ≠ .starting) (clear : (s.session p).fenced = false)
include started clear

theorem openRefusal_opened (opened : (s.session p).state = .opened) :
    s.openRefusal p silence quota reqLease = some .alreadyOpen :=
  (if_neg started).trans <| (if_neg (Bool.eq_false_iff.1 clear)).trans (if_pos opened)

theorem openRefusal_ending (ending : (s.session p).state = .closing ∨ (s.session p).state = .draining) :
    s.openRefusal p silence quota reqLease = some .busy :=
  (if_neg started).trans <| (if_neg (Bool.eq_false_iff.1 clear)).trans <|
    (if_neg fun opened => by rw [opened] at ending; exact absurd ending (by decide)).trans (if_pos ending)

/-- R93: on a CLOSED port the parameters and the frames of the last session decide. -/
theorem openRefusal_closed (closed : (s.session p).state = .closed) : s.openRefusal p silence quota reqLease =
    if !openParamsOk silence quota reqLease then some .invalid
    else if quotaOf quota < s.sb.attr (.port p) then some .busy
    else none := by
  unfold openRefusal
  rw [if_neg started, if_neg (Bool.eq_false_iff.1 clear), closed, if_neg (by decide), if_neg (by decide)]

end Unfenced

end OpenRefusal

section ServeOpen

variable {s : Part} {c : Cmd} {token : BitVec 32} {silence : BitVec 16} {quota reqLease : BitVec 8}

theorem serveOpen_refused {st : Status} (h : s.openRefusal c.key.port silence quota reqLease = some st) :
    s.serveOpen c token silence quota reqLease = s.reply c st .none := by
  unfold serveOpen
  dsimp only
  rw [h]

/-- R94: an OPEN that nothing refuses makes the session and reports it. -/
theorem serveOpen_opens (h : s.openRefusal c.key.port silence quota reqLease = none) :
    let x := s.openedSession c.key.port token silence quota reqLease
    s.serveOpen c token silence quota reqLease =
      (s.setSession c.key.port x).reply c .ok (.opened x.number x.quota x.silence (s.sb.attr (.port c.key.port))) := by
  unfold serveOpen
  dsimp only
  rw [h]

/-- R94: the session of an OPEN at its arrival, field by field. -/
theorem arrived_openedSession {p : Port} (clear : (s.session p).fenced = false) (flag : reqLease = 0 ∨ reqLease = 1) :
    (s.arrived p).openedSession p token silence quota reqLease =
      { state := .opened, number := (s.session p).number + 1, token := token, silence := silence.toNat,
        quota := quotaOf quota, reqLease := decide (reqLease = 1), deadline := some (s.time.ms + silence.toNat),
        fenced := false } := by
  obtain ⟨d, same⟩ := s.arrived_session p p
  unfold openedSession now
  rw [arrived_time, same, flagOf_eq flag, ← clear]
  rfl

end ServeOpen

end Part

section Exec

variable {s : State} {p : Port} {t : Tag} {token : BitVec 32} {silence : BitVec 16} {quota reqLease : BitVec 8}

theorem exec_openReq {z : Part} (ok : s.part.accepts p t codeOpen)
    (e : (s.part.arrived p).serveOpen (s.part.asked p t codeOpen) token silence quota reqLease = z) :
    exec (.openReq p t token silence quota reqLease) s = .next (s.withPart (Part.follow s.part z)) :=
  request_answers (serve := fun s c => s.serveOpen c token silence quota reqLease) ok rfl e

/-- R93: an OPEN that a condition refuses. -/
theorem exec_openReq_refused {st : Status} (ok : s.part.accepts p t codeOpen)
    (h : s.part.openRefusal p silence quota reqLease = some st) : exec (.openReq p t token silence quota reqLease) s =
      .next (s.withPart (Part.follow s.part (s.part.answered p t codeOpen st .none))) :=
  exec_openReq ok (Part.serveOpen_refused ((s.part.arrived_openRefusal p silence quota reqLease).trans h))

/-- R94: an OPEN that no condition refuses. -/
theorem exec_openReq_opens (ok : s.part.accepts p t codeOpen)
    (h : s.part.openRefusal p silence quota reqLease = none) :
    let x := (s.part.arrived p).openedSession p token silence quota reqLease
    exec (.openReq p t token silence quota reqLease) s = .next (s.withPart (Part.follow s.part
      (((s.part.arrived p).setSession p x).sendCompletion p t codeOpen .ok
        (.opened x.number x.quota x.silence (s.part.sb.attr (.port p)))))) := by
  refine exec_openReq ok ((Part.serveOpen_opens ((s.part.arrived_openRefusal p silence quota reqLease).trans h)).trans ?_)
  rw [Part.arrived_sb]
  rfl

end Exec

/-- Settles O18: the conditions of R93 in their order, and the session of an OPEN that passes them all. -/
theorem openMakesTheSession : Obligations.OpenMakesTheSession := by
  unfold Obligations.OpenMakesTheSession
  intro s p t token silence quota reqLease ok no x good q
  have refuses {st : Status} (h : s.part.openRefusal p silence quota reqLease = some st) : no st :=
    exec_openReq_refused ok h
  refine ⟨fun starting => refuses (Part.openRefusal_starting starting),
    fun started fenced => refuses (Part.openRefusal_fenced started fenced), fun started clear =>
      ⟨fun opened => refuses (Part.openRefusal_opened started clear opened),
       fun ending => refuses (Part.openRefusal_ending started clear ending), ?invalid, ?busy, ?opens⟩⟩
  case invalid =>
    intro closed bad
    refine refuses ((Part.openRefusal_closed started clear closed).trans (if_pos ?_))
    rw [Bool.not_eq_true', ← Bool.not_eq_true, openParamsOk_iff]
    exact bad
  case busy =>
    intro closed fine exceeds
    refine refuses ((Part.openRefusal_closed started clear closed).trans ?_)
    rw [openParamsOk_iff.2 fine]
    exact if_pos exceeds
  case opens =>
    intro closed fine within
    have passes : s.part.openRefusal p silence quota reqLease = none := by
      rw [Part.openRefusal_closed started clear closed, openParamsOk_iff.2 fine]
      exact if_neg (not_lt.2 within)
    obtain ⟨-, -, -, flag⟩ := fine
    have opens := exec_openReq_opens (token := token) ok passes
    rw [Part.arrived_openedSession clear flag] at opens
    exact opens

/-! ### The target of FENCE and UNFENCE (R102, R104) -/

theorem Port.ofNat?_toNat (q : Port) : Port.ofNat? q.toNat = some q := by cases q <;> rfl

theorem Port.ofNat?_none {n : Nat} (h : 4 ≤ n) : Port.ofNat? n = none := by
  obtain ⟨k, rfl⟩ := Nat.exists_eq_add_of_le' h
  rfl

namespace Part

/-- R91: the arrival of a frame leaves the fence flags. -/
theorem arrived_fenced (s : Part) (p q : Port) : ((s.arrived p).session q).fenced = (s.session q).fenced := by
  obtain ⟨d, same⟩ := s.arrived_session p q
  rw [same]

/-! ### FENCE (R102) -/

variable {s : Part} {c : Cmd} {q : Port} {x : BitVec 8}

theorem serveFence_invalid (h : 4 ≤ x.toNat ∨ x.toNat = c.key.port.toNat) :
    s.serveFence c x = s.reply c .invalid .none := by
  unfold serveFence
  rcases h with outside | own
  · rw [Port.ofNat?_none outside]
  · rw [own, Port.ofNat?_toNat]
    exact if_pos rfl

theorem serveFence_other (target : x.toNat = q.toNat) (other : q ≠ c.key.port) : s.serveFence c x =
    if (s.session q).fenced then s.reply c .already .none else (s.fencePort c.key.port q).reply c .ok .none := by
  unfold serveFence
  rw [target, Port.ofNat?_toNat]
  exact if_neg other

/-- R102: what FENCE by port `p` does to port `q`, once its own frame has arrived. -/
theorem arrived_fencePort (s : Part) (p q : Port) :
    let a := s.arrived p
    let b := if (s.session q).state = .opened ∨ (s.session q).state = .closing then
      scanAll drains a (a.abruptEnd q .portFenced (some p)) else a
    a.fencePort p q = (b.setSession q { b.session q with fenced := true }).putNotice q
      (.fenced p (s.session p).number (s.session p).token) := by
  intro a b
  obtain ⟨d, same⟩ := s.arrived_session p p
  have ends : (if a.armsSilence q then scanAll drains a (a.abruptEnd q .portFenced (some p)) else a) = b :=
    if_congr (by rw [armsSilence_iff, arrived_session_state]) rfl rfl
  unfold fencePort
  rw [ends, same]

/-! ### UNFENCE (R104) -/

theorem serveUnfence_invalid (h : 4 ≤ x.toNat) : s.serveUnfence c x = s.reply c .invalid .none := by
  unfold serveUnfence
  rw [Port.ofNat?_none h]

theorem serveUnfence_target (target : x.toNat = q.toNat) : s.serveUnfence c x =
    if (s.session q).fenced then (s.setSession q { s.session q with fenced := false }).reply c .ok .none
    else s.reply c .notFenced .none := by
  unfold serveUnfence
  rw [target, Port.ofNat?_toNat]

/-- R102: a port whose session is OPEN is not fenced. -/
theorem sessionLaw.unfenced {p : Port} (law : s.sessionLaw) (opened : (s.session p).state = .opened) :
    (s.session p).fenced = false := by
  obtain ⟨-, -, shut⟩ := law
  refine Bool.eq_false_iff.2 fun fenced => ?_
  have closed := shut p fenced
  rw [opened] at closed
  exact absurd closed (by decide)

end Part

section Exec

variable {s : State} {p : Port} {t : Tag} {x : BitVec 8} {z : Part}

theorem exec_fence (ok : s.part.accepts p t codeFence)
    (e : (s.part.arrived p).serveFence (s.part.asked p t codeFence) x = z) :
    exec (.fence p t x) s = .next (s.withPart (Part.follow s.part z)) :=
  request_answers (serve := fun s c => s.serveFence c x) ok rfl e

theorem exec_unfence (ok : s.part.accepts p t codeUnfence)
    (e : (s.part.arrived p).serveUnfence (s.part.asked p t codeUnfence) x = z) :
    exec (.unfence p t x) s = .next (s.withPart (Part.follow s.part z)) :=
  request_answers (serve := fun s c => s.serveUnfence c x) ok rfl e

/-- R104: an UNFENCE that names no port. -/
theorem exec_unfence_invalid (ok : s.part.accepts p t codeUnfence) (outside : 4 ≤ x.toNat) : exec (.unfence p t x) s =
    .next (s.withPart (Part.follow s.part (s.part.answered p t codeUnfence .invalid .none))) :=
  exec_unfence ok (Part.serveUnfence_invalid outside)

/-- R104: an UNFENCE of a port whose flag is not set. -/
theorem exec_unfence_clear {q : Port} (ok : s.part.accepts p t codeUnfence) (target : x.toNat = q.toNat)
    (clear : (s.part.session q).fenced = false) : exec (.unfence p t x) s =
      .next (s.withPart (Part.follow s.part (s.part.answered p t codeUnfence .notFenced .none))) := by
  refine exec_unfence ok ((Part.serveUnfence_target target).trans (if_neg ?_))
  rw [Part.arrived_fenced, clear]
  exact Bool.false_ne_true

/-- R104: an UNFENCE of a fenced port. -/
theorem exec_unfence_fenced {q : Port} (ok : s.part.accepts p t codeUnfence) (target : x.toNat = q.toNat)
    (fenced : (s.part.session q).fenced = true) : exec (.unfence p t x) s = .next (s.withPart (Part.follow s.part
      (((s.part.arrived p).setSession q { (s.part.arrived p).session q with fenced := false }).sendCompletion
        p t codeUnfence .ok .none))) :=
  exec_unfence ok ((Part.serveUnfence_target target).trans (if_pos ((s.part.arrived_fenced p q).trans fenced)))

end Exec

/-- Settles O20: the target decides, and then its flag; a FENCE that neither refuses takes effect. -/
theorem fenceEndsTheTarget : Obligations.FenceEndsTheTarget := by
  unfold Obligations.FenceEndsTheTarget
  intro s p t x ok
  refine ⟨fun bad => exec_fence ok (Part.serveFence_invalid bad), fun q target other => ?_⟩
  have served := Part.serveFence_other (s := s.part.arrived p) (c := s.part.asked p t codeFence) target other
  rw [Part.arrived_fenced] at served
  refine ⟨fun fenced => exec_fence ok (served.trans (if_pos fenced)), fun clear => ?_⟩
  intro a b
  have takes : a.fencePort p q = (b.setSession q { b.session q with fenced := true }).putNotice q
      (.fenced p (s.part.session p).number (s.part.session p).token) := s.part.arrived_fencePort p q
  refine exec_fence ok ((served.trans (if_neg (Bool.eq_false_iff.1 clear))).trans ?_)
  exact congrArg (fun y => y.reply (s.part.asked p t codeFence) .ok .none) takes

/-- Settles O21: the session check, the check of the device state, then the target and its flag. -/
theorem unfenceClearsTheFlag : Obligations.UnfenceClearsTheFlag := by
  unfold Obligations.UnfenceClearsTheFlag
  intro s p t x held up room answer
  refine ⟨fun unopened => ?_, fun opened free => ⟨fun safe => ?_, fun working => ?_⟩⟩
  · exact exec_request_unopened (f := [x]) rfl rfl held up room (by decide) unopened
  · exact congrArg (fun y => Host.Outcome.next (s.withPart y))
      (Part.request_receipt _ held up room (.inr opened) (Part.receiptRefusal_safe free (by decide) safe (by decide)))
  · have ok : s.part.accepts p t codeUnfence := ⟨held, up, room, .inr opened, free, fun safe => absurd safe working⟩
    exact ⟨exec_unfence_invalid ok, fun own law => exec_unfence_clear ok own (law.unfenced opened),
      fun q target => ⟨exec_unfence_clear ok target, exec_unfence_fenced ok target⟩⟩

/-! ### The pins of a port (R100, R178, R179, R184, R185) -/

section Pins

variable {s : State} {p : Port}

/-- An event of the receiving line, which is not at 0 (log 17). -/
theorem line_answers {f : Part → Part} {z : Part} (held : s.part.isHeld = false) (up : (s.part.lc p).low = false)
    (e : f s.part = z) :
    (.next (s.withPart (if (s.part.lc p).low then s.part else s.part.event f)) : Host.Outcome State Fault Refusal) =
      .next (s.withPart (Part.follow s.part z)) := by
  rw [if_neg (Bool.eq_false_iff.1 up)]
  exact event_answers held e

/-- R178: a character error on a line at 0 changes nothing (log 17). -/
theorem exec_characterError_low (low : (s.part.lc p).low = true) : exec (.characterError p) s = .next s :=
  congrArg (fun y => Host.Outcome.next (s.withPart y)) (if_pos low)

/-- R178 -/
theorem exec_characterError (held : s.part.isHeld = false) (up : (s.part.lc p).low = false) :
    exec (.characterError p) s = .next (s.withPart (Part.follow s.part (s.part.setLc p
      { s.part.lc p with charErr := some (decide ((s.part.lc p).framing ≠ .hunt)), framing := .hunt }))) :=
  line_answers held up rfl

/-- R179 -/
theorem exec_delimiterReceived (held : s.part.isHeld = false) (up : (s.part.lc p).low = false)
    (hunting : (s.part.lc p).framing = .hunt) :
    exec (.delimiterReceived p) s = .next (s.withPart (Part.follow s.part (s.part.setLc p
      { s.part.lc p with framing := .header [] }))) :=
  line_answers held up (if_pos hunting)

/-- R178: PnRXD returns; the frame that the character error hit counts. -/
theorem exec_pnrxdReturns {inside : Bool} (held : s.part.isHeld = false) (broken : (s.part.lc p).charErr = some inside) :
    exec (.pnrxdReturns p) s = .next (s.withPart (Part.follow s.part (s.part.setLc p
      (if inside then { s.part.lc p with charErr := none }.countError else { s.part.lc p with charErr := none })))) := by
  refine event_answers held ?_
  simp only [broken]
  cases inside with
  | true => exact Part.countError_setLc ..
  | false => rfl

/-- R185 -/
theorem exec_breakEnd (held : s.part.isHeld = false) (broken : (s.part.lc p).breakHeld = true) :
    exec (.breakEnd p) s = .next (s.withPart (Part.follow s.part (s.part.setLc p
      { s.part.lc p with breakHeld := false, framing := .hunt }.begin))) :=
  event_answers held (if_pos broken)

/-- R185, R100: the part after a break has been detected. -/
def Part.lineBroken (s : Part) (p : Port) : Part := s.setLc p (brokenLc (s.lc p))

/-- R100, R185: a break ends an OPEN or CLOSING session abruptly. -/
theorem exec_linkReset {z : Part} (held : s.part.isHeld = false) (whole : (s.part.lc p).breakHeld = false)
    (e : (if (s.part.session p).state = .opened ∨ (s.part.session p).state = .closing then
      (s.part.lineBroken p).abruptEnd p .portLapsed none else s.part.lineBroken p) = z) :
    exec (.linkReset p) s = .next (s.withPart (Part.follow (s.part.withLinks z.links) z)) := by
  refine eventInPlace_answers held ((if_neg (Bool.eq_false_iff.1 whole)).trans (Eq.trans ?_ e))
  exact if_congr Part.armsSilence_iff rfl rfl

/-- R184 -/
theorem exec_pnrdyRise (held : s.part.isHeld = false) :
    exec (.pnrdyRise p) s = .next (s.withPart (s.part.setLc p { s.part.lc p with rdy := true }.begin)) :=
  congrArg (fun l => Host.Outcome.next (s.withPart (s.part.setLc p l))) (if_neg (Bool.eq_false_iff.1 held))

end Pins

/-- R185, R184: after a break a waiting head is begun as soon as PnRDY allows it. -/
theorem begin_after_break (l : Lc) : { l with breakHeld := false, framing := .hunt }.begin =
    { l with breakHeld := false, framing := .hunt, sending := l.sending || (l.rdy && !l.txq.isEmpty) } := by
  simp only [Lc.begin, Bool.not_false, Bool.and_true]

/-- Settles O44: each of these events is one update of the port's link controller; a break ends the session besides. -/
theorem linkPinEvents : Obligations.LinkPinEvents := by
  unfold Obligations.LinkPinEvents
  intro s p l gives
  refine ⟨fun held => ⟨exec_characterError held, exec_characterError_low, exec_pnrxdReturns held, exec_pnrxdReturns held,
    exec_delimiterReceived held, fun broken => ?_, fun whole => exec_linkReset held whole rfl⟩, rfl,
    fun held => exec_pnrdyRise held⟩
  have ends := exec_breakEnd held broken
  rw [begin_after_break] at ends
  exact ends

end Sys2Proof.Machine
end

section
/-! PROOFS. The Media Engine (chapter 6) and what it serves: the limits that every step keeps, what the media holds, the scrub
engine and the refresh service, the arbiter, the ends of programs, power and reset. -/

namespace Sys2Proof.Machine

/-! ### The laws of the part -/

/-- Settles O6: the law of the metadata set and the room in the poison map are among those that `step_kept` carries through a
step. -/
theorem stepKeepsMetaLaw : Obligations.StepKeepsMetaLaw := by
  unfold Obligations.StepKeepsMetaLaw
  intro s t h
  have k : Kept s.part t.part := step_kept s t h
  exact ⟨k.image, k.buf.room⟩

/-- Settles O11: so are the limits of links, store, read run, refresh list and change numbers. -/
theorem stepKeepsLimits : Obligations.StepKeepsLimits := by
  unfold Obligations.StepKeepsLimits
  intro s t h
  have k : Kept s.part t.part := step_kept s t h
  exact ⟨k.link, k.store, k.readRun, k.refresh, k.commit⟩

/-! ### What the media holds, the pins and the time -/

section Changes

variable {i : Instr}

theorem disk_free_not_mem_changes (first : ∀ b, i ≠ .programFirstAttemptEnd b)
    (second : ∀ b, i ≠ .programSecondAttemptEnd b) (commit : ∀ b, i ≠ .commitEnd b)
    (copy : ∀ b, i ≠ .resetCopyWriteEnd b) (hold : ∀ x, i ≠ .partHeld x) : .disk ∉ changes i ∧ .free ∉ changes i := by
  unfold changes
  split
  case h_5 b => exact absurd rfl (first b)
  case h_6 b => exact absurd rfl (second b)
  case h_7 b => exact absurd rfl (commit b)
  case h_8 b => exact absurd rfl (copy b)
  case h_13 x => exact absurd rfl (hold x)
  all_goals decide

theorem pins_not_mem_changes (on : i ≠ .powerOn) (reset : i ≠ .reset) (hold : ∀ x, i ≠ .partHeld x)
    (input : ∀ x, i ≠ .heldInputChange x) : .pins ∉ changes i := by
  unfold changes
  split
  case h_11 => exact absurd rfl on
  case h_12 => exact absurd rfl reset
  case h_13 x => exact absurd rfl (hold x)
  case h_14 x => exact absurd rfl (input x)
  all_goals decide

theorem time_not_mem_changes (on : i ≠ .powerOn) (reset : i ≠ .reset) (hold : ∀ x, i ≠ .partHeld x)
    (hour : i ≠ .lifetimeHoursIncrement) (load : ∀ o, i ≠ .copyBReadEnd o) : .time ∉ changes i := by
  unfold changes
  split
  case h_9 o => exact absurd rfl (load o)
  case h_10 => exact absurd rfl hour
  case h_11 => exact absurd rfl on
  case h_12 => exact absurd rfl reset
  case h_13 x => exact absurd rfl (hold x)
  all_goals decide

end Changes

namespace Part

variable {s : Part}

theorem follow_time (a b : Part) : (follow a b).time = b.time :=
  (inTurn_keeps b.cmds.recs.length [] a b).time (by decide)

/-- The follow-ups take no time, so an event whose effect leaves the power-on ms count leaves it. -/
theorem event_ms {f : Part → Part} (h : (f s).time.ms = s.time.ms) : (s.event f).time.ms = s.time.ms := by
  unfold event
  split
  · rfl
  · rw [follow_time]
    exact h

theorem evLifetimeHoursIncrement_ms (s : Part) : s.evLifetimeHoursIncrement.time.ms = s.time.ms := by
  refine event_ms ?_
  split
  · rw [(autoScrub_keeps _).time (by decide)]
    rfl
  · rfl

theorem safeEntry_time (s : Part) (b : Bool) : (s.safeEntry b).time = s.time := by
  rw [safeEntry_eq, (stopPass_keeps _).time (by decide), (emitDecided_keeps _).time (by decide)]

theorem startUpChanges_time (s : Part) (bad : Option CopyId) : (s.startUpChanges bad).time = s.time := by
  have fault : ∀ (x : Part) i, (x.appendFault i).time = x.time := fun x i => (appendFault_keeps x i).time (by decide)
  have mark : ∀ (x : Part) b, (x.setMark b).time = x.time := fun x b => (setMark_keeps x b).time (by decide)
  have ready : ∀ x : Part, x.readyFromStartUp.time = x.time := fun _ => rfl
  unfold startUpChanges
  simp only [apply_ite Part.time, withMd_time, fault, mark, ready, ite_self]

/-- R159, R160: the selection of a copy loads the lifetime hours, and leaves the power-on ms count. -/
theorem selectCopy_ms (s : Part) (a b : Bool) : (s.selectCopy a b).time.ms = s.time.ms := by
  have loads : ∀ c x bad, ((s.load c x).startUpChanges bad).time.ms = s.time.ms := fun c x bad => by
    rw [startUpChanges_time]
    rfl
  unfold selectCopy
  split
  · split
    · exact loads _ _ _
    · exact loads _ _ _
  · exact loads _ _ _
  · exact loads _ _ _
  · unfold loadNone
    rw [safeEntry_time]
    rfl

theorem evCopyBReadEnd_ms (s : Part) (o : Integrity) : (s.evCopyBReadEnd o).time.ms = s.time.ms := by
  refine event_ms ?_
  split
  · exact selectCopy_ms _ _ _
  · rfl

end Part

/-- Only power, reset and the passing of time move the power-on ms count. -/
theorem exec_ms {i : Instr} {s t : State} (h : exec i s = .next t) (on : i ≠ .powerOn) (reset : i ≠ .reset)
    (hold : ∀ x, i ≠ .partHeld x) : t.part.time.ms = s.part.time.ms := by
  by_cases hour : i = .lifetimeHoursIncrement
  · subst hour
    cases h
    exact s.part.evLifetimeHoursIncrement_ms
  · by_cases load : ∃ o, i = .copyBReadEnd o
    · obtain ⟨o, rfl⟩ := load
      cases h
      exact s.part.evCopyBReadEnd_ms o
    · have still := time_not_mem_changes on reset hold hour fun o e => load ⟨o, e⟩
      exact congrArg Timebase.ms ((exec_keeps i s t h).time still)

/-- Settles O12: each component is outside what `changes` says the event can change; the power-on ms count, of which `changes`
says nothing by itself, is followed through the two events that set the lifetime hours. -/
theorem mediaPinsAndTimeFrame : Obligations.MediaPinsAndTimeFrame := by
  unfold Obligations.MediaPinsAndTimeFrame
  intro i s t h hold
  have keeps := exec_keeps i s t h
  refine ⟨fun first second commit copy => ?_, fun on reset => ⟨fun input => ?_, fun hour load => ?_, ?_⟩⟩
  · obtain ⟨disk, free⟩ := disk_free_not_mem_changes first second commit copy hold
    exact ⟨keeps.disk disk, keeps.free free⟩
  · exact keeps.pins (pins_not_mem_changes on reset hold input)
  · exact keeps.time (time_not_mem_changes on reset hold hour load)
  · exact exec_ms h on reset hold

/-! ### Power and reset (R107, R153, R157, R158, R166) -/

namespace Part

variable {s : Part}

/-! What the media keeps of an operation that is cut off. -/

theorem cutOff_program {i blk loc : Nat} {d : BlockData} {sp : Option Nat} {z : Bool}
    (h : s.media.current = some { op := .program i blk loc d sp, discard := z }) : s.cutOff =
      if Config.interruptedKeepsNew s.free then (s.mediaWrite loc d).withFree (s.free + 1)
      else s.withFree (s.free + 1) := by
  unfold cutOff
  rw [h]
  exact apply_ite (fun x : Part => x.withFree (s.free + 1)) _ _ _

theorem cutOff_commit {c : CopyId} {g : BitVec 32} {m : MetaImage} {z : Bool}
    (h : s.media.current = some { op := .commit c g m, discard := z }) : s.cutOff = s.setCopy c none := by
  unfold cutOff
  rw [h]

theorem cutOff_resetWrite {c : CopyId} {z : Bool}
    (h : s.media.current = some { op := .resetWrite c, discard := z }) : s.cutOff = s.setCopy c none := by
  unfold cutOff
  rw [h]

/-- A read, or no operation, leaves nothing behind. -/
theorem cutOff_other (h : ∀ op z, s.media.current = some { op := op, discard := z } →
    (∀ f b loc d sp, op ≠ .program f b loc d sp) ∧ (∀ c g m, op ≠ .commit c g m) ∧ ∀ c, op ≠ .resetWrite c) :
    s.cutOff = s := by
  unfold cutOff
  split
  case h_1 current =>
    obtain ⟨program, -, -⟩ := h _ _ current
    exact absurd rfl (program _ _ _ _ _)
  case h_2 current =>
    obtain ⟨-, commit, -⟩ := h _ _ current
    exact absurd rfl (commit _ _ _)
  case h_3 current =>
    obtain ⟨-, -, write⟩ := h _ _ current
    exact absurd rfl (write _)
  case h_4 => rfl

theorem setCopy_none (s : Part) (c : CopyId) : s.setCopy c none =
    s.withDisk (match c with | .a => { s.disk with copyA := none } | .b => { s.disk with copyB := none }) := by
  cases c <;> rfl

/-! The reset values. -/

theorem cleared_lc (s : Part) (x : Pins) (p : Port) : (s.cleared x).lc p = { rdy := (s.lc p).rdy } := by
  cases p <;> rfl

theorem cleared_session (s : Part) (x : Pins) (p : Port) : (s.cleared x).session p = {} := PerPort.get_all _ p

/-- R159, R111: the request to read copy A finds the media idle, and is granted. -/
theorem startUp_eq (s : Part) :
    s.startUp = (s.cleared {}).withMedia { current := some { op := .copyRead .a } } := rfl

end Part

section Held

variable {s : State}

/-- R158: while the part is held an event of a block changes nothing. -/
theorem event_held_next (f : Part → Part) (held : s.part.isHeld = true) :
    (.next (s.withPart (s.part.event f)) : Host.Outcome State Fault Refusal) = .next s := by
  rw [Part.event_held f held]
  rfl

theorem eventInPlace_held_next (f : Part → Part) (held : s.part.isHeld = true) :
    (.next (s.withPart (s.part.eventInPlace f)) : Host.Outcome State Fault Refusal) = .next s := by
  rw [Part.eventInPlace, if_pos held]
  rfl

/-- An event of the receiving line, whatever its level. -/
theorem line_held_next (p : Port) (f : Part → Part) (held : s.part.isHeld = true) :
    (.next (s.withPart (if (s.part.lc p).low then s.part else s.part.event f)) : Host.Outcome State Fault Refusal) =
      .next s := by
  rw [Part.event_held f held, ite_self]
  rfl

/-- R50, R158: a REQUEST frame does not arrive. -/
theorem request_held_next {i : Instr} {p : Port} {t : Tag} {code : BitVec 8} {f : List Byte}
    (fields : requestFields i = some (p, t, code, f)) (formed : i.wellFormed = true) (held : s.part.isHeld = true) :
    exec i s = .next s := by
  obtain ⟨form, serve, answers⟩ := exec_request fields formed s
  rw [answers]
  exact line_held_next p _ held

end Held

/-- R158: while the part is held no event but those of the supply inputs and of PnRDY has an effect. -/
theorem exec_held {s : State} (held : s.part.isHeld = true) (i : Instr) (on : i ≠ .powerOn) (reset : i ≠ .reset)
    (hold : ∀ pin, i ≠ .partHeld pin) (input : ∀ pin, i ≠ .heldInputChange pin) (rise : ∀ p, i ≠ .pnrdyRise p)
    (fall : ∀ p, i ≠ .pnrdyFall p) : exec i s = .next s := by
  cases i with
  | openReq | closeReq | fence | unfence | read | write | mark | flush | abort | leaseAcquire | leaseRenew
  | leaseRelease | leaseQuery | scrubStart | scrubStop | settingsRead | settingsWrite | metadataReset | status | info
  | faultRead => exact request_held_next rfl rfl held
  | undefinedKind p t code =>
    by_cases defined : definedCode code = true
    · exact congrArg (fun y => Host.Outcome.next (s.withPart y)) (if_pos defined)
    · exact request_held_next rfl (congrArg not (Bool.eq_false_iff.2 defined)) held
  | dataIn p | keepalive p => exact line_held_next p _ held
  | badFrame p bytes =>
    have discarded : (s.part.isHeld || (s.part.lc p).low) = true := by rw [held, Bool.true_or]
    exact congrArg (fun y => Host.Outcome.next (s.withPart y)) (if_pos discarded)
  | characterError p | delimiterReceived p => exact line_held_next p _ held
  | linkReset | finishSending | heldFrameEntry => exact eventInPlace_held_next _ held
  | breakEnd | pnrxdReturns | silenceExpiry | dataDeadlineExpiry | leaseDeadlineExpiry | waitDeadlineExpiry
  | waitListGrant | admission | heldReadRelease | closeDrainEnd | drainingEnd | mediaGrant | portReadEnd
  | refreshReadEnd | scrubReadEnd | scrubRoomRetry | scrubPassBegin | autoScrubStart | refreshStart
  | programFirstAttemptEnd | programSecondAttemptEnd | commitEnd | commitWaitRelease | waitSetComplete | markComplete
  | settingsWriteComplete | lifetimeHoursIncrement | copyAReadEnd | copyBReadEnd | resetCopyWriteEnd =>
    exact event_held_next _ held
  | powerOn => exact absurd rfl on
  | reset => exact absurd rfl reset
  | partHeld pin => exact absurd rfl (hold pin)
  | heldInputChange pin => exact absurd rfl (input pin)
  | pnrdyRise p => exact absurd rfl (rise p)
  | pnrdyFall p => exact absurd rfl (fall p)

section Inputs

variable {s : State}

/-- R158: a supply input goes to 0. -/
theorem exec_partHeld (pin : Pin) : exec (.partHeld pin) s = .next (s.withPart
    (if s.part.isHeld then s.part.withPins (Part.setPin s.part.pins pin false)
     else s.part.cutOff.cleared (Part.setPin s.part.pins pin false))) := rfl

theorem exec_powerOn (low : s.part.pins = { resetN := true, pwrGood := false }) :
    exec .powerOn s = .next (s.withPart ((s.part.cleared {}).withMedia { current := some { op := .copyRead .a } })) :=
  congrArg (fun y => Host.Outcome.next (s.withPart y)) ((if_pos (by rw [low]; rfl)).trans s.part.startUp_eq)

theorem exec_reset (low : s.part.pins = { resetN := false, pwrGood := true }) :
    exec .reset s = .next (s.withPart ((s.part.cleared {}).withMedia { current := some { op := .copyRead .a } })) :=
  congrArg (fun y => Host.Outcome.next (s.withPart y)) ((if_pos (by rw [low]; rfl)).trans s.part.startUp_eq)

/-- R158: one of two inputs at 0 rises, and the other still holds the part. -/
theorem exec_heldInputChange (low : s.part.pins = { resetN := false, pwrGood := false }) (pin : Pin) :
    exec (.heldInputChange pin) s = .next (s.withPart (s.part.withPins (Part.setPin s.part.pins pin true))) := by
  refine congrArg (fun y => Host.Outcome.next (s.withPart y)) (if_pos ?_)
  rw [low]
  cases pin <;> rfl

/-- R184: while the part is held PnRDY moves alone (logs 4, 9). -/
theorem exec_pnrdyRise_held {p : Port} (held : s.part.isHeld = true) :
    exec (.pnrdyRise p) s = .next (s.withPart (s.part.setLc p { s.part.lc p with rdy := true })) :=
  congrArg (fun l => Host.Outcome.next (s.withPart (s.part.setLc p l))) (if_pos held)

end Inputs

/-- Settles O59: the hold by whether the part is held already, the operation that is cut off by its kind, the reset values
component by component, and then the rise of the inputs. -/
theorem powerAndReset : Obligations.PowerAndReset := by
  unfold Obligations.PowerAndReset
  intro s x low high
  have low_eq : ∀ pin, Part.setPin x.pins pin false = low pin := by rintro (_ | _) <;> rfl
  have high_eq : ∀ pin, Part.setPin x.pins pin true = high pin := by rintro (_ | _) <;> rfl
  refine ⟨fun pin on => ?_, fun pin held => ?_, fun f b loc d sp z busy => ?program, fun c op z busy write => ?copy,
    Part.cutOff_other, fun pins => ⟨rfl, rfl, rfl, Part.cleared_lc x pins, Part.cleared_session x pins, rfl, rfl, rfl, rfl,
      rfl, rfl, rfl, rfl, rfl⟩, exec_powerOn, exec_reset, fun both pin => ?_,
    fun held => ⟨fun p => exec_pnrdyRise_held held, exec_held held⟩⟩
  · rw [exec_partHeld, if_neg (Bool.eq_false_iff.1 on), low_eq]
  · rw [exec_partHeld, if_pos held, low_eq]
  case program =>
    rw [Part.cutOff_program busy]
    split
    · exact .inr rfl
    · exact .inl rfl
  case copy =>
    refine Eq.trans ?_ (Part.setCopy_none x c)
    rcases write with ⟨g, m, rfl⟩ | rfl
    · exact Part.cutOff_commit busy
    · exact Part.cutOff_resetWrite busy
  · rw [exec_heldInputChange both, high_eq]

/-! ### The ends of programs (R107, R114 to R117, R120, R138) -/

theorem Frame.isMark_iff {f : Frame} : f.isMark = true ↔ f.content ≠ .data := by
  unfold Frame.isMark
  cases f.content <;> simp

namespace Part

variable {s : Part} {f : Frame} {loc : Nat} {d : BlockData}

/-- R126: a block has an entry of the poison map. -/
theorem poisonOf_isSome_iff {b : Nat} : (s.poisonOf b).isSome = true ↔ ∃ e ∈ s.integ.poison, e.block = b := by
  simp [poisonOf, List.find?_isSome]

/-! What the media holds. -/

theorem mediaRead_mediaWrite_same (s : Part) (loc : Nat) (d : BlockData) : (s.mediaWrite loc d).mediaRead loc = d := by
  unfold mediaRead
  rw [show storeGet (s.mediaWrite loc d).disk.store loc = some d from storeGet_storePut_same loc d s.disk.store]

theorem mediaRead_mediaWrite_ne (s : Part) {loc l : Nat} (d : BlockData) (h : l ≠ loc) :
    (s.mediaWrite loc d).mediaRead l = s.mediaRead l := by
  unfold mediaRead
  rw [show storeGet (s.mediaWrite loc d).disk.store l = storeGet s.disk.store l from
    storeGet_storePut_ne loc l d s.disk.store h]

/-! The attempts. -/

theorem firstSucceeded_clear (h : ¬ (f.ofPort = true ∧ ∃ e ∈ s.integ.poison, e.block = f.block)) :
    s.firstSucceeded f loc d = (s.idle.mediaWrite loc d).outcome f.idx .ok := by
  refine if_neg ?_
  rw [Bool.and_eq_true, poisonOf_isSome_iff]
  exact h

/-- R114, R138: the success of a port's frame removes the entry, and its outcome waits for the commit. -/
theorem firstSucceeded_poisoned (h : f.ofPort = true ∧ ∃ e ∈ s.integ.poison, e.block = f.block) :
    s.firstSucceeded f loc d = ((s.idle.mediaWrite loc d).removeEntry f.block).joinCommit f.idx .ok := by
  have entry : f.ofPort && ((s.idle.mediaWrite loc d).poisonOf f.block).isSome := by
    rw [Bool.and_eq_true, poisonOf_isSome_iff]
    exact h
  refine (if_pos entry).trans ?_
  rw [unpoison, if_pos h.1]

/-- R114: the second attempt follows at once, on the lowest free spare. -/
theorem firstFailed_again {sp : Nat} (h : s.media.lowestFree = some sp) : s.firstFailed f loc d =
    (s.mediaSpoil loc).withMedia
      { s.media with current := some { op := .program f.idx f.block (262144 + sp) d (some sp) } } := by
  unfold firstFailed
  dsimp only
  rw [show (s.mediaSpoil loc).media = s.media from rfl, h]
  rfl

theorem firstFailed_finally (h : s.media.lowestFree = none) :
    s.firstFailed f loc d = (s.idle.mediaSpoil loc).failFinally f := by
  unfold firstFailed
  dsimp only
  rw [show (s.mediaSpoil loc).media = s.media from rfl, h]
  rfl

/-! A program that has failed finally (R116). -/

/-- R116: the record of the loss, and the notice to the port that wrote the frame. -/
def lossTold (s : Part) (f : Frame) : Part :=
  let noted := s.appendFault { kind := .programFailedLost, block := some f.block, port := f.port?, frameSeq := f.seq }
  match f.port? with
  | some p => noted.offerNotice p (.dataLost f.block (f.seq.getD 0))
  | none => noted

theorem lossTold_eq (s : Part) (f : Frame) :
    let noted := s.appendFault
      { kind := .programFailedLost, block := some f.block, frameSeq := f.seq
        port := match f.writer with | some (.port p) => some p | _ => none }
    s.lossTold f = match f.writer with
      | some (.port p) => noted.offerNotice p (.dataLost f.block (f.seq.getD 0))
      | _ => noted := by
  unfold lossTold Frame.port?
  cases f.writer with
  | none => rfl
  | some w => cases w <;> rfl

theorem lossTold_sb (s : Part) (f : Frame) : (s.lossTold f).sb = s.sb := by
  unfold lossTold
  cases f.port? with
  | none => exact (appendFault_keeps s _).sb (by decide)
  | some p => exact ((offerNotice_keeps _ p _).sb (by decide)).trans ((appendFault_keeps s _).sb (by decide))

theorem failFinally_eq (s : Part) (f : Frame) : s.failFinally f =
    (if (s.sb.inState .dirty f.block).isNone then (s.lossTold f).mediaFailure f.block .program
      else s.lossTold f).joinCommit f.idx .lost := by
  rw [← lossTold_sb s f]
  rfl

/-- R116: newer data of the block stand in a DIRTY frame, so the block is not recorded as failed. -/
theorem failFinally_newer (h : ∃ g ∈ s.sb.frames, g.state = .dirty ∧ g.block = f.block) :
    s.failFinally f = (s.lossTold f).joinCommit f.idx .lost := by
  obtain ⟨g, hg, dirty, block⟩ := h
  rw [failFinally_eq, if_neg]
  intro none
  exact Staging.not_inState (Option.isNone_iff_eq_none.1 none) hg dirty block

theorem failFinally_alone (h : ∀ g ∈ s.sb.frames, ¬ (g.state = .dirty ∧ g.block = f.block)) :
    s.failFinally f = ((s.lossTold f).mediaFailure f.block .program).joinCommit f.idx .lost := by
  rw [failFinally_eq, if_pos]
  refine Option.isNone_iff_eq_none.2 (List.find?_eq_none.2 fun g hg => ?_)
  simpa using h g hg

/-! The spare-low test (R120). -/

theorem spareLowTest_eq (s : Part) :
    let free := 256 - s.media.spares.length
    let limit := s.md.settings.threshold
    let y := s.withMedia { s.media with spareLow := decide (free ≤ limit) }
    s.spareLowTest = if (decide (free ≤ limit) && !s.media.spareLow) = true then
      (y.noticeAll (.sparesLow free limit)).appendFault { kind := .sparesLow, spareCounts := some (free, limit) }
      else y := rfl

/-- R120: the condition does not hold, or it held before. -/
theorem spareLowTest_quiet (h : s.md.settings.threshold < 256 - s.media.spares.length ∨ s.media.spareLow = true) :
    s.spareLowTest =
      s.withMedia { s.media with spareLow := decide (256 - s.media.spares.length ≤ s.md.settings.threshold) } := by
  rw [spareLowTest_eq]
  refine if_neg ?_
  rcases h with enough | low
  · rw [decide_eq_false (not_le.2 enough)]
    exact Bool.false_ne_true
  · rw [low, Bool.not_true, Bool.and_false]
    exact Bool.false_ne_true

theorem spareLowTest_crosses (few : 256 - s.media.spares.length ≤ s.md.settings.threshold)
    (high : s.media.spareLow = false) :
    let free := 256 - s.media.spares.length
    let limit := s.md.settings.threshold
    s.spareLowTest = ((s.withMedia { s.media with spareLow := decide (free ≤ limit) }).noticeAll
      (.sparesLow free limit)).appendFault { kind := .sparesLow, spareCounts := some (free, limit) } := by
  intro free limit
  rw [spareLowTest_eq]
  exact if_pos (by rw [decide_eq_true few, high]; rfl)

/-! The remap table (R108, R115). -/

/-- The spare that the remap table gives a block. -/
def spareOf (remap : List Remap) (b : Nat) : Option Nat := (remap.find? fun r => decide (r.block = b)).map (·.spare)

theorem locate_eq (m : MediaEngine) (b : Nat) : m.locate b = ((spareOf m.remap b).map (262144 + ·)).getD b := by
  unfold MediaEngine.locate spareOf
  cases m.remap.find? fun r => decide (r.block = b) <;> rfl

/-- The remap table after block `b` has been given spare `sp`. -/
theorem remapBlock_remap (s : Part) (b sp : Nat) : (s.remapBlock b sp).media.remap =
    if (spareOf s.media.remap b).isSome then s.media.remap.map fun r => if r.block = b then { r with spare := sp } else r
    else s.media.remap ++ [{ block := b, spare := sp }] := rfl

/-- An entry that is given a new spare keeps its place. -/
theorem spareOf_replaced (remap : List Remap) (b c sp : Nat) :
    spareOf (remap.map fun r => if r.block = b then { r with spare := sp } else r) c =
      if c = b then (spareOf remap b).map fun _ => sp else spareOf remap c := by
  have block : ∀ r : Remap, (if r.block = b then { r with spare := sp } else r).block = r.block := fun r => by
    split <;> rfl
  have found : ((fun r : Remap => decide (r.block = c)) ∘ fun r => if r.block = b then { r with spare := sp } else r) =
      fun r => decide (r.block = c) := funext fun r => by rw [Function.comp_apply, block]
  unfold spareOf
  rw [List.find?_map, found, Option.map_map]
  split
  case isTrue same =>
    subst same
    cases entry : remap.find? fun r => decide (r.block = c) with
    | none => rfl
    | some r =>
      have is : r.block = c := by simpa using List.find?_some entry
      simp [is]
  case isFalse other =>
    cases entry : remap.find? fun r => decide (r.block = c) with
    | none => rfl
    | some r =>
      have is : r.block = c := by simpa using List.find?_some entry
      simp [is, other]

theorem spareOf_remapBlock (s : Part) (b sp c : Nat) : spareOf (s.remapBlock b sp).media.remap c =
    if c = b then some sp else spareOf s.media.remap c := by
  rw [remapBlock_remap]
  split
  case isTrue old =>
    obtain ⟨o, old⟩ := Option.isSome_iff_exists.1 old
    rw [spareOf_replaced, old]
    rfl
  case isFalse new =>
    have absent : s.media.remap.find? (fun r => decide (r.block = b)) = none := by
      simpa [spareOf] using new
    unfold spareOf
    rw [List.find?_append, Option.map_or]
    split
    case isTrue same =>
      subst same
      simp [absent]
    case isFalse other =>
      simp [Ne.symm other]

theorem locate_remapBlock_same (s : Part) (b sp : Nat) : (s.remapBlock b sp).media.locate b = 262144 + sp := by
  rw [locate_eq, spareOf_remapBlock, if_pos rfl]
  rfl

theorem locate_remapBlock_ne (s : Part) {b c : Nat} (sp : Nat) (h : c ≠ b) :
    (s.remapBlock b sp).media.locate c = s.media.locate c := by
  rw [locate_eq, spareOf_remapBlock, if_neg h, ← locate_eq]

/-- R115: the spare that the block had before is retired. -/
theorem remapBlock_retires (s : Part) {b : Nat} (sp : Nat) {r : Remap}
    (h : (s.media.remap.find? fun r => decide (r.block = b)) = some r) {y : Spare} (hy : y ∈ s.media.spares)
    (e : y.idx = r.spare) : { y with use := .retired } ∈ (s.remapBlock b sp).media.spares := by
  have old : spareOf s.media.remap b = some y.idx := by rw [spareOf, h, e]; rfl
  refine List.mem_append_left _ (List.mem_map.2 ⟨y, hy, ?_⟩)
  exact if_pos old.symm

end Part

section ProgramEnd

variable {s : State} {i blk loc : Nat} {d : BlockData} {f : Frame} {z : Part} {ok : Bool}

theorem exec_firstAttemptEnd (held : s.part.isHeld = false)
    (busy : s.part.media.current = some { op := .program i blk loc d none, discard := false })
    (found : s.part.sb.at? i = some f)
    (e : (if ok then s.part.firstSucceeded f loc d else s.part.firstFailed f loc d) = z) :
    exec (.programFirstAttemptEnd ok) s = .next (s.withPart (Part.follow s.part z)) := by
  refine event_answers held ?_
  simp only [busy, Bool.false_eq_true, if_false, found]
  exact e

theorem exec_secondAttemptEnd {sp : Nat} (held : s.part.isHeld = false)
    (busy : s.part.media.current = some { op := .program i blk loc d (some sp), discard := false })
    (found : s.part.sb.at? i = some f)
    (e : (if ok then s.part.secondSucceeded f sp loc d else s.part.secondFailed f sp loc) = z) :
    exec (.programSecondAttemptEnd ok) s = .next (s.withPart (Part.follow s.part z)) := by
  refine event_answers held ?_
  simp only [busy, Bool.false_eq_true, if_false, found]
  exact e

/-- R125: the first attempt of a program that a METADATA RESET has cut off (log 14). -/
theorem exec_firstAttemptEnd_cut (held : s.part.isHeld = false)
    (busy : s.part.media.current = some { op := .program i blk loc d none, discard := true }) :
    exec (.programFirstAttemptEnd ok) s =
      .next (s.withPart (Part.follow s.part (s.part.discardedProgram loc d ok))) := by
  refine event_answers held ?_
  simp only [busy, if_true]

theorem exec_secondAttemptEnd_cut {sp : Nat} (held : s.part.isHeld = false)
    (busy : s.part.media.current = some { op := .program i blk loc d (some sp), discard := true }) :
    exec (.programSecondAttemptEnd ok) s =
      .next (s.withPart (Part.follow s.part (s.part.discardedProgram loc d ok))) := by
  refine event_answers held ?_
  simp only [busy, if_true]

end ProgramEnd

/-- Settles O56: each attempt by its result, the contents of the media location by location, the final failure by whether a
DIRTY frame stands, the spare-low test by whether the condition begins to hold, and the remap table block by block. -/
theorem programsEnd : Obligations.ProgramsEnd := by
  unfold Obligations.ProgramsEnd
  refine ⟨fun s i blk loc d f held found => ?attempts, fun s i blk loc d held => ?cut,
    fun x loc d => ⟨x.mediaRead_mediaWrite_same loc d, fun l => x.mediaRead_mediaWrite_ne d⟩, fun x f => ?final,
    fun x => ⟨Part.spareLowTest_quiet, Part.spareLowTest_crosses⟩,
    fun x b sp => ⟨x.locate_remapBlock_same b sp, fun c => x.locate_remapBlock_ne sp, rfl, fun r old y =>
      x.remapBlock_retires sp old⟩⟩
  case attempts =>
    intro x y spoilt poisoned gives
    refine ⟨fun busy => ⟨fun clear => ?_, fun entry => ?_, fun sp spare => ?_, fun none => ?_⟩, fun sp busy => ⟨?_, ?_⟩⟩
    · exact exec_firstAttemptEnd held busy found (Part.firstSucceeded_clear clear)
    · exact exec_firstAttemptEnd held busy found (Part.firstSucceeded_poisoned entry)
    · exact exec_firstAttemptEnd held busy found (Part.firstFailed_again spare)
    · exact exec_firstAttemptEnd held busy found (Part.firstFailed_finally none)
    · exact exec_secondAttemptEnd held busy found rfl
    · exact exec_secondAttemptEnd held busy found rfl
  case cut =>
    intro y after
    exact ⟨fun busy ok => exec_firstAttemptEnd_cut held busy, fun sp busy ok => exec_secondAttemptEnd_cut held busy⟩
  case final =>
    intro noted told lost
    have same : x.lossTold f = told := Part.lossTold_eq x f
    rw [← same]
    exact ⟨Part.failFinally_newer, Part.failFinally_alone⟩

/-! ### The arbiter (R109 to R113, R133, R156) -/

theorem MarkKind.poison_eq (k : MarkKind) : k.poison = if k = .reported then .reported else .quiet := by
  cases k <;> rfl

namespace Part

variable {s : Part} {f : Frame}

/-! The COMMIT request. -/

theorem committing_iff : s.committing = true ↔
    ∃ c g i z, s.media.current = some { op := .commit c g i, discard := z } := by
  unfold committing
  split
  case h_1 c g i z current => exact ⟨fun _ => ⟨c, g, i, z, current⟩, fun _ => rfl⟩
  case h_2 other => exact ⟨fun h => absurd h Bool.false_ne_true, fun ⟨c, g, i, z, h⟩ => absurd h (other c g i z)⟩

/-- R156: what the COMMIT request is made for. -/
def asksCommit (s : Part) : Prop :=
  (s.md.device = .ready ∨ (s.md.device = .starting ∧ s.md.startUp ≠ none)) ∧
    ¬ (∃ c g i z, s.media.current = some { op := .commit c g i, discard := z }) ∧ s.media.commitReq = none ∧
    s.md.committed < s.md.changes

theorem asksCommit_iff : s.asksCommit ↔
    (s.md.device = .ready ∨ (s.md.device = .starting ∧ s.md.startUp.isSome)) ∧ !s.committing ∧
      s.media.commitReq.isNone ∧ s.md.committed < s.md.changes := by
  rw [asksCommit, ← committing_iff, Bool.not_eq_true', Bool.not_eq_true, Option.isNone_iff_eq_none,
    Option.isSome_iff_ne_none]

theorem requestCommit_asks (h : s.asksCommit) :
    s.requestCommit = s.withMedia { s.media with commitReq := some .commit } := if_pos (asksCommit_iff.1 h)

theorem requestCommit_refrains (h : ¬ s.asksCommit) : s.requestCommit = s := if_neg fun k => h (asksCommit_iff.2 k)

/-! The class that the arbiter takes. -/

theorem programWaits_iff : s.programWaits = true ↔ s.sb.head ≠ none ∧ s.md.device ≠ .safe := by
  rw [programWaits, Bool.and_eq_true, Option.isSome_iff_ne_none, decide_eq_true_iff]

/-- R110. -/
theorem choose_eq (s : Part) :
    let prog := s.sb.head ≠ none ∧ s.md.device ≠ .safe
    s.choose = if prog ∧ 8 ≤ s.media.readRun then some .program else if s.media.portReads ≠ [] then some .portRead
      else if s.media.commitReq ≠ none then some .commit else if prog then some .program
      else if s.media.refreshReads ≠ [] then some .refreshRead
      else if s.media.scrubReq ≠ none then some .scrubRead else none := by
  intro prog
  unfold choose
  simp only [Bool.and_eq_true, programWaits_iff, decide_eq_true_iff, Bool.not_eq_true', List.isEmpty_eq_false_iff,
    Option.isSome_iff_ne_none]
  rfl

section Choice

variable (turn : ¬ ((s.sb.head ≠ none ∧ s.md.device ≠ .safe) ∧ 8 ≤ s.media.readRun))

include turn

theorem choose_portRead (h : s.media.portReads ≠ []) : s.choose = some .portRead := by
  rw [choose_eq, if_neg turn, if_pos h]

theorem choose_commit (none : s.media.portReads = []) (h : s.media.commitReq ≠ .none) : s.choose = some .commit := by
  rw [choose_eq, if_neg turn, if_neg (not_not.2 none), if_pos h]

end Choice

/-- R110: a program is granted in its turn, and when no request is ahead of it. -/
theorem choose_program (prog : s.sb.head ≠ none ∧ s.md.device ≠ .safe)
    (h : 8 ≤ s.media.readRun ∨ (s.media.portReads = [] ∧ s.media.commitReq = none)) : s.choose = some .program := by
  rw [choose_eq]
  rcases h with long | ⟨reads, commit⟩
  · rw [if_pos ⟨prog, long⟩]
  · rw [if_neg (not_not.2 reads), if_neg (not_not.2 commit), if_pos prog, ite_self]

/-- R110: where no program, no port's read and no commit waits, the media serves refresh reads, then scrub reads. -/
theorem choose_service (prog : ¬ (s.sb.head ≠ none ∧ s.md.device ≠ .safe)) (reads : s.media.portReads = [])
    (commit : s.media.commitReq = none) : s.choose = if s.media.refreshReads ≠ [] then some .refreshRead
      else if s.media.scrubReq ≠ none then some .scrubRead else none := by
  rw [choose_eq, if_neg fun turn => prog turn.1, if_neg (not_not.2 reads), if_neg (not_not.2 commit), if_neg prog]

theorem choose_ne_program (h : s.sb.head = none) : s.choose ≠ some .program := by
  have prog : ¬ (s.sb.head ≠ none ∧ s.md.device ≠ .safe) := fun k => k.1 h
  rw [choose_eq, if_neg fun turn => prog turn.1, if_neg prog]
  split_ifs <;> simp

/-! The run of MARK frames (R113). -/

theorem markNext_iff : s.markNext = true ↔
    s.choose = some .program ∧ (s.sb.head.any fun f => decide (f.content ≠ .data)) = true := by
  have mark : (fun f : Frame => f.isMark) = fun f => decide (f.content ≠ .data) := funext fun f =>
    Bool.eq_iff_iff.2 (Frame.isMark_iff.trans decide_eq_true_iff.symm)
  rw [markNext, Bool.and_eq_true, decide_eq_true_iff, mark]

theorem grantMarks_succ (s : Part) (n : Nat) : s.grantMarks (n + 1) =
    if s.choose = some .program ∧ (s.sb.head.any fun f => decide (f.content ≠ .data)) = true
    then s.grantProgram.grantMarks n else s := by
  rw [← if_congr markNext_iff rfl rfl]
  rfl

theorem grantMarks_none (n : Nat)
    (h : ¬ (s.choose = some .program ∧ (s.sb.head.any fun f => decide (f.content ≠ .data)) = true)) :
    s.grantMarks n = s := by
  cases n with
  | zero => rfl
  | succ n => rw [grantMarks_succ, if_neg h]

/-! The grants of one event. -/

/-- What the arbiter makes of the class it takes. -/
def granted (s : Part) : Part :=
  match s.choose with
  | some g => s.grant g
  | none => s

theorem granted_some {g : Grant} (h : s.choose = some g) : s.granted = s.grant g := by
  unfold granted
  rw [h]

theorem granted_none (h : s.choose = none) : s.granted = s := by
  unfold granted
  rw [h]

theorem grants_eq (s : Part) : s.grants =
    if s.requestCommit.media.current ≠ none then s.requestCommit
    else ((grantMarks (s.requestCommit.sb.progQ.length + 1) s.requestCommit).requestCommit).granted := by
  rw [← if_congr Option.isSome_iff_ne_none rfl rfl]
  rfl

section Idle

variable (covered : s.md.changes ≤ s.md.committed) (idle : s.media.current = none)

include covered idle

theorem grants_idle : s.grants = ((grantMarks (s.sb.progQ.length + 1) s).requestCommit).granted := by
  rw [grants_eq, requestCommit_still covered, if_neg (not_not.2 idle)]

/-- No MARK frame is at its turn, so one class is granted. -/
theorem grants_once
    (h : ¬ (s.choose = some .program ∧ (s.sb.head.any fun f => decide (f.content ≠ .data)) = true)) :
    s.grants = s.granted := by
  rw [grants_idle covered idle, grantMarks_none _ h, requestCommit_still covered]

theorem grants_of_choose {g : Grant} (choice : s.choose = some g) (h : g ≠ .program) : s.grants = s.grant g := by
  have noMark : ¬ (s.choose = some .program ∧ (s.sb.head.any fun f => decide (f.content ≠ .data)) = true) := by
    rintro ⟨program, -⟩
    exact h (Option.some_inj.1 (choice.symm.trans program))
  rw [grants_once covered idle noMark, granted_some choice]

theorem grants_program (head : s.sb.head = some f) (data : f.content = .data) (choice : s.choose = some .program) :
    s.grants = s.grantProgram := by
  have noMark : ¬ (s.choose = some .program ∧ (s.sb.head.any fun f => decide (f.content ≠ .data)) = true) := by
    rintro ⟨-, mark⟩
    rw [head] at mark
    exact of_decide_eq_true mark data
  rw [grants_once covered idle noMark, granted_some choice]
  rfl

theorem grants_none (choice : s.choose = none) : s.grants = s := by
  have noMark : ¬ (s.choose = some .program ∧ (s.sb.head.any fun f => decide (f.content ≠ .data)) = true) := by
    rintro ⟨program, -⟩
    exact Option.some_ne_none _ (program.symm.trans choice)
  rw [grants_once covered idle noMark, granted_none choice]

end Idle

/-! Each class (R111). -/

theorem grantPortRead_cons {r : PortReq} {rs : List PortReq} (h : s.media.portReads = r :: rs) :
    s.grantPortRead = s.withMedia { s.media with
      portReads := rs, readRun := if s.programWaits then s.media.readRun + 1 else 0
      current := some { op := .portRead r (s.media.locate r.block) } } := by
  unfold grantPortRead
  rw [h]
  rfl

theorem grantCommit_commit (h : s.media.commitReq = some .commit) :
    s.grantCommit = (s.withMd { s.md with snapshot := some s.md.changes }).withMedia
      { s.media with commitReq := none, readRun := 0,
                     current := some { op := .commit s.commitTarget.1 s.commitTarget.2 s.image } } := by
  unfold grantCommit
  rw [h]
  rfl

theorem grantCommit_readCopy {c : CopyId} (h : s.media.commitReq = some (.readCopy c)) :
    s.grantCommit = s.withMedia { s.media with
      commitReq := none, readRun := 0, current := some { op := .copyRead c } } := by
  unfold grantCommit
  rw [h]
  rfl

theorem grantCommit_resetWrite {c : CopyId} (h : s.media.commitReq = some (.resetWrite c)) :
    s.grantCommit = s.withMedia { s.media with
      commitReq := none, readRun := 0, current := some { op := .resetWrite c } } := by
  unfold grantCommit
  rw [h]
  rfl

theorem grantRefreshRead_cons {r : RefreshReq} {rs : List RefreshReq} (h : s.media.refreshReads = r :: rs) :
    s.grantRefreshRead = s.withMedia { s.media with
      refreshReads := rs, readRun := 0
      current := some { op := .refreshRead r.frame r.block (s.media.locate r.block) } } := by
  unfold grantRefreshRead
  rw [h]
  rfl

theorem grantScrubRead_some {b : Nat} (h : s.media.scrubReq = some b) :
    s.grantScrubRead = (s.withMedia { s.media with
      scrubReq := none, readRun := 0, current := some { op := .scrubRead b (s.media.locate b) } }).withScrub
        { s.scrub with phase := .reading } := by
  unfold grantScrubRead
  rw [h]
  rfl

/-- R113: the program head leaves the queue for PROGRAMMING. -/
def headStarted (s : Part) (f : Frame) : Part :=
  s.withSb { s.sb with frames := insertFrame { f with state := .programming } s.sb.frames,
                       progQ := s.sb.progQ.filter fun i => decide (i ≠ f.idx) }

theorem grantProgram_data {d : BlockData} (head : s.sb.head = some f) (content : f.content = .data)
    (data : f.data = some d) : s.grantProgram = (s.headStarted f).withMedia
      { s.media with readRun := 0, current := some { op := .program f.idx f.block (s.media.locate f.block) d none } } := by
  obtain ⟨_, _, _, _, _, _, _, _⟩ := f
  cases content
  cases data
  unfold grantProgram
  rw [head]
  rfl

/-- R133: the program of a MARK frame ends at once. -/
theorem grantProgram_mark {k : MarkKind} (head : s.sb.head = some f) (content : f.content = .mark k) :
    s.grantProgram = (((s.headStarted f).withMedia { s.media with readRun := 0 }).setEntry f.block
      (if k = .reported then .reported else .quiet) f.port?).joinCommit f.idx .ok := by
  rw [← MarkKind.poison_eq]
  obtain ⟨_, _, _, _, _, _, _, _⟩ := f
  cases content
  unfold grantProgram
  rw [head]
  rfl

theorem setEntry_changes (s : Part) (b : Nat) (k : PoisonKind) (o : Option Port) :
    (s.setEntry b k o).md.changes = s.md.changes + 1 := by
  unfold setEntry
  split <;> rfl

theorem setEntry_sb (s : Part) (b : Nat) (k : PoisonKind) (o : Option Port) : (s.setEntry b k o).sb = s.sb := by
  unfold setEntry
  split <;> rfl

/-- R117, R133: the entry that a MARK frame sets is the change that its frame waits for. -/
theorem grantProgram_mark_change {k : MarkKind} (head : s.sb.head = some f) (content : f.content = .mark k) :
    let y := ((s.headStarted f).withMedia { s.media with readRun := 0 }).setEntry f.block
      (if k = .reported then .reported else .quiet) f.port?
    s.grantProgram = y.withMedia { y.media with
      commitWait := y.media.commitWait ++ [{ frame := f.idx, outcome := .ok, change := s.md.changes + 1 }] } := by
  rw [grantProgram_mark head content, joinCommit, setEntry_changes]
  rfl

theorem grantProgram_mark_progQ {k : MarkKind} (head : s.sb.head = some f) (content : f.content = .mark k) :
    s.grantProgram.sb.progQ = s.sb.progQ.filter fun i => decide (i ≠ f.idx) := by
  rw [grantProgram_mark head content]
  exact congrArg Staging.progQ (setEntry_sb _ _ _ _)

end Part

theorem Staging.head_none {b : Staging} (h : b.progQ = []) : b.head = none := by
  unfold Staging.head
  rw [h]
  rfl

namespace Part

variable {s : Part} {f : Frame}

/-- R113, log 11: a MARK frame alone in the queue is granted, the COMMIT request follows, and the media is granted to what is
next. -/
theorem grants_lone_mark {k : MarkKind} (covered : s.md.changes ≤ s.md.committed) (idle : s.media.current = none)
    (head : s.sb.head = some f) (alone : s.sb.progQ = [f.idx]) (content : f.content = .mark k)
    (choice : s.choose = some .program) : s.grants = s.grantProgram.requestCommit.granted := by
  have mark : (s.sb.head.any fun f => decide (f.content ≠ .data)) = true := by
    rw [head]
    exact decide_eq_true (by rw [content]; exact Content.noConfusion)
  have empty : s.grantProgram.sb.progQ = [] := by
    rw [grantProgram_mark_progQ head content, alone]
    simp
  have ended : ∀ n, s.grantProgram.grantMarks n = s.grantProgram := fun n =>
    grantMarks_none n fun h => choose_ne_program (Staging.head_none empty) h.1
  rw [grants_idle covered idle, grantMarks_succ, if_pos ⟨choice, mark⟩, ended]

/-! The copy that a commit writes (R153, R156). -/

theorem commitTarget_first (h : s.md.current = none) : s.commitTarget = (.a, 1) := by
  unfold commitTarget
  rw [h]

theorem commitTarget_next {c : CopyId} {g : BitVec 32} (h : s.md.current = some (c, g)) :
    s.commitTarget = (c.other, if g = 4294967295 then 1 else g + 1) := by
  unfold commitTarget
  rw [h]
  rfl

end Part

theorem exec_mediaGrant {s : State} {y : Part} (held : s.part.isHeld = false) (h : s.part.grants = y) :
    exec .mediaGrant s = .next (s.withPart (Part.follow s.part y)) := event_answers held h

/-- Settles O54: the class by R110, then the grant of that class; the run of MARK frames one step at a time. -/
theorem mediaGrants : Obligations.MediaGrants := by
  unfold Obligations.MediaGrants
  refine ⟨fun s held => ⟨exec_mediaGrant held rfl, fun covered busy => Part.grants_still covered (.inl busy),
    fun covered idle => ⟨fun r rs turn reads => ?portRead, fun reads turn => ⟨fun commit => ?commit, fun c commit => ?copy,
      fun c commit => ?write, fun commit prog => ⟨fun r rs refresh => ?refresh, fun b refresh scrub => ?scrub,
        fun refresh scrub => ?none⟩⟩, fun f d head safe turn content data => ?program⟩⟩,
    fun x f k head content => ?mark, fun x => ?parts, fun x f k held covered idle head alone at' content safe next cs => ?run⟩
  case portRead =>
    have choice := Part.choose_portRead turn (by rw [reads]; exact List.cons_ne_nil r rs)
    exact exec_mediaGrant held ((Part.grants_of_choose covered idle choice (by decide)).trans
      (Part.grantPortRead_cons reads))
  case commit =>
    have choice := Part.choose_commit turn reads (by rw [commit]; exact Option.some_ne_none _)
    exact exec_mediaGrant held ((Part.grants_of_choose covered idle choice (by decide)).trans
      (Part.grantCommit_commit commit))
  case copy =>
    have choice := Part.choose_commit turn reads (by rw [commit]; exact Option.some_ne_none _)
    exact exec_mediaGrant held ((Part.grants_of_choose covered idle choice (by decide)).trans
      (Part.grantCommit_readCopy commit))
  case write =>
    have choice := Part.choose_commit turn reads (by rw [commit]; exact Option.some_ne_none _)
    exact exec_mediaGrant held ((Part.grants_of_choose covered idle choice (by decide)).trans
      (Part.grantCommit_resetWrite commit))
  case refresh =>
    have choice := Part.choose_service prog reads commit
    rw [if_pos (by rw [refresh]; exact List.cons_ne_nil r rs)] at choice
    exact exec_mediaGrant held ((Part.grants_of_choose covered idle choice (by decide)).trans
      (Part.grantRefreshRead_cons refresh))
  case scrub =>
    have choice := Part.choose_service prog reads commit
    rw [if_neg (not_not.2 refresh), if_pos (by rw [scrub]; exact Option.some_ne_none b)] at choice
    exact exec_mediaGrant held ((Part.grants_of_choose covered idle choice (by decide)).trans
      (Part.grantScrubRead_some scrub))
  case none =>
    have choice := Part.choose_service prog reads commit
    rw [if_neg (not_not.2 refresh), if_neg (not_not.2 scrub)] at choice
    exact Part.grants_none covered idle choice
  case program =>
    have prog : s.part.sb.head ≠ none ∧ s.part.md.device ≠ .safe := ⟨by rw [head]; exact Option.some_ne_none f, safe⟩
    have choice := Part.choose_program prog (turn.imp_left And.right)
    exact exec_mediaGrant held ((Part.grants_program covered idle head content choice).trans
      (Part.grantProgram_data head content data))
  case mark => exact Part.grantProgram_mark_change head content
  case parts =>
    exact ⟨Part.requestCommit_asks, Part.requestCommit_refrains, Part.grants_eq x, x.grantMarks_succ, x.choose_eq,
      Part.grantCommit_commit, Part.commitTarget_first, fun g => Part.commitTarget_next, fun g => Part.commitTarget_next,
      rfl⟩
  case run =>
    have prog : x.sb.head ≠ none ∧ x.md.device ≠ .safe := ⟨by rw [head]; exact Option.some_ne_none f, safe⟩
    have choice := Part.choose_program prog (.inr next)
    exact exec_mediaGrant held (Part.grants_lone_mark covered idle head alone content choice)

/-! ### The windows of a pass (R141, R145) -/

section Windows

variable {x : Scrub} {st : Settings} {b i j : Nat} {w : Window}

theorem Settings.window_eq (st : Settings) (i : Nat) :
    st.window i = if i = 0 then some st.w0 else if i = 1 then some st.w1 else if i = 2 then some st.w2
      else if i = 3 then some st.w3 else none := by
  match i with
  | 0 => rfl
  | 1 => rfl
  | 2 => rfl
  | 3 => rfl
  | n + 4 => simp [Settings.window]

theorem Settings.lt_of_window (h : st.window i = some w) : i < 4 := by
  match i with
  | 0 => decide
  | 1 => decide
  | 2 => decide
  | 3 => decide
  | n + 4 => exact absurd h.symm (Option.some_ne_none w)

theorem Settings.enabledFrom_eq_range (st : Settings) (i : Nat) :
    st.enabledFrom i = (List.range 4).find? fun j => decide (i ≤ j) && (st.window j).any (·.enabled) := rfl

/-- The test that `Settings.enabledFrom` makes of window `k` fails. -/
theorem Settings.not_enabled_iff (st : Settings) (i k : Nat) :
    (!(decide (i ≤ k) && (st.window k).any (·.enabled))) = true ↔
      (i ≤ k → ∀ w, st.window k = some w → w.enabled = false) := by
  rw [Bool.not_eq_true', Bool.and_eq_false_iff, decide_eq_false_iff_not, Option.any_eq_false]
  exact imp_iff_not_or.symm

/-- R145: the lowest enabled window from `i` on. -/
theorem Settings.enabledFrom_some : st.enabledFrom i = some j ↔
    i ≤ j ∧ (∃ w, st.window j = some w ∧ w.enabled = true) ∧
      ∀ k, i ≤ k → k < j → ∀ w, st.window k = some w → w.enabled = false := by
  rw [enabledFrom_eq_range, List.find?_range_eq_some, Bool.and_eq_true, decide_eq_true_iff, Option.any_eq_true]
  simp only [not_enabled_iff]
  constructor
  · rintro ⟨⟨from', enabled⟩, -, lower⟩
    exact ⟨from', enabled, fun k hi hj => lower k hj hi⟩
  · rintro ⟨from', ⟨w, window, enabled⟩, lower⟩
    exact ⟨⟨from', w, window, enabled⟩, List.mem_range.2 (lt_of_window window), fun k hj hi => lower k hi hj⟩

theorem Settings.enabledFrom_none : st.enabledFrom i = none ↔
    ∀ k, i ≤ k → ∀ w, st.window k = some w → w.enabled = false := by
  rw [enabledFrom_eq_range, List.find?_range_eq_none]
  simp only [not_enabled_iff]
  exact ⟨fun h k hi w window => h k (lt_of_window window) hi w window, fun h k _ => h k⟩

theorem Scrub.remains_iff : x.remains st = true ↔ ∃ w, st.window x.window = some w ∧ x.next ≤ w.last := by
  rw [remains, Option.any_eq_true]
  simp only [decide_eq_true_iff]

/-- R145: after the last block of a window comes the next enabled window; where there is none, no block remains (log 15). -/
theorem Scrub.advance_eq (h : st.window x.window = some w) (b : Nat) : x.advance st b =
    if b < w.last then { x with next := b + 1 }
    else (st.enabledFrom (x.window + 1)).elim { x with next := b + 1 } fun j =>
      { x with window := j, next := ((st.window j).map (·.first)).getD 0 } := by
  unfold advance
  rw [h, Option.any_some, if_congr decide_eq_true_iff rfl rfl]
  cases st.enabledFrom (x.window + 1) <;> rfl

theorem Scrub.advance_inside (h : st.window x.window = some w) (below : b < w.last) :
    x.advance st b = { x with next := b + 1 } := by
  rw [advance_eq h, if_pos below]

theorem Scrub.advance_next {v : Window} (h : st.window x.window = some w) (last : w.last ≤ b)
    (more : st.enabledFrom (x.window + 1) = some j) (window : st.window j = some v) :
    x.advance st b = { x with window := j, next := v.first } := by
  rw [advance_eq h, if_neg (not_lt.2 last), more, Option.elim_some, window, Option.map_some, Option.getD_some]

theorem Scrub.advance_last (h : st.window x.window = some w) (last : w.last ≤ b)
    (none : st.enabledFrom (x.window + 1) = none) : x.advance st b = { x with next := b + 1 } := by
  rw [advance_eq h, if_neg (not_lt.2 last), none, Option.elim_none]

end Windows

/-! ### The frames that a query finds (R18) -/

theorem Staging.hasStaged_iff {y : Staging} {b : Nat} :
    y.hasStaged b = true ↔ ∃ f ∈ y.frames, f.state ≠ .clean ∧ f.block = b := by
  simp [hasStaged, Frame.staged]

theorem Staging.hasPortFrame_iff {y : Staging} {b : Nat} : y.hasPortFrame b = true ↔
    ∃ f ∈ y.frames, f.state ≠ .clean ∧ (∃ p, f.writer = some (.port p)) ∧ f.block = b := by
  simp [hasPortFrame, Frame.staged, Frame.ofPort_iff, and_assoc]

namespace Part

variable {s : Part} {b i n : Nat} {e : RefreshEntry}

/-! ### The scrub engine (R142 to R146) -/

/-- R145: a block that has a frame or an entry needs no check. -/
def skipsScrub (s : Part) (b : Nat) : Prop :=
  (∃ f ∈ s.sb.frames, f.state ≠ .clean ∧ f.block = b) ∨ ∃ q ∈ s.integ.poison, q.block = b

theorem skipsScrub_iff : s.skipsScrub b ↔ (s.sb.hasStaged b || (s.poisonOf b).isSome) = true := by
  rw [Bool.or_eq_true, Staging.hasStaged_iff, poisonOf_isSome_iff]
  rfl

theorem takeScrub_over (n : Nat) (h : s.scrub.remains s.md.settings = false) :
    s.takeScrub (n + 1) = s.endPass .completed := if_neg (Bool.eq_false_iff.1 h)

theorem takeScrub_skips (n : Nat) (h : s.scrub.remains s.md.settings = true) (skip : s.skipsScrub s.scrub.next) :
    let y := s.scrub.advance s.md.settings s.scrub.next
    s.takeScrub (n + 1) =
      (s.withScrub { y with counts := { y.counts with skipped := y.counts.skipped + 1 } }).takeScrub n :=
  (if_pos h).trans (if_pos (skipsScrub_iff.1 skip))

theorem takeScrub_takes (n : Nat) (h : s.scrub.remains s.md.settings = true) (take : ¬ s.skipsScrub s.scrub.next) :
    s.takeScrub (n + 1) =
      (s.withScrub { s.scrub.advance s.md.settings s.scrub.next with
        inCheck := some s.scrub.next, phase := .requested }).withMedia
        { s.media with scrubReq := some s.scrub.next } :=
  (if_pos h).trans (if_neg fun k => take (skipsScrub_iff.2 k))

theorem checkEnded_stopping (h : s.scrub.state = .stopping) :
    s.checkEnded = (s.withScrub { s.scrub with inCheck := none, phase := .absent }).endPass .stopped := if_pos h

theorem checkEnded_running (h : s.scrub.state ≠ .stopping) :
    s.checkEnded = (s.withScrub { s.scrub with inCheck := none, phase := .absent }).scrubNext := if_neg h

section Retry

variable (waits : s.scrub.phase = .waitingRoom) (check : s.scrub.inCheck = some b)

include waits check

theorem scrubRetry_waiting :
    s.scrubRetry = if s.refreshTakes b then (s.offerRefresh b .scrub).checkEnded else s := by
  unfold scrubRetry
  rw [waits, check]

theorem scrubRetry_held (h : ∃ e ∈ s.media.refresh, e.block = b) : s.scrubRetry = s.checkEnded := by
  rw [scrubRetry_waiting waits check, if_pos ((s.refreshTakes_iff b).2 (.inl h)), offerRefresh_refused (.inl h)]

theorem scrubRetry_room (h : ∀ e ∈ s.media.refresh, e.block ≠ b) (room : s.media.refresh.length < 8) : s.scrubRetry =
    (s.withMedia { s.media with refresh := s.media.refresh ++ [{ block := b, origin := .scrub }] }).checkEnded := by
  rw [scrubRetry_waiting waits check, if_pos ((s.refreshTakes_iff b).2 (.inr room)), offerRefresh_taken h room]

theorem scrubRetry_full (h : ∀ e ∈ s.media.refresh, e.block ≠ b) (full : 8 ≤ s.media.refresh.length) :
    s.scrubRetry = s := by
  rw [scrubRetry_waiting waits check, if_neg]
  rw [refreshTakes_iff]
  rintro (⟨e, he, block⟩ | room)
  · exact h e he block
  · exact absurd room (not_lt.2 full)

end Retry

/-- R143: the pass begins with its first block. -/
theorem beginPass_begins (running : s.scrub.state = .running) (pending : s.scrub.pending = true)
    (carried : s.scrub.change ≤ n) : s.beginPass n = (s.withScrub { s.scrub with pending := false }).scrubNext :=
  if_pos ⟨running, pending, carried⟩

theorem commitDone_beginPass (code : BitVec 8) (running : s.scrub.state = .running) (pending : s.scrub.pending = true)
    (carried : s.scrub.change ≤ n) : (s.commitDone code n).beginPass n =
      ((s.commitDone code n).withScrub { s.scrub with pending := false }).scrubNext := by
  have scrub : (s.commitDone code n).scrub = s.scrub := (commitDone_keeps s code n).scrub (by decide)
  rw [← scrub] at running pending carried ⊢
  exact beginPass_begins running pending carried

theorem requestPass_starts {j : Nat} {w : Window} (who : Starter) (first : s.md.settings.enabledFrom 0 = some j)
    (window : s.md.settings.window j = some w) : s.requestPass who =
      (s.withMd { s.md with scrubMark := true, changes := s.md.changes + 1 }).withScrub
        { state := .running, startedBy := some who, pending := true, window := j, next := w.first, inCheck := none,
          phase := .absent, counts := {}, lastEnd := .none, change := s.md.changes + 1, autoRef := s.scrub.autoRef } := by
  unfold requestPass
  rw [first]
  dsimp only
  rw [show (s.setMark true).md.settings.window j = some w from window]
  rfl

/-! ### The refresh service (R121 to R123) -/

theorem stopped_iff : s.stopped = true ↔ ∃ k ∈ s.cmds.queue, s.cmds.stop = some k := by
  rw [stopped, Option.any_eq_true]
  simp only [List.contains_iff_mem, and_comm]

theorem mayRefresh_iff : s.mayRefresh = true ↔
    s.md.device = .ready ∧ s.sb.attr .refresh < 8 ∧ 1 ≤ s.sb.available ∧ s.stopped = false := by
  simp only [mayRefresh, Bool.and_eq_true, decide_eq_true_iff, Bool.not_eq_true', and_assoc]
  rfl

theorem settledOtherwise_iff : s.settledOtherwise b = true ↔
    (∃ f ∈ s.sb.frames, f.state ≠ .clean ∧ (∃ p, f.writer = some (.port p)) ∧ f.block = b) ∨
      ∃ q ∈ s.integ.poison, q.block = b := by
  rw [settledOtherwise, Bool.or_eq_true, Staging.hasPortFrame_iff, poisonOf_isSome_iff]

/-- The entries of the refresh list that are not started, oldest first. -/
def waitingRefreshes (s : Part) : List RefreshEntry := s.media.refresh.filter fun e => e.started.isNone

/-- R122: those of origin READ go first. -/
theorem nextRefresh_eq (s : Part) : s.nextRefresh =
    if s.waitingRefreshes.any fun e => decide (e.origin = .read)
    then s.waitingRefreshes.find? fun e => decide (e.origin = .read) else s.waitingRefreshes.head? := by
  have read : (s.media.refresh.find? fun e => e.started.isNone && decide (e.origin = .read)) =
      s.waitingRefreshes.find? fun e => decide (e.origin = .read) := by
    rw [waitingRefreshes, List.find?_filter]
    exact congrArg (fun p => s.media.refresh.find? p) (funext fun e => by
      rw [Bool.decide_and, Bool.decide_eq_true, Bool.decide_eq_true])
  have any : (s.media.refresh.find? fun e => e.started.isNone) = s.waitingRefreshes.head? :=
    List.head?_filter.symm
  rw [nextRefresh, read, any]
  split
  case isTrue listed =>
    obtain ⟨e, found⟩ := Option.isSome_iff_exists.1 (List.find?_isSome.2 (List.any_eq_true.1 listed))
    rw [found]
    rfl
  case isFalse unlisted =>
    have absent : s.waitingRefreshes.find? (fun e => decide (e.origin = .read)) = none :=
      List.find?_eq_none.2 fun e he read => unlisted (List.any_eq_true.2 ⟨e, he, read⟩)
    rw [absent]
    rfl

theorem nextRefresh_none (h : s.waitingRefreshes = []) : s.nextRefresh = none := by
  rw [nextRefresh_eq, h]
  rfl

theorem startRefreshes_still (n : Nat) (h : s.mayRefresh = false ∨ s.waitingRefreshes = []) :
    s.startRefreshes n = s := by
  cases n with
  | zero => rfl
  | succ n =>
    unfold startRefreshes
    rcases h with may | waiting
    · rw [may]
      cases s.nextRefresh <;> rfl
    · rw [nextRefresh_none waiting]

theorem startRefreshes_succ (n : Nat) (may : s.mayRefresh = true) (next : s.nextRefresh = some e) :
    s.startRefreshes (n + 1) =
      startRefreshes n (if s.settledOtherwise e.block then s.dropRefresh e.block else s.beginRefresh e.block) := by
  conv_lhs => unfold startRefreshes
  rw [next, may]
  rfl

/-- R122, R16: the frame in which a refresh reads its block. -/
def refreshFrame (i b : Nat) : Frame :=
  { idx := i, state := .filling, block := b, writer := some .refresh, cmd := none, content := .data, seq := none,
    data := none }

theorem beginRefresh_allocated (b : Nat) (h : (s.sb.freeIdx ++ s.sb.clean).head? = some i) :
    s.beginRefresh b = ((s.reclaim [i]).listFrame (refreshFrame i b)).withMedia { s.media with
      refresh := s.media.refresh.map fun e => if e.block = b then { e with started := some i } else e
      refreshReads := s.media.refreshReads ++ [{ frame := i, block := b }] } := by
  obtain ⟨is, h⟩ := List.head?_eq_some_iff.1 h
  have one : s.allocIdx 1 = [i] := by rw [allocIdx, h]; rfl
  unfold beginRefresh
  rw [one]
  rfl

section Step

variable (may : s.mayRefresh = true) (next : s.nextRefresh = some e)

include may next

theorem startRefreshes_drops (n : Nat) (settled : s.settledOtherwise e.block = true) :
    s.startRefreshes (n + 1) = startRefreshes n (s.dropRefresh e.block) := by
  rw [startRefreshes_succ n may next, if_pos settled]

theorem startRefreshes_begins (n : Nat) (settled : ¬ s.settledOtherwise e.block = true)
    (h : (s.sb.freeIdx ++ s.sb.clean).head? = some i) : s.startRefreshes (n + 1) =
      startRefreshes n (((s.reclaim [i]).listFrame (refreshFrame i e.block)).withMedia { s.media with
        refresh := s.media.refresh.map fun g => if g.block = e.block then { g with started := some i } else g
        refreshReads := s.media.refreshReads ++ [{ frame := i, block := e.block }] }) := by
  rw [startRefreshes_succ n may next, if_neg settled, beginRefresh_allocated e.block h]

end Step

/-! A refresh list of one entry, which is not started. -/

section Single

variable (only : s.media.refresh = [e]) (new : e.started = none)

include only new

theorem nextRefresh_single : s.nextRefresh = some e := by
  have waiting : s.waitingRefreshes = [e] := by simp [waitingRefreshes, only, new]
  rw [nextRefresh_eq, waiting]
  by_cases read : e.origin = .read <;> simp [read]

theorem refreshTry_drops (may : s.mayRefresh = true) (settled : s.settledOtherwise e.block = true) :
    s.refreshTry = s.withMedia { s.media with refresh := [] } := by
  have gone : s.dropRefresh e.block = s.withMedia { s.media with refresh := [] } := by
    unfold dropRefresh
    rw [only]
    simp
  unfold refreshTry
  rw [startRefreshes_drops may (nextRefresh_single only new) _ settled, gone]
  exact startRefreshes_still _ (.inr rfl)

theorem refreshTry_begins (may : s.mayRefresh = true) (settled : ¬ s.settledOtherwise e.block = true)
    (h : (s.sb.freeIdx ++ s.sb.clean).head? = some i) : s.refreshTry =
      ((s.reclaim [i]).listFrame (refreshFrame i e.block)).withMedia { s.media with
        refresh := [{ e with started := some i }]
        refreshReads := s.media.refreshReads ++ [{ frame := i, block := e.block }] } := by
  have started : (s.media.refresh.map fun g => if g.block = e.block then { g with started := some i } else g) =
      [{ e with started := some i }] := by
    rw [only, List.map_singleton, if_pos rfl]
  unfold refreshTry
  rw [startRefreshes_begins may (nextRefresh_single only new) _ settled h, started]
  exact startRefreshes_still _ (.inr rfl)

end Single

end Part

section ScrubEvents

variable {s : State} {y : Part}

theorem exec_scrubRoomRetry (held : s.part.isHeld = false) (h : s.part.scrubRetry = y) :
    exec .scrubRoomRetry s = .next (s.withPart (Part.follow s.part y)) := event_answers held h

theorem exec_scrubPassBegin (held : s.part.isHeld = false)
    (h : (s.part.commitDone codeScrubStart s.part.md.committed).beginPass s.part.md.committed = y) :
    exec .scrubPassBegin s = .next (s.withPart (Part.follow s.part y)) := event_answers held h

theorem exec_autoScrubStart (held : s.part.isHeld = false) (h : s.part.autoScrub = y) :
    exec .autoScrubStart s = .next (s.withPart (Part.follow s.part y)) := event_answers held h

theorem exec_refreshStart (held : s.part.isHeld = false) (h : s.part.refreshTry = y) :
    exec .refreshStart s = .next (s.withPart (Part.follow s.part y)) := event_answers held h

end ScrubEvents

/-- Settles O50: the retry by what the refresh list says of the block, the start of refreshes one entry at a time, the windows
through the search of `Settings.enabledFrom`, and the next block by whether it is skipped. -/
theorem scrubAndRefreshSteps : Obligations.ScrubAndRefreshSteps := by
  unfold Obligations.ScrubAndRefreshSteps
  refine ⟨fun s held => ⟨fun b waits check => ⟨fun listed => ?_, fun new room => ?_, fun new full => ?_⟩,
      fun running pending carried => ?begin, fun j w ready period due idle first window => ?auto,
      fun e i only new ready few available free' alloc => ?start⟩,
    fun x n => ?service, fun x st b i => ?windows, fun x n => ?engine⟩
  · exact exec_scrubRoomRetry held (Part.scrubRetry_held waits check listed)
  · exact exec_scrubRoomRetry held (Part.scrubRetry_room waits check new room)
  · exact exec_scrubRoomRetry held (Part.scrubRetry_full waits check new full)
  case begin => exact exec_scrubPassBegin held (Part.commitDone_beginPass codeScrubStart running pending carried)
  case auto =>
    have due : s.part.autoScrub = s.part.requestPass .auto := if_pos ⟨ready, period, due, idle⟩
    exact exec_autoScrubStart held (due.trans (Part.requestPass_starts .auto first window))
  case start =>
    have may : s.part.mayRefresh = true := Part.mayRefresh_iff.2 ⟨ready, few, available, free'⟩
    refine ⟨fun settled => ?_, fun settled => ?_⟩
    · exact exec_refreshStart held (Part.refreshTry_drops only new may (Part.settledOtherwise_iff.2 settled))
    · exact exec_refreshStart held
        (Part.refreshTry_begins only new may (fun k => settled (Part.settledOtherwise_iff.1 k)) alloc)
  case service =>
    intro may waiting first
    have next : x.nextRefresh = first := x.nextRefresh_eq
    refine ⟨Part.stopped_iff, rfl, rfl, fun h => Part.startRefreshes_still n (h.imp_left fun not => ?_),
      fun e can oldest => ⟨fun settled => ?_, fun i settled alloc => ?_⟩⟩
    · exact Bool.eq_false_iff.2 fun can => not (Part.mayRefresh_iff.1 can)
    · exact Part.startRefreshes_drops (Part.mayRefresh_iff.2 can) (next.trans oldest) n
        (Part.settledOtherwise_iff.2 settled)
    · exact Part.startRefreshes_begins (Part.mayRefresh_iff.2 can) (next.trans oldest) n
        (fun k => settled (Part.settledOtherwise_iff.1 k)) alloc
  case windows =>
    intro at'
    have is : st.window = at' := funext st.window_eq
    rw [← is]
    exact ⟨rfl, fun j => Settings.enabledFrom_some, Settings.enabledFrom_none, Scrub.remains_iff, fun w window =>
      ⟨Scrub.advance_inside window, fun last j v => Scrub.advance_next window last, Scrub.advance_last window⟩⟩
  case engine =>
    exact ⟨Part.takeScrub_over n, Part.takeScrub_skips n, Part.takeScrub_takes n, Part.checkEnded_stopping,
      Part.checkEnded_running⟩

end Sys2Proof.Machine
end

section
/-! PROOFS. The poison map (chapter 7): what becomes of a block's entry, and the media-failure request by entry, room and
source. -/

namespace Sys2Proof.Machine

namespace Part

variable {s : Part} {b : Nat} {src : FaultSource}

/-! ### The entry of a block (R127, R138) -/

theorem setEntry_adds (absent : s.poisonOf b = none) (k : PoisonKind) (o : Option Port) :
    s.setEntry b k o = (s.setPoison
      (s.integ.poison ++ [{ block := b, kind := k, origin := o, hours := s.time.hours, ms := s.now }])).change := by
  unfold setEntry
  rw [absent]
  rfl

theorem setEntry_replaces {g : PoisonEntry} (entry : s.poisonOf b = some g) (k : PoisonKind) (o : Option Port) :
    s.setEntry b k o = (s.setPoison (s.integ.poison.map fun x =>
      if x.block = b then { block := b, kind := k, origin := o, hours := s.time.hours, ms := s.now } else x)).change := by
  unfold setEntry
  rw [entry]
  rfl

theorem removeEntry_absent (absent : s.poisonOf b = none) : s.removeEntry b = s := by
  unfold removeEntry
  rw [absent]
  rfl

theorem removeEntry_present (entry : s.poisonOf b ≠ none) :
    s.removeEntry b = (s.setPoison (s.integ.poison.filter fun x => decide (x.block ≠ b))).change :=
  if_pos (Option.isSome_iff_ne_none.2 entry)

/-! ### The media-failure request (R128, R136, R137) -/

theorem roomForMedia_iff : s.roomForMedia = true ↔ s.integ.poison.length + s.sb.markFrames < 512 :=
  decide_eq_true_iff

theorem mediaFailure_of_entry {g : PoisonEntry} (entry : s.poisonOf b = some g) :
    s.mediaFailure b src = (if g.kind = .media then s else s.setEntry b .media none).failureRecord b src := by
  unfold mediaFailure
  rw [entry]

/-- R136: a block without an entry, by the room test and the source. -/
theorem mediaFailure_of_none (absent : s.poisonOf b = none) :
    s.mediaFailure b src =
      if s.roomForMedia then (s.setEntry b .media none).failureRecord b src
      else if src = .scrubRead then s
      else s.appendFault { kind := .poisonMapFull, block := some b, source := some src } := by
  unfold mediaFailure
  rw [absent]

/-- R137: a MEDIA entry stays as it is. -/
theorem mediaFailure_keepsMedia {g : PoisonEntry} (entry : s.poisonOf b = some g) (media : g.kind = .media) :
    s.mediaFailure b src = s.failureRecord b src := by
  rw [mediaFailure_of_entry entry, if_pos media]

/-- R137: an entry of a MARK becomes MEDIA in its place, whatever the room. -/
theorem mediaFailure_replaces {g : PoisonEntry} (entry : s.poisonOf b = some g) (marked : g.kind ≠ .media) :
    s.mediaFailure b src = (s.setPoison (s.integ.poison.map fun x =>
      if x.block = b then { block := b, kind := .media, origin := none, hours := s.time.hours, ms := s.now }
      else x)).change.failureRecord b src := by
  rw [mediaFailure_of_entry entry, if_neg marked, setEntry_replaces entry]

theorem mediaFailure_adds (absent : s.poisonOf b = none) (room : s.integ.poison.length + s.sb.markFrames < 512) :
    s.mediaFailure b src = (s.setPoison (s.integ.poison ++
      [{ block := b, kind := .media, origin := none, hours := s.time.hours, ms := s.now }])).change.failureRecord b src := by
  rw [mediaFailure_of_none absent, if_pos (roomForMedia_iff.2 room), setEntry_adds absent]

theorem mediaFailure_full (absent : s.poisonOf b = none) (full : ¬ s.integ.poison.length + s.sb.markFrames < 512) :
    s.mediaFailure b src = if src = .scrubRead then s
      else s.appendFault { kind := .poisonMapFull, block := some b, source := some src } := by
  rw [mediaFailure_of_none absent, if_neg (mt roomForMedia_iff.1 full)]

end Part

/-- Settles O53, by the entry of the block, the room test and the source of the request. -/
theorem poisonMapTakesFailures : Obligations.PoisonMapTakesFailures := by
  intro s b src e room noted added
  refine ⟨fun g entry media => ?keeps, fun g entry marked => ?replaces, fun absent fits => ?adds,
    fun absent full scrub => ?uncounted, fun absent full other => ?lost, fun absent => ?nothing, fun entry => ?removed⟩
  case keeps => exact Part.mediaFailure_keepsMedia entry media
  case replaces => exact Part.mediaFailure_replaces entry marked
  case adds => exact Part.mediaFailure_adds absent fits
  case uncounted => exact (Part.mediaFailure_full absent full).trans (if_pos scrub)
  case lost => exact (Part.mediaFailure_full absent full).trans (if_neg other)
  case nothing => exact Part.removeEntry_absent absent
  case removed => exact Part.removeEntry_present entry

end Sys2Proof.Machine
end

section
/-! PROOFS. SCRUB START, SCRUB STOP and the end of a pass (chapter 8), and the settings that a SETTINGS WRITE takes (R140,
R164). -/

namespace Sys2Proof.Machine

/-! ### SCRUB START and SCRUB STOP (R142, R148) -/

namespace Part

variable {s : Part} {c : Cmd}

theorem arrived_scrub (s : Part) (p : Port) : (s.arrived p).scrub = s.scrub := by unfold arrived rearm; split <;> rfl

theorem serveScrubStart_busy (h : s.scrub.state ≠ .idle) : s.serveScrubStart c = s.reply c .busy .none := if_pos h

theorem serveScrubStart_invalid (idle : s.scrub.state = .idle) (none : s.md.settings.enabledFrom 0 = none) :
    s.serveScrubStart c = s.reply c .invalid .none :=
  (if_neg (not_not.2 idle)).trans (if_pos (Option.isNone_iff_eq_none.2 none))

/-- R142: the command waits on the change that sets the mark. -/
theorem serveScrubStart_requests {j : Nat} {w : Window} (idle : s.scrub.state = .idle)
    (first : s.md.settings.enabledFrom 0 = some j) (window : s.md.settings.window j = some w) :
    s.serveScrubStart c =
      (s.requestPass (.port c.key.port)).record { c with state := .settling, change := s.md.changes + 1 } := by
  have enabled : ¬ (s.md.settings.enabledFrom 0).isNone = true := by rw [first]; exact Bool.false_ne_true
  have waits : (s.requestPass (.port c.key.port)).scrub.change = s.md.changes + 1 := by
    rw [requestPass_starts _ first window]
    rfl
  rw [← waits]
  exact (if_neg (not_not.2 idle)).trans (if_neg enabled)

theorem serveScrubStop_notRunning (h : s.scrub.state = .idle) : s.serveScrubStop c = s.reply c .notRunning .none :=
  if_pos h

theorem serveScrubStop_stops (h : s.scrub.state ≠ .idle) : s.serveScrubStop c = (s.reply c .ok .none).stopPass :=
  if_neg h

end Part

/-- Settles O34: the arrival leaves the engine and the settings, which decide each request in the order of its table. -/
theorem scrubStartAndStop : Obligations.ScrubStartAndStop := by
  unfold Obligations.ScrubStartAndStop
  intro s p t
  have scrub : (s.part.arrived p).scrub = s.part.scrub := s.part.arrived_scrub p
  have md : (s.part.arrived p).md = s.part.md := s.part.arrived_md p
  refine ⟨fun ok => ⟨fun busy => ?_, fun idle unset => ?_, fun j w idle first window => ?starts⟩,
    fun ok => ⟨fun idle => ?_, fun runs => ?_⟩⟩
  · exact request_answers ok rfl (Part.serveScrubStart_busy (by rw [scrub]; exact busy))
  · exact request_answers ok rfl (Part.serveScrubStart_invalid (by rw [scrub]; exact idle) (by rw [md]; exact unset))
  case starts =>
    rw [← md] at first window
    refine request_answers ok rfl
      ((Part.serveScrubStart_requests (by rw [scrub]; exact idle) first window).trans ?_)
    rw [Part.requestPass_starts _ first window, md, scrub]
    rfl
  · exact request_answers ok rfl (Part.serveScrubStop_notRunning (by rw [scrub]; exact idle))
  · exact request_answers ok rfl (Part.serveScrubStop_stops (by rw [scrub]; exact runs))

/-! ### How a pass stops and ends (R148, R149) -/

/-- R149, log 24: the record of a pass that auto-scrub started names no starter. -/
theorem recordStarter_eq (who : Option Starter) :
    recordStarter who = match who with | some .auto => none | who => who := by
  rcases who with _ | _ | _ <;> rfl

namespace Part

variable {s : Part}

theorem stopPass_still (h : s.scrub.state ≠ .running) : s.stopPass = s := if_neg h

section Running

variable (running : s.scrub.state = .running)

include running

theorem stopPass_reading (h : s.scrub.phase = .reading) :
    s.stopPass = s.withScrub { s.scrub with state := .stopping } := by
  unfold stopPass
  rw [if_pos running, h]
  rfl

theorem stopPass_ends (h : s.scrub.phase = .absent ∨ s.scrub.phase = .waitingRoom) :
    s.stopPass = s.endPass .stopped := by
  unfold stopPass
  rw [if_pos running]
  rcases h with h | h <;> rw [h]

/-- R148: the request of a check that is not granted is withdrawn. -/
theorem stopPass_requested (h : s.scrub.phase = .requested) :
    s.stopPass = (s.withMedia { s.media with scrubReq := none }).endPass .stopped := by
  unfold stopPass
  rw [if_pos running, h]

end Running

/-- R149: the part in which the engine goes to IDLE: the record is appended, the mark is cleared, and the notices are
produced. -/
def passReported (s : Part) (e : EndReason) : Part :=
  let sum := fun who => ({ reason := e, startedBy := who, counts := s.scrub.counts } : ScrubSummary)
  ((s.appendFault { kind := .scrubPass, scrub := some (sum (recordStarter s.scrub.startedBy)) }).setMark false).noticeAll
    (.scrubEnded (sum s.scrub.startedBy))

theorem passReported_keeps (s : Part) (e : EndReason) : Keeps [.links, .md, .faults] s (s.passReported e) :=
  (noticeAll_keeps _ _).next (by decide) <| (setMark_keeps _ _).next (by decide) <|
    (appendFault_keeps s _).mono (by decide)

theorem passReported_scrub (s : Part) (e : EndReason) : (s.passReported e).scrub = s.scrub :=
  (s.passReported_keeps e).scrub (by decide)

theorem passReported_time (s : Part) (e : EndReason) : (s.passReported e).time = s.time :=
  (s.passReported_keeps e).time (by decide)

theorem passReported_md (s : Part) (e : EndReason) :
    (s.passReported e).md = { s.md with scrubMark := false, changes := s.md.changes + 2 } :=
  (noticeAll_keeps (setMark _ false) _).md (by decide)

theorem endPass_eq (s : Part) (e : EndReason) : s.endPass e = (s.passReported e).withScrub
    { s.scrub with state := .idle, pending := false, inCheck := none, phase := .absent, lastEnd := e,
                   autoRef := s.time.hours } := by
  rw [← s.passReported_time e, ← s.passReported_scrub e]
  rfl

theorem endPass_md (s : Part) (e : EndReason) :
    (s.endPass e).md = { s.md with scrubMark := false, changes := s.md.changes + 2 } := by
  rw [endPass_eq, withScrub_md, passReported_md]

end Part

/-- Settles O35: the phase of the check tells how the pass stops, and its end reports the pass before the engine is IDLE. -/
theorem scrubPassStops : Obligations.ScrubPassStops := by
  unfold Obligations.ScrubPassStops
  refine fun s => ⟨Part.stopPass_still, Part.stopPass_reading, Part.stopPass_ends, Part.stopPass_requested, ?_⟩
  intro e sum x y
  have idle := s.endPass_eq e
  have reported : y = s.passReported e := by
    unfold Part.passReported
    rw [recordStarter_eq]
    rfl
  rw [reported, s.endPass_md e]
  exact ⟨by rw [idle]; rfl, by rw [idle]; rfl, rfl, rfl⟩

/-! ### The settings of a SETTINGS WRITE (R140, R164) -/

/-- R140: the values of a window that are in range. -/
def WindowFits (w : RawWindow) : Prop :=
  (w.enabled = 0 ∨ w.enabled = 1) ∧ w.first.toNat ≤ w.last.toNat ∧ w.last.toNat < 262144

/-- The window that the values give where they are in range. -/
def takenWindow (w : RawWindow) : Window :=
  { enabled := decide (w.enabled = 1), first := w.first.toNat, last := w.last.toNat }

theorem windowOf_eq_some_iff {w : RawWindow} {v : Window} : windowOf w = some v ↔ WindowFits w ∧ takenWindow w = v := by
  unfold windowOf WindowFits
  by_cases flag : w.enabled = 0 ∨ w.enabled = 1
  · rw [flagOf_eq flag]
    dsimp only
    rw [Option.ite_none_right_eq_some, Option.some_inj, Config.userBlocks]
    exact and_congr_left fun _ => ⟨fun ⟨_, last, order⟩ => ⟨flag, order, last⟩,
      fun ⟨_, order, last⟩ => ⟨order.trans_lt last, last, order⟩⟩
  · have unknown : flagOf w.enabled = none := Option.not_isSome_iff_eq_none.1 (mt flagOf_isSome_iff.1 flag)
    rw [unknown]
    exact ⟨fun h => absurd h.symm (Option.some_ne_none v), fun ⟨⟨known, _⟩, _⟩ => absurd known flag⟩

/-- R140, R164: the values of a SETTINGS WRITE that are in range. -/
def SettingsFit (r : RawSettings) : Prop :=
  r.threshold.toNat ≤ 255 ∧ r.period.toNat ≤ 168 ∧
    WindowFits r.w0 ∧ WindowFits r.w1 ∧ WindowFits r.w2 ∧ WindowFits r.w3

/-- The settings that the values give where they are in range. -/
def takenSettings (r : RawSettings) : Settings :=
  { threshold := r.threshold.toNat, period := r.period.toNat,
    w0 := takenWindow r.w0, w1 := takenWindow r.w1, w2 := takenWindow r.w2, w3 := takenWindow r.w3 }

theorem settingsOf_taken {r : RawSettings} (h : SettingsFit r) : settingsOf r = some (takenSettings r) := by
  obtain ⟨threshold, period, fits0, fits1, fits2, fits3⟩ := h
  unfold settingsOf
  rw [windowOf_eq_some_iff.2 ⟨fits0, rfl⟩, windowOf_eq_some_iff.2 ⟨fits1, rfl⟩, windowOf_eq_some_iff.2 ⟨fits2, rfl⟩,
    windowOf_eq_some_iff.2 ⟨fits3, rfl⟩]
  exact if_pos ⟨threshold, period⟩

theorem settingsOf_refused {r : RawSettings} (h : ¬ SettingsFit r) : settingsOf r = none := by
  unfold settingsOf
  split
  case h_1 e0 e1 e2 e3 =>
    obtain ⟨fits0, -⟩ := windowOf_eq_some_iff.1 e0
    obtain ⟨fits1, -⟩ := windowOf_eq_some_iff.1 e1
    obtain ⟨fits2, -⟩ := windowOf_eq_some_iff.1 e2
    obtain ⟨fits3, -⟩ := windowOf_eq_some_iff.1 e3
    exact if_neg fun ⟨threshold, period⟩ => h ⟨threshold, period, fits0, fits1, fits2, fits3⟩
  case h_2 => rfl

theorem Settings.sameWindows_iff {x y : Settings} :
    x.sameWindows y = true ↔ x.w0 = y.w0 ∧ x.w1 = y.w1 ∧ x.w2 = y.w2 ∧ x.w3 = y.w3 := by
  simp [sameWindows, and_assoc]

namespace Part

variable {s : Part} {c : Cmd} {raw : RawSettings}

theorem serveSettingsWrite_invalid (h : ¬ SettingsFit raw) : s.serveSettingsWrite c raw = s.reply c .invalid .none := by
  unfold serveSettingsWrite
  rw [settingsOf_refused h]

section Fits

variable (h : SettingsFit raw)

include h

theorem serveSettingsWrite_fits : s.serveSettingsWrite c raw =
    if !(takenSettings raw).sameWindows s.md.settings ∧ s.scrub.state ≠ .idle then s.reply c .busy .none
    else (s.withMd { s.md with settings := takenSettings raw, changes := s.md.changes + 1 }).spareLowTest.autoScrub.record
      { c with state := .settling, change := s.md.changes + 1 } := by
  unfold serveSettingsWrite
  rw [settingsOf_taken h]
  rfl

/-- R140: a change of a window during a pass is refused. -/
theorem serveSettingsWrite_busy (changed : ¬ (takenSettings raw).sameWindows s.md.settings = true)
    (runs : s.scrub.state ≠ .idle) : s.serveSettingsWrite c raw = s.reply c .busy .none := by
  rw [serveSettingsWrite_fits h, if_pos ⟨by rw [Bool.eq_false_iff.2 changed]; rfl, runs⟩]

theorem serveSettingsWrite_takes (free : (takenSettings raw).sameWindows s.md.settings = true ∨ s.scrub.state = .idle) :
    s.serveSettingsWrite c raw =
      (s.withMd { s.md with settings := takenSettings raw, changes := s.md.changes + 1 }).spareLowTest.autoScrub.record
        { c with state := .settling, change := s.md.changes + 1 } := by
  rw [serveSettingsWrite_fits h, if_neg]
  rintro ⟨changed, runs⟩
  rcases free with same | idle
  · rw [same] at changed
    exact Bool.false_ne_true changed
  · exact runs idle

end Fits

end Part

/-- Settles O36: the ranges come before the windows that a running pass holds fast. -/
theorem settingsReadAndWrite : Obligations.SettingsReadAndWrite := by
  unfold Obligations.SettingsReadAndWrite
  intro s p t raw
  have scrub : (s.part.arrived p).scrub = s.part.scrub := s.part.arrived_scrub p
  have md : (s.part.arrived p).md = s.part.md := s.part.arrived_md p
  constructor
  case left =>
    intro ok
    exact request_answers (serve := fun s c => s.reply c .ok (.settings s.md.settings)) ok rfl (by rw [md]; rfl)
  case right =>
    intro ok fits inRange window
    have served {z : Part} (e : (s.part.arrived p).serveSettingsWrite (s.part.asked p t codeSettingsWrite) raw = z) :
        exec (.settingsWrite p t raw) s = .next (s.withPart (Part.follow s.part z)) :=
      request_answers (serve := fun s c => s.serveSettingsWrite c raw) ok rfl e
    refine ⟨fun outside => served (Part.serveSettingsWrite_invalid outside), fun inside => ?_⟩
    intro x same
    have windows : (takenSettings raw).sameWindows (s.part.arrived p).md.settings = true ↔ same := by
      rw [md]
      exact Settings.sameWindows_iff
    refine ⟨fun changed runs => ?_, fun free => ?_⟩
    · exact served (Part.serveSettingsWrite_busy inside (windows.not.2 changed) (by rw [scrub]; exact runs))
    · refine served ((Part.serveSettingsWrite_takes inside (free.imp windows.2 fun idle => by rw [scrub]; exact idle)).trans ?_)
      rw [md]
      rfl

end Sys2Proof.Machine
end

section
/-! PROOFS. Persistent metadata and start-up (chapter 9), and the records and notices of chapter 10: METADATA RESET, the append
of a fault record, the start-up reads, and the millisecond that a step without an event lets pass. -/

namespace Sys2Proof.Machine

/-! ### METADATA RESET (R105, R125, R165) -/

namespace Part

/-- R91, R179: the arrival of a frame changes the links and the sessions alone. -/
theorem arrived_blocks (s : Part) (p : Port) :
    ∃ links sess, s.arrived p = { s with links := links, sess := sess } := by
  unfold arrived rearm
  split <;> exact ⟨_, _, rfl⟩

variable {s : Part} {c : Cmd}

theorem serveMetadataReset_notSafe (h : s.md.device ≠ .safe) : s.serveMetadataReset c = s.reply c .notSafe .none :=
  if_pos h

theorem serveMetadataReset_busy (safe : s.md.device = .safe) (h : s.md.resetImage ≠ none) :
    s.serveMetadataReset c = s.reply c .busy .none :=
  (if_neg (not_not.2 safe)).trans (if_pos (Option.isSome_iff_ne_none.2 h))

theorem serveMetadataReset_takes (safe : s.md.device = .safe) (h : s.md.resetImage = none) :
    s.serveMetadataReset c = s.metadataResetEffect.reply c .ok .none :=
  (if_neg (not_not.2 safe)).trans (if_neg (by rw [h]; exact Bool.false_ne_true))

/-- R150: the reset leaves the engine IDLE, whatever it did. -/
theorem metadataResetEffect_scrub (s : Part) : s.metadataResetEffect.scrub.state = .idle := by
  rw [metadataResetEffect_eq]
  by_cases idle : s.scrub.state = .idle
  · exact (congrArg Scrub.state (if_pos idle)).trans idle
  · exact congrArg Scrub.state (if_neg idle)

end Part

/-- R125: the operations that METADATA RESET cuts off. -/
theorem MediaOp.ofBlock_iff (op : MediaOp) : op.ofBlock = true ↔
    (∃ r l, op = .portRead r l) ∨ (∃ i b l, op = .refreshRead i b l) ∨ (∃ b l, op = .scrubRead b l) ∨
      ∃ i b l d sp, op = .program i b l d sp := by
  cases op <;> simp [MediaOp.ofBlock]

/-- Settles O37: SAFE and the copy writes decide the answer; the effect is read off `Part.metadataResetEffect_eq`, in a part
that differs from the one before the arrival in the links and the sessions alone. -/
theorem metadataResetTakesEffect : Obligations.MetadataResetTakesEffect := by
  unfold Obligations.MetadataResetTakesEffect
  intro s p t ok
  have md : (s.part.arrived p).md = s.part.md := s.part.arrived_md p
  have served {z : Part} (e : (s.part.arrived p).serveMetadataReset (s.part.asked p t codeMetadataReset) = z) :
      exec (.metadataReset p t) s = .next (s.withPart (Part.follow s.part z)) := request_answers ok rfl e
  refine ⟨fun outside => ?notSafe, fun safe writes => ?busy, fun safe free => ?takes⟩
  case notSafe => exact served (Part.serveMetadataReset_notSafe (by rw [md]; exact outside))
  case busy => exact served (Part.serveMetadataReset_busy (by rw [md]; exact safe) (by rw [md]; exact writes))
  case takes =>
    refine ⟨served (Part.serveMetadataReset_takes (by rw [md]; exact safe) (by rw [md]; exact free)), ?_⟩
    obtain ⟨links, sess, arrives⟩ := s.part.arrived_blocks p
    rw [Part.metadataResetEffect_scrub, arrives, Part.metadataResetEffect_eq]
    refine ⟨rfl, rfl, rfl, rfl, rfl, rfl, rfl, rfl, rfl, rfl, rfl, rfl, fun y => ?spares, rfl, rfl, rfl, rfl, rfl, rfl, rfl,
      rfl, rfl, rfl, ⟨_, rfl, rfl, rfl⟩, rfl, rfl, rfl, rfl, safe, rfl, rfl, rfl, rfl, fun idle => ?idle,
      fun op z runs => ⟨fun block => ?cut, fun other => ?stays⟩⟩
    case spares => exact List.mem_filter.trans (and_congr_right fun _ => decide_eq_true_iff)
    case idle => exact congrArg (Option.map _) idle
    case cut =>
      refine (congrArg (Option.map _) runs).trans ?_
      rw [Option.map_some, op.ofBlock_iff.2 block, Bool.or_true]
    case stays =>
      refine (congrArg (Option.map _) runs).trans ?_
      rw [Option.map_some, Bool.eq_false_iff.2 (mt op.ofBlock_iff.1 other), Bool.or_false]

/-! ### Fault records and notices (R155, R168, R171 to R173) -/

section Notices

variable {l : Lc} {n : Nat} {b : Notice}

theorem Lc.takeNotice_enters (h : l.notices < 8) : l.takeNotice n b = { l.push (.notice l.lost n b) with lost := 0 } :=
  if_pos h

theorem Lc.takeNotice_lost (h : 8 ≤ l.notices) : l.takeNotice n b = { l with lost := min 65535 (l.lost + 1) } :=
  if_neg (not_lt.2 h)

theorem Part.putNotice_lc (s : Part) (p : Port) : (s.putNotice p b).lc p = (s.lc p).takeNotice s.time.ms b :=
  Part.lc_setLc_same ..

theorem Part.offerNotice_open {s : Part} {p : Port} (h : (s.session p).state = .opened) :
    s.offerNotice p b = s.putNotice p b := if_pos (decide_eq_true h)

theorem Part.offerNotice_not_open {s : Part} {p : Port} (h : (s.session p).state ≠ .opened) : s.offerNotice p b = s :=
  if_neg fun k => h (of_decide_eq_true k)

end Notices

/-- Settles O41: the append is its definition; a notice is told by the room for it and by the session. -/
theorem faultRecordsAndNotices : Obligations.FaultRecordsAndNotices := by
  unfold Obligations.FaultRecordsAndNotices
  refine ⟨fun s i => ?append, fun s p b => ?notice⟩
  case append =>
    intro total r
    rw [← List.drop_one]
    rfl
  case notice =>
    intro l x
    have taken : x = l.takeNotice s.time.ms b := s.putNotice_lc p
    refine ⟨fun room => ?enters, fun full => ?lost, fun q other => Part.lc_setLc_ne _ _ _ _ other, Part.offerNotice_open,
      Part.offerNotice_not_open⟩
    case enters =>
      rw [taken, Lc.takeNotice_enters room]
      exact ⟨rfl, rfl, Lc.notices_push l _⟩
    case lost =>
      rw [taken, Lc.takeNotice_lost full]
      exact ⟨rfl, rfl⟩

/-! ### When a copy is valid (R140, R153, R164) -/

/-- R140: the range of a window that a copy holds. -/
theorem Window.ok_iff (w : Window) : w.ok = true ↔ w.first ≤ w.last ∧ w.last < 262144 := by
  unfold Window.ok
  rw [Bool.and_eq_true, decide_eq_true_iff, decide_eq_true_iff]
  rfl

theorem Settings.ok_iff (x : Settings) : x.ok = true ↔ x.threshold ≤ 255 ∧ x.period ≤ 168 ∧
    x.w0.ok = true ∧ x.w1.ok = true ∧ x.w2.ok = true ∧ x.w3.ok = true := by
  simp only [Settings.ok, Bool.and_eq_true, decide_eq_true_iff, and_assoc]
  rfl

/-- R153, check 4. -/
theorem MetaImage.ok_iff (m : MetaImage) : m.ok = true ↔
    m.poison.length ≤ 512 ∧ (m.poison.map (·.block)).Nodup ∧ m.remap.length ≤ 256 ∧ (m.remap.map (·.block)).Nodup ∧
      (m.remap.map (·.spare)).Nodup ∧ (∀ r ∈ m.remap, ∃ x ∈ m.spares, x.idx = r.spare ∧ x.use = .inUse) ∧
      m.spares.countP (fun x => decide (x.use = .inUse)) = m.remap.length ∧ m.ring.length ≤ 32 ∧
      m.ring.length ≤ m.total ∧ m.settings.ok = true := by
  simp only [MetaImage.ok, Bool.and_eq_true, decide_eq_true_iff, List.all_eq_true, List.any_eq_true,
    and_assoc]
  rfl

/-- R107: a read that delivers what the location holds. -/
theorem Integrity.ne_uncorrectable_iff (o : Integrity) : o ≠ .uncorrectable ↔ o = .good ∨ o = .corrected := by
  cases o <;> decide

theorem copyValid_some_iff (o : Integrity) (k : MetaCopy) : copyValid o (some k) = true ↔
    (o = .good ∨ o = .corrected) ∧ byteSum (copyBytes k.generation k.image) + k.checksum = 0 ∧ k.generation ≠ 0 ∧
      k.image.ok = true := by
  simp only [copyValid, Bool.and_eq_true, decide_eq_true_iff, Integrity.ne_uncorrectable_iff, and_assoc]

/-! ### The start-up reads (R159 to R161) -/

namespace Part

variable {s : Part}

/-- R159: B has to be the newer one to be loaded. -/
theorem selectCopy_both {x y : MetaCopy} (hx : s.disk.copyA = some x) (hy : s.disk.copyB = some y) :
    s.selectCopy true true = if seqGt y.generation x.generation then (s.load .b y).startUpChanges none
      else (s.load .a x).startUpChanges none := by
  unfold selectCopy
  rw [hx, hy]

theorem selectCopy_a {x : MetaCopy} (hx : s.disk.copyA = some x) :
    s.selectCopy true false = (s.load .a x).startUpChanges (some .b) := by
  unfold selectCopy
  rw [hx]

theorem selectCopy_b {y : MetaCopy} (hy : s.disk.copyB = some y) :
    s.selectCopy false true = (s.load .b y).startUpChanges (some .a) := by
  unfold selectCopy
  rw [hy]

theorem selectCopy_none (s : Part) : s.selectCopy false false = s.loadNone := rfl

/-- R161: two valid copies, and no pass was cut off: nothing waits on a commit. -/
theorem startUpChanges_ready (h : s.md.scrubMark = false) : s.startUpChanges none = s.readyFromStartUp := by
  unfold startUpChanges
  rw [h]
  rfl

/-- R161: the record of a pass that was cut off, and the clearing of its mark. -/
theorem startUpChanges_interrupted (h : s.md.scrubMark = true) :
    let z := (s.appendFault { kind := .scrubInterrupted }).setMark false
    s.startUpChanges none = z.withMd { z.md with startUp := some z.md.changes } := by
  unfold startUpChanges
  rw [h]
  rfl

/-- R161: the record of the copy that was not valid. -/
theorem startUpChanges_bad (h : s.md.scrubMark = false) (c : CopyId) :
    let z := s.appendFault { kind := .metadataCopyBad, copy := some c }
    s.startUpChanges (some c) = z.withMd { z.md with startUp := some z.md.changes } := by
  unfold startUpChanges
  rw [h]
  rfl

/-- R160: the empty set with the two records of the copies that are not valid, before SAFE entry. -/
def blanked (s : Part) : Part :=
  ((({ s with
      integ := { s.integ with poison := [] }
      media := { s.media with remap := [], spares := [], spareLow := false }
      md := { s.md with settings := .default, scrubMark := false, current := none }
      faults := { ring := [], total := 0 }
      time := { s.time with hours := 0 } } : Part).appendFault { kind := .metadataCopyBad, copy := some .a }).appendFault
    { kind := .metadataCopyBad, copy := some .b })

theorem blanked_scrub (s : Part) : s.blanked.scrub = s.scrub := rfl

theorem loadNone_eq (s : Part) : s.loadNone = s.blanked.safeEntry false := rfl

/-- R163: SAFE entry with no pass under way leaves the fault list, the time and the media's contents, and of the metadata set
it touches nothing. -/
theorem safeEntry_still (h : s.scrub.state ≠ .running) (b : Bool) :
    (s.safeEntry b).faults = s.faults ∧ (s.safeEntry b).time = s.time ∧ (s.safeEntry b).disk = s.disk ∧
      (s.safeEntry b).integ = { s.integ with tally := [] } ∧
      (s.safeEntry b).md = { s.md with device := .safe, startUp := none } ∧
      (s.safeEntry b).media = { s.media with refresh := s.media.refresh.filter (·.started.isNone), refreshReads := [] } := by
  rw [safeEntry_eq]
  generalize hx : ({ s with links := _, md := _, cmds := _, sb := _, lease := _, integ := _, media := _ } : Part) = x
  have done : Keeps [.links, .cmds] x x.emitDecided := emitDecided_keeps x
  have scrub : x.emitDecided.scrub = s.scrub := (done.scrub (by decide)).trans (by rw [← hx])
  rw [stopPass_still (by rw [scrub]; exact h), done.faults (by decide), done.time (by decide), done.disk (by decide),
    done.integ (by decide), done.md (by decide), done.media (by decide)]
  subst hx
  exact ⟨rfl, rfl, rfl, rfl, rfl, rfl⟩

end Part

section Exec

variable {s : State} {o : Integrity}

/-- R159 -/
theorem exec_copyAReadEnd (held : s.part.isHeld = false) (reads : s.part.media.current = some { op := .copyRead .a }) :
    exec (.copyAReadEnd o) s = .next (s.withPart (Part.follow s.part (s.part.copyARead o))) := by
  refine event_answers held ?_
  simp only [reads]

/-- R159 to R161 -/
theorem exec_copyBReadEnd {a b : Bool} {z : Part} (held : s.part.isHeld = false)
    (reads : s.part.media.current = some { op := .copyRead .b }) (first : s.part.md.verdictA = some a)
    (second : copyValid o s.part.disk.copyB = b)
    (e : (s.part.idle.withMd { s.part.md with verdictA := none }).selectCopy a b = z) :
    exec (.copyBReadEnd o) s = .next (s.withPart (Part.follow s.part z)) := by
  refine event_answers held ?_
  simp only [reads]
  unfold Part.copyBRead
  rw [first, second]
  exact e

end Exec

/-- Settles O58: validity check by check, then the selection by the two verdicts and the generations. -/
theorem startUpReads : Obligations.StartUpReads := by
  unfold Obligations.StartUpReads
  refine ⟨fun o k => ⟨rfl, ?valid⟩, fun s o held => ⟨exec_copyAReadEnd held, fun a reads first => ?select, fun c k => ?load⟩⟩
  case valid =>
    rw [copyValid_some_iff, MetaImage.ok_iff, Settings.ok_iff]
    simp only [Window.ok_iff]
  case select =>
    intro z b gives
    have selects {a' b' : Bool} {u : Part} (ha : a = a') (hb : b = b') (e : z.selectCopy a' b' = u) : gives u :=
      exec_copyBReadEnd held reads (first.trans (congrArg some ha)) hb e
    refine ⟨fun ca cb copyA copyB validA validB => ⟨fun older => ?_, fun newer => ?_⟩,
      fun ca copyA validA badB => selects validA badB (Part.selectCopy_a (s := z) copyA),
      fun cb copyB badA validB => selects badA validB (Part.selectCopy_b (s := z) copyB),
      fun badA badB => ⟨selects badA badB z.selectCopy_none, ?_⟩⟩
    · exact selects validA validB ((Part.selectCopy_both (s := z) copyA copyB).trans (if_neg (Bool.eq_false_iff.1 older)))
    · exact selects validA validB ((Part.selectCopy_both (s := z) copyA copyB).trans (if_pos newer))
    · rw [z.loadNone_eq]
      refine ⟨(z.blanked.safeEntry_leaves false).1, fun idle => ?_⟩
      have still : z.blanked.scrub.state ≠ .running := by
        rw [z.blanked_scrub, show z.scrub.state = .idle from idle]
        decide
      obtain ⟨faults, time, disk, integ, md, media⟩ := Part.safeEntry_still still false
      rw [faults, time, disk, integ, md, media]
      exact ⟨rfl, rfl, rfl, rfl, rfl, rfl, rfl, rfl, rfl, rfl⟩
  case load =>
    refine ⟨rfl, rfl, rfl, rfl, rfl, rfl, rfl, rfl, rfl, fun clear => ?_, fun set => ?_, fun d clear => ?_⟩
    · rw [Part.startUpChanges_ready clear]
      exact ⟨rfl, rfl, rfl⟩
    · rw [Part.startUpChanges_interrupted set]
      exact ⟨rfl, rfl, rfl⟩
    · rw [Part.startUpChanges_bad clear]
      rfl

/-! ### A millisecond passes (R154, R158) -/

theorem State.tick_held {s : State} (h : s.part.isHeld = true) : s.tick = s := if_pos h

theorem State.tick_runs {s : State} (h : s.part.isHeld = false) :
    s.tick = { part := s.part.passMs, pending := s.part.passMs.due } := if_neg (Bool.eq_false_iff.1 h)

theorem Port.mem_all (p : Port) : p ∈ Port.all := by cases p <;> decide

/-- The events that the reached deadlines of a list bring. -/
theorem mem_map_filter {α : Type} (xs : List α) (P : α → Bool) (f : α → Instr) (i : Instr) :
    i ∈ (xs.filter P).map f ↔ ∃ a ∈ xs, i = f a ∧ P a = true := by
  rw [List.mem_map]
  exact exists_congr fun a => by rw [List.mem_filter, and_assoc, and_comm (a := P a = true), eq_comm]

namespace Part

theorem reached_iff (s : Part) (d : Option Nat) : s.reached d = true ↔ ∃ n, d = some n ∧ n ≤ s.now := by
  simp only [reached, Option.any_eq_true, decide_eq_true_iff]

/-- Log 3: what is due, kind by kind. -/
theorem mem_due_iff (s : Part) (i : Instr) : i ∈ s.due ↔
    (i = .lifetimeHoursIncrement ∧ s.time.hourDone < s.now / 3600000) ∨
      (∃ p d, i = .silenceExpiry p ∧ ((s.session p).state = .opened ∨ (s.session p).state = .closing) ∧
        (s.session p).deadline = some d ∧ d ≤ s.now) ∨
      (∃ c ∈ s.cmds.recs, ∃ d, i = .dataDeadlineExpiry c.key.port c.key.tag ∧ c.state = .filling ∧ c.deadline = some d ∧
        d ≤ s.now) ∨
      (∃ l ∈ s.lease.table, i = .leaseDeadlineExpiry l.id ∧ l.deadline ≤ s.now) ∨
      ∃ w ∈ s.lease.waits, i = .waitDeadlineExpiry w.key.port w.key.tag ∧ w.deadline ≤ s.now := by
  have hour : (i ∈ if s.time.hourDone < s.now / Config.msPerHour then [Instr.lifetimeHoursIncrement] else []) ↔
      i = .lifetimeHoursIncrement ∧ s.time.hourDone < s.now / 3600000 := by
    rw [List.mem_ite_nil_right, List.mem_singleton, and_comm]
    rfl
  unfold due
  simp only [List.mem_append, hour, mem_map_filter, Bool.and_eq_true, decide_eq_true_iff, armsSilence_iff, reached_iff,
    Port.mem_all, true_and, exists_and_left, or_assoc]

end Part

/-- Settles O2: the step on an empty queue is `State.tick`, and what waits after it is what is due. -/
theorem idleStepPassesAMillisecond : Obligations.IdleStepPassesAMillisecond := by
  unfold Obligations.IdleStepPassesAMillisecond
  intro x
  refine ⟨fun held => congrArg Host.Outcome.next (State.tick_held held), fun runs => ?_⟩
  intro ms y
  exact ⟨congrArg Host.Outcome.next (State.tick_runs runs), y.mem_due_iff⟩

end Sys2Proof.Machine
end

section
/-! PROOFS. STATUS, INFO and FAULT READ (chapter 10): three requests that report the part and leave it as it stands. -/

namespace Sys2Proof.Machine

/-- R50: a request that is served in every device state is accepted on an OPEN port. -/
theorem Part.accepts_opened {s : Part} {p : Port} {t : Tag} {code : BitVec 8} (served : servedInSafe code = true)
    (held : s.isHeld = false) (up : (s.lc p).low = false) (room : (s.lc p).responses < 32)
    (opened : (s.session p).state = .opened) (free : s.cmds.at? ⟨p, t⟩ = none) : s.accepts p t code :=
  ⟨held, up, room, .inr opened, free, fun _ => served⟩

/-! ### FAULT READ (R169) -/

theorem faultReadOk_iff {a n : BitVec 8} :
    faultReadOk a n = true ↔ a.toNat ≤ 31 ∧ 1 ≤ n.toNat ∧ n.toNat ≤ 32 := by
  simp only [faultReadOk, Bool.and_eq_true, decide_eq_true_iff, and_assoc]

namespace Part

variable {s : Part} {c : Cmd} {a n : BitVec 8}

theorem serveFaultRead_invalid (h : ¬ (a.toNat ≤ 31 ∧ 1 ≤ n.toNat ∧ n.toNat ≤ 32)) :
    s.serveFaultRead c a n = s.reply c .invalid .none := if_neg (faultReadOk_iff.not.2 h)

theorem serveFaultRead_records (h : a.toNat ≤ 31 ∧ 1 ≤ n.toNat ∧ n.toNat ≤ 32) : s.serveFaultRead c a n =
    s.reply c .ok (.faultRead s.faults.total s.faults.ring.length (s.faultsFrom a.toNat n.toNat)) :=
  if_pos (faultReadOk_iff.2 h)

theorem arrived_faults (s : Part) (p : Port) : (s.arrived p).faults = s.faults := by
  unfold arrived rearm; split <;> rfl

theorem arrived_faultsFrom (s : Part) (p : Port) (age max : Nat) :
    (s.arrived p).faultsFrom age max = s.faultsFrom age max := by
  unfold faultsFrom
  rw [arrived_faults]

theorem length_faultsFrom (s : Part) (age max : Nat) :
    (s.faultsFrom age max).length = min max (s.faults.ring.length - age) := by
  rw [faultsFrom, List.length_take, List.length_drop, List.length_reverse]

/-- The record of age 0 is the newest, which stands last in the ring. -/
theorem getElem?_faultsFrom (s : Part) {age max k : Nat} (h : k < (s.faultsFrom age max).length) :
    (s.faultsFrom age max)[k]? = s.faults.ring[s.faults.ring.length - 1 - (age + k)]? := by
  rw [length_faultsFrom] at h
  rw [faultsFrom, List.getElem?_take_of_lt (by omega), List.getElem?_drop, List.getElem?_reverse (by omega)]

end Part

/-- Settles O40: the two ranges decide the answer, whose records are read off the ring from its end. -/
theorem faultReadReturnsRecords : Obligations.FaultReadReturnsRecords := by
  unfold Obligations.FaultReadReturnsRecords
  intro s p t a n held up room opened free answer
  have ok : s.part.accepts p t codeFaultRead := Part.accepts_opened rfl held up room opened free
  refine ⟨fun outside => ?invalid, fun start low high =>
    ⟨s.part.faultsFrom a.toNat n.toNat, ?records, ?length, ?ages⟩⟩
  case invalid => exact request_answers ok rfl (Part.serveFaultRead_invalid (by omega))
  case records =>
    refine request_answers ok rfl ?_
    rw [Part.serveFaultRead_records ⟨start, low, high⟩, Part.arrived_faults, Part.arrived_faultsFrom]
    rfl
  case length => exact s.part.length_faultsFrom _ _
  case ages => exact fun k inside => s.part.getElem?_faultsFrom inside

/-! ### INFO (R177) -/

/-- Settles O39: INFO is served in every device state, and its record is a constant. -/
theorem infoIsFixed : Obligations.InfoIsFixed := by
  unfold Obligations.InfoIsFixed
  refine ⟨fun s p t held up room opened free => ?answer, rfl⟩
  have ok : s.part.accepts p t codeInfo := Part.accepts_opened rfl held up room opened free
  exact request_answers ok rfl rfl

/-! ### STATUS (R176) -/

namespace Staging

/-- R17: a frame is attributed to its writer unless it is CLEAN. -/
theorem attr_eq (b : Staging) (w : Writer) :
    b.attr w = b.frames.countP fun f => decide (f.state ≠ .clean ∧ f.writer = some w) :=
  congrArg (List.countP · b.frames) (funext fun _ => (Bool.decide_and ..).symm)

/-- R1: a frame that is not FREE is in one of the four other states. -/
theorem count_states (b : Staging) :
    b.count .filling + b.count .dirty + b.count .programming + b.count .clean = b.frames.length := by
  unfold count
  induction b.frames with
  | nil => rfl
  | cons f fs ih =>
    simp only [List.countP_cons, List.length_cons]
    cases f.state <;> simp only [reduceCtorEq, decide_true, decide_false, if_true, Bool.false_eq_true, if_false] <;> omega

end Staging

namespace Part

/-- R1: there are 128 frames, so that no more of them are in use. -/
theorem frames_length_le {s : Part} (h : s.frameLaw) : s.sb.frames.length ≤ 128 := by
  obtain ⟨rising, below, -⟩ := h
  have nodup : (s.sb.frames.map (·.idx)).Nodup := List.pairwise_map.2 (rising.imp Nat.ne_of_lt)
  have inside : s.sb.frames.map (·.idx) ⊆ List.range 128 :=
    List.forall_mem_map.2 fun f hf => List.mem_range.2 (below f hf)
  have le := (nodup.subperm inside).length_le
  rwa [List.length_map, List.length_range] at le

theorem arrived_lc (s : Part) (p : Port) : (s.arrived p).lc p = { s.lc p with framing := .hunt } := by
  have rearmed (x : Part) : (x.rearm p).lc p = x.lc p := by unfold rearm; split <;> rfl
  exact (rearmed _).trans (lc_setLc_same ..)

/-- The arrival of the STATUS moves the receive framing and a silence deadline, of which the record tells nothing. -/
theorem arrived_statusOf (s : Part) (p : Port) : (s.arrived p).statusOf p = s.statusOf p := by
  have link : (s.arrived p).lc p = { s.lc p with framing := .hunt } := s.arrived_lc p
  obtain ⟨d, session⟩ := s.arrived_session p p
  obtain ⟨links, sess, arrives⟩ := s.arrived_blocks p
  rw [arrives] at link session ⊢
  unfold statusOf
  rw [link, session]
  rfl

theorem statusOf_frames {s : Part} (p : Port) (h : s.frameLaw) :
    (s.statusOf p).free + (s.statusOf p).filling + (s.statusOf p).dirty + (s.statusOf p).programming +
      (s.statusOf p).clean = 128 := by
  have fits : s.sb.frames.length ≤ 128 := frames_length_le h
  have states := s.sb.count_states
  show 128 - s.sb.frames.length + s.sb.count .filling + s.sb.count .dirty + s.sb.count .programming + s.sb.count .clean = 128
  omega

end Part

/-- Settles O38: the record is that of the part before the arrival; of its fields the attribution counts and the generation
are spelt otherwise than in the model. -/
theorem statusReportsTheState : Obligations.StatusReportsTheState := by
  unfold Obligations.StatusReportsTheState
  refine ⟨fun s p t ok => ?answer, fun x p law => Part.statusOf_frames p law⟩
  intro x l frames written r
  have reports : x.statusOf p = r := by
    have refresh : x.sb.attr .refresh = written .refresh := x.sb.attr_eq _
    have attributed : x.sb.attr (.port p) = written (.port p) := x.sb.attr_eq _
    have generation : (x.md.current.map (·.2)).getD 0 = r.generation := by
      dsimp only [r]
      cases x.md.current <;> rfl
    unfold Part.statusOf
    rw [refresh, attributed, generation]
    rfl
  refine ⟨request_answers ok rfl ?_, reports⟩
  exact congrArg (fun y => (s.part.arrived p).sendCompletion p t codeStatus .ok (.status y))
    ((s.part.arrived_statusOf p).trans reports)

end Sys2Proof.Machine
end

section
/-! PROOFS. The links (chapter 11): what no event takes from a transmit queue or a shut port, what each byte of a frame does,
and the frames that spell events. -/

namespace Sys2Proof.Machine

/-! ### Transmit queues and sessions (R89, R94, R183 to R185) -/

section Changes

variable {i : Instr}

theorem drop_not_mem_changes (sent : ∀ p, i ≠ .finishSending p) (broken : ∀ p, i ≠ .linkReset p) (on : i ≠ .powerOn)
    (reset : i ≠ .reset) (hold : ∀ x, i ≠ .partHeld x) : .drop ∉ changes i := by
  unfold changes
  split
  case h_3 p => exact absurd rfl (sent p)
  case h_4 p => exact absurd rfl (broken p)
  case h_11 => exact absurd rfl on
  case h_12 => exact absurd rfl reset
  case h_13 x => exact absurd rfl (hold x)
  all_goals decide

/-- Besides power, reset and a hold, only an OPEN and received bytes may open a port. -/
theorem opens_not_mem_changes (request : ∀ p k x a q r, i ≠ .openReq p k x a q r) (bytes : ∀ p bs, i ≠ .badFrame p bs)
    (on : i ≠ .powerOn) (reset : i ≠ .reset) (hold : ∀ x, i ≠ .partHeld x) : .opens ∉ changes i := by
  unfold changes
  split
  case h_1 => exact absurd rfl (request _ _ _ _ _ _)
  case h_2 => exact absurd rfl (bytes _ _)
  case h_11 => exact absurd rfl on
  case h_12 => exact absurd rfl reset
  case h_13 x => exact absurd rfl (hold x)
  all_goals decide

end Changes

namespace Part

variable {s : Part} {p : Port}

/-- R158: the reset values have every port CLOSED. -/
theorem cleared_shut (x : Pins) : ((s.cleared x).session p).shut := Or.inl (by rw [cleared_session])

theorem startUp_shut : (s.startUp.session p).shut := by
  rw [startUp_eq]
  exact cleared_shut (s := s) {}

/-- R158: power-on. -/
theorem evPowerOn_shut (shut : (s.session p).shut) : (s.evPowerOn.session p).shut := by
  unfold evPowerOn
  split
  · exact startUp_shut
  · exact shut

theorem evReset_shut (shut : (s.session p).shut) : (s.evReset.session p).shut := by
  unfold evReset
  split
  · exact startUp_shut
  · exact shut

/-- R158: a hold clears the sessions, unless the part is held already. -/
theorem evPartHeld_shut (x : Pin) (shut : (s.session p).shut) : ((s.evPartHeld x).session p).shut := by
  unfold evPartHeld
  dsimp only
  split
  · exact shut
  · exact cleared_shut _

end Part

/-- R89, R94: only OPEN opens a port; power and reset close every port. -/
theorem exec_shut {i : Instr} {s t : State} (h : exec i s = .next t) (request : ∀ p k x a q r, i ≠ .openReq p k x a q r)
    (bytes : ∀ p bs, i ≠ .badFrame p bs) (p : Port) (shut : (s.part.session p).shut) : (t.part.session p).shut := by
  by_cases on : i = .powerOn
  · subst on; cases h
    exact Part.evPowerOn_shut shut
  by_cases reset : i = .reset
  · subst reset; cases h
    exact Part.evReset_shut shut
  by_cases hold : ∃ x, i = .partHeld x
  · obtain ⟨x, rfl⟩ := hold
    cases h
    exact Part.evPartHeld_shut x shut
  · exact (exec_keeps i s t h).shut (opens_not_mem_changes request bytes on reset fun x e => hold ⟨x, e⟩) p shut

/-- Settles O13: what `changes` says of each event; power, reset and the hold, of whose sessions it says nothing, leave every
port CLOSED or as it was. -/
theorem queuesAndSessionsFrame : Obligations.QueuesAndSessionsFrame := by
  unfold Obligations.QueuesAndSessionsFrame
  intro i s t h
  exact ⟨fun sent broken on reset hold => (exec_keeps i s t h).txq (drop_not_mem_changes sent broken on reset hold),
    fun request bytes => exec_shut h request bytes⟩

/-! ### What each byte does (R179) -/

/-- The bytes of `input` as the receiver examines them from `fr` on, with the bound that the model gives them. -/
def examine (p : Port) (fr : Framing) (input : List Byte) : List RxItem × Framing :=
  receive p (receiveBound fr input) fr input

/-- What the receiver finds next, before what it finds after it. -/
def found (i : RxItem) (r : List RxItem × Framing) : List RxItem × Framing := (i :: r.1, r.2)

section Examine

variable {p : Port} {b : Byte} {n : Nat} {held input : List Byte}

theorem examine_nil (p : Port) (fr : Framing) : examine p fr [] = ([], fr) := by
  unfold examine
  cases receiveBound fr [] with
  | zero => rfl
  | succ n => cases fr <;> rfl

/-- One byte in HUNT: the rest is examined from the framing that the byte leads to. -/
theorem examine_hunt (p : Port) (b : Byte) (input : List Byte) :
    examine p .hunt (b :: input) = examine p (if b = 0xA5#8 then .header [] else .hunt) input := by
  obtain ⟨n, bound, enough⟩ := receiveBound_succ p .hunt b input
  obtain ⟨hunt, header⟩ := receiveNeed_hunt_cons b input
  unfold examine
  rw [bound, receive]
  split
  · exact enough _ _ header
  · exact enough _ _ hunt

theorem examine_hunt_other (h : b ≠ 0xA5#8) : examine p .hunt (b :: input) = examine p .hunt input := by
  rw [examine_hunt, if_neg h]

theorem examine_hunt_delimiter : examine p .hunt (0xA5#8 :: input) = examine p (.header []) input := by
  rw [examine_hunt, if_pos rfl]

/-- A framing that is not HUNT: what one byte leads to stays within the bound. -/
theorem examine_frame_bound {fr : Framing} (p : Port) (frame : fr ≠ .hunt) (b : Byte) (input : List Byte) :
    ∃ n, receiveBound fr (b :: input) = n + 1 ∧
      (∀ g : Framing, g.bytes = fr.bytes ++ [b] → receive p n g input = examine p g input) ∧
      receive p n .hunt (fr.bytes ++ [b] ++ input) = examine p .hunt (fr.bytes ++ [b] ++ input) ∧
      receive p n .hunt input = examine p .hunt input := by
  obtain ⟨n, bound, enough⟩ := receiveBound_succ p fr b input
  obtain ⟨goesOn, again, ends⟩ := receiveNeed_frame_cons frame b input
  exact ⟨n, bound, fun g hg => enough _ _ (goesOn g hg), enough _ _ again, enough _ _ ends⟩

theorem examine_header_first : examine p (.header []) (b :: input) = examine p (.header [b]) input := by
  obtain ⟨n, bound, goesOn, -, -⟩ := examine_frame_bound p (fr := .header []) (by decide) b input
  rw [examine, bound, receive]
  exact goesOn (.header [b]) rfl

/-- A length that no frame has is hunted again from its first byte. -/
theorem examine_length_bad {a : Byte} (h : ofLe [a, b] = 0 ∨ 515 < ofLe [a, b]) :
    examine p (.header [a]) (b :: input) = found .bad (examine p .hunt (a :: b :: input)) := by
  obtain ⟨n, bound, -, again, -⟩ := examine_frame_bound p (fr := .header [a]) (by simp) b input
  rw [examine, bound, receive]
  refine (if_neg (by simp)).trans ((if_pos h).trans ?_)
  exact congrArg (found .bad) again

theorem examine_length_good {a : Byte} (h : ¬ (ofLe [a, b] = 0 ∨ 515 < ofLe [a, b])) :
    examine p (.header [a]) (b :: input) = examine p (.body (ofLe [a, b]) [a, b]) input := by
  obtain ⟨n, bound, goesOn, -, -⟩ := examine_frame_bound p (fr := .header [a]) (by simp) b input
  rw [examine, bound, receive]
  refine (if_neg (by simp)).trans ((if_neg h).trans ?_)
  exact goesOn (.body (ofLe [a, b]) [a, b]) rfl

theorem examine_body_more (h : (held ++ [b]).length < 2 + n + 4) :
    examine p (.body n held) (b :: input) = examine p (.body n (held ++ [b])) input := by
  obtain ⟨m, bound, goesOn, -, -⟩ := examine_frame_bound p (fr := .body n held) (by simp) b input
  rw [examine, bound, receive]
  exact (if_pos h).trans (goesOn (.body n (held ++ [b])) rfl)

/-- The last byte of a frame: the checks tell from where the rest is examined. -/
theorem examine_body_last (h : 2 + n + 4 ≤ (held ++ [b]).length) :
    examine p (.body n held) (b :: input) = match checkFrame p n (held ++ [b]) with
      | .badCrc => found .bad (examine p .hunt (held ++ [b] ++ input))
      | .bad => found .bad (examine p .hunt input)
      | .valid i => found (.valid i) (examine p .hunt input) := by
  obtain ⟨m, bound, -, again, ends⟩ := examine_frame_bound p (fr := .body n held) (by simp) b input
  rw [examine, bound, receive]
  refine (if_neg (not_lt.2 h)).trans ?_
  cases checkFrame p n (held ++ [b]) with
  | badCrc => exact congrArg (found .bad) again
  | bad => exact congrArg (found .bad) ends
  | valid i => exact congrArg (found (.valid i)) ends

/-- A frame whose bytes have all come is checked. -/
theorem examine_body_whole {i : Instr} {rest : List Byte} (valid : checkFrame p n (held ++ rest) = .valid i) :
    rest ≠ [] → held.length + rest.length = 2 + n + 4 →
      examine p (.body n held) (rest ++ input) = found (.valid i) (examine p .hunt input) := by
  induction rest generalizing held with
  | nil => exact fun ne => absurd rfl ne
  | cons b rest ih =>
    intro _ whole
    rw [List.append_cons] at valid
    rw [List.length_cons] at whole
    rw [List.cons_append]
    by_cases last : rest = []
    · subst last
      rw [List.append_nil] at valid
      rw [examine_body_last (by simp at whole ⊢; omega), valid]
      rfl
    · have more : 0 < rest.length := List.length_pos_iff.2 last
      rw [examine_body_more (by simp; omega)]
      exact ih valid last (by simp; omega)

end Examine


/-! ### The checks of a complete frame (R180)

The bytes after a delimiter: two length bytes `a` and `b`, the kind, what follows it (`rest`), and the CRC. -/

section Checks

variable {p : Port} {a b kind : Byte} {rest crc : List Byte}

theorem covered_take : (a :: b :: kind :: rest ++ crc).take (2 + (1 + rest.length)) = a :: b :: kind :: rest :=
  List.take_left' (by simp only [List.length_cons]; omega)

theorem covered_drop : (a :: b :: kind :: rest ++ crc).drop (2 + (1 + rest.length)) = crc :=
  List.drop_left' (by simp only [List.length_cons]; omega)

theorem checkFrame_badCrc (p : Port) (wrong : ofLe crc ≠ (crc32 (a :: b :: kind :: rest)).toNat) :
    checkFrame p (1 + rest.length) (a :: b :: kind :: rest ++ crc) = .badCrc := by
  unfold checkFrame
  rw [covered_take, covered_drop]
  exact if_pos wrong

/-! Past the CRC, the kind decides what else is checked. -/

theorem checkFrame_keepalive (right : ofLe crc = (crc32 (a :: b :: 0x03#8 :: rest)).toNat) :
    checkFrame p (1 + rest.length) (a :: b :: 0x03#8 :: rest ++ crc) =
      if 1 + rest.length = 1 then .valid (.keepalive p) else .bad := by
  unfold checkFrame
  rw [covered_take, covered_drop]
  exact (if_neg (not_not.2 right)).trans (if_pos rfl)

theorem checkFrame_unknown (right : ofLe crc = (crc32 (a :: b :: kind :: rest)).toNat)
    (unknown : kind ∉ [0x01#8, 0x02#8, 0x03#8]) :
    checkFrame p (1 + rest.length) (a :: b :: kind :: rest ++ crc) = .bad := by
  simp only [List.mem_cons, List.not_mem_nil, or_false, not_or] at unknown
  obtain ⟨request, data, keepalive⟩ := unknown
  unfold checkFrame
  rw [covered_take, covered_drop]
  exact (if_neg (not_not.2 right)).trans ((if_neg keepalive).trans ((if_neg data).trans (if_neg request)))

theorem checkFrame_data {index tag : Byte} {t : Tag} {d : BlockData} (known : tagOf tag = some t)
    (right : ofLe crc = (crc32 (a :: b :: 0x02#8 :: tag :: index :: d.toList)).toNat) :
    checkFrame p (1 + (tag :: index :: d.toList).length) (a :: b :: 0x02#8 :: tag :: index :: d.toList ++ crc) =
      .valid (.dataIn p t index d) := by
  have block : d.toList.toArray.size = 512 := by simp
  unfold checkFrame
  rw [covered_take, covered_drop]
  refine (if_neg (not_not.2 right)).trans ((if_neg (by decide)).trans ((if_pos rfl).trans ((dif_pos block).trans ?_)))
  rw [known]
  rfl

/-- R180: a DATA-IN frame of another length, or with another tag byte. -/
theorem checkFrame_data_bad (right : ofLe crc = (crc32 (a :: b :: 0x02#8 :: rest)).toNat)
    (fails : rest.length ≠ 514 ∨ 16 ≤ (rest.getD 0 0).toNat) :
    checkFrame p (1 + rest.length) (a :: b :: 0x02#8 :: rest ++ crc) = .bad := by
  unfold checkFrame
  rw [covered_take, covered_drop]
  refine (if_neg (not_not.2 right)).trans ((if_neg (by decide)).trans ((if_pos rfl).trans ?_))
  match rest with
  | [] | [_] => rfl
  | tag :: index :: data =>
    by_cases block : data.toArray.size = 512
    · have unknown : tagOf tag = none := tagOf_none (fails.resolve_left (by simpa using block))
      exact (dif_pos block).trans (by rw [unknown])
    · exact dif_neg block

theorem checkFrame_request {tag code : Byte} {fields : List Byte} {t : Tag} (known : tagOf tag = some t)
    (size : (requestSize code).all (· = fields.length))
    (right : ofLe crc = (crc32 (a :: b :: 0x01#8 :: tag :: code :: fields)).toNat) :
    checkFrame p (1 + (tag :: code :: fields).length) (a :: b :: 0x01#8 :: tag :: code :: fields ++ crc) =
      .valid (requestOf p t code fields) := by
  unfold checkFrame
  rw [covered_take, covered_drop]
  refine (if_neg (not_not.2 right)).trans ((if_neg (by decide)).trans ((if_neg (by decide)).trans ((if_pos rfl).trans
    ((if_pos size).trans ?_))))
  rw [known]

/-- R180, R187: a REQUEST frame without a code, of another length than its code's, or with another tag byte. -/
theorem checkFrame_request_bad (right : ofLe crc = (crc32 (a :: b :: 0x01#8 :: rest)).toNat)
    (fails : (rest.length < 2 ∨ ∃ size, requestSize (rest.getD 1 0) = some size ∧ rest.length ≠ 2 + size) ∨
      16 ≤ (rest.getD 0 0).toNat) :
    checkFrame p (1 + rest.length) (a :: b :: 0x01#8 :: rest ++ crc) = .bad := by
  unfold checkFrame
  rw [covered_take, covered_drop]
  refine (if_neg (not_not.2 right)).trans ((if_neg (by decide)).trans ((if_neg (by decide)).trans ((if_pos rfl).trans ?_)))
  match rest with
  | [] | [_] => rfl
  | tag :: code :: fields =>
    by_cases size : (requestSize code).all (· = fields.length)
    · have unknown : tagOf tag = none := by
        refine tagOf_none (fails.resolve_left ?_)
        rintro (short | ⟨k, isSize, other⟩)
        · simp at short
        · have isCode : requestSize code = some k := isSize
          rw [isCode] at size
          simp at size other
          omega
      exact (if_pos size).trans (by rw [unknown])
    · exact if_neg size

end Checks

/-- R180: what a frame of kind `kind` whose CRC is right can fail by; `rest` is what follows its kind. -/
def failsPastCrc (kind : Byte) (rest : List Byte) : Prop :=
  let n := 1 + rest.length
  kind ∉ [0x01#8, 0x02#8, 0x03#8] ∨ (kind = 0x03#8 ∧ n ≠ 1) ∨ (kind = 0x02#8 ∧ n ≠ 515) ∨
    (kind = 0x01#8 ∧ (n < 3 ∨ ∃ size, requestSize (rest.getD 1 0) = some size ∧ n ≠ 3 + size)) ∨
    (kind ≠ 0x03#8 ∧ 16 ≤ (rest.getD 0 0).toNat)

section Checks

variable {p : Port} {a b kind : Byte} {rest crc : List Byte}

/-- R187: a tag byte below 16 is a tag. -/
theorem tagOf_known {x : Byte} (h : ¬ 16 ≤ x.toNat) : ∃ t, tagOf x = some t :=
  ⟨⟨x.toNat, not_le.1 h⟩, tagOf_eq rfl⟩

theorem checkFrame_fails (right : ofLe crc = (crc32 (a :: b :: kind :: rest)).toNat) (fails : failsPastCrc kind rest) :
    checkFrame p (1 + rest.length) (a :: b :: kind :: rest ++ crc) = .bad := by
  obtain unknown | ⟨rfl, long⟩ | ⟨rfl, other⟩ | ⟨rfl, other⟩ | ⟨tagged, outside⟩ := fails
  · exact checkFrame_unknown right unknown
  · exact (checkFrame_keepalive right).trans (if_neg long)
  · exact checkFrame_data_bad right (.inl (by omega))
  · refine checkFrame_request_bad right (.inl (other.imp (by omega) ?_))
    exact fun ⟨size, isSize, ne⟩ => ⟨size, isSize, by omega⟩
  · by_cases data : kind = 0x02#8
    · subst data
      exact checkFrame_data_bad right (.inr outside)
    · by_cases request : kind = 0x01#8
      · subst request
        exact checkFrame_request_bad right (.inr outside)
      · exact checkFrame_unknown right (by simp [tagged, data, request])

theorem checkFrame_passes (right : ofLe crc = (crc32 (a :: b :: kind :: rest)).toNat) (passes : ¬ failsPastCrc kind rest) :
    ∃ i, checkFrame p (1 + rest.length) (a :: b :: kind :: rest ++ crc) = .valid i := by
  simp only [failsPastCrc, not_or] at passes
  obtain ⟨known, keepalive, data, request, tag⟩ := passes
  simp only [List.mem_cons, List.not_mem_nil, or_false, not_not] at known
  obtain rfl | rfl | rfl := known
  · have filled : ¬ (1 + rest.length < 3 ∨
        ∃ size, requestSize (rest.getD 1 0) = some size ∧ 1 + rest.length ≠ 3 + size) :=
      fun h => request ⟨rfl, h⟩
    rw [not_or] at filled
    obtain ⟨long, size⟩ := filled
    match rest with
    | [] | [_] => exact absurd (by simp) long
    | tagByte :: code :: fields =>
      obtain ⟨t, isTag⟩ := tagOf_known fun h => tag ⟨by decide, h⟩
      refine ⟨_, checkFrame_request isTag ?_ right⟩
      cases isSize : requestSize code with
      | none => rfl
      | some k =>
        have whole : 1 + (tagByte :: code :: fields).length = 3 + k := by_contra fun ne => size ⟨k, isSize, ne⟩
        simp at whole ⊢
        omega
  · have whole : 1 + rest.length = 515 := by_contra fun h => data ⟨rfl, h⟩
    match rest with
    | [] | [_] => simp at whole
    | tagByte :: index :: block =>
      obtain ⟨t, isTag⟩ := tagOf_known fun h => tag ⟨by decide, h⟩
      have size : block.toArray.size = 512 := by simp at whole ⊢; omega
      exact ⟨_, checkFrame_data (d := ⟨block.toArray, size⟩) isTag right⟩
  · exact ⟨_, (checkFrame_keepalive right).trans (if_pos (by_contra fun h => keepalive ⟨rfl, h⟩))⟩

/-- R180: what the checks come to, told by the CRC and by what fails past it. -/
theorem checkFrame_iff (p : Port) (a b kind : Byte) (rest crc : List Byte) :
    let right := ofLe crc = (crc32 (a :: b :: kind :: rest)).toNat
    (checkFrame p (1 + rest.length) (a :: b :: kind :: rest ++ crc) = .badCrc ↔ ¬ right) ∧
      (checkFrame p (1 + rest.length) (a :: b :: kind :: rest ++ crc) = .bad ↔ right ∧ failsPastCrc kind rest) := by
  intro right
  by_cases crcRight : right
  · by_cases fails : failsPastCrc kind rest
    · rw [checkFrame_fails crcRight fails]
      simp [crcRight, fails]
    · obtain ⟨i, valid⟩ := checkFrame_passes (p := p) crcRight fails
      rw [valid]
      simp [crcRight, fails]
  · rw [checkFrame_badCrc p crcRight]
    simp [crcRight]

end Checks

/-! ### Received bytes as events (R179 to R181) -/

/-- R180, R181: a frame that fails counts at the port's link controller. -/
theorem Part.takeItem_bad (x : Part) (p : Port) :
    Part.takeItem p x .bad = x.setLc p { x.lc p with errors := (x.lc p).errors + 1 } := rfl

/-- R182: what the receiver passes on for a frame is the event that the frame spells. -/
theorem exec_passOn {i : Instr} (spelt : (frameOf i).isSome = true) (x : Part) (p : Port) (cs : List Instr) :
    exec i { part := x, pending := cs } = .next { part := Part.takeItem p x (.valid i), pending := cs } := by
  cases i with
  | openReq | closeReq | fence | unfence | read | write | mark | flush | abort | leaseAcquire | leaseRenew
  | leaseRelease | leaseQuery | scrubStart | scrubStop | settingsRead | settingsWrite | metadataReset | status | info
  | faultRead | undefinedKind | dataIn | keepalive => rfl
  | badFrame | characterError | linkReset | breakEnd | pnrdyRise | finishSending | heldFrameEntry | silenceExpiry
  | dataDeadlineExpiry | leaseDeadlineExpiry | waitDeadlineExpiry | waitListGrant | admission | heldReadRelease
  | closeDrainEnd | drainingEnd | mediaGrant | portReadEnd | refreshReadEnd | scrubReadEnd | scrubRoomRetry
  | scrubPassBegin | autoScrubStart | refreshStart | programFirstAttemptEnd | programSecondAttemptEnd | commitEnd
  | commitWaitRelease | waitSetComplete | markComplete | settingsWriteComplete | lifetimeHoursIncrement | powerOn
  | reset | partHeld | copyAReadEnd | copyBReadEnd | resetCopyWriteEnd | pnrdyFall | pnrxdReturns | delimiterReceived
  | heldInputChange => exact absurd spelt Bool.false_ne_true

/-- R179, R181: what the receiver has found is taken in order, and the framing that it has come to is kept. -/
def Part.received (s : Part) (p : Port) (r : List RxItem × Framing) : Part :=
  let y := r.1.foldl (Part.takeItem p) s
  y.setLc p { y.lc p with framing := r.2 }

section Exec

variable {s : State} {p : Port} {bs : List Byte}

/-- R179: bytes on a line that is not low are examined from the present framing on. -/
theorem exec_badFrame (runs : s.part.isHeld = false) (up : (s.part.lc p).low = false) :
    exec (.badFrame p bs) s = .next (s.withPart (s.part.received p (examine p (s.part.lc p).framing bs))) := by
  have taken : ¬ (s.part.isHeld || (s.part.lc p).low) = true := by simp [runs, up]
  exact congrArg (fun y => Host.Outcome.next (s.withPart y)) (if_neg taken)

/-- R180, R181: the last byte of a frame that fails its checks past the CRC. -/
theorem exec_badFrame_last {n : Nat} {held : List Byte} {b : Byte} (runs : s.part.isHeld = false)
    (up : (s.part.lc p).low = false) (body : (s.part.lc p).framing = .body n held)
    (last : held.length + 1 = 2 + n + 4) (bad : checkFrame p n (held ++ [b]) = .bad) :
    exec (.badFrame p [b]) s = .next (s.withPart
      (s.part.setLc p { s.part.lc p with framing := .hunt, errors := (s.part.lc p).errors + 1 })) := by
  have whole : 2 + n + 4 ≤ (held ++ [b]).length := by rw [List.length_append, List.length_singleton, last]
  rw [exec_badFrame runs up, body, examine_body_last whole, bad, examine_nil]
  simp only [found, Part.received, List.foldl_cons, List.foldl_nil, Part.takeItem_bad, Part.lc_setLc_same,
    Part.setLc_setLc]

end Exec

/-- Settles O43: the events of received bytes, then the receiver byte by byte, then the checks of a complete frame. -/
theorem receivedBytesAreExamined : Obligations.ReceivedBytesAreExamined := by
  unfold Obligations.ReceivedBytesAreExamined
  refine ⟨fun s p bs runs up => ⟨exec_badFrame runs up, ?last⟩, fun x p => x.takeItem_bad p,
    fun i x p cs spelt => exec_passOn spelt x p cs, ?bytes, ?checks⟩
  case last =>
    rintro n held b body rfl last bad
    exact exec_badFrame_last runs up body last bad
  case bytes =>
    refine fun p a b n held input => ⟨examine_nil p, examine_hunt_other, examine_hunt_delimiter, examine_header_first,
      ⟨examine_length_bad, fun low high => examine_length_good (by omega)⟩,
      ⟨examine_body_more, fun whole => ⟨fun check => ?_, fun check => ?_, fun i check => ?_⟩⟩⟩
    all_goals
      refine (examine_body_last whole).trans ?_
      rw [check]
      rfl
  case checks =>
    intro p a b kind rest crc _
    exact checkFrame_iff p a b kind rest crc

/-! ### Numbers on the wire (R187) -/

@[simp] theorem le_length (n x : Nat) : (le n x).length = n := by
  simp [le]

theorem le_succ (n x : Nat) : le (n + 1) x = BitVec.ofNat 8 x :: le n (x >>> 8) := by
  simp only [le, List.range_succ_eq_map, List.map_cons, List.map_map, Nat.mul_zero, Nat.shiftRight_zero]
  refine congrArg _ (List.map_congr_left fun i _ => ?_)
  rw [Function.comp_apply, ← Nat.shiftRight_add, Nat.mul_succ, Nat.add_comm]

/-- Bytes spell a number least significant first, and are read back so. -/
theorem ofLe_le (n : Nat) : ∀ x, ofLe (le n x) = x % 256 ^ n := by
  induction n with
  | zero => exact fun x => (Nat.mod_one x).symm
  | succ n ih =>
    intro x
    calc ofLe (le (n + 1) x)
      _ = x % 256 + 256 * ofLe (le n (x >>> 8)) := by rw [le_succ, ofLe, BitVec.toNat_ofNat]
      _ = x % 256 + 256 * (x / 256 % 256 ^ n) := by rw [ih, Nat.shiftRight_eq_div_pow]
      _ = x % 256 ^ (n + 1) := by rw [pow_succ', Nat.mod_mul]

theorem ofLe_le_toNat {w : Nat} (n : Nat) (x : BitVec w) (h : 2 ^ w = 256 ^ n) : ofLe (le n x.toNat) = x.toNat := by
  rw [ofLe_le, Nat.mod_eq_of_lt (h ▸ x.isLt)]

theorem le_byte (x : Byte) : le 1 x.toNat = [x] := by
  rw [le_succ, BitVec.ofNat_toNat, BitVec.setWidth_eq]
  rfl

section Fields

variable {bs : List Byte} {o : Nat}

/-! A field is read back where the bytes hold it. -/

theorem u8At_of (x : BitVec 8) (h : (bs.drop o).take 1 = [x]) : u8At bs o = x := by
  rw [u8At, fieldAt, h, ← le_byte, ofLe_le_toNat 1 x rfl, BitVec.ofNat_toNat, BitVec.setWidth_eq]

theorem u16At_of (x : BitVec 16) (h : (bs.drop o).take 2 = le 2 x.toNat) : u16At bs o = x := by
  rw [u16At, fieldAt, h, ofLe_le_toNat 2 x rfl, BitVec.ofNat_toNat, BitVec.setWidth_eq]

theorem u32At_of (x : BitVec 32) (h : (bs.drop o).take 4 = le 4 x.toNat) : u32At bs o = x := by
  rw [u32At, fieldAt, h, ofLe_le_toNat 4 x rfl, BitVec.ofNat_toNat, BitVec.setWidth_eq]

theorem windowAt_of (w : RawWindow) {more : List Byte} (h : bs.drop o = RawWindow.bytes w ++ more) :
    windowAt bs o = w := by
  have later (k : Nat) : bs.drop (o + k) = (RawWindow.bytes w ++ more).drop k := by rw [← h, List.drop_drop]
  have enabled : u8At bs o = w.enabled := u8At_of _ (by rw [h, RawWindow.bytes, le_byte]; rfl)
  have first : u32At bs (o + 1) = w.first := u32At_of _ (by rw [later]; rfl)
  have last : u32At bs (o + 5) = w.last := u32At_of _ (by rw [later]; rfl)
  rw [windowAt, enabled, first, last]

theorem settingsOfBytes_bytes (x : RawSettings) : settingsOfBytes (RawSettings.bytes x) = x := by
  have threshold : u16At (RawSettings.bytes x) 0 = x.threshold := u16At_of _ rfl
  have period : u16At (RawSettings.bytes x) 2 = x.period := u16At_of _ rfl
  have w0 : windowAt (RawSettings.bytes x) 4 = x.w0 := windowAt_of (more := (RawSettings.bytes x).drop 13) _ rfl
  have w1 : windowAt (RawSettings.bytes x) 13 = x.w1 := windowAt_of (more := (RawSettings.bytes x).drop 22) _ rfl
  have w2 : windowAt (RawSettings.bytes x) 22 = x.w2 := windowAt_of (more := (RawSettings.bytes x).drop 31) _ rfl
  have w3 : windowAt (RawSettings.bytes x) 31 = x.w3 := windowAt_of (more := []) _ rfl
  rw [settingsOfBytes, threshold, period, w0, w1, w2, w3]

end Fields

/-! ### The requests that frames spell (R50, R187) -/

theorem not_mem_requestCodes {code : Byte} (h : (!definedCode code) = true) : code ∉ requestCodes := by
  simpa [definedCode] using h

/-- R50: a code that the table does not define. -/
theorem requestOf_undefined {code : Byte} (p : Port) (t : Tag) (f : List Byte) (h : code ∉ requestCodes) :
    requestOf p t code f = .undefinedKind p t code := by
  simp only [requestCodes, List.mem_cons, List.not_mem_nil, or_false, not_or] at h
  simp [requestOf, codeOpen, codeClose, codeFence, codeUnfence, codeRead, codeWrite, codeMark, codeFlush, codeAbort,
    codeLeaseAcquire, codeLeaseRenew, codeLeaseRelease, codeLeaseQuery, codeScrubStart, codeScrubStop, codeSettingsRead,
    codeSettingsWrite, codeMetadataReset, codeStatus, codeInfo, codeFaultRead, h]

theorem requestSize_undefined {code : Byte} (h : code ∉ requestCodes) : requestSize code = none := by
  have undefined : definedCode code = false := by simpa [definedCode] using h
  simp only [requestCodes, List.mem_cons, List.not_mem_nil, or_false, not_or] at h
  simp [requestSize, codeOpen, codeFence, codeUnfence, codeRead, codeWrite, codeMark, codeFlush, codeAbort,
    codeLeaseAcquire, codeLeaseRenew, codeLeaseRelease, codeLeaseQuery, codeSettingsWrite, codeFaultRead, undefined, h]

section Requests

variable {i : Instr} {p : Port} {t : Tag} {code : Byte} {f : List Byte}

/-- R187: the code and the fields of a request's frame spell the request. -/
theorem requestOf_requestFields (fields : requestFields i = some (p, t, code, f)) (formed : i.wellFormed = true) :
    requestOf p t code f = i := by
  cases i with
  | openReq p t token silence quota reqLease =>
    cases fields
    simp only [le_byte]
    change Instr.openReq p t (u32At _ 0) (u16At _ 4) (u8At _ 6) (u8At _ 7) = _
    congr 1
    exacts [u32At_of token rfl, u16At_of silence rfl, u8At_of quota rfl, u8At_of reqLease rfl]
  | fence p t x =>
    cases fields
    exact congrArg (Instr.fence p t) (u8At_of x rfl)
  | unfence p t x =>
    cases fields
    exact congrArg (Instr.unfence p t) (u8At_of x rfl)
  | flush p t x =>
    cases fields
    exact congrArg (Instr.flush p t) (u8At_of x rfl)
  | abort p t x =>
    cases fields
    exact congrArg (Instr.abort p t) (u8At_of x rfl)
  | read p t b n =>
    cases fields
    change Instr.read p t (u32At _ 0) (u8At _ 4) = _
    congr 1
    exacts [u32At_of b rfl, u8At_of n rfl]
  | write p t b n x =>
    cases fields
    change Instr.write p t (u32At _ 0) (u8At _ 4) (u8At _ 5) = _
    congr 1
    exacts [u32At_of b rfl, u8At_of n rfl, u8At_of x rfl]
  | mark p t b n k =>
    cases fields
    change Instr.mark p t (u32At _ 0) (u8At _ 4) (u8At _ 5) = _
    congr 1
    exacts [u32At_of b rfl, u8At_of n rfl, u8At_of k rfl]
  | leaseAcquire p t b n m d w =>
    cases fields
    change Instr.leaseAcquire p t (u32At _ 0) (u32At _ 4) (u8At _ 8) (u16At _ 9) (u16At _ 11) = _
    congr 1
    exacts [u32At_of b rfl, u32At_of n rfl, u8At_of m rfl, u16At_of d rfl, u16At_of w rfl]
  | leaseRenew p t id d =>
    cases fields
    change Instr.leaseRenew p t (u16At _ 0) (u16At _ 2) = _
    congr 1
    exacts [u16At_of id rfl, u16At_of d rfl]
  | leaseRelease p t id =>
    cases fields
    exact congrArg (Instr.leaseRelease p t) (u16At_of id rfl)
  | leaseQuery p t b n =>
    cases fields
    change Instr.leaseQuery p t (u32At _ 0) (u32At _ 4) = _
    congr 1
    exacts [u32At_of b rfl, u32At_of n rfl]
  | settingsWrite p t x =>
    cases fields
    exact congrArg (Instr.settingsWrite p t) (settingsOfBytes_bytes x)
  | faultRead p t a n =>
    cases fields
    change Instr.faultRead p t (u8At _ 0) (u8At _ 1) = _
    congr 1
    exacts [u8At_of a rfl, u8At_of n rfl]
  | undefinedKind p t x =>
    cases fields
    exact requestOf_undefined p t [] (not_mem_requestCodes formed)
  | closeReq | scrubStart | scrubStop | settingsRead | metadataReset | status | info =>
    cases fields
    rfl
  | _ => cases fields

/-- R180: the fields have the size that the table gives the code; a code that it does not define has none. -/
theorem requestSize_requestFields (fields : requestFields i = some (p, t, code, f)) (formed : i.wellFormed = true) :
    requestSize code = some f.length ∨ requestSize code = none ∧ f = [] := by
  cases i with
  | undefinedKind p t x =>
    cases fields
    exact .inr ⟨requestSize_undefined (not_mem_requestCodes formed), rfl⟩
  | openReq | closeReq | fence | unfence | read | write | mark | flush | abort | leaseAcquire | leaseRenew
  | leaseRelease | leaseQuery | scrubStart | scrubStop | settingsRead | settingsWrite | metadataReset | status | info
  | faultRead =>
    cases fields
    exact .inl rfl
  | _ => cases fields

theorem requestSize_le {n : Nat} (h : requestSize code = some n) : n ≤ 40 := by
  unfold requestSize at h
  split_ifs at h <;> cases h <;> decide

/-- R187: the events that one frame spells are DATA-IN, KEEPALIVE and the requests. -/
theorem frameOf_cases {bs : List Byte} (spelt : frameOf i = some (p, bs)) :
    (∃ t x d, i = .dataIn p t x d ∧ bs = linkFrame 0x02 (some t) (x :: d.toList)) ∨
      (i = .keepalive p ∧ bs = linkFrame 0x03 none []) ∨
      ∃ t code f, requestFields i = some (p, t, code, f) ∧ bs = linkFrame 0x01 (some t) (code :: f) := by
  unfold frameOf at spelt
  split at spelt
  · cases spelt
    exact .inl ⟨_, _, _, rfl, rfl⟩
  · cases spelt
    exact .inr (.inl ⟨rfl, rfl⟩)
  · obtain ⟨⟨q, t, code, f⟩, fields, frame⟩ := Option.map_eq_some_iff.1 spelt
    cases frame
    exact .inr (.inr ⟨t, code, f, fields, rfl⟩)

end Requests

/-! ### Frames as a master sends them (R179, R180, R187) -/

/-- A frame whose length is in range, and which the checks take for an event when its CRC is right, is received as it. -/
theorem examine_linkFrame {p : Port} {kind : Byte} {tag : Option Tag} {payload rest : List Byte} {i : Instr}
    (tagged : ((tag.map fun t => [BitVec.ofNat 8 t.val]).getD []) ++ payload = rest) (short : rest.length ≤ 514)
    (valid : ∀ a b crc, ofLe crc = (crc32 (a :: b :: kind :: rest)).toNat →
      checkFrame p (1 + rest.length) (a :: b :: kind :: rest ++ crc) = .valid i) :
    examine p .hunt (linkFrame kind tag payload) = ([.valid i], .hunt) := by
  obtain ⟨a, b, length⟩ : ∃ a b, le 2 (1 + rest.length) = [a, b] := ⟨_, _, rfl⟩
  have value : ofLe [a, b] = 1 + rest.length := by
    rw [← length, ofLe_le, Nat.mod_eq_of_lt (by omega)]
  have crcLength : (le 4 (crc32 (a :: b :: kind :: rest)).toNat).length = 4 := le_length ..
  have crcRight : ofLe (le 4 (crc32 (a :: b :: kind :: rest)).toNat) = (crc32 (a :: b :: kind :: rest)).toNat :=
    ofLe_le_toNat 4 _ rfl
  have spells : linkFrame kind tag payload =
      0xA5#8 :: a :: b :: (kind :: rest ++ le 4 (crc32 (a :: b :: kind :: rest)).toNat) := by
    simp only [linkFrame, List.cons_append, tagged, List.length_cons, Nat.add_comm rest.length 1, length, List.nil_append]
  generalize le 4 (crc32 (a :: b :: kind :: rest)).toNat = crc at spells crcLength crcRight
  have whole : checkFrame p (1 + rest.length) ([a, b] ++ (kind :: rest ++ crc)) = .valid i := valid a b crc crcRight
  have body := examine_body_whole (input := []) whole (by simp) (by simp [crcLength]; omega)
  rw [List.append_nil] at body
  rw [spells, examine_hunt_delimiter, examine_header_first, examine_length_good (by omega), value, body, examine_nil]
  rfl

/-- R187: the tag byte of a frame. -/
theorem tagOf_ofNat (t : Tag) : tagOf (BitVec.ofNat 8 t.val) = some t :=
  tagOf_eq (by rw [BitVec.toNat_ofNat, Nat.mod_eq_of_lt (t.isLt.trans (by decide))])

/-- Settles O60, kind by kind: the frame passes the checks of its kind, and its fields are read back. -/
theorem framesDecode : Obligations.FramesDecode := by
  unfold Obligations.FramesDecode
  intro i p bs formed spelt
  obtain ⟨t, x, d, rfl, rfl⟩ | ⟨rfl, rfl⟩ | ⟨t, code, f, fields, rfl⟩ := frameOf_cases spelt
  · exact examine_linkFrame rfl (by simp) fun a b crc right => checkFrame_data (tagOf_ofNat t) right
  · exact examine_linkFrame rfl (Nat.zero_le _) fun a b crc right => checkFrame_keepalive right
  · have size := requestSize_requestFields fields formed
    have sized : (requestSize code).all (· = f.length) := by
      obtain defined | ⟨undefined, -⟩ := size
      · rw [defined]
        exact decide_eq_true rfl
      · rw [undefined]
        rfl
    have short : f.length ≤ 40 := by
      obtain defined | ⟨-, rfl⟩ := size
      · exact requestSize_le defined
      · exact Nat.zero_le _
    refine examine_linkFrame rfl (by simp; omega) fun a b crc right => ?_
    rw [← requestOf_requestFields fields formed]
    exact checkFrame_request (tagOf_ofNat t) sized right

end Sys2Proof.Machine
end

section
/-! PROOFS. The queue of events that wait: a step takes the event at its front, and no event stops the part or touches the
queue. -/

namespace Sys2Proof.Machine

/-- A step by the queue: with an event waiting, the front event is taken from it. -/
theorem step_cons {s : State} {c : Instr} {cs : List Instr} (waiting : s.pending = c :: cs) :
    step s = exec c { s with pending := cs } := by
  simp only [step, waiting]

/-- Settles O1. -/
theorem stepTakesTheFrontEvent : Obligations.StepTakesTheFrontEvent := by
  unfold Obligations.StepTakesTheFrontEvent
  intro c cs x
  exact step_cons rfl

/-- Every arm of `exec` answers a next state, and what its meaning replaces is the part alone: an event that cannot happen
leaves the part, and is not refused (log 2). -/
theorem exec_replaces_part (i : Instr) (s : State) : ∃ x : Part, exec i s = .next (s.withPart x) := by
  cases i with
  -- requests (R50), the undefined kind among them
  | openReq | closeReq | fence | unfence | read | write | mark | flush | abort | leaseAcquire | leaseRenew
  | leaseRelease | leaseQuery | scrubStart | scrubStop | settingsRead | settingsWrite | metadataReset | status | info
  | faultRead | undefinedKind => exact ⟨_, rfl⟩
  -- the other frames, the link and its pins (chapter 11)
  | dataIn | keepalive | badFrame | characterError | linkReset | breakEnd | pnrdyRise | pnrdyFall | pnrxdReturns
  | delimiterReceived | finishSending | heldFrameEntry => exact ⟨_, rfl⟩
  -- deadlines and the hour (R154)
  | silenceExpiry | dataDeadlineExpiry | leaseDeadlineExpiry | waitDeadlineExpiry | lifetimeHoursIncrement =>
    exact ⟨_, rfl⟩
  -- steps that run inside their causing events too (log 1)
  | waitListGrant | admission | heldReadRelease | closeDrainEnd | drainingEnd | mediaGrant | scrubRoomRetry
  | scrubPassBegin | autoScrubStart | refreshStart | commitWaitRelease | waitSetComplete | markComplete
  | settingsWriteComplete => exact ⟨_, rfl⟩
  -- ends of media operations (chapter 6)
  | portReadEnd | refreshReadEnd | scrubReadEnd | programFirstAttemptEnd | programSecondAttemptEnd | commitEnd
  | copyAReadEnd | copyBReadEnd | resetCopyWriteEnd => exact ⟨_, rfl⟩
  -- power and reset (R158)
  | powerOn | reset | partHeld | heldInputChange => exact ⟨_, rfl⟩

/-- Settles O3: the part alone is replaced, so the queue stays. -/
theorem everyEventAnswersANextState : Obligations.EveryEventAnswersANextState := by
  unfold Obligations.EveryEventAnswersANextState
  intro i s
  obtain ⟨x, answers⟩ := exec_replaces_part i s
  exact ⟨s.withPart x, answers, s.withPart_pending x⟩

end Sys2Proof.Machine
end
